-- ==== Sys2Proof/Word.lean ====
section
/-! DEFINITION. The words of the MZ-4 that wrap: bytes, timebase values, sequence numbers and frame numbers. -/

namespace Sys2Proof

/-- A byte of a link frame or a camera packet (R162, R178). -/
abbrev Byte := BitVec 8

/-- A 16-bit field, most significant byte first on the wire (R165). -/
abbrev Half := BitVec 16

/-- A timebase value: microseconds modulo 2^32 (R135). -/
abbrev Time := BitVec 32

/-- A view record's sequence number, 32-bit and modular (R72). -/
abbrev Seq := BitVec 32

/-- A frame number, 16-bit and modular (00_scope.md 3.4). -/
abbrev FrameNo := BitVec 16

end Sys2Proof
end

