-- ==== Sys2Proof/Config.lean ====
section
/-! DEFINITION. What the manual leaves open and the model leaves free. -/

namespace Sys2Proof

/-- A free value (log 10): whether STOP_WANTED is raised when DECLARE_FAULT takes a REQUESTED source to
FAULTED, which R19 does not say. The step applies it to the plain counter `State.free` and advances the counter. -/
opaque Config.freeBit : Nat → Bool

/-- The bytes of a status response for an item that is absent and for which Tables 66 and 67 name no value (log 18), and the
bytes shifted out in a frame for which no rule states them (log 8, log 28), by the counter `State.free` and the offset. Each
use advances the counter. -/
opaque Config.freeByte : Nat → Nat → BitVec 8

/-- How many bytes after its first a frame had shifted out when a reset found it in progress (log 28), by the counter
`State.free`. -/
opaque Config.freeCount : Nat → Nat

/-- The same for the trailer (Table 70; log 18), by stream number, start time and offset. -/
opaque Config.freeTrailerByte : Nat → Nat → Nat → BitVec 8

end Sys2Proof
end

