-- ==== Sys2Proof/Syntax.lean ====
section
/-! DEFINITION. The commands of the MZ-4: one constructor per row of spec/opcode_table.json, and the names their
operands use. -/

namespace Sys2Proof

/-- The two links (00_scope.md 3.5). -/
inductive Link where
  | al
  | ml
  deriving DecidableEq, Repr

/-- The four sources; source Sn is fed by port CIn and paced by line SYNn (00_scope.md 3.5). -/
inductive Source where
  | s0
  | s1
  | s2
  | s3
  deriving DecidableEq, Repr

/-- The two output streams: P on PO, R on RO. -/
inductive StreamId where
  | p
  | r
  deriving DecidableEq, Repr

/-- The two trigger input lines. -/
inductive TriggerLine where
  | trg0
  | trg1
  deriving DecidableEq, Repr

/-- The polarity of an edge on a trigger line (R136). -/
inductive Polarity where
  | rising
  | falling
  deriving DecidableEq, Repr

/-- The four banks of the buffer memory; bank A holds buffers 0 to 2 (06, 6.7). -/
inductive Bank where
  | a
  | b
  | c
  | d
  deriving DecidableEq, Repr

/-- Which links have a frame in progress at the moment of a reset, whose rest is then ignored (R175, R176; log 5). -/
structure OpenFrames where
  al : Bool
  ml : Bool
  deriving DecidableEq, Repr

/-- One command: a row of spec/opcode_table.json with its operands.

A request carries the bytes of its fields as they stand in the frame after the code and the length (R162, Table 64), so
that a wrong length (MALFORMED) and a value beyond its list (RANGE) are commands too. A request that one link alone knows
has no link operand; sent on the other link the same frame is UNKNOWN_REQUEST (R165). -/
inductive Instr where
  -- requests known on both links
  | readIdentity (l : Link) (fields : List Byte)
  | setNoticeEnables (l : Link) (fields : List Byte)
  | takeNotices (l : Link) (fields : List Byte)
  | readViewRecords (l : Link) (fields : List Byte)
  | readSourceStatus (l : Link) (fields : List Byte)
  | clearFault (l : Link) (fields : List Byte)
  -- AL requests
  | readPartStatus (fields : List Byte)
  | resetPart (fields : List Byte)
  | setParameter (fields : List Byte)
  | enrollSource (fields : List Byte)
  | withdrawSource (fields : List Byte)
  | setKeepWarm (fields : List Byte)
  | postZoom (fields : List Byte)
  | flushZoom (fields : List Byte)
  | putCalPoint (fields : List Byte)
  | dropCalPoint (fields : List Byte)
  | clearCal (fields : List Byte)
  | readCal (fields : List Byte)
  | configureStream (fields : List Byte)
  | startStream (fields : List Byte)
  | stopStream (fields : List Byte)
  | triggerStream (fields : List Byte)
  | setTriggerEdge (fields : List Byte)
  -- ML requests
  | selectSource (fields : List Byte)
  | resetLink (fields : List Byte)
  | confirmStart (fields : List Byte)
  | refuseStart (fields : List Byte)
  | confirmStop (fields : List Byte)
  | hold (fields : List Byte)
  | releaseHold (fields : List Byte)
  | declareFault (fields : List Byte)
  | postReport (fields : List Byte)
  -- link events
  | fetchFrame (l : Link) (bytes : Nat)
  | discardedFrame (l : Link) (bytes : List Byte)
  | responseReady (l : Link) (inProgress : OpenFrames)
  -- reset events
  | resetNLow (inProgress : OpenFrames)
  | resetNRelease
  | endOfInitialisation
  -- camera packets
  | frameStart (port : Source) (number width height : Half)
  | line (port : Source) (number : Half) (data : List Byte)
  | frameEnd (port : Source) (count check : Half)
  | invalidPacket (port : Source) (bytes : List Byte)
  -- trigger lines
  | triggerEdge (line : TriggerLine) (polarity : Polarity)
  -- deadline expiries
  | warmDeadlineExpiry (src : Source)
  | lingerDeadlineExpiry (src : Source)
  | stopDeadlineExpiry (src : Source)
  | stallDeadlineExpiry (src : Source)
  | dormancyDeadlineExpiry (bank : Bank)
  | wakeCompletion (bank : Bank)
  | viewTimerExpiry
  | syncPulseEnd (src : Source)
  | nextSyncPulse (src : Source)
  | followListPulse (src : Source)
  | streamTimerExpiry (st : StreamId)
  | emissionCompletion (st : StreamId)
  -- a request frame of no known code
  | unknownRequest (l : Link) (code : Byte) (fields : List Byte)
  deriving DecidableEq, Repr

end Sys2Proof
end

