-- ==== Sys2Proof/Decode.lean ====
section
/-! DEFINITION. From bits to commands. The opcode table gives no row any bits, so `decodeTableWord` answers none; what
this part does have in bytes is link frames (Table 62, Table 64) and camera packets (Table 69), and those are read and
written here. -/

namespace Sys2Proof

/-- No row of spec/opcode_table.json gives bits, so no word spells a command. -/
def decodeTableWord (_nbits _w : Nat) : Option Instr := none

/-! ## Bytes, most significant first (R165) -/

def half (hi lo : Byte) : Half := hi ++ lo

def word (b3 b2 b1 b0 : Byte) : BitVec 32 := (b3 ++ b2) ++ (b1 ++ b0)

def halfBytes (w : Half) : List Byte := [w.extractLsb' 8 8, w.extractLsb' 0 8]

def wordBytes (w : BitVec 32) : List Byte :=
  [w.extractLsb' 24 8, w.extractLsb' 16 8, w.extractLsb' 8 8, w.extractLsb' 0 8]

/-- A count or code sent in one byte. -/
def natByte (n : Nat) : List Byte := [BitVec.ofNat 8 n]

/-- A number sent in two bytes. -/
def natHalf (n : Nat) : List Byte := halfBytes (BitVec.ofNat 16 n)

/-- A signed number sent in two bytes, in two's complement (R165). -/
def intHalf (n : Int) : List Byte := halfBytes (BitVec.ofInt 16 n)

/-! ## Link frames (R162) -/

/-- What the first bytes of a frame make of it (R162). -/
inductive FrameKind where
  | empty
  | fetch
  | discard
  | request (code : Byte) (fields : List Byte)
  deriving DecidableEq, Repr

/-- R162: the field length is at most 60. -/
def maxFields : Nat := 60

def classifyFrame : List Byte → FrameKind
  | [] => .empty
  | [c] => if c = 0 then .fetch else .discard
  | c :: n :: rest =>
    if c = 0 then .fetch
    else if 0x80 ≤ c.toNat then .discard
    else if maxFields < n.toNat then .discard
    else if rest.length < n.toNat then .discard
    else .request c (rest.take n.toNat)

/-- Table 64: the request that a code names on a link, with its fields. -/
def requestOf (l : Link) (code : Byte) (fields : List Byte) : Option Instr :=
  match l, code.toNat with
  | l, 0x01 => some (.readIdentity l fields)
  | l, 0x02 => some (.setNoticeEnables l fields)
  | l, 0x03 => some (.takeNotices l fields)
  | l, 0x04 => some (.readViewRecords l fields)
  | l, 0x05 => some (.readSourceStatus l fields)
  | l, 0x06 => some (.clearFault l fields)
  | .al, 0x10 => some (.readPartStatus fields)
  | .al, 0x11 => some (.resetPart fields)
  | .al, 0x12 => some (.setParameter fields)
  | .al, 0x18 => some (.enrollSource fields)
  | .al, 0x19 => some (.withdrawSource fields)
  | .al, 0x1A => some (.setKeepWarm fields)
  | .al, 0x20 => some (.postZoom fields)
  | .al, 0x21 => some (.flushZoom fields)
  | .al, 0x28 => some (.putCalPoint fields)
  | .al, 0x29 => some (.dropCalPoint fields)
  | .al, 0x2A => some (.clearCal fields)
  | .al, 0x2B => some (.readCal fields)
  | .al, 0x30 => some (.configureStream fields)
  | .al, 0x31 => some (.startStream fields)
  | .al, 0x32 => some (.stopStream fields)
  | .al, 0x33 => some (.triggerStream fields)
  | .al, 0x34 => some (.setTriggerEdge fields)
  | .ml, 0x40 => some (.selectSource fields)
  | .ml, 0x41 => some (.resetLink fields)
  | .ml, 0x42 => some (.confirmStart fields)
  | .ml, 0x43 => some (.refuseStart fields)
  | .ml, 0x44 => some (.confirmStop fields)
  | .ml, 0x45 => some (.hold fields)
  | .ml, 0x46 => some (.releaseHold fields)
  | .ml, 0x47 => some (.declareFault fields)
  | .ml, 0x48 => some (.postReport fields)
  | _, _ => none

/-- The command a frame on a link spells; a frame with no whole byte is no command (R162). -/
def decodeLinkFrame (l : Link) (bytes : List Byte) : Option Instr :=
  match classifyFrame bytes with
  | .empty => none
  | .fetch => some (.fetchFrame l bytes.length)
  | .discard => some (.discardedFrame l bytes)
  | .request c fields => some ((requestOf l c fields).getD (.unknownRequest l c fields))

/-- The link, code and fields of a request command (Table 64), none for any other command. -/
def requestParts : Instr → Option (Link × Byte × List Byte)
  | .readIdentity l f => some (l, 0x01, f)
  | .setNoticeEnables l f => some (l, 0x02, f)
  | .takeNotices l f => some (l, 0x03, f)
  | .readViewRecords l f => some (l, 0x04, f)
  | .readSourceStatus l f => some (l, 0x05, f)
  | .clearFault l f => some (l, 0x06, f)
  | .readPartStatus f => some (.al, 0x10, f)
  | .resetPart f => some (.al, 0x11, f)
  | .setParameter f => some (.al, 0x12, f)
  | .enrollSource f => some (.al, 0x18, f)
  | .withdrawSource f => some (.al, 0x19, f)
  | .setKeepWarm f => some (.al, 0x1A, f)
  | .postZoom f => some (.al, 0x20, f)
  | .flushZoom f => some (.al, 0x21, f)
  | .putCalPoint f => some (.al, 0x28, f)
  | .dropCalPoint f => some (.al, 0x29, f)
  | .clearCal f => some (.al, 0x2A, f)
  | .readCal f => some (.al, 0x2B, f)
  | .configureStream f => some (.al, 0x30, f)
  | .startStream f => some (.al, 0x31, f)
  | .stopStream f => some (.al, 0x32, f)
  | .triggerStream f => some (.al, 0x33, f)
  | .setTriggerEdge f => some (.al, 0x34, f)
  | .selectSource f => some (.ml, 0x40, f)
  | .resetLink f => some (.ml, 0x41, f)
  | .confirmStart f => some (.ml, 0x42, f)
  | .refuseStart f => some (.ml, 0x43, f)
  | .confirmStop f => some (.ml, 0x44, f)
  | .hold f => some (.ml, 0x45, f)
  | .releaseHold f => some (.ml, 0x46, f)
  | .declareFault f => some (.ml, 0x47, f)
  | .postReport f => some (.ml, 0x48, f)
  | .unknownRequest l c f => some (l, c, f)
  | .fetchFrame _ _ | .discardedFrame _ _ | .responseReady _ _ | .resetNLow _ | .resetNRelease | .endOfInitialisation
  | .frameStart _ _ _ _ | .line _ _ _ | .frameEnd _ _ _ | .invalidPacket _ _ | .triggerEdge _ _
  | .warmDeadlineExpiry _ | .lingerDeadlineExpiry _ | .stopDeadlineExpiry _ | .stallDeadlineExpiry _
  | .dormancyDeadlineExpiry _ | .wakeCompletion _ | .viewTimerExpiry | .syncPulseEnd _ | .nextSyncPulse _
  | .followListPulse _ | .streamTimerExpiry _ | .emissionCompletion _ => none

/-- The frame a request command arrives in: code, field length, fields (Table 62). -/
def encodeLinkFrame (i : Instr) : Option (Link × List Byte) :=
  (requestParts i).map fun (l, c, f) => (l, c :: BitVec.ofNat 8 f.length :: f)

/-! ## Camera packets (Table 69, R178) -/

/-- The command a packet at a port spells. A FRAME_START or FRAME_END longer than its fixed fields is taken and the
bytes beyond are ignored; an unknown type or a packet shorter than its fixed fields is INVALID_PACKET (R178). -/
def decodePacket (port : Source) (bytes : List Byte) : Instr :=
  match bytes with
  | t :: b0 :: b1 :: rest =>
    if t = 0x01 then
      match rest with
      | w1 :: w0 :: h1 :: h0 :: _ => .frameStart port (half b0 b1) (half w1 w0) (half h1 h0)
      | _ => .invalidPacket port bytes
    else if t = 0x02 then .line port (half b0 b1) rest
    else if t = 0x03 then
      match rest with
      | c1 :: c0 :: _ => .frameEnd port (half b0 b1) (half c1 c0)
      | _ => .invalidPacket port bytes
    else .invalidPacket port bytes
  | _ => .invalidPacket port bytes

/-- The packet a camera command arrives in, none for any other command. -/
def encodePacket : Instr → Option (Source × List Byte)
  | .frameStart p n w h => some (p, 0x01 :: (halfBytes n ++ halfBytes w ++ halfBytes h))
  | .line p n d => some (p, 0x02 :: (halfBytes n ++ d))
  | .frameEnd p c k => some (p, 0x03 :: (halfBytes c ++ halfBytes k))
  | .invalidPacket p bs => some (p, bs)
  | .readIdentity _ _ | .setNoticeEnables _ _ | .takeNotices _ _ | .readViewRecords _ _ | .readSourceStatus _ _
  | .clearFault _ _ | .readPartStatus _ | .resetPart _ | .setParameter _ | .enrollSource _ | .withdrawSource _
  | .setKeepWarm _ | .postZoom _ | .flushZoom _ | .putCalPoint _ | .dropCalPoint _ | .clearCal _ | .readCal _
  | .configureStream _ | .startStream _ | .stopStream _ | .triggerStream _ | .setTriggerEdge _ | .selectSource _
  | .resetLink _ | .confirmStart _ | .refuseStart _ | .confirmStop _ | .hold _ | .releaseHold _ | .declareFault _
  | .postReport _ | .fetchFrame _ _ | .discardedFrame _ _ | .responseReady _ _ | .resetNLow _ | .resetNRelease
  | .endOfInitialisation | .triggerEdge _ _ | .warmDeadlineExpiry _ | .lingerDeadlineExpiry _ | .stopDeadlineExpiry _
  | .stallDeadlineExpiry _ | .dormancyDeadlineExpiry _ | .wakeCompletion _ | .viewTimerExpiry | .syncPulseEnd _
  | .nextSyncPulse _ | .followListPulse _ | .streamTimerExpiry _ | .emissionCompletion _ | .unknownRequest _ _ _ => none

end Sys2Proof
end

