-- ==== Sys2Proof/Machine/State.lean ====
section
/-! DEFINITION. The state of the MZ-4 as plain data, its reasons to stop (none is ever raised), and the state right after
reset. Each structure's docstring names the table or rule of the spec it holds. -/

namespace Sys2Proof.Machine

open Sys2Proof

/-! ## One of each: per source, per link, per stream, per trigger line, per bank -/

structure PerSource (α : Type) where
  s0 : α
  s1 : α
  s2 : α
  s3 : α
  deriving DecidableEq, Repr

structure PerLink (α : Type) where
  al : α
  ml : α
  deriving DecidableEq, Repr

structure PerStream (α : Type) where
  p : α
  r : α
  deriving DecidableEq, Repr

structure PerLine (α : Type) where
  trg0 : α
  trg1 : α
  deriving DecidableEq, Repr

structure PerBank (α : Type) where
  a : α
  b : α
  c : α
  d : α
  deriving DecidableEq, Repr

/-- A mask of sources (bit n names Sn, R165). -/
abbrev SourceSet := PerSource Bool

/-- Buffers 0 to 11 (R113). -/
abbrev BufferId := Fin 12

/-! ## Parameters (Table 58) -/

/-- The twelve parameter names, in the order of their identifiers. -/
inductive Param where
  | crossfadeSteps
  | alignSteps
  | settleSteps
  | qualifyFrames
  | badFrameLimit
  | stallMultiple
  | pairingWindow
  | lingerTime
  | warmTimeout
  | stopTimeout
  | viewTimerPeriod
  | dormancyDelay
  deriving DecidableEq, Repr

structure Params where
  crossfadeSteps : Nat
  alignSteps : Nat
  settleSteps : Nat
  qualifyFrames : Nat
  badFrameLimit : Nat
  stallMultiple : Nat
  pairingWindow : Nat
  lingerTime : Nat
  warmTimeout : Nat
  stopTimeout : Nat
  viewTimerPeriod : Nat
  dormancyDelay : Nat
  deriving DecidableEq, Repr

/-! ## Source Table (Tables 5, 7, 8) -/

inductive SourceState where
  | absent
  | off
  | requested
  | warming
  | standby
  | live
  | stopping
  | held
  | faulted
  deriving DecidableEq, Repr

inductive SyncMode where
  | none
  | follow
  | free
  deriving DecidableEq, Repr

/-- Table 7. -/
structure Enrolment where
  base : Nat
  limit : Nat
  switchUp : Nat
  switchDown : Nat
  approach : Nat
  width : Nat
  height : Nat
  interval : Nat
  syncMode : SyncMode
  syncOffset : Int
  freePeriod : Nat
  deriving DecidableEq, Repr

inductive FaultCause where
  | refused
  | warmTimeout
  | stall
  | badFrames
  | moduleFault
  deriving DecidableEq, Repr

/-- Table 5. The claim's outstanding number is also the claim queue entry's (R123; log 20); the current report stands with
the Module Report Unit. -/
structure SourceRecord where
  state : SourceState
  enrolment : Option Enrolment
  want : Bool
  warm : Option Time
  linger : Option Time
  stop : Option Time
  stall : Option Time
  faultCause : Option FaultCause
  refusalCode : Option Byte
  lastStopUnconfirmed : Bool
  withdrawPending : Bool
  chain : List BufferId
  claim : Nat
  qualify : Nat
  bad : Nat
  lastCompleted : Option FrameNo
  lastStart : Option Time
  locked : Bool
  matchCount : Nat
  deriving DecidableEq, Repr

/-! ## Module Report Unit (Tables 44, 45) -/

structure Report where
  frame : FrameNo
  focus : Nat
  exposure : Nat
  shiftX : Int
  shiftY : Int
  focusMoving : Bool
  exposureChanging : Bool
  deriving DecidableEq, Repr

structure ReportUnit where
  queue : List Report
  current : Option Report
  deriving DecidableEq, Repr

/-! ## Calibration Store (Table 32) -/

structure CalPoint where
  focus : Nat
  scale : Nat
  offsetX : Int
  offsetY : Int
  roll : Int
  deriving DecidableEq, Repr

/-! ## Frame Intake (R104) -/

inductive Port where
  | idle
  | filling (buffer : BufferId) (frame : FrameNo) (start : Time) (lines : Nat) (sum : Half)
  deriving DecidableEq, Repr

/-! ## Sync Generator (Table 50) -/

/-- The line is high exactly while it has a pulse-end deadline. -/
structure SyncLine where
  pulsing : Bool
  pulseEnd : Option Time
  lastPulse : Option Time
  nextPulse : Option Time
  followList : List Time
  deriving DecidableEq, Repr

/-! ## Zoom Planner (Tables 14, 15) -/

structure ZoomRequest where
  target : Nat
  steps : Nat
  tag : Byte
  replace : Bool
  deriving DecidableEq, Repr

structure Ramp where
  origin : Nat
  target : Nat
  steps : Nat
  index : Nat
  tag : Byte
  deriving DecidableEq, Repr

structure Planner where
  queue : List ZoomRequest
  ramp : Option Ramp
  commanded : Nat
  currentTag : Byte
  lastReachedTag : Byte
  keepWarm : SourceSet
  planned : SourceSet
  deriving DecidableEq, Repr

/-! ## Hand-off Controller (Tables 21, 22) -/

inductive ControllerState where
  | noPrimary
  | steady
  | handingOff
  deriving DecidableEq, Repr

inductive Phase where
  | prepare
  | align
  | crossfade
  | settle
  deriving DecidableEq, Repr

inductive Direction where
  | up
  | down
  deriving DecidableEq, Repr

/-- The pending marks, each to be shown in the next view record (R69). -/
structure Marks where
  cut : Bool
  forced : Bool
  aborted : Bool
  reversed : Bool
  deriving DecidableEq, Repr

/-- Table 22. -/
structure HandoffRecord where
  src : Source
  dst : Source
  direction : Direction
  phase : Phase
  weight : Nat
  count : Nat
  startSeq : Seq
  reversed : Bool
  forced : Bool
  cut : Bool
  deriving DecidableEq, Repr

/-- Table 21. The controller state is read off the primary and the record (R46; log 20). -/
structure Handoff where
  primary : Option Source
  record : Option HandoffRecord
  marks : Marks
  candidate : Option Source
  viewZoom : Nat
  deriving DecidableEq, Repr

/-! ## View Stepper (Tables 28, 29) -/

structure Window where
  x : Nat
  y : Nat
  width : Nat
  height : Nat
  deriving DecidableEq, Repr

structure PrimaryPart where
  source : Source
  frame : FrameNo
  buffer : BufferId
  window : Window
  focus : Nat
  deriving DecidableEq, Repr

structure SecondaryPart where
  source : Source
  frame : FrameNo
  buffer : BufferId
  window : Window
  roll : Int
  weight : Nat
  deriving DecidableEq, Repr

/-- The eleven flags of Table 29. -/
structure ViewFlags where
  noSource : Bool
  clamped : Bool
  cut : Bool
  forced : Bool
  aborted : Bool
  reversed : Bool
  staleReport : Bool
  unpaired : Bool
  heldSecondary : Bool
  uncalibrated : Bool
  edge : Bool
  deriving DecidableEq, Repr

/-- Table 29; phase NONE is `none`. -/
structure ViewRecord where
  seq : Seq
  timestamp : Time
  commanded : Nat
  view : Nat
  phase : Option Phase
  primary : Option PrimaryPart
  secondary : Option SecondaryPart
  tag : Byte
  flags : ViewFlags
  deriving DecidableEq, Repr

/-- Table 28; the ring is oldest first. -/
structure ViewStepper where
  ring : List ViewRecord
  nextSeq : Seq
  cursors : PerLink Seq
  timer : Option Time
  lastSecondary : Option (Source × FrameNo)
  deriving DecidableEq, Repr

/-! ## Buffer Pool (Tables 37, 38, 39) -/

/-- One pixel: three 10-bit sample values, one per colour component (R178). -/
structure Pixel where
  c0 : BitVec 10
  c1 : BitVec 10
  c2 : BitVec 10
  deriving DecidableEq, Repr

inductive BufferState where
  | free
  | empty
  | filling
  | ready
  | retiring
  deriving DecidableEq, Repr

/-- Table 38; "reported" is the presence of the report copy (log 20). -/
structure FrameMeta where
  source : Source
  frame : FrameNo
  start : Time
  finish : Time
  report : Option Report
  deriving DecidableEq, Repr

/-- One buffer; its content is the rows written so far, top first (R108). -/
structure Buffer where
  state : BufferState
  info : Option FrameMeta
  content : List (List Pixel)
  pins : Nat
  deriving DecidableEq, Repr

inductive BankState where
  | awake
  | dormant
  | waking
  deriving DecidableEq, Repr

structure BankRecord where
  state : BankState
  dormancy : Option Time
  wake : Option Time
  deriving DecidableEq, Repr

structure Pool where
  buffers : Vector Buffer 12
  banks : PerBank BankRecord
  claimQueue : List Source
  deriving DecidableEq, Repr

/-! ## Stream Engines (Tables 53, 54, 56) -/

inductive StreamState where
  | stopped
  | running
  | stopping
  | done
  deriving DecidableEq, Repr

inductive Cause where
  | view
  | timer
  | chain
  | trg0
  | trg1
  | request
  deriving DecidableEq, Repr

inductive TakeMode where
  | latest
  | sequential
  deriving DecidableEq, Repr

inductive CountMode where
  | continuous
  | counted
  deriving DecidableEq, Repr

inductive HoldMode where
  | repeat
  | pattern
  deriving DecidableEq, Repr

/-- Table 54. -/
structure StreamConfig where
  cause : Cause
  take : TakeMode
  countMode : CountMode
  count : Nat
  period : Nat
  width : Nat
  height : Nat
  linePeriod : Nat
  holdMode : HoldMode
  deriving DecidableEq, Repr

inductive FrameKindOut where
  | new
  | repeat
  | hold
  | pattern
  deriving DecidableEq, Repr

/-- The report data a trailer carries (R132, R160). -/
structure TrailerReport where
  exposure : Nat
  focusMoving : Bool
  exposureChanging : Bool
  deriving DecidableEq, Repr

/-- Table 56. -/
structure Trailer where
  stream : StreamId
  number : Half
  start : Time
  kind : FrameKindOut
  lost : Bool
  skipped : Bool
  currentSeq : Option Seq
  shownSeq : Option Seq
  shownFlags : ViewFlags
  remaining : Nat
  report : Option TrailerReport
  deriving DecidableEq, Repr

/-- The in-flight emission, with the trailer formed at its start (R160). -/
structure Emission where
  start : Time
  deadline : Time
  kind : FrameKindOut
  number : Half
  trailer : Trailer
  deriving DecidableEq, Repr

/-- A stream's own copy of a view record, with the buffers its hold named at the placement (R115, R156). -/
structure HeldRecord where
  record : ViewRecord
  buffers : List BufferId
  intact : Bool
  deriving DecidableEq, Repr

/-- The hold record: absent, the current record itself (one hold between them), or a record of its own (R156). -/
inductive HoldRecord where
  | none
  | current
  | own (h : HeldRecord)
  deriving DecidableEq, Repr

/-- A pending pin: the record's sequence and the buffers the hold named (R83). -/
structure PendingPin where
  seq : Seq
  buffers : List BufferId
  deriving DecidableEq, Repr

/-- A whole frame that has left a port: its lines from the top, then its trailer (R158, R160). -/
structure OutputFrame where
  rows : List (List Pixel)
  trailer : Trailer
  deriving DecidableEq, Repr

/-- Table 53, and `sent`, the model's own (log 19). -/
structure Stream where
  state : StreamState
  config : StreamConfig
  remaining : Nat
  pendingTrigger : Bool
  inFlight : Option Emission
  position : Option Seq
  skip : Bool
  pendingSet : List PendingPin
  current : Option HeldRecord
  holdRecord : HoldRecord
  timer : Option Time
  number : Half
  sent : Option OutputFrame
  deriving DecidableEq, Repr

/-! ## Trigger lines (R136, R151) -/

inductive EdgeSelection where
  | none
  | rising
  | falling
  | both
  deriving DecidableEq, Repr

structure TriggerInput where
  selection : EdgeSelection
  lastEdge : Option Time
  deriving DecidableEq, Repr

/-! ## Notice Unit (Table 59) -/

inductive SourceNotice where
  | startWanted
  | stopWanted
  | ready
  | faulted
  | stopped
  | drop
  | lockLost
  | reportMissing
  deriving DecidableEq, Repr

inductive HandoffNotice where
  | started
  | crossfadeBegun
  | done
  | cancelled
  | aborted
  | reversed
  | primaryLost
  | zoomReached
  deriving DecidableEq, Repr

inductive OutputNotice where
  | pDone
  | pOverlap
  | pSkip
  | rDone
  | rOverlap
  | rSkip
  | trg0
  | trg1
  deriving DecidableEq, Repr

inductive PartNotice where
  | partReady
  | linkError
  | cursorOverrun
  | bufferWait
  | zoomDiscarded
  deriving DecidableEq, Repr

/-- One of the 53 kinds (R171). -/
inductive Notice where
  | source (s : Source) (k : SourceNotice)
  | handoff (k : HandoffNotice)
  | output (k : OutputNotice)
  | part (k : PartNotice)
  deriving DecidableEq, Repr

/-- One value per notice group 0 to 6. -/
structure PerGroup (α : Type) where
  src : PerSource α
  handoff : α
  output : α
  part : α
  deriving DecidableEq, Repr

/-- What the Notice Unit holds for one link; a kind is a bit of its group's byte (Table 59). -/
structure Notices where
  pending : PerGroup Byte
  kinds : PerGroup Byte
  groups : PerGroup Bool
  deriving DecidableEq, Repr

/-! ## Link Controllers (R163, R166) -/

inductive Status where
  | ok
  | clamped
  | displaced
  | overrun
  | empty
  | busy
  | wrongState
  | full
  | late
  | conflict
  | range
  | loop
  | inView
  | notFound
  | unknown
  | malformed
  deriving DecidableEq, Repr

structure Response where
  code : Byte
  status : Status
  fields : List Byte
  deriving DecidableEq, Repr

/-- An effect that is made at the moment its response becomes ready (R70, R143, R151, R176; log 7). -/
inductive Deferred where
  | nothing
  | setParameter (p : Param) (value : Nat)
  | setEdge (line : TriggerLine) (selection : EdgeSelection)
  | resetPart
  deriving DecidableEq, Repr

/-- R163; PENDING knows the time by which it must be ready. -/
inductive ResponseState where
  | none
  | pending (response : Response) (readyBy : Time) (deferred : Deferred)
  | ready (response : Response)
  deriving DecidableEq, Repr

/-- A frame that a reset found in progress and that has not ended (R175, R176; log 5): the response state it had met, and
whether RESET_N went low on it and on no later occasion, so that with RESET_N low now it has been low since. -/
structure AbandonedFrame where
  met : ResponseState
  low : Bool
  deriving DecidableEq, Repr

/-- The link's response state; `abandoned` (log 5) and `shifted` (log 8) are the model's own. -/
structure LinkState where
  response : ResponseState
  abandoned : Option AbandonedFrame
  shifted : List Byte
  deriving DecidableEq, Repr

/-! ## The whole part -/

structure State where
  pending : List Instr
  free : Nat
  resetLow : Bool
  initialising : Bool
  timebase : Time
  params : Params
  sources : PerSource SourceRecord
  reports : PerSource ReportUnit
  cal : PerSource (List CalPoint)
  ports : PerSource Port
  sync : PerSource SyncLine
  planner : Planner
  handoff : Handoff
  view : ViewStepper
  pool : Pool
  streams : PerStream Stream
  triggers : PerLine TriggerInput
  notices : PerLink Notices
  links : PerLink LinkState
  selected : Source
  deriving DecidableEq, Repr

/-- The part never stops: no rule gives a machine fault, so there is no reason to stop with one. -/
inductive Fault where
  deriving DecidableEq, Repr

/-- Why a command has no meaning in the model. -/
inductive Refusal where
  /-- Raised by an arm of `exec` for a command without a meaning; no arm raises it. Safe. -/
  | notModelled (mnemonic : String)
  deriving DecidableEq, Repr

/-! ## Reset values -/

/-- R1. -/
def SourceRecord.reset : SourceRecord :=
  { state := .absent, enrolment := none, want := false, warm := none, linger := none, stop := none, stall := none,
    faultCause := none, refusalCode := none, lastStopUnconfirmed := false, withdrawPending := false, chain := [],
    claim := 0, qualify := 0, bad := 0, lastCompleted := none, lastStart := none, locked := false, matchCount := 0 }

def PerSource.all {α : Type} (x : α) : PerSource α := ⟨x, x, x, x⟩

def PerGroup.all {α : Type} (x : α) : PerGroup α := ⟨.all x, x, x, x⟩

/-- Table 58. -/
def Params.reset : Params :=
  { crossfadeSteps := 8, alignSteps := 2, settleSteps := 2, qualifyFrames := 3, badFrameLimit := 3, stallMultiple := 4,
    pairingWindow := 500, lingerTime := 500, warmTimeout := 600, stopTimeout := 100, viewTimerPeriod := 33333,
    dormancyDelay := 50 }

/-- R137. -/
def SyncLine.reset : SyncLine :=
  { pulsing := false, pulseEnd := none, lastPulse := none, nextPulse := none, followList := [] }

/-- R27. -/
def Planner.reset : Planner :=
  { queue := [], ramp := none, commanded := 256, currentTag := 0, lastReachedTag := 0, keepWarm := .all false,
    planned := .all false }

def Marks.empty : Marks := ⟨false, false, false, false⟩

/-- R46. -/
def Handoff.reset : Handoff :=
  { primary := none, record := none, marks := .empty, candidate := none, viewZoom := 256 }

/-- R72. -/
def ViewStepper.reset : ViewStepper :=
  { ring := [], nextSeq := 0, cursors := ⟨0, 0⟩, timer := none, lastSecondary := none }

/-- R113. -/
def Buffer.reset : Buffer := { state := .free, info := none, content := [], pins := 0 }

/-- R119. -/
def BankRecord.reset : BankRecord := { state := .dormant, dormancy := none, wake := none }

/-- R113, R119, R121. -/
def Pool.reset : Pool :=
  { buffers := Vector.replicate 12 .reset, banks := ⟨.reset, .reset, .reset, .reset⟩, claimQueue := [] }

/-- Table 54, the reset column of P. -/
def StreamConfig.resetP : StreamConfig :=
  { cause := .view, take := .latest, countMode := .continuous, count := 1, period := 33333, width := 1920,
    height := 1440, linePeriod := 16, holdMode := .repeat }

/-- Table 54, the reset column of R. -/
def StreamConfig.resetR : StreamConfig := { StreamConfig.resetP with width := 3840, height := 2880 }

/-- R146. -/
def Stream.reset (config : StreamConfig) : Stream :=
  { state := .stopped, config := config, remaining := 0, pendingTrigger := false, inFlight := none, position := none,
    skip := false, pendingSet := [], current := none, holdRecord := .none, timer := none, number := 0, sent := none }

/-- R171. -/
def Notices.reset : Notices := { pending := .all 0, kinds := .all 0, groups := .all false }

/-- R163. -/
def LinkState.reset : LinkState := { response := .none, abandoned := none, shifted := [] }

/-- The part at the release of RESET_N (R175; log 3): every block at its reset value, the timebase 0, initialising. -/
def State.reset : State :=
  { pending := [], free := 0, resetLow := false, initialising := true, timebase := 0, params := .reset,
    sources := .all .reset, reports := .all ⟨[], none⟩, cal := .all [], ports := .all .idle, sync := .all .reset,
    planner := .reset, handoff := .reset, view := .reset, pool := .reset,
    streams := ⟨.reset .resetP, .reset .resetR⟩, triggers := ⟨⟨.none, none⟩, ⟨.none, none⟩⟩,
    notices := ⟨.reset, .reset⟩, links := ⟨.reset, .reset⟩, selected := .s0 }

end Sys2Proof.Machine
end

