-- ==== Sys2Proof/Machine/Ops.lean ====
section
/-! DEFINITION. Named operations every block uses: modular time and frame numbers, the homes of the per-source, per-link,
per-stream, per-line and per-bank state with one read and one write each, and integer arithmetic as the manual words it. -/

/-! ## Names of Syntax.lean -/

namespace Sys2Proof

def Source.all : List Source := [.s0, .s1, .s2, .s3]

def Source.number : Source → Nat
  | .s0 => 0
  | .s1 => 1
  | .s2 => 2
  | .s3 => 3

def Source.ofNumber : Nat → Option Source
  | 0 => some .s0
  | 1 => some .s1
  | 2 => some .s2
  | 3 => some .s3
  | _ => none

def StreamId.all : List StreamId := [.p, .r]

/-- The partner stream (R147, R150). -/
def StreamId.partner : StreamId → StreamId
  | .p => .r
  | .r => .p

def Bank.all : List Bank := [.a, .b, .c, .d]

/-- Bank A holds buffers 0 to 2, B 3 to 5, C 6 to 8, D 9 to 11 (6.7). -/
def Bank.buffers : Bank → List (Fin 12)
  | .a => [0, 1, 2]
  | .b => [3, 4, 5]
  | .c => [6, 7, 8]
  | .d => [9, 10, 11]

/-- Table 70. -/
def StreamId.number : StreamId → Nat
  | .p => 0
  | .r => 1

end Sys2Proof

namespace Sys2Proof.Machine

open Sys2Proof

/-! ## Time, sequence and frame numbers -/

/-- `a` less `b` in the range −2^31 to 2^31−1 (R135, R72). -/
def timeDiff (a b : BitVec 32) : Int := (a - b).toInt

/-- `a` is later than `b` (R135). -/
def timeLater (a b : BitVec 32) : Bool := 0 < timeDiff a b

/-- A deadline is reached when the timebase is equal to it or later (R1, R135). -/
def reached (now deadline : Time) : Bool := 0 ≤ timeDiff now deadline

/-- An owner's deadline, when it runs and is reached. -/
def expired (now : Time) (deadline : Option Time) : Option Time := deadline.filter (reached now)

/-- A time plus a span, modulo 2^32 (R135). -/
def timeAfter (t : Time) (span : Nat) : Time := t + BitVec.ofNat 32 span

/-- A time plus a signed span, modulo 2^32 (R139). -/
def timeShift (t : Time) (span : Int) : Time := t + BitVec.ofInt 32 span

/-- Millisecond parameters are applied as 1,000 µs per unit (R168). -/
def msToUs (ms : Nat) : Nat := 1000 * ms

/-- Frame number `a` is later than `b` when (a − b) mod 65536 lies in 1 to 32767 (00_scope.md 3.4). -/
def frameLater (a b : FrameNo) : Bool := 1 ≤ (a - b).toNat && (a - b).toNat ≤ 32767

/-- Whether two frame starts differ by no more than the pairing window, modularly (R52, R80, R142). -/
def pairedStarts (window : Nat) (a b : Time) : Bool := (timeDiff a b).natAbs ≤ window

/-- Quotient rounded up (00_scope.md 3.1). -/
def ceilDiv (a b : Nat) : Nat := (a + (b - 1)) / b

/-- Clamping raises a value below the interval to its lower end and lowers one above it to its upper end (R68). -/
def clampTo (lo hi c : Nat) : Nat := if c < lo then lo else if hi < c then hi else c

/-! ## The four sources -/

def PerSource.get {α : Type} (v : PerSource α) : Source → α
  | .s0 => v.s0
  | .s1 => v.s1
  | .s2 => v.s2
  | .s3 => v.s3

def PerSource.set {α : Type} (v : PerSource α) (x : α) : Source → PerSource α
  | .s0 => { v with s0 := x }
  | .s1 => { v with s1 := x }
  | .s2 => { v with s2 := x }
  | .s3 => { v with s3 := x }

/-- One value for each source. -/
def PerSource.tabulate {α : Type} (f : Source → α) : PerSource α := ⟨f .s0, f .s1, f .s2, f .s3⟩

def SourceSet.ofList (l : List Source) : SourceSet := PerSource.tabulate fun s => decide (s ∈ l)

/-! ## Links, streams, trigger lines, banks -/

def PerLink.get {α : Type} (v : PerLink α) : Link → α
  | .al => v.al
  | .ml => v.ml

def PerLink.set {α : Type} (v : PerLink α) (x : α) : Link → PerLink α
  | .al => { v with al := x }
  | .ml => { v with ml := x }

def PerStream.get {α : Type} (v : PerStream α) : StreamId → α
  | .p => v.p
  | .r => v.r

def PerStream.set {α : Type} (v : PerStream α) (x : α) : StreamId → PerStream α
  | .p => { v with p := x }
  | .r => { v with r := x }

def PerLine.get {α : Type} (v : PerLine α) : TriggerLine → α
  | .trg0 => v.trg0
  | .trg1 => v.trg1

def PerLine.set {α : Type} (v : PerLine α) (x : α) : TriggerLine → PerLine α
  | .trg0 => { v with trg0 := x }
  | .trg1 => { v with trg1 := x }

def PerBank.get {α : Type} (v : PerBank α) : Bank → α
  | .a => v.a
  | .b => v.b
  | .c => v.c
  | .d => v.d

def PerBank.set {α : Type} (v : PerBank α) (x : α) : Bank → PerBank α
  | .a => { v with a := x }
  | .b => { v with b := x }
  | .c => { v with c := x }
  | .d => { v with d := x }

def bankOf (b : BufferId) : Bank := if b.val < 3 then .a else if b.val < 6 then .b else if b.val < 9 then .c else .d

/-- The twelve buffers in ascending number. -/
def allBuffers : List BufferId := [0, 1, 2, 3, 4, 5, 6, 7, 8, 9, 10, 11]

/-! ## The one read and the one write of each home -/

namespace State

def src (s : State) (i : Source) : SourceRecord := s.sources.get i

def setSrc (s : State) (i : Source) (r : SourceRecord) : State := { s with sources := s.sources.set r i }

def modSrc (s : State) (i : Source) (f : SourceRecord → SourceRecord) : State := s.setSrc i (f (s.src i))

def report (s : State) (i : Source) : ReportUnit := s.reports.get i

def setReport (s : State) (i : Source) (r : ReportUnit) : State := { s with reports := s.reports.set r i }

def calTable (s : State) (i : Source) : List CalPoint := s.cal.get i

def setCal (s : State) (i : Source) (t : List CalPoint) : State := { s with cal := s.cal.set t i }

def port (s : State) (i : Source) : Port := s.ports.get i

def setPort (s : State) (i : Source) (p : Port) : State := { s with ports := s.ports.set p i }

def syncLine (s : State) (i : Source) : SyncLine := s.sync.get i

def setSync (s : State) (i : Source) (l : SyncLine) : State := { s with sync := s.sync.set l i }

def stream (s : State) (i : StreamId) : Stream := s.streams.get i

def setStream (s : State) (i : StreamId) (x : Stream) : State := { s with streams := s.streams.set x i }

def modStream (s : State) (i : StreamId) (f : Stream → Stream) : State := s.setStream i (f (s.stream i))

def trigger (s : State) (i : TriggerLine) : TriggerInput := s.triggers.get i

def setTrigger (s : State) (i : TriggerLine) (x : TriggerInput) : State := { s with triggers := s.triggers.set x i }

def notice (s : State) (l : Link) : Notices := s.notices.get l

def setNotice (s : State) (l : Link) (n : Notices) : State := { s with notices := s.notices.set n l }

def link (s : State) (l : Link) : LinkState := s.links.get l

def setLink (s : State) (l : Link) (x : LinkState) : State := { s with links := s.links.set x l }

def bank (s : State) (k : Bank) : BankRecord := s.pool.banks.get k

def setBank (s : State) (k : Bank) (x : BankRecord) : State :=
  { s with pool := { s.pool with banks := s.pool.banks.set x k } }

def buffer (s : State) (b : BufferId) : Buffer := s.pool.buffers[b]

/-- Every buffer rewritten by one function of its number and its value. -/
def mapBuffers (s : State) (f : BufferId → Buffer → Buffer) : State :=
  { s with pool := { s.pool with buffers := Vector.ofFn fun b => f b s.pool.buffers[b] } }

def modBuffer (s : State) (b : BufferId) (f : Buffer → Buffer) : State :=
  s.mapBuffers fun b' x => if b' = b then f x else x

def setClaimQueue (s : State) (q : List Source) : State := { s with pool := { s.pool with claimQueue := q } }

def setPlanner (s : State) (p : Planner) : State := { s with planner := p }

def setHandoff (s : State) (h : Handoff) : State := { s with handoff := h }

def setView (s : State) (v : ViewStepper) : State := { s with view := v }

/-- The enrolment of a source; the zero enrolment stands only where no run reads it, in ABSENT (log 14). -/
def enr (s : State) (i : Source) : Enrolment :=
  (s.src i).enrolment.getD
    { base := 0, limit := 0, switchUp := 0, switchDown := 0, approach := 0, width := 0, height := 0, interval := 0,
      syncMode := .none, syncOffset := 0, freePeriod := 0 }

end State

/-- The streaming states (R24, Table 8). -/
def SourceState.streaming : SourceState → Bool
  | .warming | .standby | .live => true
  | .absent | .off | .requested | .stopping | .held | .faulted => false

/-- The controller state that follows the primary and the record (R46). -/
def Handoff.state (h : Handoff) : ControllerState :=
  match h.primary, h.record with
  | none, _ => .noPrimary
  | some _, none => .steady
  | some _, some _ => .handingOff

end Sys2Proof.Machine
end

