-- ==== Sys2Proof/Machine/Clock.lean ====
section
/-! DEFINITION. What happens at a tick: the expiries that are due at a timebase value, as the commands that take them
(Table 48; log 1, log 2). -/

namespace Sys2Proof.Machine

open Sys2Proof

/-- A command when its deadline runs and is reached. -/
def dueIf (now : Time) (deadline : Option Time) (c : Instr) : List Instr :=
  if deadline.any (reached now) then [c] else []

/-- The four deadlines of a source. -/
def sourceDue (s : State) (i : Source) : List Instr :=
  dueIf s.timebase (s.src i).warm (.warmDeadlineExpiry i) ++ dueIf s.timebase (s.src i).linger (.lingerDeadlineExpiry i)
    ++ dueIf s.timebase (s.src i).stop (.stopDeadlineExpiry i)
    ++ dueIf s.timebase (s.src i).stall (.stallDeadlineExpiry i)

/-- The two deadlines of a bank. -/
def bankDue (s : State) (k : Bank) : List Instr :=
  dueIf s.timebase (s.bank k).dormancy (.dormancyDeadlineExpiry k)
    ++ dueIf s.timebase (s.bank k).wake (.wakeCompletion k)

/-- The pulse end, the next pulse and the earliest follow time of a sync line. -/
def syncDue (s : State) (i : Source) : List Instr :=
  dueIf s.timebase (s.syncLine i).pulseEnd (.syncPulseEnd i) ++ dueIf s.timebase (s.syncLine i).nextPulse (.nextSyncPulse i)
    ++ dueIf s.timebase (s.syncLine i).followList.head? (.followListPulse i)

/-- The timer and the emission of a stream. -/
def streamDue (s : State) (st : StreamId) : List Instr :=
  dueIf s.timebase (s.stream st).timer (.streamTimerExpiry st)
    ++ dueIf s.timebase ((s.stream st).inFlight.map fun e => e.deadline) (.emissionCompletion st)

/-- The time by which a pending response must be ready (R163). -/
def ResponseState.readyBy : ResponseState → Option Time
  | .pending _ t _ => some t
  | .none | .ready _ => Option.none

/-- The readiness of a link's response at its bound (log 6). -/
def linkDue (s : State) (l : Link) : List Instr :=
  dueIf s.timebase (s.link l).response.readyBy (.responseReady l ⟨false, false⟩)

/-- R175: initialisation lasts until timebase value 2,000. -/
def initialisationDue (s : State) : List Instr :=
  dueIf s.timebase (if s.initialising then some 2000 else none) .endOfInitialisation

/-- Every expiry due, in the order of Table 48, the responses' readiness last (log 2). -/
def dueEvents (s : State) : List Instr :=
  Source.all.flatMap (sourceDue s) ++ Bank.all.flatMap (bankDue s) ++ dueIf s.timebase s.view.timer .viewTimerExpiry
    ++ Source.all.flatMap (syncDue s) ++ StreamId.all.flatMap (streamDue s) ++ initialisationDue s
    ++ linkDue s .al ++ linkDue s .ml

/-- An empty queue: the expiries due now are queued; with none the timebase counts up by one, and holds while RESET_N is
low (R135; log 1, log 26). -/
def tick (s : State) : State :=
  if s.resetLow then s
  else
    match dueEvents s with
    | [] => { s with timebase := s.timebase + 1 }
    | cs => { s with pending := cs }

end Sys2Proof.Machine
end

