-- ==== Sys2Proof/Machine/Flags.lean ====
section
/-! DEFINITION. The bits of the part: the notice kinds in their groups, raising and the notice lines (R171, R173), and the
flag bytes of the view record and of the statuses (Tables 63 to 67, 70). -/

namespace Sys2Proof.Machine

open Sys2Proof

/-- The seven notice groups (Table 59). -/
inductive Group where
  | src (s : Source)
  | handoff
  | output
  | part
  deriving DecidableEq, Repr

def Group.all : List Group := [.src .s0, .src .s1, .src .s2, .src .s3, .handoff, .output, .part]

/-- Group numbers 0 to 6 (Table 59). -/
def Group.ofNumber : Nat → Option Group
  | 0 => some (.src .s0)
  | 1 => some (.src .s1)
  | 2 => some (.src .s2)
  | 3 => some (.src .s3)
  | 4 => some .handoff
  | 5 => some .output
  | 6 => some .part
  | _ => none

def PerGroup.get {α : Type} (v : PerGroup α) : Group → α
  | .src s => v.src.get s
  | .handoff => v.handoff
  | .output => v.output
  | .part => v.part

def PerGroup.set {α : Type} (v : PerGroup α) (x : α) : Group → PerGroup α
  | .src s => { v with src := v.src.set x s }
  | .handoff => { v with handoff := x }
  | .output => { v with output := x }
  | .part => { v with part := x }

/-- The bits of a group that name a kind: bits 5 to 7 of PART name none (Table 59). -/
def Group.kindMask : Group → Byte
  | .src _ => 0xFF
  | .handoff => 0xFF
  | .output => 0xFF
  | .part => 0x1F

def SourceNotice.mask : SourceNotice → Byte
  | .startWanted => 0x01
  | .stopWanted => 0x02
  | .ready => 0x04
  | .faulted => 0x08
  | .stopped => 0x10
  | .drop => 0x20
  | .lockLost => 0x40
  | .reportMissing => 0x80

def HandoffNotice.mask : HandoffNotice → Byte
  | .started => 0x01
  | .crossfadeBegun => 0x02
  | .done => 0x04
  | .cancelled => 0x08
  | .aborted => 0x10
  | .reversed => 0x20
  | .primaryLost => 0x40
  | .zoomReached => 0x80

def OutputNotice.mask : OutputNotice → Byte
  | .pDone => 0x01
  | .pOverlap => 0x02
  | .pSkip => 0x04
  | .rDone => 0x08
  | .rOverlap => 0x10
  | .rSkip => 0x20
  | .trg0 => 0x40
  | .trg1 => 0x80

def PartNotice.mask : PartNotice → Byte
  | .partReady => 0x01
  | .linkError => 0x02
  | .cursorOverrun => 0x04
  | .bufferWait => 0x08
  | .zoomDiscarded => 0x10

def Notice.group : Notice → Group
  | .source s _ => .src s
  | .handoff _ => .handoff
  | .output _ => .output
  | .part _ => .part

def Notice.mask : Notice → Byte
  | .source _ k => k.mask
  | .handoff k => k.mask
  | .output k => k.mask
  | .part k => k.mask

/-- A kind joins a link's pending set, whatever the enables; one already pending stays pending, once (R171). -/
def Notices.raise (n : Notices) (k : Notice) : Notices :=
  { n with pending := n.pending.set (n.pending.get k.group ||| k.mask) k.group }

/-- Whether a kind is pending. -/
def Notices.isPending (n : Notices) (k : Notice) : Bool := n.pending.get k.group &&& k.mask ≠ 0

/-- A kind raised on one link: LINK_ERROR and CURSOR_OVERRUN only (Table 59). -/
def raiseOn (l : Link) (k : Notice) (s : State) : State := s.setNotice l ((s.notice l).raise k)

/-- A kind raised on both links (R171). -/
def raise (k : Notice) (s : State) : State := raiseOn .ml k (raiseOn .al k s)

/-- A notice of one source's group. -/
def raiseSrc (i : Source) (k : SourceNotice) (s : State) : State := raise (.source i k) s

/-- R173: the line is asserted exactly while the link holds a pending notice whose kind and group are both enabled; while
RESET_N is low every set is empty, so it is deasserted. -/
def noticeLine (s : State) (l : Link) : Bool :=
  Group.all.any fun g =>
    ((s.notice l).groups.get g) && (((s.notice l).pending.get g &&& (s.notice l).kinds.get g) != 0)

/-- A Bool as a bit of a flags byte. -/
def bitAt (n : Nat) (b : Bool) : Nat := if b then 2 ^ n else 0

/-- Table 65, bits 0 to 10. -/
def ViewFlags.bits (f : ViewFlags) : Nat :=
  bitAt 0 f.noSource + bitAt 1 f.clamped + bitAt 2 f.cut + bitAt 3 f.forced + bitAt 4 f.aborted + bitAt 5 f.reversed
    + bitAt 6 f.staleReport + bitAt 7 f.unpaired + bitAt 8 f.heldSecondary + bitAt 9 f.uncalibrated + bitAt 10 f.edge

/-- All eleven flags clear (Table 56, PATTERN). -/
def ViewFlags.clear : ViewFlags := ⟨false, false, false, false, false, false, false, false, false, false, false⟩

/-- Table 63. -/
def Status.value : Status → Byte
  | .ok => 0x00
  | .clamped => 0x01
  | .displaced => 0x02
  | .overrun => 0x03
  | .empty => 0x04
  | .busy => 0x10
  | .wrongState => 0x11
  | .full => 0x12
  | .late => 0x13
  | .conflict => 0x14
  | .range => 0x15
  | .loop => 0x16
  | .inView => 0x17
  | .notFound => 0x18
  | .unknown => 0x19
  | .malformed => 0x1A

/-- R166: the success statuses. -/
def Status.success : Status → Bool
  | .ok | .clamped | .displaced | .overrun | .empty => true
  | .busy | .wrongState | .full | .late | .conflict | .range | .loop | .inView | .notFound | .unknown | .malformed => false

/-- Table 66, the order of Table 8. -/
def SourceState.number : SourceState → Nat
  | .absent => 0
  | .off => 1
  | .requested => 2
  | .warming => 3
  | .standby => 4
  | .live => 5
  | .stopping => 6
  | .held => 7
  | .faulted => 8

/-- Table 66. -/
def FaultCause.number : FaultCause → Nat
  | .refused => 1
  | .warmTimeout => 2
  | .stall => 3
  | .badFrames => 4
  | .moduleFault => 5

/-- Table 65; NONE is 0. -/
def phaseNumber : Option Phase → Nat
  | none => 0
  | some .prepare => 1
  | some .align => 2
  | some .crossfade => 3
  | some .settle => 4

/-- Table 67. -/
def ControllerState.number : ControllerState → Nat
  | .noPrimary => 0
  | .steady => 1
  | .handingOff => 2

/-- Table 67. -/
def BankState.number : BankState → Nat
  | .awake => 0
  | .dormant => 1
  | .waking => 2

/-- Table 70. -/
def FrameKindOut.number : FrameKindOut → Nat
  | .new => 0
  | .repeat => 1
  | .hold => 2
  | .pattern => 3

end Sys2Proof.Machine
end

