-- ==== Sys2Proof/Machine/Operands.lean ====
section
/-! DEFINITION. The operand forms of the requests: each request's field bytes read as Table 64 lays them out (R165), with
none where the length is not the one the fields take, and the value lists of the enumerated fields. -/

namespace Sys2Proof.Machine

open Sys2Proof

/-- A yes-or-no field is 0 for no and 1 for yes; anything else is out of range (R165). -/
def yesNo : Byte → Option Bool
  | 0 => some false
  | 1 => some true
  | _ => none

/-- R165: sync mode NONE 0, FOLLOW 1, FREE 2. -/
def syncModeOf : Nat → Option SyncMode
  | 0 => some .none
  | 1 => some .follow
  | 2 => some .free
  | _ => none

/-- R165: edge selection NONE 0, RISING 1, FALLING 2, BOTH 3. -/
def edgeSelectionOf : Nat → Option EdgeSelection
  | 0 => some .none
  | 1 => some .rising
  | 2 => some .falling
  | 3 => some .both
  | _ => none

/-- R165: cause VIEW 0 to REQUEST 5, in the order of Table 54. -/
def causeOf : Nat → Option Cause
  | 0 => some .view
  | 1 => some .timer
  | 2 => some .chain
  | 3 => some .trg0
  | 4 => some .trg1
  | 5 => some .request
  | _ => none

/-- Table 54. -/
def takeModeOf : Nat → Option TakeMode
  | 0 => some .latest
  | 1 => some .sequential
  | _ => none

/-- Table 54. -/
def countModeOf : Nat → Option CountMode
  | 0 => some .continuous
  | 1 => some .counted
  | _ => none

/-- Table 54. -/
def holdModeOf : Nat → Option HoldMode
  | 0 => some .repeat
  | 1 => some .pattern
  | _ => none

/-- R147: 0 for P or 1 for R. -/
def streamOf : Nat → Option StreamId
  | 0 => some .p
  | 1 => some .r
  | _ => none

/-- R151: 0 for TRG0 or 1 for TRG1. -/
def triggerLineOf : Nat → Option TriggerLine
  | 0 => some .trg0
  | 1 => some .trg1
  | _ => none

/-- R165: group enable ON 0, OFF 1, UNCHANGED 2. -/
inductive GroupEnable where
  | on
  | off
  | unchanged
  deriving DecidableEq, Repr

def groupEnableOf : Nat → Option GroupEnable
  | 0 => some .on
  | 1 => some .off
  | 2 => some .unchanged
  | _ => none

/-- R25, R165: a mask of sources, bit n naming Sn; a bit above 3 names a source above S3. -/
def sourceMask (m : Byte) : Option SourceSet :=
  if 16 ≤ m.toNat then none
  else some (PerSource.tabulate fun i => m.getLsbD i.number)

/-- Table 58: the parameter an identifier names. -/
def paramOf : Nat → Option Param
  | 0 => some .crossfadeSteps
  | 1 => some .alignSteps
  | 2 => some .settleSteps
  | 3 => some .qualifyFrames
  | 4 => some .badFrameLimit
  | 5 => some .stallMultiple
  | 6 => some .pairingWindow
  | 7 => some .lingerTime
  | 8 => some .warmTimeout
  | 9 => some .stopTimeout
  | 10 => some .viewTimerPeriod
  | 11 => some .dormancyDelay
  | _ => none

/-- Table 58: a parameter's range, both ends included. -/
def Param.range : Param → Nat × Nat
  | .crossfadeSteps => (1, 32)
  | .alignSteps => (1, 8)
  | .settleSteps => (0, 8)
  | .qualifyFrames => (1, 8)
  | .badFrameLimit => (1, 8)
  | .stallMultiple => (2, 8)
  | .pairingWindow => (100, 5000)
  | .lingerTime => (0, 5000)
  | .warmTimeout => (50, 2000)
  | .stopTimeout => (10, 1000)
  | .viewTimerPeriod => (10000, 200000)
  | .dormancyDelay => (0, 1000)

def Params.get (q : Params) : Param → Nat
  | .crossfadeSteps => q.crossfadeSteps
  | .alignSteps => q.alignSteps
  | .settleSteps => q.settleSteps
  | .qualifyFrames => q.qualifyFrames
  | .badFrameLimit => q.badFrameLimit
  | .stallMultiple => q.stallMultiple
  | .pairingWindow => q.pairingWindow
  | .lingerTime => q.lingerTime
  | .warmTimeout => q.warmTimeout
  | .stopTimeout => q.stopTimeout
  | .viewTimerPeriod => q.viewTimerPeriod
  | .dormancyDelay => q.dormancyDelay

def Params.set (q : Params) (v : Nat) : Param → Params
  | .crossfadeSteps => { q with crossfadeSteps := v }
  | .alignSteps => { q with alignSteps := v }
  | .settleSteps => { q with settleSteps := v }
  | .qualifyFrames => { q with qualifyFrames := v }
  | .badFrameLimit => { q with badFrameLimit := v }
  | .stallMultiple => { q with stallMultiple := v }
  | .pairingWindow => { q with pairingWindow := v }
  | .lingerTime => { q with lingerTime := v }
  | .warmTimeout => { q with warmTimeout := v }
  | .stopTimeout => { q with stopTimeout := v }
  | .viewTimerPeriod => { q with viewTimerPeriod := v }
  | .dormancyDelay => { q with dormancyDelay := v }

/-- A value in a closed interval. -/
def within (r : Nat × Nat) (v : Nat) : Bool := r.1 ≤ v && v ≤ r.2

/-- A signed value in a closed interval. -/
def withinInt (lo hi v : Int) : Bool := lo ≤ v && v ≤ hi

/-! ## ENROLL_SOURCE -/

/-- Table 7 and R3: every range and ordering, sync offset and free period whatever the sync mode. -/
def Enrolment.inRange (e : Enrolment) : Bool :=
  within (64, 12800) e.base && within (64, 12800) e.limit && decide (e.base < e.limit)
    && decide (e.base ≤ e.switchDown) && decide (e.switchDown ≤ e.switchUp) && decide (e.switchUp ≤ e.limit)
    && within (0, 1024) e.approach && within (64, 4096) e.width && within (64, 3072) e.height
    && within (4000, 200000) e.interval && withinInt (-10000) 10000 e.syncOffset && within (4000, 200000) e.freePeriod

/-- The 26 field bytes of ENROLL_SOURCE: the source number, and the enrolment when its sync mode is in the list. -/
def parseEnrolment : List Byte → Option (Nat × Option Enrolment)
  | [src, b1, b0, l1, l0, u1, u0, d1, d0, a1, a0, w1, w0, h1, h0, i3, i2, i1, i0, m, o1, o0, f3, f2, f1, f0] =>
    some (src.toNat,
      (syncModeOf m.toNat).map fun mode =>
        { base := (half b1 b0).toNat, limit := (half l1 l0).toNat, switchUp := (half u1 u0).toNat,
          switchDown := (half d1 d0).toNat, approach := (half a1 a0).toNat, width := (half w1 w0).toNat,
          height := (half h1 h0).toNat, interval := (word i3 i2 i1 i0).toNat, syncMode := mode,
          syncOffset := (half o1 o0).toInt, freePeriod := (word f3 f2 f1 f0).toNat })
  | _ => none

/-! ## POST_ZOOM -/

/-- The six field bytes of POST_ZOOM: target, steps, tag and the replace byte. -/
def parseZoom : List Byte → Option (Nat × Nat × Byte × Byte)
  | [t1, t0, n1, n0, tag, rep] => some ((half t1 t0).toNat, (half n1 n0).toNat, tag, rep)
  | _ => none

/-! ## Calibration points -/

/-- Table 32. -/
def CalPoint.inRange (p : CalPoint) : Bool :=
  within (0, 1023) p.focus && within (2048, 8192) p.scale && withinInt (-8192) 8191 p.offsetX
    && withinInt (-8192) 8191 p.offsetY && withinInt (-500) 500 p.roll

/-- The eleven field bytes of PUT_CAL_POINT. -/
def parseCalPoint : List Byte → Option (Nat × CalPoint)
  | [src, f1, f0, k1, k0, x1, x0, y1, y0, r1, r0] =>
    some (src.toNat,
      { focus := (half f1 f0).toNat, scale := (half k1 k0).toNat, offsetX := (half x1 x0).toInt,
        offsetY := (half y1 y0).toInt, roll := (half r1 r0).toInt })
  | _ => none

/-- The three field bytes of DROP_CAL_POINT. -/
def parseCalKey : List Byte → Option (Nat × Nat)
  | [src, f1, f0] => some (src.toNat, (half f1 f0).toNat)
  | _ => none

/-! ## CONFIGURE_STREAM -/

/-- Table 54 and R147: the count is checked only when COUNTED, the timer period whatever the cause. -/
def StreamConfig.inRange (c : StreamConfig) : Bool :=
  (match c.countMode with
    | .counted => within (1, 65535) c.count
    | .continuous => true)
    && within (1000, 1000000) c.period && within (64, 4096) c.width && within (64, 3072) c.height
    && within (1, 1024) c.linePeriod

/-- The 17 field bytes of CONFIGURE_STREAM: the stream number, and the configuration when every enumerated value is in
its list. -/
def parseStreamConfig : List Byte → Option (Nat × Option StreamConfig)
  | [st, ca, tk, cm, n1, n0, t3, t2, t1, t0, w1, w0, h1, h0, l1, l0, hm] =>
    some (st.toNat,
      match causeOf ca.toNat, takeModeOf tk.toNat, countModeOf cm.toNat, holdModeOf hm.toNat with
      | some cause, some take, some countMode, some holdMode =>
        some
          { cause := cause, take := take, countMode := countMode, count := (half n1 n0).toNat,
            period := (word t3 t2 t1 t0).toNat, width := (half w1 w0).toNat, height := (half h1 h0).toNat,
            linePeriod := (half l1 l0).toNat, holdMode := holdMode }
      | _, _, _, _ => none)
  | _ => none

/-! ## POST_REPORT -/

/-- R127: the ranges of a report's fields. -/
def Report.inRange (r : Report) : Bool :=
  within (0, 1023) r.focus && within (1, 1000000) r.exposure && withinInt (-2048) 2047 r.shiftX
    && withinInt (-2048) 2047 r.shiftY

/-- The 13 field bytes of POST_REPORT: the report, and whether its flags byte names only the two flags (R127). -/
def parseReport : List Byte → Option (Report × Bool)
  | [n1, n0, f1, f0, e3, e2, e1, e0, x1, x0, y1, y0, fl] =>
    some
      ({ frame := half n1 n0, focus := (half f1 f0).toNat, exposure := (word e3 e2 e1 e0).toNat,
         shiftX := (half x1 x0).toInt, shiftY := (half y1 y0).toInt, focusMoving := fl.getLsbD 0,
         exposureChanging := fl.getLsbD 1 }, decide (fl.toNat < 4))
  | _ => none

/-! ## The short forms -/

/-- SET_PARAMETER: identifier and value. -/
def parseParameter : List Byte → Option (Nat × Nat)
  | [p, v3, v2, v1, v0] => some (p.toNat, (word v3 v2 v1 v0).toNat)
  | _ => none

/-- SET_NOTICE_ENABLES: group, set-mask, clear-mask, group enable. -/
def parseEnables : List Byte → Option (Nat × Byte × Byte × Nat)
  | [g, setMask, clearMask, e] => some (g.toNat, setMask, clearMask, e.toNat)
  | _ => none

/-- TAKE_NOTICES: group, clear-mask. -/
def parseTake : List Byte → Option (Nat × Byte)
  | [g, clearMask] => some (g.toNat, clearMask)
  | _ => none

/-- The requests of one byte. -/
def parseByte : List Byte → Option Byte
  | [b] => some b
  | _ => none

/-- The requests of two bytes. -/
def parsePair : List Byte → Option (Byte × Byte)
  | [a, b] => some (a, b)
  | _ => none

/-- The pixels of a LINE's data: six bytes a pixel, three words, the lowest 10 bits of each (R178). A rest of fewer than
six bytes is no pixel; R108 finds such a line of the wrong length. -/
def parsePixels : List Byte → List Pixel
  | a1 :: a0 :: b1 :: b0 :: c1 :: c0 :: rest =>
    ⟨(half a1 a0).setWidth 10, (half b1 b0).setWidth 10, (half c1 c0).setWidth 10⟩ :: parsePixels rest
  | _ => []

/-- The sum of a row's sample values, modulo 65536 (R108, Table 35). -/
def rowSum (row : List Pixel) : Half :=
  row.foldl (fun acc px => acc + px.c0.setWidth 16 + px.c1.setWidth 16 + px.c2.setWidth 16) 0

end Sys2Proof.Machine
end

