-- ==== Sys2Proof/Machine/Pool.lean ====
section
/-! DEFINITION. The Buffer Pool: buffers, banks, chains, the claim queue and the pins (chapter 6, 6.4 to 6.8). -/

namespace Sys2Proof.Machine

open Sys2Proof

/-! ## Buffers changing state (R113) -/

/-- To FREE, EMPTY or FILLING: content and metadata are discarded (R113, R114). -/
def Buffer.cleared (b : Buffer) (next : BufferState) : Buffer := { b with state := next, info := none, content := [] }

/-- A bank is all FREE. -/
def bankAllFree (s : State) (k : Bank) : Bool := k.buffers.all fun b => decide ((s.buffer b).state = .free)

/-- R119: a bank whose last buffer became FREE, or that woke, starts its dormancy deadline, unless DORMANCY_DELAY is 0. -/
def considerDormancy (k : Bank) (s : State) : State :=
  let r := s.bank k
  if decide (r.state = .awake) && bankAllFree s k && r.dormancy.isNone && decide (s.params.dormancyDelay ≠ 0) then
    s.setBank k { r with dormancy := some (timeAfter s.timebase (msToUs s.params.dormancyDelay)) }
  else s

/-- A buffer leaves FREE for a chain: it joins at the tail as EMPTY, and its bank's dormancy deadline is cleared (R117,
R119). -/
def joinChain (i : Source) (b : BufferId) (s : State) : State :=
  let s := s.modBuffer b fun x => x.cleared .empty
  let s := s.setBank (bankOf b) { s.bank (bankOf b) with dormancy := none }
  s.modSrc i fun r => { r with chain := r.chain ++ [b] }

/-- R123: a FREE buffer of an AWAKE bank is delivered to the head of the claim queue, if there is one; a completed claim
leaves the queue. -/
def deliver (s : State) (b : BufferId) : State :=
  match s.pool.claimQueue with
  | [] => s
  | h :: rest =>
    if decide ((s.bank (bankOf b)).state = .awake) && decide ((s.buffer b).state = .free) then
      let s := joinChain h b s
      let left := (s.src h).claim - 1
      let s := s.modSrc h fun r => { r with claim := left }
      if left = 0 then s.setClaimQueue rest else s
    else s

/-- Buffers that became FREE in one event, handled in ascending number: each delivered to the head of the queue as it then
stands, and the banks of those left FREE considered for dormancy (R116, R118, R119). -/
def settleFreed (freed : List BufferId) (s : State) : State :=
  let order := allBuffers.filter (· ∈ freed)
  let s := order.foldl deliver s
  Bank.all.foldl (fun s k => if order.any fun b => decide (bankOf b = k) then considerDormancy k s else s) s

/-! ## Chains (R118) and claims (R121 to R124) -/

/-- A buffer of a released chain that a stream still pins (R118). -/
def Buffer.staysPinned (b : Buffer) : Bool := decide (b.state = .ready) && decide (0 < b.pins)

/-- R118: the chain is released as a whole. -/
def releaseChain (i : Source) (s : State) : State :=
  let chain := (s.src i).chain
  let freed := chain.filter fun b => !(s.buffer b).staysPinned
  let s' := s.mapBuffers fun b x =>
    if b ∈ chain then (if x.staysPinned then { x with state := .retiring } else x.cleared .free) else x
  settleFreed freed (s'.modSrc i fun r => { r with chain := [] })

/-- R124: the claim's entry leaves the queue, those behind it move up, and nothing is outstanding. -/
def cancelClaim (i : Source) (s : State) : State :=
  (s.setClaimQueue (s.pool.claimQueue.filter (· ≠ i))).modSrc i fun r => { r with claim := 0 }

/-- A wake lasts 300 µs (R120). -/
def wakeSpan : Nat := 300

/-- A bank is woken (R120). -/
def wakeBank (k : Bank) (s : State) : State :=
  s.setBank k { state := .waking, dormancy := none, wake := some (timeAfter s.timebase wakeSpan) }

/-- R122: the deficit is the outstanding total of the queue less 3 for each bank already WAKING. -/
def claimDeficit (s : State) : Int :=
  ((s.pool.claimQueue.map fun i => (s.src i).claim).sum : Int)
    - 3 * ((Bank.all.filter fun k => decide ((s.bank k).state = .waking)).length : Int)

/-- R122: while the deficit is above 0, the DORMANT bank with the lowest letter is woken and the deficit falls by 3. -/
def wakeForDeficit (s : State) : State :=
  Bank.all.foldl
    (fun s k => if 0 < claimDeficit s && decide ((s.bank k).state = .dormant) then wakeBank k s else s)
    s

/-- FREE buffers of AWAKE banks, ascending (R121). -/
def freeAwake (s : State) : List BufferId :=
  allBuffers.filter fun b => decide ((s.buffer b).state = .free) && decide ((s.bank (bankOf b)).state = .awake)

/-- R121: a claim for the rest of a chain of 3 is served at once as far as it can be, and otherwise enters the queue with
BUFFER_WAIT and wakes banks. -/
def placeClaim (i : Source) (s : State) : State :=
  let asked := 3 - (s.src i).chain.length
  let given := (freeAwake s).take asked
  let s := given.foldl (fun s b => joinChain i b s) s
  let left := asked - given.length
  let s := s.modSrc i fun r => { r with claim := left }
  if left = 0 then s
  else wakeForDeficit (raise (.part .bufferWait) (s.setClaimQueue (s.pool.claimQueue ++ [i])))

/-- R120: wake completion. -/
def completeWake (k : Bank) (s : State) : State :=
  match expired s.timebase (s.bank k).wake with
  | none => s
  | some _ =>
    let s := s.setBank k { state := .awake, dormancy := none, wake := none }
    settleFreed k.buffers s

/-- R119: the dormancy deadline's expiry. -/
def goDormant (k : Bank) (s : State) : State :=
  match expired s.timebase (s.bank k).dormancy with
  | none => s
  | some _ => s.setBank k { state := .dormant, dormancy := none, wake := none }

/-! ## Fill choice and newest frame (R107, R114) -/

/-- Of two buffers the one whose metadata has the later end time; the first on a tie (log 13). -/
def laterEnd (s : State) (a b : BufferId) : BufferId :=
  match (s.buffer a).info, (s.buffer b).info with
  | some ma, some mb => if timeLater mb.finish ma.finish then b else a
  | _, _ => a

/-- Of two buffers the one whose metadata has the earlier end time; the first on a tie (log 13). -/
def earlierEnd (s : State) (a b : BufferId) : BufferId :=
  match (s.buffer a).info, (s.buffer b).info with
  | some ma, some mb => if timeLater ma.finish mb.finish then b else a
  | _, _ => a

/-- The best of a list by a two-way choice, taken from the head on, none of an empty one. Where the choice is cyclic, as
three end times more than 2^31 apart can be, the order of the list decides (log 13). -/
def bestOf {α : Type} (better : α → α → α) : List α → Option α
  | [] => none
  | a :: rest => some (rest.foldl better a)

/-- The READY buffer of a source's chain with the latest end time (R114). -/
def newestReady (s : State) (i : Source) : Option BufferId :=
  bestOf (laterEnd s) ((s.src i).chain.filter fun b => decide ((s.buffer b).state = .ready))

/-- R107: the earliest EMPTY buffer, else the unpinned READY buffer with the oldest end time, else none. -/
def fillChoice (s : State) (i : Source) : Option BufferId :=
  match (s.src i).chain.find? fun b => decide ((s.buffer b).state = .empty) with
  | some b => some b
  | none =>
    bestOf (earlierEnd s)
      ((s.src i).chain.filter fun b => decide ((s.buffer b).state = .ready) && decide ((s.buffer b).pins = 0))

/-! ## Pins (R83, R115, R116) -/

/-- R83, R115: a part is intact while its buffer is READY or RETIRING and its metadata names the source and frame. -/
def partIntact (s : State) (b : BufferId) (src : Source) (frame : FrameNo) : Bool :=
  let x := s.buffer b
  (decide (x.state = .ready) || decide (x.state = .retiring))
    && (match x.info with
      | some m => decide (m.source = src) && decide (m.frame = frame)
      | none => false)

/-- The parts of a record: buffer, source and frame number of each part present. -/
def ViewRecord.parts (r : ViewRecord) : List (BufferId × Source × FrameNo) :=
  (match r.primary with
    | some p => [(p.buffer, p.source, p.frame)]
    | none => [])
    ++ (match r.secondary with
      | some q => [(q.buffer, q.source, q.frame)]
      | none => [])

/-- Every part of the record is intact (R83). -/
def recordIntact (s : State) (r : ViewRecord) : Bool := r.parts.all fun (b, i, n) => partIntact s b i n

/-- The buffers a hold on the record names: those of its intact parts (R115). -/
def holdNames (s : State) (r : ViewRecord) : List BufferId :=
  (r.parts.filter fun (b, i, n) => partIntact s b i n).map fun (b, _, _) => b

/-- A hold placed: the pin count of each buffer named rises by one (R115). -/
def addPins (names : List BufferId) (s : State) : State :=
  s.mapBuffers fun b x => { x with pins := x.pins + names.count b }

/-- Holds removed together: the counts fall together, and each RETIRING buffer whose count reaches zero becomes FREE and is
handled in ascending number (R116). -/
def removePins (names : List BufferId) (s : State) : State :=
  let s' := s.mapBuffers fun b x => { x with pins := x.pins - names.count b }
  let freed := allBuffers.filter fun b =>
    decide (b ∈ names) && decide ((s'.buffer b).state = .retiring) && decide ((s'.buffer b).pins = 0)
  settleFreed freed (s'.mapBuffers fun b x => if b ∈ freed then x.cleared .free else x)

/-- A state within one event, with the buffers of the holds that the event removes: they are removed together at its end,
whichever streams held them (R116, R123; log 12). -/
structure Releasing where
  state : State
  names : List BufferId
  deriving DecidableEq, Repr

/-- A next part of the event. -/
def Releasing.andThen (x : Releasing) (f : State → Releasing) : Releasing :=
  { state := (f x.state).state, names := x.names ++ (f x.state).names }

/-- A part of an event that removes no hold. -/
def Releasing.nothing (s : State) : Releasing := { state := s, names := [] }

/-- The end of the event. -/
def Releasing.settle (x : Releasing) : State := removePins x.names x.state

end Sys2Proof.Machine
end

