-- ==== Sys2Proof/Machine/Align.lean ====
section
/-! DEFINITION. The Alignment Unit: the alignment of a source at a focus code, the report used, and the crop window
(R78, R96 to R100). -/

namespace Sys2Proof.Machine

open Sys2Proof

/-- What R96 forms for a source: a calibration point without its focus code. -/
structure Alignment where
  scale : Nat
  offsetX : Int
  offsetY : Int
  roll : Int
  deriving DecidableEq, Repr

/-- R97. -/
def Alignment.identity : Alignment := { scale := 4096, offsetX := 0, offsetY := 0, roll := 0 }

def CalPoint.alignment (p : CalPoint) : Alignment :=
  { scale := p.scale, offsetX := p.offsetX, offsetY := p.offsetY, roll := p.roll }

/-- R96: v1 + trunc((v2 − v1) × (f − f1) / (f2 − f1)). -/
def lerp (v1 v2 : Int) (f f1 f2 : Nat) : Int := v1 + Int.tdiv ((v2 - v1) * ((f : Int) - f1)) ((f2 : Int) - f1)

/-- R96: the alignment between two neighbouring points. -/
def CalPoint.between (p q : CalPoint) (f : Nat) : Alignment :=
  { scale := (lerp p.scale q.scale f p.focus q.focus).toNat
    offsetX := lerp p.offsetX q.offsetX f p.focus q.focus
    offsetY := lerp p.offsetY q.offsetY f p.focus q.focus
    roll := lerp p.roll q.roll f p.focus q.focus }

/-- R96, R97: the alignment of a table, its points in ascending order of focus code. -/
def alignmentAt (f : Nat) : List CalPoint → Alignment
  | [] => .identity
  | [p] => p.alignment
  | p :: q :: rest =>
    if f ≤ p.focus then p.alignment
    else if f < q.focus then p.between q f
    else alignmentAt f (q :: rest)

/-- R78: the focus code and the stabilisation shift an alignment is formed from, and whether the frame was unreported. -/
structure ReportUsed where
  focus : Nat
  shiftX : Int
  shiftY : Int
  stale : Bool
  deriving DecidableEq, Repr

/-- R78. -/
def reportUsed (s : State) (i : Source) (m : FrameMeta) : ReportUsed :=
  match m.report, (s.report i).current with
  | some r, _ => { focus := r.focus, shiftX := r.shiftX, shiftY := r.shiftY, stale := false }
  | none, some r => { focus := r.focus, shiftX := r.shiftX, shiftY := r.shiftY, stale := true }
  | none, none => { focus := 0, shiftX := 0, shiftY := 0, stale := true }

/-- R98: an offset in 1/16 ru as 1/16 source pixel. -/
def offsetPixels (e : Enrolment) (a : Alignment) (offset : Int) : Int :=
  Int.tdiv (offset * e.width * e.base) (256 * a.scale)

/-- R99. -/
def windowWidth (e : Enrolment) (a : Alignment) (zoom : Nat) : Nat := e.width * e.base * 4096 / (zoom * a.scale)

/-- R100: an edge coordinate from the frame's size, the window's size and the sum of offset and shift, and whether the
frame's edge moved it. -/
def placeWindow (frame size : Nat) (moved : Int) : Nat × Bool :=
  let x := Int.tdiv ((8 * (frame : Int) - moved) - 8 * size) 16
  if x < 0 then (0, true)
  else if (frame : Int) < x + size then (frame - size, true)
  else (x.toNat, false)

/-- R99, R100: the crop window, and whether it was limited by the frame's edge. -/
def cropWindow (e : Enrolment) (a : Alignment) (zoom : Nat) (r : ReportUsed) : Window × Bool :=
  let w := windowWidth e a zoom
  if e.width < w then ({ x := 0, y := 0, width := e.width, height := e.height }, true)
  else
    let h := w * e.height / e.width
    let px := placeWindow e.width w (offsetPixels e a a.offsetX + r.shiftX)
    let py := placeWindow e.height h (offsetPixels e a a.offsetY + r.shiftY)
    ({ x := px.1, y := py.1, width := w, height := h }, px.2 || py.2)

end Sys2Proof.Machine
end

