-- ==== Sys2Proof/Machine/Sync.lean ====
section
/-! DEFINITION. The Sync Generator and the Lock Monitor (chapter 8). -/

namespace Sys2Proof.Machine

open Sys2Proof

/-- The length of a pulse, 10 µs (R137). -/
def pulseLength : Nat := 10

/-- A pulse at a time: the line goes high until 10 µs later; a line already high stays high until its own pulse end, and
the last pulse time takes the later pulse's time (R137). -/
def SyncLine.pulse (l : SyncLine) (t : Time) : SyncLine :=
  match l.pulseEnd with
  | some _ => { l with lastPulse := some t }
  | none => { l with pulseEnd := some (timeAfter t pulseLength), lastPulse := some t }

/-- A pulse now, and the next one a span later (R138, R140). -/
def SyncLine.pulseNow (l : SyncLine) (now : Time) (span : Nat) : SyncLine :=
  { l.pulse now with nextPulse := some (timeAfter now span) }

/-- Pulsing begins at entry to REQUESTED, with the schedule of the sync mode (R137, R138, R139, R140). -/
def beginPulsing (i : Source) (s : State) : State :=
  let e := s.enr i
  let l := { s.syncLine i with pulsing := true }
  s.setSync i
    (match e.syncMode with
      | .none => l
      | .free => l.pulseNow s.timebase e.freePeriod
      | .follow => if s.handoff.primary.isNone then l.pulseNow s.timebase e.interval else l)

/-- Entry to STOPPING, HELD or FAULTED: pulsing ends, the schedule and the last pulse time go, and the line is driven low
(R137). -/
def stopPulsing (i : Source) (s : State) : State := s.setSync i .reset

/-- The spacing of a source's own pulses: the free period under FREE, the nominal interval when self-paced (R138, R140). -/
def ownPeriod (e : Enrolment) : Nat :=
  match e.syncMode with
  | .free => e.freePeriod
  | .follow => e.interval
  | .none => e.interval

/-- A time put in its place in ascending order (R139). -/
def insertTime (t : Time) : List Time → List Time
  | [] => [t]
  | x :: xs => if timeLater x t then t :: x :: xs else x :: insertTime t xs

/-- A follow list of 4 times first discards its earliest. One that is due at that moment pulses as it goes, since the line
pulses once for it whichever of the frame start and the pulse is taken first (R139). -/
def SyncLine.makeRoom (l : SyncLine) (now : Time) : SyncLine :=
  match l.followList with
  | [] => l
  | t :: rest =>
    if l.followList.length < 4 then l
    else if reached now t then { l.pulse t with followList := rest }
    else { l with followList := rest }

/-- A time joins the follow list, which holds at most 4 (R139). -/
def SyncLine.addFollow (l : SyncLine) (now t : Time) : SyncLine :=
  let l := l.makeRoom now
  { l with followList := insertTime t l.followList }

/-- A follower's pulse for a frame start of the primary: at once when its time is not later than the start, and otherwise
on the follow list (R139). -/
def SyncLine.follow (l : SyncLine) (start pulseTime : Time) : SyncLine :=
  if timeLater pulseTime start then l.addFollow start pulseTime else l.pulse start

/-- Whether a source is paced from the frames of the primary `p`: FOLLOW, pulsing, and not the primary itself (R139). -/
def followsPrimary (s : State) (p i : Source) : Bool :=
  (s.syncLine i).pulsing && decide ((s.enr i).syncMode = .follow) && decide (i ≠ p)

/-- At a FRAME_START taken for the primary, each follower's pulse is formed: that start plus the primary's nominal interval
plus the follower's sync offset (R139). -/
def paceFollowers (p : Source) (start : Time) (s : State) : State :=
  Source.all.foldl
    (fun s i =>
      if followsPrimary s p i then
        s.setSync i
          ((s.syncLine i).follow start (timeShift (timeAfter start (s.enr p).interval) (s.enr i).syncOffset))
      else s)
    s

/-- R144: the schedule of one source at a change of primary to `new`. A source already self-paced keeps its next pulse,
which continues from its last pulse time (log 21). -/
def SyncLine.retime (l : SyncLine) (e : Enrolment) (i : Source) (new : Option Source) (now : Time) : SyncLine :=
  if !l.pulsing || decide (e.syncMode ≠ .follow) then l
  else if new.isSome && decide (new ≠ some i) then { l with nextPulse := none, followList := [] }
  else
    let l := { l with followList := [] }
    match l.nextPulse, l.lastPulse with
    | some _, _ => l
    | none, none => l.pulseNow now e.interval
    | none, some t =>
      if timeLater (timeAfter t e.interval) now then { l with nextPulse := some (timeAfter t e.interval) }
      else l.pulseNow now e.interval

/-- The lock goes to UNLOCKED with match count 0, without LOCK_LOST (R24, R144). -/
def SourceRecord.unlock (r : SourceRecord) : SourceRecord := { r with locked := false, matchCount := 0 }

/-- A change of primary: the primary is set, every lock is reset and every FOLLOW schedule is re-timed (R47, R144). -/
def changePrimary (new : Option Source) (s : State) : State :=
  { s with
    handoff := { s.handoff with primary := new }
    sources := PerSource.tabulate fun i => (s.src i).unlock
    sync := PerSource.tabulate fun i => (s.syncLine i).retime (s.enr i) i new s.timebase }

/-- R142: the difference used in a judgement, from the primary's last start or from that plus its interval, whichever is
of smaller magnitude, the former on a tie. -/
def lockDifference (start ref : Time) (interval : Nat) : Int :=
  let d1 := timeDiff start ref
  let d2 := timeDiff start (timeAfter ref interval)
  if d2.natAbs < d1.natAbs then d2 else d1

/-- R142: the match count and the lock after a judged frame start. -/
def SourceRecord.judged (r : SourceRecord) (inWindow : Bool) : SourceRecord :=
  if inWindow then
    { r with matchCount := min 2 (r.matchCount + 1), locked := r.locked || decide (2 ≤ r.matchCount + 1) }
  else { r with matchCount := 0, locked := false }

/-- The reference a frame start is judged against: the primary, another source, and its last frame start (R141). -/
def lockReference (s : State) (i : Source) : Option (Source × Time) :=
  match s.handoff.primary with
  | none => none
  | some p => if p = i then none else (s.src p).lastStart.map fun t => (p, t)

/-- R141, R142: the judgement of a frame start; one that meets not all conditions changes nothing. -/
def judgeLock (i : Source) (start : Time) (s : State) : State :=
  match lockReference s i with
  | none => s
  | some (p, ref) =>
    if (s.src i).state.streaming && decide ((s.enr i).syncMode = .follow) then
      let inWindow := decide ((lockDifference start ref (s.enr p).interval).natAbs ≤ s.params.pairingWindow)
      let s' := s.modSrc i fun r => r.judged inWindow
      if (s.src i).locked && !inWindow then raiseSrc i .lockLost s' else s'
    else s

/-- R137: the pulse-end deadline's expiry. -/
def endPulse (i : Source) (s : State) : State :=
  match expired s.timebase (s.syncLine i).pulseEnd with
  | none => s
  | some _ => s.setSync i { s.syncLine i with pulseEnd := none }

/-- R138, R140: the expiry of the next pulse; the following one is set from the expired time. -/
def takeNextPulse (i : Source) (s : State) : State :=
  match expired s.timebase (s.syncLine i).nextPulse with
  | none => s
  | some t => s.setSync i { (s.syncLine i).pulse t with nextPulse := some (timeAfter t (ownPeriod (s.enr i))) }

/-- R139: the earliest time of the follow list is reached. -/
def takeFollowPulse (i : Source) (s : State) : State :=
  match (s.syncLine i).followList with
  | [] => s
  | t :: rest =>
    if reached s.timebase t then s.setSync i { (s.syncLine i).pulse t with followList := rest } else s

end Sys2Proof.Machine
end

