-- ==== Sys2Proof/Machine/Sources.lean ====
section
/-! DEFINITION. The Source Table's own moves: want, entry to REQUESTED, OFF and ABSENT, the moves between STANDBY and LIVE,
and what leaving the streaming states clears (chapter 1). -/

namespace Sys2Proof.Machine

open Sys2Proof

/-- R5: the linger deadline starts at now + LINGER_TIME; one already running keeps its deadline. -/
def startLinger (i : Source) (s : State) : State :=
  if (s.src i).linger.isNone then
    s.modSrc i fun r => { r with linger := some (timeAfter s.timebase (msToUs s.params.lingerTime)) }
  else s

/-- R6: entry to REQUESTED. -/
def enterRequested (i : Source) (s : State) : State :=
  let s := s.modSrc i fun r =>
    { r with state := .requested, warm := some (timeAfter s.timebase (msToUs s.params.warmTimeout)) }
  beginPulsing i (raiseSrc i .startWanted (placeClaim i s))

/-- R23: entry to ABSENT; the calibration table is kept. Last stop unconfirmed becomes no, as R23 says, also at the end of an
unconfirmed stop, where R14 says it stays yes (log 31). -/
def enterAbsent (i : Source) (s : State) : State :=
  s.modSrc i fun r =>
    { r with state := .absent, enrolment := none, want := false, withdrawPending := false, lastStopUnconfirmed := false,
             faultCause := none, refusalCode := none }

/-- R15: entry to OFF, and on at once to ABSENT or REQUESTED where the record asks for it. -/
def enterOff (i : Source) (s : State) : State :=
  let s := s.modSrc i fun r => { r with state := .off }
  if (s.src i).withdrawPending then enterAbsent i s
  else if (s.src i).want then enterRequested i s
  else s

/-- R4, R5: a write of want. -/
def writeWant (i : Source) (v : Bool) (s : State) : State :=
  let r := s.src i
  let s' := s.modSrc i fun r => { r with want := v }
  match r.state with
  | .absent => s
  | .off => if v && !r.want then enterRequested i s' else s'
  | .requested | .warming | .standby =>
    if v && !r.want then s'.modSrc i fun r => { r with linger := none }
    else if !v && r.want then startLinger i s'
    else s'
  | .live | .stopping | .held | .faulted => s'

/-- Writes of want to every source, in the order S0 to S3 (R25, R42). -/
def writeWants (m : SourceSet) (s : State) : State := Source.all.foldl (fun s i => writeWant i (m.get i) s) s

/-- R24: what is cleared when a source leaves the streaming states. -/
def leaveStreaming (i : Source) (s : State) : State :=
  let s := s.setReport i ⟨[], none⟩
  let s := s.setPort i .idle
  s.modSrc i fun r =>
    { r.unlock with lastCompleted := none, lastStart := none, qualify := 0, bad := 0, stall := none }

/-- R11, R5: the move from STANDBY to LIVE clears a running linger. -/
def moveToLive (i : Source) (s : State) : State := s.modSrc i fun r => { r with state := .live, linger := none }

/-- R5, R10, R11: entry to STANDBY starts the linger when want is clear. -/
def moveToStandby (i : Source) (s : State) : State :=
  let s := s.modSrc i fun r => { r with state := .standby }
  if (s.src i).want then s else startLinger i s

/-- R20: the stall deadline from a reference time. -/
def stallFrom (s : State) (i : Source) (ref : Time) : Time :=
  timeAfter ref (s.params.stallMultiple * (s.enr i).interval)

end Sys2Proof.Machine
end

