-- ==== Sys2Proof/Machine/Wanted.lean ====
section
/-! DEFINITION. The available set, the reference source, the wanted source and the approach sources (R37 to R40). -/

namespace Sys2Proof.Machine

open Sys2Proof

/-- R37: the states whose sources are in V. A withdrawn source that is STOPPING with withdraw pending is in V still, as R37, R52
and R64 have it, although R45 says that a WITHDRAW_SOURCE removes the source from V at the next view step (log 33). -/
def SourceState.available : SourceState → Bool
  | .off | .requested | .warming | .standby | .live | .stopping => true
  | .absent | .held | .faulted => false

/-- R37: V. -/
def availableSources (s : State) : List Source := Source.all.filter fun i => (s.src i).state.available

/-- The source of a list with the largest base zoom. -/
def largestBase (s : State) (l : List Source) : Option Source :=
  bestOf (fun a b => if (s.enr a).base < (s.enr b).base then b else a) l

/-- The source of a list with the smallest base zoom. -/
def smallestBase (s : State) (l : List Source) : Option Source :=
  bestOf (fun a b => if (s.enr b).base < (s.enr a).base then b else a) l

/-- Of a list, the source with the largest B not exceeding c, or the one with the smallest B when none has B ≤ c. -/
def nearestBelow (s : State) (l : List Source) (c : Nat) : Option Source :=
  match largestBase s (l.filter fun i => decide ((s.enr i).base ≤ c)) with
  | some i => some i
  | none => smallestBase s l

/-- R39 case 2, with Q absent: the choice used for W, for a successor (R62) and for the candidate (R65). -/
def wantedWithoutReference (s : State) (c : Nat) : Option Source := nearestBelow s (availableSources s) c

/-- R38: Q. -/
def reference (s : State) : Option Source :=
  match s.handoff.primary, s.handoff.record with
  | none, _ => none
  | some p, none => some p
  | some p, some r =>
    match r.phase with
    | .prepare | .align => some p
    | .crossfade | .settle => some r.dst

/-- R39: W for the reference source q in V. -/
def wantedFrom (s : State) (q : Source) (c : Nat) : Option Source :=
  let v := availableSources s
  match largestBase s (v.filter fun i =>
      decide ((s.enr q).base < (s.enr i).base) && decide ((s.enr i).switchUp ≤ c)) with
  | some u => some u
  | none =>
    if c < (s.enr q).switchDown then
      match nearestBelow s (v.filter fun i => decide ((s.enr i).base < (s.enr q).base)) c with
      | some d => some d
      | none => some q
    else some q

/-- R39: W. -/
def wanted (s : State) (q : Option Source) (c : Nat) : Option Source :=
  match q with
  | none => wantedWithoutReference s c
  | some q => if (s.src q).state.available then wantedFrom s q c else wantedWithoutReference s c

/-- R40: N, the neighbour above Q, when it approaches. -/
def approachAbove (s : State) (q : Source) (c : Nat) : Option Source :=
  (smallestBase s ((availableSources s).filter fun i => decide ((s.enr q).base < (s.enr i).base))).filter fun n =>
    decide (((s.enr n).switchUp : Int) - ((s.enr n).approach : Int) ≤ (c : Int))

/-- R40: M, the neighbour below Q, when it approaches. -/
def approachBelow (s : State) (q : Source) (c : Nat) : Option Source :=
  (largestBase s ((availableSources s).filter fun i => decide ((s.enr i).base < (s.enr q).base))).filter fun _ =>
    decide (c < (s.enr q).switchDown + (s.enr q).approach)

/-- R40: the approach sources; none when Q is absent or not in V. -/
def approachSources (s : State) (q : Option Source) (c : Nat) : List Source :=
  match q with
  | none => []
  | some q =>
    if (s.src q).state.available then (approachAbove s q c).toList ++ (approachBelow s q c).toList else []

end Sys2Proof.Machine
end

