-- ==== Sys2Proof/Machine/Handoff.lean ====
section
/-! DEFINITION. The Hand-off Controller: its rule for each state and phase at a view step, its answer to a source that
leaves LIVE or STANDBY, the first primary and the view zoom (chapter 3). -/

namespace Sys2Proof.Machine

open Sys2Proof

/-! ## Small parts -/

def setRecord (r : Option HandoffRecord) (s : State) : State := s.setHandoff { s.handoff with record := r }

def markCut (s : State) : State := s.setHandoff { s.handoff with marks := { s.handoff.marks with cut := true } }

def markForced (s : State) : State := s.setHandoff { s.handoff with marks := { s.handoff.marks with forced := true } }

def markAborted (s : State) : State := s.setHandoff { s.handoff with marks := { s.handoff.marks with aborted := true } }

def markReversed (s : State) : State :=
  s.setHandoff { s.handoff with marks := { s.handoff.marks with reversed := true } }

/-- Table 22: UP when B of to is greater than B of from. -/
def directionOf (s : State) (src dst : Source) : Direction :=
  if (s.enr src).base < (s.enr dst).base then .up else .down

/-- R53: the intersection of two coverages, from the larger B to the smaller L. -/
def sharedCoverage (s : State) (a b : Source) : Nat × Nat :=
  (max (s.enr a).base (s.enr b).base, min (s.enr a).limit (s.enr b).limit)

/-- R53, R57: inc is 256 divided by CROSSFADE_STEPS, rounded up. -/
def fadeInc (s : State) : Nat := ceilDiv 256 s.params.crossfadeSteps

/-- R58: on any entry to SETTLE with SETTLE_STEPS at 0 the record is removed at once. -/
def settleAtOnce (s : State) : State := if s.params.settleSteps = 0 then setRecord none s else s

/-- R57: the record enters SETTLE; to becomes primary, from moves to STANDBY, HANDOFF_DONE is raised. -/
def enterSettle (r : HandoffRecord) (s : State) : State :=
  let s := changePrimary (some r.dst) s
  let s := moveToStandby r.src s
  let s := setRecord (some { r with phase := .settle, weight := 256, count := 0 }) s
  settleAtOnce (raise (.handoff .done) s)

/-- R57: the weight advances by inc, and the record enters SETTLE at 256. -/
def advanceFade (r : HandoffRecord) (s : State) : State :=
  let w := r.weight + fadeInc s
  if w < 256 then setRecord (some { r with weight := w }) s else enterSettle r s

/-! ## The rules of a view step -/

/-- R48: a hand-off record is created in STEADY. -/
def createHandoff (p w : Source) (s : State) : State :=
  raise (.handoff .started)
    (setRecord
      (some
        { src := p, dst := w, direction := directionOf s p w, phase := .prepare, weight := 0, count := 0,
          startSeq := s.view.nextSeq, reversed := false, forced := false, cut := false })
      s)

/-- R51: the test of PREPARE. -/
def prepareTest (r : HandoffRecord) (s : State) : State :=
  if (s.src r.dst).state = .standby then setRecord (some { r with phase := .align, count := 0 }) s
  else setRecord (some r) s

/-- R52: whether a step in ALIGN qualifies, given the buffer of the primary's frame of the step. -/
def alignQualifies (r : HandoffRecord) (stepBuffer : Option BufferId) (s : State) : Bool :=
  (match stepBuffer.bind fun b => (s.buffer b).info, (newestReady s r.dst).bind fun b => (s.buffer b).info with
    | some mp, some mt =>
      pairedStarts s.params.pairingWindow mt.start mp.start && mp.report.isSome && mt.report.isSome
    | _, _ => false)
    && (decide ((s.enr r.dst).syncMode ≠ .follow) || (s.src r.dst).locked)
    && !(s.calTable r.src).isEmpty && !(s.calTable r.dst).isEmpty

/-- R54: ALIGN ends in a cut when the coverages do not meet. -/
def cutOver (r : HandoffRecord) (s : State) : State :=
  let s := changePrimary (some r.dst) (moveToLive r.dst s)
  let s := moveToStandby r.src s
  let s := setRecord (some { r with phase := .settle, weight := 256, count := 0, cut := true }) s
  settleAtOnce (raise (.handoff .done) (markCut s))

/-- R53: ALIGN ends in the entry to CROSSFADE, and on to SETTLE in the same step when inc is 256. -/
def beginFade (r : HandoffRecord) (s : State) : State :=
  let inc := fadeInc s
  let r' := { r with phase := .crossfade, weight := inc, count := 0 }
  let s := raise (.handoff .crossfadeBegun) (setRecord (some r') (moveToLive r.dst s))
  if inc < 256 then s else enterSettle r' s

/-- R53: the end of ALIGN. -/
def endAlign (r : HandoffRecord) (s : State) : State :=
  let c := sharedCoverage s r.src r.dst
  if c.2 < c.1 then cutOver r s else beginFade r s

/-- R52, R53: the rule of ALIGN, after R50 left the record unchanged. -/
def alignStep (r : HandoffRecord) (stepBuffer : Option BufferId) (s : State) : State :=
  if (s.src r.dst).state ≠ .standby then setRecord (some { r with phase := .prepare, count := 0 }) s
  else if alignQualifies r stepBuffer s then
    let r' := { r with count := r.count + 1 }
    if s.params.alignSteps ≤ r'.count then endAlign r' s else setRecord (some r') s
  else setRecord (some { r with count := 0 }) s

/-- R50: the hand-off is cancelled. -/
def cancelHandoff (s : State) : State := raise (.handoff .cancelled) (setRecord none s)

/-- R50: the hand-off is retargeted to a third source. -/
def retargeted (r : HandoffRecord) (w : Source) (s : State) : HandoffRecord :=
  { r with dst := w, direction := directionOf s r.src w, phase := .prepare, count := 0, weight := 0 }

/-- R50, R51, R52, R53: a view step in PREPARE or ALIGN. -/
def beforeFade (r : HandoffRecord) (p : Source) (w : Option Source) (stepBuffer : Option BufferId) (s : State) : State :=
  match w with
  | some w =>
    if w = r.dst then (if r.phase = .prepare then prepareTest r s else alignStep r stepBuffer s)
    else if w = p then cancelHandoff s
    else prepareTest (retargeted r w s) s
  | none => if r.phase = .prepare then prepareTest r s else alignStep r stepBuffer s

/-- R56: the hand-off reverses. -/
def reverseHandoff (r : HandoffRecord) (s : State) : State :=
  let r' := { r with src := r.dst, dst := r.src, direction := directionOf s r.dst r.src, weight := 256 - r.weight,
                     reversed := true }
  raise (.handoff .reversed) (markReversed (setRecord (some r') (changePrimary (some r'.src) s)))

/-- R55, R56, R57: a view step in CROSSFADE. -/
def fadeStep (r : HandoffRecord) (w : Option Source) (s : State) : State :=
  if w = some r.src then
    let s := reverseHandoff r s
    match s.handoff.record with
    | some r' => advanceFade r' s
    | none => s
  else advanceFade r s

/-- R58: a view step in SETTLE that did not itself enter SETTLE. -/
def settleStep (r : HandoffRecord) (s : State) : State :=
  if s.params.settleSteps ≤ r.count + 1 then setRecord none s else setRecord (some { r with count := r.count + 1 }) s

/-- R66, R67: a source in STANDBY becomes the first primary. -/
def makeFirstPrimary (w : Source) (s : State) : State :=
  let s := markCut (changePrimary (some w) (moveToLive w s))
  (s.setHandoff { s.handoff with candidate := none }).setView { s.view with timer := none }

/-- R66: a view step in NO_PRIMARY. -/
def noPrimaryStep (w : Option Source) (s : State) : State :=
  let s := s.setHandoff { s.handoff with candidate := w }
  match w with
  | some w => if (s.src w).state = .standby then makeFirstPrimary w s else s
  | none => s

/-- R49: the one rule that belongs to the state and phase in which the step finds the controller. -/
def handoffStep (w : Option Source) (stepBuffer : Option BufferId) (s : State) : State :=
  match s.handoff.primary, s.handoff.record with
  | none, _ => noPrimaryStep w s
  | some p, none =>
    match w with
    | some w => if w = p then s else createHandoff p w s
    | none => s
  | some p, some r =>
    match r.phase with
    | .prepare | .align => beforeFade r p w stepBuffer s
    | .crossfade => fadeStep r w s
    | .settle => settleStep r s

/-- R68: the view zoom for the commanded zoom c, after the update. -/
def viewZoomFor (s : State) (c : Nat) : Nat :=
  match s.handoff.primary, s.handoff.record with
  | none, _ => c
  | some p, none => clampTo (s.enr p).base (s.enr p).limit c
  | some p, some r =>
    match r.phase with
    | .prepare | .align | .settle => clampTo (s.enr p).base (s.enr p).limit c
    | .crossfade => clampTo (sharedCoverage s r.src r.dst).1 (sharedCoverage s r.src r.dst).2 c

/-! ## Departures (R59 to R65) -/

/-- R60: the to source left LIVE in CROSSFADE. -/
def abortHandoff (s : State) : State := raise (.handoff .aborted) (markAborted (setRecord none s))

/-- R61: the from source, the primary, left LIVE in CROSSFADE. -/
def forceCompletion (r : HandoffRecord) (s : State) : State :=
  let s := changePrimary (some r.dst) s
  let s := setRecord (some { r with phase := .settle, weight := 256, count := 0, forced := true }) s
  settleAtOnce (raise (.handoff .done) (markForced s))

/-- R62: the successor for the commanded zoom, from the sources in STANDBY. -/
def successor (s : State) : Option Source :=
  let c := s.planner.commanded
  let ready := Source.all.filter fun i => decide ((s.src i).state = .standby)
  match (wantedWithoutReference s c).filter fun i => decide ((s.src i).state = .standby) with
  | some i => some i
  | none => nearestBelow s ready c

/-- R65, R74: entry to NO_PRIMARY, with the view timer started. -/
def enterNoPrimary (s : State) : State :=
  let s := changePrimary none s
  let s := s.setView { s.view with timer := some (timeAfter s.timebase s.params.viewTimerPeriod) }
  s.setHandoff { s.handoff with candidate := wantedWithoutReference s s.planner.commanded }

/-- R62: the primary was lost outside CROSSFADE. -/
def emergencyCut (s : State) : State :=
  let s := raise (.handoff .primaryLost) (setRecord none s)
  match successor s with
  | some i => markCut (changePrimary (some i) (moveToLive i s))
  | none => enterNoPrimary s

/-- R59, Table 23: the controller's answer to a source that has left LIVE or STANDBY. -/
def departure (i : Source) (s : State) : State :=
  match s.handoff.record with
  | some r =>
    if r.phase = .crossfade then
      if s.handoff.primary = some i then forceCompletion r s
      else if r.dst = i then abortHandoff s
      else s
    else if s.handoff.primary = some i then emergencyCut s
    else s
  | none => if s.handoff.primary = some i then emergencyCut s else s

/-- R67: the controller is informed that a source has entered STANDBY from WARMING. -/
def informStandby (i : Source) (s : State) : State :=
  if s.handoff.primary.isNone && decide (s.handoff.candidate = some i) then makeFirstPrimary i s else s

end Sys2Proof.Machine
end

