-- ==== Sys2Proof/Machine/Render.lean ====
section
/-! DEFINITION. Rendering: the samples of an output frame from the buffers a view record names (R102, R103, R157). -/

namespace Sys2Proof.Machine

open Sys2Proof

/-! ## Sine and cosine to the nearest 1/65536 (R102; log 15)

Fixed-point Taylor sums with 64 fractional bits; the sums are nearer to the true value than any of the 2,001 angles' true
values is to a half of 1/65536, so the rounding is that of the true value. -/

def fixedOne : Int := 2 ^ 64

/-- π with 64 fractional bits. -/
def fixedPi : Int := 57952155664616982739

def fixedMul (a b : Int) : Int := Int.tdiv (a * b) fixedOne

/-- An angle of 1/100 degree in radians. -/
def fixedAngle (k : Int) : Int := Int.tdiv (k * fixedPi) 18000

/-- The next terms of a Taylor sum, each the last one times −x² over the product of two rising factors. -/
def taylor (x : Int) : Nat → Nat → Int → Int
  | 0, _, _ => 0
  | k + 1, n, t =>
    let t' := -(Int.tdiv (fixedMul (fixedMul t x) x) (n * (n + 1)))
    t' + taylor x k (n + 2) t'

/-- To the nearest 1/65536, halves away from zero. -/
def roundTo16 (v : Int) : Int :=
  let d := 2 * 65536 * v
  if 0 ≤ v then Int.tdiv (d + fixedOne) (2 * fixedOne) else -(Int.tdiv (fixedOne - d) (2 * fixedOne))

/-- 65536 times the sine of an angle of 1/100 degree, rounded. -/
def sin16 (k : Int) : Int := let x := fixedAngle k; roundTo16 (x + taylor x 5 2 x)

/-- 65536 times the cosine of an angle of 1/100 degree, rounded. -/
def cos16 (k : Int) : Int := let x := fixedAngle k; roundTo16 (fixedOne + taylor x 6 1 fixedOne)

/-! ## Positions (R102) -/

/-- One axis of the primary: origin + trunc((2u + 1) × size / (2 × out)). -/
def primaryPosition (origin size out u : Nat) : Nat := origin + (2 * u + 1) * size / (2 * out)

/-- A quotient rounded to the nearest whole number, halves away from zero; the divisor is positive. -/
def roundDiv (a : Int) (b : Nat) : Int :=
  if 0 ≤ a then Int.tdiv (2 * a + b) (2 * b) else -(Int.tdiv (b - 2 * a) (2 * b))

/-- The secondary's position before rounding, as a numerator over 2 × outW × outH × 65536: the output sample's offset from
the window's centre, turned clockwise by the relative roll (rows run downwards), and added to that centre. -/
def secondaryNumerators (w : Window) (roll : Int) (outW outH u v : Nat) : Int × Int :=
  let c := cos16 roll
  let n := sin16 roll
  let dx : Int := ((2 * (u : Int) + 1) * w.width - (w.width : Int) * outW) * outH
  let dy : Int := ((2 * (v : Int) + 1) * w.height - (w.height : Int) * outH) * outW
  let unit : Int := (outW : Int) * outH * 65536
  ((2 * (w.x : Int) + w.width) * unit + (dx * c - dy * n), (2 * (w.y : Int) + w.height) * unit + (dx * n + dy * c))

/-- The secondary's column and row, to the nearest sample; one outside the frame takes the frame's edge when it is read. -/
def secondaryPosition (w : Window) (roll : Int) (outW outH u v : Nat) : Int × Int :=
  let p := secondaryNumerators w roll outW outH u v
  let d := 2 * outW * outH * 65536
  (roundDiv p.1 d, roundDiv p.2 d)

/-! ## Samples -/

/-- A pixel of black; no run reads it, since a frame that a part names is whole (log 14). -/
def Pixel.zero : Pixel := ⟨0, 0, 0⟩

/-- The sample at a column and row; a position outside the frame takes the nearest on the frame's edge. R102 says so of the
secondary; a primary position is outside only in a window of no width or no height, of which R102 says nothing (log 32). -/
def sampleAt (content : List (List Pixel)) (col row : Int) : Pixel :=
  let line := content.getD (min row.toNat (content.length - 1)) []
  line.getD (min col.toNat (line.length - 1)) .zero

/-- R103: trunc(((256 − w) × p + w × s) / 256). -/
def blendValue (w : Nat) (p s : BitVec 10) : BitVec 10 := BitVec.ofNat 10 (((256 - w) * p.toNat + w * s.toNat) / 256)

/-- R103: the same weight applies to every component. -/
def blendPixel (w : Nat) (p s : Pixel) : Pixel :=
  ⟨blendValue w p.c0 s.c0, blendValue w p.c1 s.c1, blendValue w p.c2 s.c2⟩

/-- R157: every component of every sample of a PATTERN frame is 512. -/
def Pixel.grey : Pixel := ⟨512, 512, 512⟩

/-- One output sample of a record whose parts are held. -/
def outputPixel (s : State) (r : ViewRecord) (outW outH u v : Nat) : Pixel :=
  match r.primary with
  | none => .grey
  | some p =>
    let a := sampleAt (s.buffer p.buffer).content (primaryPosition p.window.x p.window.width outW u)
      (primaryPosition p.window.y p.window.height outH v)
    match r.secondary with
    | none => a
    | some q =>
      let pos := secondaryPosition q.window q.roll outW outH u v
      blendPixel q.weight a (sampleAt (s.buffer q.buffer).content pos.1 pos.2)

/-- The rows of an output frame: the shown record rendered, or mid-grey when there is none (R157, R158). -/
def renderRows (s : State) (shown : Option ViewRecord) (outW outH : Nat) : List (List Pixel) :=
  (List.range outH).map fun v =>
    (List.range outW).map fun u =>
      match shown with
      | some r => outputPixel s r outW outH u v
      | none => .grey

end Sys2Proof.Machine
end

