-- ==== Sys2Proof/Machine/Streams.lean ====
section
/-! DEFINITION. The Stream Engines: start, stop, triggers, the take, the emission and its completion (chapter 9). -/

namespace Sys2Proof.Machine

open Sys2Proof

/-! ## Notices of the OUTPUT group, by stream (Table 59) -/

def doneNotice : StreamId → Notice
  | .p => .output .pDone
  | .r => .output .rDone

def overlapNotice : StreamId → Notice
  | .p => .output .pOverlap
  | .r => .output .rOverlap

def skipNotice : StreamId → Notice
  | .p => .output .pSkip
  | .r => .output .rSkip

/-! ## Holds (R146) -/

/-- The buffers the hold of the current record names. -/
def Stream.currentNames (x : Stream) : List BufferId :=
  match x.current with
  | some h => h.buffers
  | none => []

/-- The buffers the hold record's own hold names; none when it is the current record (R156). -/
def Stream.ownHoldNames (x : Stream) : List BufferId :=
  match x.holdRecord with
  | .own h => h.buffers
  | .none | .current => []

/-- The buffers the pending pins name. -/
def Stream.pendingNames (x : Stream) : List BufferId := x.pendingSet.flatMap fun p => p.buffers

/-- The hold record as a record. -/
def Stream.held (x : Stream) : Option HeldRecord :=
  match x.holdRecord with
  | .none => none
  | .current => x.current
  | .own h => some h

/-- A record that names a source and was intact at its placement (R156, R157). -/
def HeldRecord.shows (h : HeldRecord) : Bool := h.record.primary.isSome && h.intact

/-! ## The take (R155, R156) -/

/-- A record is new when its sequence is later than the position, or the position is absent (R155). -/
def isNew (position : Option Seq) (r : ViewRecord) : Bool :=
  match position with
  | none => true
  | some p => timeLater r.seq p

/-- A SEQUENTIAL stream marked to skip (R155). -/
def Stream.skipping (x : Stream) : Bool := decide (x.config.take = .sequential) && x.skip

/-- R155: the record a take finds. -/
def takeRecord (ring : List ViewRecord) (x : Stream) : Option ViewRecord :=
  match x.config.take with
  | .latest => ring.getLast?.filter (isNew x.position)
  | .sequential =>
    if x.skip then ring.head? else x.position.bind fun p => ring.find? fun r => decide (r.seq = p + 1)

/-- R156: the hold record after a take of `h`, and the buffers of the holds released. -/
def settleHolds (x : Stream) (h : HeldRecord) : HoldRecord × List BufferId :=
  if h.shows then (.current, x.currentNames ++ x.ownHoldNames)
  else
    match x.config.holdMode, x.holdRecord, x.current with
    | .pattern, _, _ => (.none, x.currentNames ++ x.ownHoldNames)
    | .repeat, .current, some c => (.own c, [])
    | .repeat, .current, none => (.none, [])
    | .repeat, .own g, _ => (.own g, x.currentNames)
    | .repeat, .none, _ => (.none, x.currentNames)

/-- R155, R156: a record is taken: its hold is placed, and the pending pin and the settled holds go with what else the event
removes (R116). -/
def takeInto (st : StreamId) (r : ViewRecord) (s : State) : Releasing :=
  let x := s.stream st
  let h : HeldRecord := { record := r, buffers := holdNames s r, intact := recordIntact s r }
  let taken := x.pendingSet.filter fun p => decide (p.seq = r.seq)
  let settled := settleHolds x h
  let s := addPins h.buffers s
  { state := s.setStream st
      { x with current := some h, holdRecord := settled.1, position := some r.seq,
               pendingSet := x.pendingSet.filter fun p => decide (p.seq ≠ r.seq) }
    names := (taken.flatMap fun p => p.buffers) ++ settled.2 }

/-! ## The emission (R157, R158, R160) -/

/-- R157: the frame when the record to show cannot be shown. -/
def Stream.fallbackKind (x : Stream) : FrameKindOut :=
  match x.config.holdMode, x.held with
  | .repeat, some _ => .hold
  | .repeat, none => .pattern
  | .pattern, _ => .pattern

/-- R157: the frame kind, from the stream after its take. -/
def Stream.frameKind (x : Stream) (taken : Bool) : FrameKindOut :=
  match x.current with
  | some h => if h.shows then (if taken then .new else .repeat) else x.fallbackKind
  | none => x.fallbackKind

/-- R157: the shown record. -/
def Stream.shownRecord (x : Stream) (kind : FrameKindOut) : Option ViewRecord :=
  match kind with
  | .new | .repeat => x.current.map fun h => h.record
  | .hold => x.held.map fun h => h.record
  | .pattern => none

/-- R160, R132: the report data of the shown record's primary frame. -/
def trailerReport (s : State) (shown : Option ViewRecord) : Option TrailerReport :=
  shown.bind fun r => r.primary.bind fun p => (s.buffer p.buffer).info.bind fun m => m.report.map fun rep =>
    { exposure := rep.exposure, focusMoving := rep.focusMoving, exposureChanging := rep.exposureChanging }

/-- R160: the remaining field. -/
def Stream.trailerRemaining (x : Stream) : Nat :=
  match x.config.countMode with
  | .counted => x.remaining - 1
  | .continuous => 0

/-- R158: the span of an emission, ceil(output height × line period / 16) µs. -/
def emissionSpan (c : StreamConfig) : Nat := ceilDiv (c.height * c.linePeriod) 16

/-- Table 56: the trailer, formed at the emission's start from the stream after its take. -/
def makeTrailer (s : State) (st : StreamId) (taken skipped : Bool) : Trailer :=
  let x := s.stream st
  let kind := x.frameKind taken
  let shown := x.shownRecord kind
  { stream := st, number := x.number, start := s.timebase, kind := kind
    lost := taken && (x.current.any fun h => !h.intact)
    skipped := skipped
    currentSeq := x.current.map fun h => h.record.seq
    shownSeq := shown.map fun r => r.seq
    shownFlags := (shown.map fun r => r.flags).getD .clear
    remaining := x.trailerRemaining
    report := trailerReport s shown }

/-- R158: the emission leaves with its number, its deadline and its trailer. -/
def launch (st : StreamId) (taken skipped : Bool) (s : State) : State :=
  let x := s.stream st
  let t := makeTrailer s st taken skipped
  s.setStream st
    { x with inFlight := some { start := s.timebase, deadline := timeAfter s.timebase (emissionSpan x.config),
                                kind := t.kind, number := x.number, trailer := t }
             number := x.number + 1 }

/-- R155: a skip mark is cleared with its notice. -/
def clearSkip (st : StreamId) (s : State) : State :=
  if (s.stream st).skipping then raise (skipNotice st) (s.modStream st fun x => { x with skip := false }) else s

/-- R155 to R158: an emission begins with its take. -/
def startEmission (st : StreamId) (s : State) : Releasing :=
  let skipped := (s.stream st).skipping
  let found := takeRecord s.view.ring (s.stream st)
  let s := clearSkip st s
  let taken := match found with
    | some r => takeInto st r s
    | none => .nothing s
  { taken with state := launch st found.isSome skipped taken.state }

/-- R153: a trigger reaches a stream. -/
def triggerStream (st : StreamId) (s : State) : Releasing :=
  let x := s.stream st
  if x.state ≠ .running then .nothing s
  else if x.inFlight.isNone then startEmission st s
  else if x.pendingTrigger then .nothing (raise (overlapNotice st) s)
  else .nothing (s.setStream st { x with pendingTrigger := true })

/-- A trigger for one stream, when its cause names it. -/
def offerTrigger (cause : Cause) (st : StreamId) (s : State) : Releasing :=
  if (s.stream st).config.cause = cause then triggerStream st s else .nothing s

/-- A trigger for each stream whose cause names it, P before R; the holds both remove go together after both takes, so that
the order of the two is not seen in them (log 11, log 12). -/
def offerBoth (cause : Cause) (s : State) : Releasing := (offerTrigger cause .p s).andThen (offerTrigger cause .r)

/-! ## Start, stop, completion (R148, R149, R159) -/

/-- R148: the settings at a start. -/
def startStream (st : StreamId) (s : State) : State :=
  s.modStream st fun x =>
    { x with
      state := .running
      remaining := match x.config.countMode with
        | .counted => x.config.count
        | .continuous => 0
      number := 0, pendingTrigger := false, skip := false, pendingSet := [], current := none, holdRecord := .none
      position := match x.config.take with
        | .sequential => some (s.view.nextSeq - 1)
        | .latest => none
      timer := if x.config.cause = .timer then some (timeAfter s.timebase x.config.period) else none }

/-- What every departure from RUNNING clears (R149). -/
def Stream.leaveRunning (x : Stream) : Stream :=
  { x with pendingTrigger := false, skip := false, timer := none, pendingSet := [] }

/-- The stream with no hold of any kind, in STOPPED or DONE (R149, R159). -/
def Stream.rest (x : Stream) (next : StreamState) : Stream :=
  { x.leaveRunning with state := next, current := none, holdRecord := .none }

/-- Every hold of the stream. -/
def Stream.allNames (x : Stream) : List BufferId := x.pendingNames ++ x.currentNames ++ x.ownHoldNames

/-- To STOPPED or DONE with every hold released. -/
def restStream (st : StreamId) (next : StreamState) (s : State) : Releasing :=
  { state := s.setStream st ((s.stream st).rest next), names := (s.stream st).allNames }

/-- R149. -/
def stopStream (st : StreamId) (s : State) : Releasing :=
  let x := s.stream st
  match x.state with
  | .running =>
    if x.inFlight.isNone then restStream st .stopped s
    else { state := s.setStream st { x.leaveRunning with state := .stopping }, names := x.pendingNames }
  | .done => .nothing (s.setStream st { x with state := .stopped })
  | .stopping | .stopped => .nothing s

/-- The whole frame that leaves the port (R158, R160). -/
def outputFrame (s : State) (x : Stream) (e : Emission) : OutputFrame :=
  { rows := renderRows s (x.shownRecord e.kind) x.config.width x.config.height, trailer := e.trailer }

/-- R159, CONTINUOUS or COUNTED not ending: a pending trigger begins the next emission. -/
def continueStream (st : StreamId) (s : State) : Releasing :=
  let x := s.stream st
  if x.pendingTrigger then startEmission st (s.setStream st { x with pendingTrigger := false }) else .nothing s

/-- R159: the end of a COUNTED run, with its notice. -/
def finishStream (st : StreamId) (s : State) : Releasing :=
  { restStream st .done s with state := raise (doneNotice st) (restStream st .done s).state }

/-- R159: what a completion does at its own stream, after the partner has its trigger. -/
def afterCompletion (st : StreamId) (s : State) : Releasing :=
  let x := s.stream st
  match x.state with
  | .running =>
    match x.config.countMode with
    | .continuous => continueStream st s
    | .counted =>
      let s := s.setStream st { x with remaining := x.remaining - 1 }
      if x.remaining - 1 = 0 then finishStream st s else continueStream st s
  | .stopping => restStream st .stopped s
  | .stopped | .done => .nothing s

/-- R159: the completion of the emission in flight. -/
def completeEmission (st : StreamId) (s : State) : State :=
  let x := s.stream st
  match x.inFlight with
  | none => s
  | some e =>
    if reached s.timebase e.deadline then
      let s := s.setStream st { x with inFlight := none, sent := some (outputFrame s x e) }
      ((offerTrigger .chain st.partner s).andThen (afterCompletion st)).settle
    else s

/-- R150: an expiry of the stream timer. -/
def expireStreamTimer (st : StreamId) (s : State) : State :=
  match expired s.timebase (s.stream st).timer with
  | none => s
  | some t =>
    (triggerStream st (s.modStream st fun x => { x with timer := some (timeAfter t x.config.period) })).settle

/-- R158: the lines of the emission in flight that have left the port, one per line period from its start, and all of them
at its end (log 19). -/
def linesOut (s : State) (st : StreamId) : Option Nat :=
  (s.stream st).inFlight.map fun e =>
    let c := (s.stream st).config
    min c.height ((timeDiff s.timebase e.start).toNat * 16 / c.linePeriod)

end Sys2Proof.Machine
end

