-- ==== Sys2Proof/Machine/Stepper.lean ====
section
/-! DEFINITION. The View Stepper: composing a view record, the append with its overwrite, pending pins and VIEW triggers,
and the reading of the ring (chapter 4). -/

namespace Sys2Proof.Machine

open Sys2Proof

/-! ## Composing (R75 to R81) -/

/-- A source named in a record, with its frame and what its alignment gives. -/
structure Named where
  source : Source
  buffer : BufferId
  info : FrameMeta
  used : ReportUsed
  alignment : Alignment
  window : Window
  edge : Bool
  uncalibrated : Bool
  deriving DecidableEq, Repr

/-- R78, R79: a source and one of its frames, at a view zoom. -/
def nameFrame (s : State) (zoom : Nat) (i : Source) (b : BufferId) : Option Named :=
  (s.buffer b).info.map fun m =>
    let used := reportUsed s i m
    let a := alignmentAt used.focus (s.calTable i)
    let w := cropWindow (s.enr i) a zoom used
    { source := i, buffer := b, info := m, used := used, alignment := a, window := w.1, edge := w.2
      uncalibrated := (s.calTable i).isEmpty }

/-- The step's frame: its source and its buffer; a timer step has none (R73). -/
abbrev StepFrame := Option (Source × BufferId)

/-- R76: the primary's frame is the step's frame when it is the primary's, and its newest READY frame otherwise. -/
def primaryFrame (s : State) (step : StepFrame) (p : Source) : Option BufferId :=
  match step with
  | some (i, b) => if i = p then some b else newestReady s p
  | none => newestReady s p

/-- R76: the primary named in the record; a primary without a READY frame names none (log 14). -/
def namedPrimary (s : State) (step : StepFrame) : Option Named :=
  s.handoff.primary.bind fun p => (primaryFrame s step p).bind fun b => nameFrame s s.handoff.viewZoom p b

/-- R77: the secondary, in CROSSFADE only: the record's to source with its weight. -/
def namedSecondary (s : State) : Option (Named × Nat) :=
  s.handoff.record.bind fun r =>
    if r.phase = .crossfade then
      (newestReady s r.dst).bind fun b => (nameFrame s s.handoff.viewZoom r.dst b).map fun n => (n, r.weight)
    else none

def Named.primaryPart (n : Named) : PrimaryPart :=
  { source := n.source, frame := n.info.frame, buffer := n.buffer, window := n.window, focus := n.used.focus }

/-- R77, R101: the relative roll is the secondary's less the primary's. -/
def Named.secondaryPart (n : Named) (p : Named) (weight : Nat) : SecondaryPart :=
  { source := n.source, frame := n.info.frame, buffer := n.buffer, window := n.window,
    roll := n.alignment.roll - p.alignment.roll, weight := weight }

/-- R80. -/
def isUnpaired (s : State) (p q : Named) : Bool := !pairedStarts s.params.pairingWindow q.info.start p.info.start

/-- R80. -/
def isHeldSecondary (s : State) (q : Named) : Bool :=
  decide (s.view.lastSecondary = some (q.source, q.info.frame))

/-- R78 to R81: the eleven flags. -/
def recordFlags (s : State) (p : Option Named) (q : Option Named) : ViewFlags :=
  { noSource := p.isNone
    clamped := decide (s.handoff.viewZoom ≠ s.planner.commanded)
    cut := s.handoff.marks.cut
    forced := s.handoff.marks.forced
    aborted := s.handoff.marks.aborted
    reversed := s.handoff.marks.reversed
    staleReport := (p.any fun n => n.used.stale) || (q.any fun n => n.used.stale)
    unpaired := match p, q with
      | some p, some q => isUnpaired s p q
      | _, _ => false
    heldSecondary := q.any fun n => isHeldSecondary s n
    uncalibrated := (p.any fun n => n.uncalibrated) || (q.any fun n => n.uncalibrated)
    edge := (p.any fun n => n.edge) || (q.any fun n => n.edge) }

/-- R75: the record of a step, from the state after the controller's update and the want writes. -/
def composeRecord (s : State) (step : StepFrame) (timestamp : Time) : ViewRecord :=
  let p := namedPrimary s step
  let q := if p.isSome then namedSecondary s else none
  { seq := s.view.nextSeq
    timestamp := timestamp
    commanded := s.planner.commanded
    view := s.handoff.viewZoom
    phase := s.handoff.record.map fun r => r.phase
    primary := p.map fun n => n.primaryPart
    secondary := match p, q with
      | some p, some (q, w) => some (q.secondaryPart p w)
      | _, _ => none
    tag := s.planner.currentTag
    flags := recordFlags s p (q.map fun x => x.1) }

/-! ## Appending (R82 to R84, R88) -/

/-- The ring holds at most 32 records (R82). -/
def ringSize : Nat := 32

/-- The buffers a stream's pending pins on a record name. -/
def Stream.pinsOn (x : Stream) (seq : Seq) : List BufferId :=
  (x.pendingSet.filter fun p => decide (p.seq = seq)).flatMap fun p => p.buffers

/-- R84: the pending pin on an overwritten record goes, and a RUNNING SEQUENTIAL stream that held one is marked. -/
def Stream.lose (x : Stream) (seq : Seq) : Stream :=
  { x with
    skip := x.skip || ((x.pendingSet.any fun p => decide (p.seq = seq)) && decide (x.state = .running)
      && decide (x.config.take = .sequential))
    pendingSet := x.pendingSet.filter fun p => decide (p.seq ≠ seq) }

/-- R84: a link whose cursor names the overwritten record. -/
def overrunLink (seq : Seq) (s : State) (l : Link) : State :=
  if s.view.cursors.get l = seq then raiseOn l (.part .cursorOverrun) s else s

/-- R84: the oldest record is overwritten, and leaves the ring with its pending pins. -/
def overwriteOldest (s : State) : Releasing :=
  match s.view.ring with
  | [] => .nothing s
  | o :: rest =>
    let names := (s.stream .p).pinsOn o.seq ++ (s.stream .r).pinsOn o.seq
    let s := (s.modStream .p fun x => x.lose o.seq).modStream .r fun x => x.lose o.seq
    let s := [Link.al, Link.ml].foldl (overrunLink o.seq) s
    { state := s.setView { s.view with ring := rest }, names := names }

/-- R83: a pending pin on the new record for one stream. -/
def placePending (r : ViewRecord) (s : State) (st : StreamId) : State :=
  let x := s.stream st
  if decide (x.state = .running) && decide (x.config.take = .sequential) then
    let names := holdNames s r
    addPins names (s.setStream st { x with pendingSet := x.pendingSet ++ [{ seq := r.seq, buffers := names }] })
  else s

/-- R82, R75: the record takes its place at the newest end, and the last secondary follows it (R80). -/
def pushRecord (r : ViewRecord) (s : State) : State :=
  s.setView
    { s.view with ring := s.view.ring ++ [r], nextSeq := s.view.nextSeq + 1,
                  lastSecondary := r.secondary.map fun q => (q.source, q.frame) }

/-- R82, R84: a full ring makes room. -/
def roomInRing (s : State) : Releasing :=
  if ringSize ≤ s.view.ring.length then overwriteOldest s else .nothing s

/-- R82, R83: the record stands in the ring with its pending pins. -/
def placeRecord (r : ViewRecord) (s : State) : State := StreamId.all.foldl (placePending r) (pushRecord r s)

/-- R82 to R84, R88: the append. The overwrite and the takes are parts of one view step, so their holds go together
(R116; log 12). -/
def appendRecord (r : ViewRecord) (s : State) : State :=
  ((roomInRing s).andThen fun s => offerBoth .view (placeRecord r s)).settle

/-- R69: once handed over, the marks are cleared. -/
def clearMarks (s : State) : State := s.setHandoff { s.handoff with marks := .empty }

/-- R75: the step's record is composed and appended. -/
def composeAndAppend (step : StepFrame) (timestamp : Time) (s : State) : State :=
  appendRecord (composeRecord s step timestamp) (clearMarks s)

/-! ## Reading (R85, R86) -/

/-- The sequence of the oldest present record, the next sequence when the ring is empty (R85, R170). -/
def oldestSeq (v : ViewStepper) : Seq :=
  match v.ring with
  | [] => v.nextSeq
  | r :: _ => r.seq

inductive CursorPlace where
  | newest
  | inside
  | outside
  deriving DecidableEq, Repr

/-- R85. -/
def cursorPlace (v : ViewStepper) (cursor : Seq) : CursorPlace :=
  if cursor = v.nextSeq then .newest
  else if (cursor - oldestSeq v).toNat < (v.nextSeq - oldestSeq v).toNat then .inside
  else .outside

/-- The records from a present sequence onward, as many as are wanted and present. -/
def recordsFrom (v : ViewStepper) (start : Seq) (wanted : Nat) : List ViewRecord :=
  (v.ring.drop (start - oldestSeq v).toNat).take wanted

/-- R86: the response's status and records, and the cursor after the read. -/
def readRing (v : ViewStepper) (cursor : Seq) (wanted : Nat) : Status × List ViewRecord × Seq :=
  match cursorPlace v cursor with
  | .newest => (.empty, [], cursor)
  | .inside =>
    let rs := recordsFrom v cursor wanted
    (.ok, rs, cursor + BitVec.ofNat 32 rs.length)
  | .outside =>
    let rs := recordsFrom v (oldestSeq v) wanted
    (.overrun, rs, oldestSeq v + BitVec.ofNat 32 rs.length)

end Sys2Proof.Machine
end

