-- ==== Sys2Proof/Machine/Formats.lean ====
section
/-! DEFINITION. The bytes the part sends: response fields, the fetch response, output lines and the trailer (Tables 62 to
70). Where an item is absent and its table names no value for it, its bytes are free (log 18). -/

namespace Sys2Proof.Machine

open Sys2Proof

def zeros (n : Nat) : List Byte := List.replicate n 0

/-- A source's number, 0xFF when absent (Tables 65, 67). -/
def sourceByte : Option Source → List Byte
  | some i => natByte i.number
  | none => [0xFF]

/-- Free bytes from an offset on (log 18). -/
def freeBytes (byte : Nat → Byte) (offset n : Nat) : List Byte := (List.range n).map fun k => byte (offset + k)

/-- A free whole number of at most `most`, at an offset of 2 bytes (log 18). -/
def freeUpTo (byte : Nat → Byte) (offset most : Nat) : Nat :=
  ((byte offset).toNat * 256 + (byte (offset + 1)).toNat) % (most + 1)

/-- A 32-bit value at an offset, free bytes when absent. -/
def wordOr (byte : Nat → Byte) (offset : Nat) : Option (BitVec 32) → List Byte
  | some w => wordBytes w
  | none => freeBytes byte offset 4

/-! ## View records (Table 65) -/

def windowBytes (w : Window) : List Byte := natHalf w.x ++ natHalf w.y ++ natHalf w.width ++ natHalf w.height

/-- Offsets 16 to 29. -/
def primaryBytes : Option PrimaryPart → List Byte
  | some p =>
    natByte p.source.number ++ natByte p.buffer.val ++ halfBytes p.frame ++ windowBytes p.window ++ natHalf p.focus
  | none => 0xFF :: zeros 13

/-- Offsets 30 to 44. -/
def secondaryBytes : Option SecondaryPart → List Byte
  | some q =>
    natByte q.source.number ++ natByte q.buffer.val ++ halfBytes q.frame ++ windowBytes q.window ++ intHalf q.roll
      ++ natByte q.weight
  | none => 0xFF :: zeros 14

/-- Table 65: 48 bytes. -/
def recordBytes (r : ViewRecord) : List Byte :=
  wordBytes r.seq ++ wordBytes r.timestamp ++ natHalf r.commanded ++ natHalf r.view ++ natByte (phaseNumber r.phase)
    ++ [r.tag] ++ natHalf r.flags.bits ++ primaryBytes r.primary ++ secondaryBytes r.secondary ++ zeros 3

/-- Table 68: READ_VIEW_RECORDS. -/
def recordsResponse (rs : List ViewRecord) : List Byte := natByte rs.length ++ rs.flatMap recordBytes

/-! ## Source status (Table 66) -/

/-- R26: the remaining time of a deadline in milliseconds rounded up, 0xFFFF when it is not running; one already reached
has none remaining (log 17). -/
def remainingMs (now : Time) : Option Time → List Byte
  | some d => natHalf (ceilDiv (timeDiff d now).toNat 1000)
  | none => [0xFF, 0xFF]

/-- Table 66, offsets 6 to 8: the chain, 0xFF past its length. -/
def chainBytes (chain : List BufferId) : List Byte :=
  ((chain.map fun (b : BufferId) => BitVec.ofNat 8 b.val) ++ List.replicate 3 0xFF).take 3

/-- Table 66, offset 2. -/
def SourceRecord.flagBits (r : SourceRecord) : Nat :=
  bitAt 0 r.want + bitAt 1 r.lastStopUnconfirmed + bitAt 2 r.withdrawPending + bitAt 3 r.locked
    + bitAt 4 r.lastCompleted.isSome

/-- Table 66, offset 13. -/
def lastCompletedBytes (byte : Nat → Byte) : Option FrameNo → List Byte
  | some n => halfBytes n
  | none => freeBytes byte 13 2

/-- Table 66: 23 bytes; `byte` gives those of an absent frame number (log 18). -/
def sourceStatus (byte : Nat → Byte) (now : Time) (i : Source) (r : SourceRecord) : List Byte :=
  natByte i.number ++ natByte r.state.number ++ natByte r.flagBits
    ++ natByte ((r.faultCause.map FaultCause.number).getD 0) ++ [r.refusalCode.getD 0] ++ natByte r.chain.length
    ++ chainBytes r.chain ++ natByte r.claim ++ natByte r.qualify ++ natByte r.bad ++ natByte r.matchCount
    ++ lastCompletedBytes byte r.lastCompleted ++ remainingMs now r.warm ++ remainingMs now r.linger
    ++ remainingMs now r.stop ++ remainingMs now r.stall

/-! ## Part status (Table 67) -/

/-- Table 67, offset 3. -/
def HandoffRecord.flagBits (r : HandoffRecord) : Nat :=
  bitAt 0 r.reversed + bitAt 1 r.forced + bitAt 2 r.cut + bitAt 3 (decide (r.direction = .up))

/-- Offsets 2 to 6: phase, record flags, from, to, phase step count. Without a record the four flags and the count, 0 to 8
(Table 22), are free; the other flag bits have no meaning and are zero (10.10; log 18). -/
def handoffBytes (byte : Nat → Byte) (record : Option HandoffRecord) : List Byte :=
  match record with
  | some r =>
    natByte (phaseNumber (some r.phase)) ++ natByte r.flagBits ++ natByte r.src.number ++ natByte r.dst.number
      ++ natByte r.count
  | none => natByte (phaseNumber none) ++ [byte 3 &&& 0x0F] ++ [0xFF, 0xFF] ++ natByte (freeUpTo byte 6 8)

/-- Offset 8: the weight, free in 0 to 256 without a record (Table 67; log 18). -/
def weightBytes (byte : Nat → Byte) (record : Option HandoffRecord) : List Byte :=
  match record with
  | some r => natHalf r.weight
  | none => natHalf (freeUpTo byte 8 256)

/-- Table 67, offset 20. -/
def bankBits (p : Pool) : Nat :=
  p.banks.a.state.number + 4 * p.banks.b.state.number + 16 * p.banks.c.state.number + 64 * p.banks.d.state.number

/-- Table 67, offsets 22 to 25: source in bits 4 to 7, outstanding in bits 0 to 3; 0xFF when unused. -/
def claimBytes (s : State) : List Byte :=
  ((s.pool.claimQueue.map fun (i : Source) => BitVec.ofNat 8 (16 * i.number + (s.src i).claim)) ++ List.replicate 4 0xFF).take 4

/-- Table 67, offset 34. -/
def partFlagBits (s : State) : Nat :=
  bitAt 0 s.planner.ramp.isSome + bitAt 1 s.view.timer.isSome + bitAt 2 s.triggers.trg0.lastEdge.isSome
    + bitAt 3 s.triggers.trg1.lastEdge.isSome

/-- Table 67: 48 bytes; `byte` gives those of an absent record and of absent edge times (log 18). -/
def partStatus (byte : Nat → Byte) (s : State) : List Byte :=
  natByte s.handoff.state.number ++ sourceByte s.handoff.primary ++ handoffBytes byte s.handoff.record
    ++ natByte s.planner.queue.length ++ weightBytes byte s.handoff.record
    ++ natHalf s.planner.commanded ++ natHalf s.handoff.viewZoom ++ [s.planner.currentTag, s.planner.lastReachedTag]
    ++ wordOr byte 16 (s.handoff.record.map fun r => r.startSeq) ++ natByte (bankBits s.pool)
    ++ natByte s.pool.claimQueue.length ++ claimBytes s ++ wordBytes s.view.nextSeq ++ wordBytes (oldestSeq s.view)
    ++ natByte (partFlagBits s) ++ zeros 1 ++ wordBytes s.timebase ++ wordOr byte 40 s.triggers.trg0.lastEdge
    ++ wordOr byte 44 s.triggers.trg1.lastEdge

/-! ## Other responses (Table 68) -/

/-- R169: part code, revision, the six counts, and the initialising flag. -/
def identityBytes (initialising : Bool) : List Byte :=
  natHalf 0x4D34 ++ natByte 0x12 ++ natByte 4 ++ natByte 12 ++ natByte 32 ++ natByte 8 ++ natByte 8 ++ natByte 2
    ++ natByte (bitAt 0 initialising)

def calPointBytes (p : CalPoint) : List Byte :=
  natHalf p.focus ++ natHalf p.scale ++ intHalf p.offsetX ++ intHalf p.offsetY ++ intHalf p.roll

def calResponse (t : List CalPoint) : List Byte := natByte t.length ++ t.flatMap calPointBytes

/-! ## The fetch response (Table 62, R163) -/

def responseBytes (r : Response) : List Byte :=
  [r.code, r.status.value] ++ natHalf r.fields.length ++ r.fields

/-- What follows the first byte of a fetch frame. -/
def fetchAnswer : ResponseState → List Byte
  | .none => [0x80]
  | .pending _ _ _ => [0x81]
  | .ready r => 0x82 :: responseBytes r

/-- The bytes shifted out in a fetch frame of n bytes: 0x00 first, then the answer, then 0x00 (R163). -/
def fetchShifted (r : ResponseState) (n : Nat) : List Byte := (((0 : Byte) :: fetchAnswer r) ++ zeros n).take n

/-! ## Output lines and the trailer (R178, Table 70) -/

def pixelBytes (p : Pixel) : List Byte :=
  halfBytes (p.c0.setWidth 16) ++ halfBytes (p.c1.setWidth 16) ++ halfBytes (p.c2.setWidth 16)

def lineBytes (row : List Pixel) : List Byte := row.flatMap pixelBytes

/-- The free bytes of a trailer (log 18). -/
def Trailer.freeByte (t : Trailer) (offset : Nat) : Byte := Config.freeTrailerByte t.stream.number t.start.toNat offset

/-- Table 70, offset 2; the two report flags of an absent report are free (log 18). -/
def Trailer.flagByte (t : Trailer) : Byte :=
  BitVec.ofNat 8
      (bitAt 0 t.lost + bitAt 1 t.skipped + bitAt 2 t.currentSeq.isSome + bitAt 3 t.shownSeq.isSome
        + bitAt 4 t.report.isSome)
    ||| match t.report with
      | some r => BitVec.ofNat 8 (bitAt 5 r.focusMoving + bitAt 6 r.exposureChanging)
      | none => t.freeByte 2 &&& 0x60

/-- Table 70: 28 bytes. -/
def trailerBytes (t : Trailer) : List Byte :=
  natByte t.stream.number ++ natByte t.kind.number ++ [t.flagByte] ++ zeros 1 ++ halfBytes t.number
    ++ natHalf t.shownFlags.bits ++ wordBytes t.start ++ wordOr t.freeByte 12 t.currentSeq ++ wordOr t.freeByte 16 t.shownSeq
    ++ natHalf t.remaining ++ zeros 2 ++ wordBytes (BitVec.ofNat 32 ((t.report.map fun r => r.exposure).getD 0))

/-- The bytes of a whole frame on the port: its lines, then its trailer. -/
def OutputFrame.bytes (f : OutputFrame) : List Byte := f.rows.flatMap lineBytes ++ trailerBytes f.trailer

end Sys2Proof.Machine
end

