-- ==== Sys2Proof/Machine/Planner.lean ====
section
/-! DEFINITION. The Zoom Planner: posting and removing zoom requests, the ramp, the planned want set, and the view step as a
whole, in the order R43 gives (chapter 2). -/

namespace Sys2Proof.Machine

open Sys2Proof

/-! ## Requests (R28 to R31) -/

/-- The queue holds at most 8 requests (R29). -/
def zoomQueueSize : Nat := 8

/-- The sources not in ABSENT. -/
def enrolled (s : State) : List Source := Source.all.filter fun i => decide ((s.src i).state ≠ .absent)

/-- R28: the interval a target is clamped into. -/
def zoomInterval (s : State) : Nat × Nat :=
  match enrolled s with
  | [] => (64, 12800)
  | i :: rest =>
    (rest.foldl (fun m j => min m (s.enr j).base) (s.enr i).base,
     rest.foldl (fun m j => max m (s.enr j).limit) (s.enr i).limit)

/-- R28: the clamped target. -/
def clampTarget (s : State) (target : Nat) : Nat := clampTo (zoomInterval s).1 (zoomInterval s).2 target

/-- R29: a request joins the tail of the queue. -/
def appendZoom (z : ZoomRequest) (s : State) : State :=
  s.setPlanner { s.planner with queue := s.planner.queue ++ [z] }

/-- R30: a request replaces the queue and ends the ramp, with ZOOM_DISCARDED when one was discarded. -/
def replaceZoom (z : ZoomRequest) (s : State) : State :=
  let discarded := !s.planner.queue.isEmpty || s.planner.ramp.isSome
  let s := s.setPlanner { s.planner with queue := [z], ramp := none }
  if discarded then raise (.part .zoomDiscarded) s else s

/-- R31. -/
def flushZoom (s : State) : State := s.setPlanner { s.planner with queue := [], ramp := none }

/-! ## The ramp (R33 to R35) -/

/-- R33: the ramp of the step, the one already active or the head of the queue. -/
def Planner.activate (p : Planner) : Planner :=
  match p.ramp, p.queue with
  | some _, _ => p
  | none, [] => p
  | none, z :: rest =>
    { p with queue := rest, currentTag := z.tag,
             ramp := some { origin := p.commanded, target := z.target, steps := z.steps, index := 0, tag := z.tag } }

/-- R34: the commanded zoom after the advance to index k. -/
def Ramp.zoomAt (r : Ramp) (k : Nat) : Nat :=
  if r.steps = 0 then r.target
  else ((r.origin : Int) + Int.tdiv (((r.target : Int) - r.origin) * k) r.steps).toNat

/-- R34, R35: the ramp advances by one, and whether it reached its target. -/
def Planner.advance (p : Planner) : Planner × Bool :=
  match p.ramp with
  | none => (p, false)
  | some r =>
    let k := if r.steps = 0 then 0 else r.index + 1
    let p := { p with commanded := r.zoomAt k }
    if k = r.steps then ({ p with ramp := none, lastReachedTag := r.tag }, true)
    else ({ p with ramp := some { r with index := k } }, false)

/-- R33 to R35: the planner's first act in a view step. -/
def advanceRamp (s : State) : State :=
  let p := s.planner.activate.advance
  let s := s.setPlanner p.1
  if p.2 then raise (.handoff .zoomReached) s else s

/-! ## The want set (R41, R42) -/

/-- R41: the primary and the members of the record after the controller's update. -/
def viewMembers (s : State) : List Source :=
  s.handoff.primary.toList ++
    (match s.handoff.record with
      | some r => [r.src, r.dst]
      | none => [])

/-- The union of two sets of sources. -/
def SourceSet.union (a b : SourceSet) : SourceSet := PerSource.tabulate fun i => a.get i || b.get i

/-- R42: the planned want set is stored, and want is written with the keep-warm mask added. -/
def storeAndWrite (planned : List Source) (s : State) : State :=
  let set := SourceSet.ofList planned
  let s := s.setPlanner { s.planner with planned := set }
  writeWants (SourceSet.union set s.planner.keepWarm) s

/-- R25: SET_KEEP_WARM's mask. -/
def setKeepWarm (mask : SourceSet) (s : State) : State :=
  let s := s.setPlanner { s.planner with keepWarm := mask }
  writeWants (SourceSet.union mask s.planner.planned) s

/-! ## The view step -/

/-- The buffer of the primary's frame of the step (R52). -/
def stepBuffer (step : StepFrame) : Option BufferId := step.map fun x => x.2

/-- R68: the view zoom derived after the update. -/
def deriveViewZoom (s : State) : State := s.setHandoff { s.handoff with viewZoom := viewZoomFor s s.planner.commanded }

/-- R43, R49, R75: a view step. The ramp first; then Q, V, W and the approach sources; the controller's update and the view
zoom; the want set; the record. -/
def viewStep (step : StepFrame) (timestamp : Time) (s : State) : State :=
  let s := advanceRamp s
  let c := s.planner.commanded
  let q := reference s
  let w := wanted s q c
  let near := approachSources s q c
  let s := deriveViewZoom (handoffStep w (stepBuffer step) s)
  let s := storeAndWrite (q.toList ++ w.toList ++ viewMembers s ++ near) s
  composeAndAppend step timestamp s

/-- R74: the expiry of the view timer; the next deadline is set first, and a first primary stops it within the step. -/
def expireViewTimer (s : State) : State :=
  match expired s.timebase s.view.timer with
  | none => s
  | some t =>
    viewStep none t (s.setView { s.view with timer := some (timeAfter t s.params.viewTimerPeriod) })

end Sys2Proof.Machine
end

