-- ==== Sys2Proof/Machine/Reports.lean ====
section
/-! DEFINITION. The Module Report Unit: accepting a report and matching at a good frame end (chapter 7). -/

namespace Sys2Proof.Machine

open Sys2Proof

/-- A report queue holds at most 4 reports (R128). -/
def reportQueueSize : Nat := 4

/-- R128: a frame number not later than the source's last completed frame number. -/
def isLate (last : Option FrameNo) (frame : FrameNo) : Bool :=
  match last with
  | none => false
  | some l => !frameLater frame l

/-- R128: the queue after the acceptance of a report, and whether the head was displaced. -/
def ReportUnit.accept (u : ReportUnit) (r : Report) : ReportUnit × Bool :=
  if u.queue.length < reportQueueSize then ({ u with queue := u.queue ++ [r] }, false)
  else ({ u with queue := u.queue.tail ++ [r] }, true)

/-- R129: the queued reports with frame number n, accepted latest last. -/
def ReportUnit.forFrame (u : ReportUnit) (n : FrameNo) : List Report := u.queue.filter fun r => decide (r.frame = n)

/-- R129: the matching of frame n: the unit after it and the report matched. -/
def ReportUnit.matching (u : ReportUnit) (n : FrameNo) : ReportUnit × Option Report :=
  let found := (u.forFrame n).getLast?
  ({ queue := u.queue.filter fun r => frameLater r.frame n, current := found.or u.current }, found)

end Sys2Proof.Machine
end

