-- ==== Sys2Proof/Machine/Transitions.lean ====
section
/-! DEFINITION. The Source Table's moves that the Hand-off Controller is informed of: STOPPING, HELD and FAULTED, the bad
frame and the qualification (chapter 1). -/

namespace Sys2Proof.Machine

open Sys2Proof

/-- A source in STANDBY or LIVE (R11). -/
def SourceState.shownOrReady : SourceState → Bool
  | .standby | .live => true
  | .absent | .off | .requested | .warming | .stopping | .held | .faulted => false

/-- What every entry to STOPPING, HELD or FAULTED does besides its own state: the claim is cancelled before the chain is
released, R24 applies to a source that was streaming, and its pulses stop (R13, R16, R19, R24, R118, R124, R137). -/
def shutDown (i : Source) (was : SourceState) (s : State) : State :=
  let s := s.modSrc i fun r => { r with warm := none, linger := none }
  let s := releaseChain i (cancelClaim i s)
  let s := if was.streaming then leaveStreaming i s else s
  stopPulsing i s

/-- R11: a departure from STANDBY or LIVE informs the controller. -/
def informDeparture (i : Source) (was : SourceState) (s : State) : State := if was.shownOrReady then departure i s else s

/-- R13: entry to STOPPING. -/
def enterStopping (i : Source) (s : State) : State :=
  let was := (s.src i).state
  let s := s.modSrc i fun r =>
    { r with state := .stopping, stop := some (timeAfter s.timebase (msToUs s.params.stopTimeout)) }
  informDeparture i was (raiseSrc i .stopWanted (shutDown i was s))

/-- R23: a withdrawal that waits ends the state in ABSENT. -/
def absentIfPending (i : Source) (s : State) : State := if (s.src i).withdrawPending then enterAbsent i s else s

/-- R16: entry to HELD. -/
def enterHeld (i : Source) (s : State) : State :=
  let was := (s.src i).state
  let s := s.modSrc i fun r => { r with state := .held, stop := none, faultCause := none, refusalCode := none }
  informDeparture i was (absentIfPending i (shutDown i was s))

/-- R19, R8, R9: whether entry to FAULTED raises STOP_WANTED. From REQUESTED the rule names WARM_TIMEOUT (raised) and
REFUSED (not raised); for another cause it is silent, and the answer is the free bit (log 10). -/
def stopWantedOnFault (was : SourceState) (cause : FaultCause) (freeBit : Bool) : Bool :=
  match was with
  | .warming | .standby | .live => true
  | .requested =>
    match cause with
    | .warmTimeout => true
    | .refused => false
    | .stall | .badFrames | .moduleFault => freeBit
  | .absent | .off | .stopping | .held | .faulted => false

/-- R19: entry to FAULTED. -/
def enterFaulted (i : Source) (cause : FaultCause) (s : State) : State :=
  let was := (s.src i).state
  let raises := stopWantedOnFault was cause (Config.freeBit s.free)
  let s := { s with free := s.free + 1 }
  let s := s.modSrc i fun r => { r.unlock with state := .faulted, stop := none, faultCause := some cause }
  let s := raiseSrc i .faulted (shutDown i was s)
  let s := if raises then raiseSrc i .stopWanted s else s
  informDeparture i was (absentIfPending i s)

/-- R21: a bad frame is counted, and at BAD_FRAME_LIMIT the source is faulted. -/
def countBadFrame (i : Source) (s : State) : State :=
  let s := s.modSrc i fun r => { r with bad := r.bad + 1, qualify := 0 }
  if s.params.badFrameLimit ≤ (s.src i).bad then enterFaulted i .badFrames s else s

/-- R10: the four conditions. -/
def qualifies (i : Source) (s : State) : Bool :=
  let r := s.src i
  decide (s.params.qualifyFrames ≤ r.qualify) && decide (r.chain.length = 3) && !(s.calTable i).isEmpty
    && (decide ((s.enr i).syncMode ≠ .follow) || s.handoff.primary.isNone || r.locked)

/-- R10: WARMING to STANDBY. -/
def qualifyNow (i : Source) (s : State) : State :=
  let s := s.modSrc i fun r => { r with warm := none }
  informStandby i (raiseSrc i .ready (moveToStandby i s))

/-- R10, R130: the qualify count at a good frame end in WARMING, and the test. -/
def warmingFrame (i : Source) (reported : Bool) (s : State) : State :=
  if reported then
    let s := s.modSrc i fun r => { r with qualify := min 8 (r.qualify + 1) }
    if qualifies i s then qualifyNow i s else s
  else raiseSrc i .reportMissing (s.modSrc i fun r => { r with qualify := 0 })

/-! ## The four deadlines of a source -/

/-- R9. -/
def expireWarm (i : Source) (s : State) : State :=
  match expired s.timebase (s.src i).warm with
  | none => s
  | some _ => enterFaulted i .warmTimeout s

/-- R12. -/
def expireLinger (i : Source) (s : State) : State :=
  match expired s.timebase (s.src i).linger with
  | none => s
  | some _ => enterStopping i s

/-- R14: the stop ends unconfirmed. -/
def expireStop (i : Source) (s : State) : State :=
  match expired s.timebase (s.src i).stop with
  | none => s
  | some _ =>
    enterOff i (raiseSrc i .stopped (s.modSrc i fun r => { r with stop := none, lastStopUnconfirmed := true }))

/-- R20. -/
def expireStall (i : Source) (s : State) : State :=
  match expired s.timebase (s.src i).stall with
  | none => s
  | some _ => enterFaulted i .stall s

end Sys2Proof.Machine
end

