-- ==== Sys2Proof/Machine/Intake.lean ====
section
/-! DEFINITION. The Frame Intake: what each camera packet does (R104 to R111, R178). -/

namespace Sys2Proof.Machine

open Sys2Proof

/-! ## Bad frames (R110) -/

/-- R110: the FILLING buffer of a port, if there is one, returns to EMPTY, and the context becomes IDLE. -/
def abandonFilling (i : Source) (s : State) : State :=
  match s.port i with
  | .idle => s
  | .filling b _ _ _ _ => (s.modBuffer b fun x => x.cleared .empty).setPort i .idle

/-- R110: a bad frame. -/
def badFrame (i : Source) (s : State) : State := countBadFrame i (abandonFilling i s)

/-! ## FRAME_START (R105 to R107) -/

/-- R106, R20, R139, R142: the start time is handed to the Source Table and the Lock Monitor, and when the source is the
primary each follower's pulse is formed. -/
def stampStart (i : Source) (s : State) : State :=
  let now := s.timebase
  let stall := stallFrom s i now
  let s := s.modSrc i fun r => { r with lastStart := some now, stall := some stall }
  let s := judgeLock i now s
  if s.handoff.primary = some i then paceFollowers i now s else s

/-- R107: the chosen buffer becomes FILLING, and the context with it. -/
def beginFilling (i : Source) (b : BufferId) (number : FrameNo) (s : State) : State :=
  (s.modBuffer b fun x => x.cleared .filling).setPort i (.filling b number s.timebase 0 0)

/-- R107, R10: the frame is dropped for lack of a buffer. -/
def dropFrame (i : Source) (s : State) : State :=
  let s := if (s.src i).state = .warming then s.modSrc i fun r => { r with qualify := 0 } else s
  raiseSrc i .drop s

/-- R106: a FRAME_START taken from an IDLE context. -/
def takeFrameStart (i : Source) (number width height : Half) (s : State) : State :=
  let s := stampStart i s
  if width.toNat ≠ (s.enr i).width || height.toNat ≠ (s.enr i).height then badFrame i s
  else
    match fillChoice s i with
    | some b => beginFilling i b number s
    | none => dropFrame i s

/-- R104, R105: a FRAME_START at a port. -/
def intakeFrameStart (i : Source) (number width height : Half) (s : State) : State :=
  if !(s.src i).state.streaming then s
  else
    let s := match s.port i with
      | .idle => s
      | .filling _ _ _ _ _ => badFrame i s
    if (s.src i).state.streaming then takeFrameStart i number width height s else s

/-! ## LINE (R108, R178) -/

/-- R108, R178: in order and of the right length. -/
def lineGood (e : Enrolment) (lines : Nat) (number : Half) (data : List Byte) : Bool :=
  decide (number.toNat = lines) && decide (lines < e.height) && decide (data.length = 6 * e.width)

/-- R104, R108: a LINE at a port. -/
def intakeLine (i : Source) (number : Half) (data : List Byte) (s : State) : State :=
  if !(s.src i).state.streaming then s
  else
    match s.port i with
    | .idle => s
    | .filling b frame start lines sum =>
      if lineGood (s.enr i) lines number data then
        let row := parsePixels data
        (s.modBuffer b fun x => { x with content := x.content ++ [row] }).setPort i
          (.filling b frame start (lines + 1) (sum + rowSum row))
      else badFrame i s

/-! ## FRAME_END (R109, R111) -/

/-- R111 step 1: the buffer becomes READY with its metadata, and the context IDLE (R109). -/
def completeBuffer (i : Source) (b : BufferId) (frame : FrameNo) (start : Time) (s : State) : State :=
  let m : FrameMeta := { source := i, frame := frame, start := start, finish := s.timebase, report := none }
  (s.modBuffer b fun x => { x with state := .ready, info := some m }).setPort i .idle

/-- R111 step 2, R129: the matching, with the report's copy in the metadata. -/
def matchReport (i : Source) (b : BufferId) (frame : FrameNo) (s : State) : State × Bool :=
  let u := (s.report i).matching frame
  let s := s.setReport i u.1
  match u.2 with
  | some r => (s.modBuffer b fun x => { x with info := x.info.map fun m => { m with report := some r } }, true)
  | none => (s, false)

/-- R111 step 3, R21: the bad count, the last completed frame number, and the qualification in WARMING. -/
def recordGoodFrame (i : Source) (frame : FrameNo) (reported : Bool) (s : State) : State :=
  let s := s.modSrc i fun r => { r with bad := 0, lastCompleted := some frame }
  if (s.src i).state = .warming then warmingFrame i reported s else s

/-- R111: a good frame end; the view step follows when the source was the primary as the frame end was taken (R73). -/
def goodFrame (i : Source) (b : BufferId) (frame : FrameNo) (start : Time) (s : State) : State :=
  let primary := decide (s.handoff.primary = some i)
  let matched := matchReport i b frame (completeBuffer i b frame start s)
  let s := recordGoodFrame i frame matched.2 matched.1
  if primary then viewStep (some (i, b)) s.timebase s else s

/-- R109: the two tests of a frame end. -/
def frameGood (e : Enrolment) (lines : Nat) (sum count check : Half) : Bool :=
  decide (count.toNat = e.height) && decide (lines = e.height) && decide (check = sum)

/-- R104, R109: a FRAME_END at a port. -/
def intakeFrameEnd (i : Source) (count check : Half) (s : State) : State :=
  if !(s.src i).state.streaming then s
  else
    match s.port i with
    | .idle => s
    | .filling b frame start lines sum =>
      if frameGood (s.enr i) lines sum count check then goodFrame i b frame start s else badFrame i s

end Sys2Proof.Machine
end

