-- ==== Sys2Proof/Machine/Links.lean ====
section
/-! DEFINITION. The Link Controllers: taking a request frame, the checks against the link, a response's readiness, and the
resets (R162 to R166, R175, R176). -/

namespace Sys2Proof.Machine

open Sys2Proof

/-! ## Judging a request (R165, R166) -/

/-- The answer to a request, and the effect that waits for its readiness (log 7). -/
structure Answer where
  status : Status
  fields : List Byte
  deferred : Deferred
  deriving DecidableEq, Repr

/-- What a judgement makes of the state, and its answer. -/
structure Judged where
  state : State
  answer : Answer
  deriving DecidableEq, Repr

/-- A refusal changes nothing and carries no fields (R166). -/
def refuse (st : Status) (s : State) : Judged := ⟨s, ⟨st, [], .nothing⟩⟩

/-- A success that returns nothing. -/
def accept (st : Status) (s : State) : Judged := ⟨s, ⟨st, [], .nothing⟩⟩

/-- OK with response fields. -/
def acceptWith (fields : List Byte) (s : State) : Judged := ⟨s, ⟨.ok, fields, .nothing⟩⟩

/-- OK with an effect at readiness. -/
def acceptLater (d : Deferred) (s : State) : Judged := ⟨s, ⟨.ok, [], d⟩⟩

/-- What a link knows of a request: its field length, whether it is answered during initialisation, and the owning
block's judgement. -/
structure RequestRule where
  lengthOk : Nat → Bool
  early : Bool
  judge : List Byte → State → Judged

/-- A request of one field length that initialisation answers BUSY. -/
def RequestRule.fixed (length : Nat) (judge : List Byte → State → Judged) : RequestRule :=
  { lengthOk := fun n => decide (n = length), early := false, judge := judge }

/-- R165: the checks against the link in their order, then the owning block's rule. -/
def judgeRequest (rule : Option RequestRule) (fields : List Byte) (s : State) : Judged :=
  match rule with
  | none => refuse .unknown s
  | some r =>
    if !r.lengthOk fields.length then refuse .malformed s
    else if s.initialising && !r.early then refuse .busy s
    else r.judge fields s

/-! ## Request frames (R162 to R164) -/

/-- A response becomes ready within 10 µs of the end of its frame (R163). -/
def readyWithin : Nat := 10

/-- R175: the frame is ignored, because RESET_N is low or because it was in progress at a reset. -/
def frameIgnored (l : Link) (s : State) : Bool := s.resetLow || (s.link l).abandoned.isSome

/-- Free values are taken: the model's own counter advances (log 8, log 18). -/
def spendFree (s : State) : State := { s with free := s.free + 1 }

/-- The end of an ignored frame, with the bytes shifted out in it: no frame is in progress from before a reset any more
(R175). -/
def endIgnored (l : Link) (shifted : List Byte) (s : State) : State :=
  s.setLink l { s.link l with abandoned := none, shifted := shifted }

/-- What a frame found in progress by a reset has shifted out at its end: up to the reset, which came after its first k + 1
bytes or later than its end, what it would have without the reset; from there 0x00 while RESET_N is low (R175), and in a frame
that outlasts the low level, or that RESET_PART found, what is free (log 28). -/
def AbandonedFrame.shiftedOut (a : AbandonedFrame) (lowNow : Bool) (k : Nat) (before free : List Byte) : List Byte :=
  before.take (k + 1) ++ (if a.low && lowNow then zeros before.length else free).drop (k + 1)

/-- The end of an ignored frame that is no request frame, with the bytes it would have shifted out by the response state it
met. While RESET_N is low the part shifts out 0x00 (R175; log 27). -/
def ignoreFrame (l : Link) (before : ResponseState → List Byte) (s : State) : State :=
  match (s.link l).abandoned with
  | none => endIgnored l (zeros (before .none).length) s
  | some a =>
    endIgnored l
      (a.shiftedOut s.resetLow (Config.freeCount s.free) (before a.met)
        (freeBytes (Config.freeByte s.free) 0 (before a.met).length))
      (spendFree s)

/-- The end of a frame of no whole byte has no effect (R162), but that a frame in progress at a reset has then ended
(R175). -/
def receiveEmpty (l : Link) (s : State) : State := if (s.link l).abandoned.isSome then endIgnored l [] s else s

/-- A discarded request frame of n bytes raises LINK_ERROR on its link and leaves the response state; the part shifts out
0x00 (R162). -/
def discardFrame (l : Link) (n : Nat) (s : State) : State :=
  raiseOn l (.part .linkError) (s.setLink l { s.link l with shifted := zeros n })

/-- A frame that R162 discards: by its first byte a request frame, or one of 0x80 or above, in which the bytes shifted out
are free (log 8). A request frame shifts out 0x00 also where it is ignored (R162). -/
def discardBytes (l : Link) (bytes : List Byte) (s : State) : State :=
  if (bytes.headD 0).toNat < 0x80 then
    if frameIgnored l s then endIgnored l (zeros bytes.length) s else discardFrame l bytes.length s
  else if frameIgnored l s then ignoreFrame l (fun _ => freeBytes (Config.freeByte s.free) 0 bytes.length) s
  else
    raiseOn l (.part .linkError)
      ((spendFree s).setLink l { s.link l with shifted := freeBytes (Config.freeByte s.free) 0 bytes.length })

def ResponseState.isPending : ResponseState → Bool
  | .pending _ _ _ => true
  | .none | .ready _ => false

/-- R163: a request frame is taken: judged with its effects, and its response pending. -/
def takeRequest (l : Link) (code : Byte) (rule : Option RequestRule) (fields : List Byte) (s : State) : State :=
  let j := judgeRequest rule fields s
  j.state.setLink l
    { response := .pending { code := code, status := j.answer.status, fields := j.answer.fields }
        (timeAfter s.timebase readyWithin) j.answer.deferred
      abandoned := none
      shifted := zeros (2 + fields.length) }

/-- R162 to R164, R175: the end of a request frame, in which the part shifts out 0x00 on every byte, also where it is
ignored. -/
def receiveRequest (l : Link) (code : Byte) (rule : Option RequestRule) (fields : List Byte) (s : State) : State :=
  if frameIgnored l s then endIgnored l (zeros (2 + fields.length)) s
  else if maxFields < fields.length || (s.link l).response.isPending then discardFrame l (2 + fields.length) s
  else takeRequest l code rule fields s

/-- R163: the end of a fetch frame of n bytes. -/
def receiveFetch (l : Link) (n : Nat) (s : State) : State :=
  if frameIgnored l s then ignoreFrame l (fun r => fetchShifted r n) s
  else s.setLink l { s.link l with shifted := fetchShifted (s.link l).response n }

/-! ## Resets (R175, R176) -/

/-- A link's frame in progress after a reset: one that an earlier reset found and that has not ended stays, with RESET_N high
in between unless it is low already; one in progress now is found by this reset, but for one that begins while RESET_N is low
(log 27). -/
def LinkState.abandonedBy (x : LinkState) (inProgress byLow lowAlready : Bool) : Option AbandonedFrame :=
  match x.abandoned with
  | some a => some { a with low := a.low && lowAlready }
  | none => if inProgress && !lowAlready then some { met := x.response, low := byLow } else none

/-- Every block at its reset value; the frames in progress are abandoned (R175), and so stays one that an earlier reset found
in progress and that has not ended. The waiting commands and the free counter are the model's own and stay. -/
def resetBlocks (inProgress : OpenFrames) (byLow : Bool) (s : State) : State :=
  { State.reset with
    pending := s.pending
    free := s.free
    links := ⟨{ LinkState.reset with abandoned := (s.link .al).abandonedBy inProgress.al byLow s.resetLow },
              { LinkState.reset with abandoned := (s.link .ml).abandonedBy inProgress.ml byLow s.resetLow }⟩ }

/-- R175: RESET_N goes low. -/
def resetLow (inProgress : OpenFrames) (s : State) : State :=
  { resetBlocks inProgress true s with resetLow := true, initialising := false }

/-- R175: RESET_N is released and initialisation begins. -/
def resetRelease (s : State) : State := if s.resetLow then { s with resetLow := false, initialising := true } else s

/-- The timebase value at which initialisation ends (R175). -/
def initialisationEnd : Time := 2000

/-- R175, R72: the end of initialisation. -/
def endInitialisation (s : State) : State :=
  if s.initialising && !s.resetLow && reached s.timebase initialisationEnd then
    let s := raise (.part .partReady) { s with initialising := false }
    s.setView { s.view with timer := some (timeAfter s.timebase s.params.viewTimerPeriod) }
  else s

/-! ## Readiness (R163) -/

/-- The response becomes ready, with the effect that is made at that moment (R70, R143, R151, R176; log 7). The reset of the
part loses the response, and finds the link's frame in progress begun while it was pending. -/
def applyDeferred (l : Link) (r : Response) (inProgress : OpenFrames) (d : Deferred) (s : State) : State :=
  let ready := s.setLink l { s.link l with response := .ready r }
  match d with
  | .nothing => ready
  | .setParameter p v => { ready with params := s.params.set v p }
  | .setEdge line e => ready.setTrigger line { s.trigger line with selection := e }
  | .resetPart => resetBlocks inProgress false s

/-- R163: a pending response becomes ready; with none pending nothing happens (log 6). -/
def makeReady (l : Link) (inProgress : OpenFrames) (s : State) : State :=
  match (s.link l).response with
  | .pending r _ d => applyDeferred l r inProgress d s
  | .none | .ready _ => s

end Sys2Proof.Machine
end

