-- ==== Sys2Proof/Machine/EventCommands.lean ====
section
/-! DEFINITION. The resets, the trigger lines and the expiries of the part's deadlines as commands. -/

namespace Sys2Proof.Machine

open Sys2Proof Host

/-! ## Resets (R175) -/

/-- RESET_N_LOW. -/
def execResetNLow (inProgress : OpenFrames) (s : State) : Outcome State Fault Refusal := .next (resetLow inProgress s)

/-- RESET_N_RELEASE. -/
def execResetNRelease (s : State) : Outcome State Fault Refusal := .next (resetRelease s)

/-- END_OF_INITIALISATION. -/
def execEndOfInitialisation (s : State) : Outcome State Fault Refusal := .next (endInitialisation s)

/-! ## Trigger lines (R136, R151) -/

/-- R136: whether an edge's polarity is selected. -/
def EdgeSelection.takes (e : EdgeSelection) (p : Polarity) : Bool :=
  match e, p with
  | .none, _ => false
  | .rising, .rising => true
  | .rising, .falling => false
  | .falling, .rising => false
  | .falling, .falling => true
  | .both, _ => true

def triggerNotice : TriggerLine → Notice
  | .trg0 => .output .trg0
  | .trg1 => .output .trg1

def triggerCause : TriggerLine → Cause
  | .trg0 => .trg0
  | .trg1 => .trg1

/-- R136, R151: a recorded edge is a notice and a trigger. -/
def recordEdge (line : TriggerLine) (s : State) : State :=
  let s := s.setTrigger line { s.trigger line with lastEdge := some s.timebase }
  (offerBoth (triggerCause line) (raise (triggerNotice line) s)).settle

/-- TRIGGER_EDGE. -/
def execTriggerEdge (line : TriggerLine) (polarity : Polarity) (s : State) : Outcome State Fault Refusal :=
  .next (if (s.trigger line).selection.takes polarity then recordEdge line s else s)

/-! ## Deadlines: an expiry whose deadline is not running or not reached changes nothing (R1, R135; log 4) -/

/-- WARM_DEADLINE_EXPIRY (R9). -/
def execWarmDeadlineExpiry (src : Source) (s : State) : Outcome State Fault Refusal := .next (expireWarm src s)

/-- LINGER_DEADLINE_EXPIRY (R12). -/
def execLingerDeadlineExpiry (src : Source) (s : State) : Outcome State Fault Refusal := .next (expireLinger src s)

/-- STOP_DEADLINE_EXPIRY (R14). -/
def execStopDeadlineExpiry (src : Source) (s : State) : Outcome State Fault Refusal := .next (expireStop src s)

/-- STALL_DEADLINE_EXPIRY (R20). -/
def execStallDeadlineExpiry (src : Source) (s : State) : Outcome State Fault Refusal := .next (expireStall src s)

/-- DORMANCY_DEADLINE_EXPIRY (R119). -/
def execDormancyDeadlineExpiry (bank : Bank) (s : State) : Outcome State Fault Refusal := .next (goDormant bank s)

/-- WAKE_COMPLETION (R120). -/
def execWakeCompletion (bank : Bank) (s : State) : Outcome State Fault Refusal := .next (completeWake bank s)

/-- VIEW_TIMER_EXPIRY (R74). -/
def execViewTimerExpiry (s : State) : Outcome State Fault Refusal := .next (expireViewTimer s)

/-- SYNC_PULSE_END (R137). -/
def execSyncPulseEnd (src : Source) (s : State) : Outcome State Fault Refusal := .next (endPulse src s)

/-- NEXT_SYNC_PULSE (R138, R140). -/
def execNextSyncPulse (src : Source) (s : State) : Outcome State Fault Refusal := .next (takeNextPulse src s)

/-- FOLLOW_LIST_PULSE (R139). -/
def execFollowListPulse (src : Source) (s : State) : Outcome State Fault Refusal := .next (takeFollowPulse src s)

/-- STREAM_TIMER_EXPIRY (R150). -/
def execStreamTimerExpiry (st : StreamId) (s : State) : Outcome State Fault Refusal := .next (expireStreamTimer st s)

/-- EMISSION_COMPLETION (R159). -/
def execEmissionCompletion (st : StreamId) (s : State) : Outcome State Fault Refusal := .next (completeEmission st s)

end Sys2Proof.Machine
end

