-- ==== Sys2Proof/Machine/LinkRequests.lean ====
section
/-! DEFINITION. The requests known on both links: READ_IDENTITY, SET_NOTICE_ENABLES, TAKE_NOTICES, READ_VIEW_RECORDS,
READ_SOURCE_STATUS, CLEAR_FAULT. -/

namespace Sys2Proof.Machine

open Sys2Proof Host

/-! ## Which source a request acts on (R2) -/

/-- A source number in a field; a larger value than 3 is answered RANGE (R2). -/
def onSource (number : Nat) (rule : Source → Judged) (s : State) : Judged :=
  match Source.ofNumber number with
  | some i => rule i
  | none => refuse .range s

/-- The link's selected source; one in ABSENT is answered WRONG_STATE (R2, R167). -/
def onSelected (rule : Source → Judged) (s : State) : Judged :=
  if (s.src s.selected).state = .absent then refuse .wrongState s else rule s.selected

/-- A source-directed request known on both links: a source field on AL, the selected source on ML. -/
def onDirected (l : Link) (rule : Source → Judged) (fields : List Byte) (s : State) : Judged :=
  match l with
  | .al =>
    match parseByte fields with
    | some b => onSource b.toNat rule s
    | none => refuse .malformed s
  | .ml => onSelected rule s

/-- Its field length (Table 64). -/
def directedLength : Link → Nat
  | .al => 1
  | .ml => 0

/-! ## READ_IDENTITY (R169) -/

def judgeReadIdentity (_fields : List Byte) (s : State) : Judged := acceptWith (identityBytes s.initialising) s

def readIdentityRule : RequestRule :=
  { lengthOk := fun n => decide (n = 0), early := true, judge := judgeReadIdentity }

def execReadIdentity (l : Link) (fields : List Byte) (s : State) : Outcome State Fault Refusal :=
  .next (receiveRequest l 0x01 (some readIdentityRule) fields s)

/-! ## SET_NOTICE_ENABLES (R172) -/

/-- R172: kinds disabled, then enabled, and the group enable. -/
def Notices.setEnables (n : Notices) (g : Group) (setMask clearMask : Byte) (e : GroupEnable) : Notices :=
  { n with
    kinds := n.kinds.set ((n.kinds.get g &&& ~~~clearMask) ||| (setMask &&& g.kindMask)) g
    groups := match e with
      | .on => n.groups.set true g
      | .off => n.groups.set false g
      | .unchanged => n.groups }

def judgeSetNoticeEnables (l : Link) (fields : List Byte) (s : State) : Judged :=
  match parseEnables fields with
  | none => refuse .malformed s
  | some (g, setMask, clearMask, e) =>
    match Group.ofNumber g, groupEnableOf e with
    | some g, some e => accept .ok (s.setNotice l ((s.notice l).setEnables g setMask clearMask e))
    | _, _ => refuse .range s

def setNoticeEnablesRule (l : Link) : RequestRule := .fixed 4 (judgeSetNoticeEnables l)

def execSetNoticeEnables (l : Link) (fields : List Byte) (s : State) : Outcome State Fault Refusal :=
  .next (receiveRequest l 0x02 (some (setNoticeEnablesRule l)) fields s)

/-! ## TAKE_NOTICES (R174) -/

/-- R174: the kinds named are removed from the group's pending set. -/
def Notices.take (n : Notices) (g : Group) (clearMask : Byte) : Notices :=
  { n with pending := n.pending.set (n.pending.get g &&& ~~~clearMask) g }

def judgeTakeNotices (l : Link) (fields : List Byte) (s : State) : Judged :=
  match parseTake fields with
  | none => refuse .malformed s
  | some (g, clearMask) =>
    match Group.ofNumber g with
    | some group =>
      acceptWith (natByte g ++ [(s.notice l).pending.get group]) (s.setNotice l ((s.notice l).take group clearMask))
    | none => refuse .range s

def takeNoticesRule (l : Link) : RequestRule := .fixed 2 (judgeTakeNotices l)

def execTakeNotices (l : Link) (fields : List Byte) (s : State) : Outcome State Fault Refusal :=
  .next (receiveRequest l 0x03 (some (takeNoticesRule l)) fields s)

/-! ## READ_VIEW_RECORDS (R86) -/

def judgeReadViewRecords (l : Link) (fields : List Byte) (s : State) : Judged :=
  match parseByte fields with
  | none => refuse .malformed s
  | some b =>
    if within (1, 4) b.toNat then
      let r := readRing s.view (s.view.cursors.get l) b.toNat
      ⟨s.setView { s.view with cursors := s.view.cursors.set r.2.2 l }, ⟨r.1, recordsResponse r.2.1, .nothing⟩⟩
    else refuse .range s

def readViewRecordsRule (l : Link) : RequestRule := .fixed 1 (judgeReadViewRecords l)

def execReadViewRecords (l : Link) (fields : List Byte) (s : State) : Outcome State Fault Refusal :=
  .next (receiveRequest l 0x04 (some (readViewRecordsRule l)) fields s)

/-! ## READ_SOURCE_STATUS (R26) -/

def judgeReadSourceStatus (l : Link) (fields : List Byte) (s : State) : Judged :=
  onDirected l (fun i => acceptWith (sourceStatus (Config.freeByte s.free) s.timebase i (s.src i)) (spendFree s)) fields s

def readSourceStatusRule (l : Link) : RequestRule := .fixed (directedLength l) (judgeReadSourceStatus l)

def execReadSourceStatus (l : Link) (fields : List Byte) (s : State) : Outcome State Fault Refusal :=
  .next (receiveRequest l 0x05 (some (readSourceStatusRule l)) fields s)

/-! ## CLEAR_FAULT (R22) -/

/-- R22: the fault is cleared and the source enters OFF. -/
def clearFault (i : Source) (s : State) : State :=
  enterOff i (s.modSrc i fun r => { r with faultCause := none, refusalCode := none })

def judgeClearFault (l : Link) (fields : List Byte) (s : State) : Judged :=
  onDirected l
    (fun i => if (s.src i).state = .faulted then accept .ok (clearFault i s) else refuse .wrongState s) fields s

def clearFaultRule (l : Link) : RequestRule := .fixed (directedLength l) (judgeClearFault l)

def execClearFault (l : Link) (fields : List Byte) (s : State) : Outcome State Fault Refusal :=
  .next (receiveRequest l 0x06 (some (clearFaultRule l)) fields s)

end Sys2Proof.Machine
end

