-- ==== Sys2Proof/Machine/AppRequests.lean ====
section
/-! DEFINITION. The AL requests: part status and reset, parameters, enrolment, zoom, calibration, streams. -/

namespace Sys2Proof.Machine

open Sys2Proof Host

/-! ## READ_PART_STATUS (R170) and RESET_PART (R176) -/

def judgeReadPartStatus (_fields : List Byte) (s : State) : Judged := acceptWith (partStatus (Config.freeByte s.free) s) (spendFree s)

def readPartStatusRule : RequestRule := .fixed 0 judgeReadPartStatus

def execReadPartStatus (fields : List Byte) (s : State) : Outcome State Fault Refusal :=
  .next (receiveRequest .al 0x10 (some readPartStatusRule) fields s)

/-- R176: the reset takes effect at the moment the response becomes ready. -/
def judgeResetPart (_fields : List Byte) (s : State) : Judged := acceptLater .resetPart s

def resetPartRule : RequestRule := .fixed 0 judgeResetPart

def execResetPart (fields : List Byte) (s : State) : Outcome State Fault Refusal :=
  .next (receiveRequest .al 0x11 (some resetPartRule) fields s)

/-! ## SET_PARAMETER (R168) -/

def judgeSetParameter (fields : List Byte) (s : State) : Judged :=
  match parseParameter fields with
  | none => refuse .malformed s
  | some (id, value) =>
    match paramOf id with
    | some p => if within p.range value then acceptLater (.setParameter p value) s else refuse .range s
    | none => refuse .range s

def setParameterRule : RequestRule := .fixed 5 judgeSetParameter

def execSetParameter (fields : List Byte) (s : State) : Outcome State Fault Refusal :=
  .next (receiveRequest .al 0x12 (some setParameterRule) fields s)

/-! ## ENROLL_SOURCE (R3) -/

/-- R3: the states in which an enrolment is accepted. -/
def SourceState.enrollable : SourceState → Bool
  | .absent | .off | .faulted => true
  | .requested | .warming | .standby | .live | .stopping | .held => false

/-- R3: another source not in ABSENT has this base zoom. -/
def baseTaken (i : Source) (base : Nat) (s : State) : Bool :=
  (enrolled s).any fun j => decide (j ≠ i) && decide ((s.enr j).base = base)

/-- R3: the record with the new enrolment, before its entry to OFF. -/
def SourceRecord.enroll (r : SourceRecord) (e : Enrolment) (keepWarm : Bool) : SourceRecord :=
  let r := { r with enrolment := some e, lastStopUnconfirmed := false }
  match r.state with
  | .absent => { r with want := keepWarm }
  | .faulted => { r with faultCause := none, refusalCode := none }
  | .off | .requested | .warming | .standby | .live | .stopping | .held => r

/-- R3: the effects of an accepted enrolment. -/
def enrollSource (i : Source) (e : Enrolment) (s : State) : State :=
  enterOff i (s.modSrc i fun r => r.enroll e (s.planner.keepWarm.get i))

def judgeEnrollSource (fields : List Byte) (s : State) : Judged :=
  match parseEnrolment fields with
  | none => refuse .malformed s
  | some (n, enrolment) =>
    onSource n
      (fun i =>
        if !(s.src i).state.enrollable then refuse .wrongState s
        else
          match enrolment with
          | some e =>
            if !e.inRange then refuse .range s
            else if baseTaken i e.base s then refuse .conflict s
            else accept .ok (enrollSource i e s)
          | none => refuse .range s)
      s

def enrollSourceRule : RequestRule := .fixed 26 judgeEnrollSource

def execEnrollSource (fields : List Byte) (s : State) : Outcome State Fault Refusal :=
  .next (receiveRequest .al 0x18 (some enrollSourceRule) fields s)

/-! ## WITHDRAW_SOURCE (R23) -/

def markWithdraw (i : Source) (s : State) : State := s.modSrc i fun r => { r with withdrawPending := true }

def judgeWithdraw (i : Source) (s : State) : Judged :=
  match (s.src i).state with
  | .off | .faulted | .held => accept .ok (enterAbsent i s)
  | .requested | .warming | .standby => accept .ok (enterStopping i (markWithdraw i s))
  | .stopping => accept .ok (markWithdraw i s)
  | .live => refuse .inView s
  | .absent => refuse .wrongState s

def judgeWithdrawSource (fields : List Byte) (s : State) : Judged :=
  match parseByte fields with
  | none => refuse .malformed s
  | some b => onSource b.toNat (fun i => judgeWithdraw i s) s

def withdrawSourceRule : RequestRule := .fixed 1 judgeWithdrawSource

def execWithdrawSource (fields : List Byte) (s : State) : Outcome State Fault Refusal :=
  .next (receiveRequest .al 0x19 (some withdrawSourceRule) fields s)

/-! ## SET_KEEP_WARM (R25) -/

def judgeSetKeepWarm (fields : List Byte) (s : State) : Judged :=
  match parseByte fields with
  | none => refuse .malformed s
  | some b =>
    match sourceMask b with
    | some m => accept .ok (setKeepWarm m s)
    | none => refuse .range s

def setKeepWarmRule : RequestRule := .fixed 1 judgeSetKeepWarm

def execSetKeepWarm (fields : List Byte) (s : State) : Outcome State Fault Refusal :=
  .next (receiveRequest .al 0x1A (some setKeepWarmRule) fields s)

/-! ## POST_ZOOM (R28 to R30) and FLUSH_ZOOM (R31) -/

/-- R28, R29, R30: the request with its fields in range. -/
def judgeZoom (target steps : Nat) (tag : Byte) (replace : Bool) (s : State) : Judged :=
  let stored := clampTarget s target
  let status := if stored = target then Status.ok else Status.clamped
  let z : ZoomRequest := { target := stored, steps := steps, tag := tag, replace := replace }
  if replace then accept status (replaceZoom z s)
  else if s.planner.queue.length < zoomQueueSize then accept status (appendZoom z s)
  else refuse .full s

def judgePostZoom (fields : List Byte) (s : State) : Judged :=
  match parseZoom fields with
  | none => refuse .malformed s
  | some (target, steps, tag, rep) =>
    match yesNo rep with
    | some replace => if 1023 < steps then refuse .range s else judgeZoom target steps tag replace s
    | none => refuse .range s

def postZoomRule : RequestRule := .fixed 6 judgePostZoom

def execPostZoom (fields : List Byte) (s : State) : Outcome State Fault Refusal :=
  .next (receiveRequest .al 0x20 (some postZoomRule) fields s)

def judgeFlushZoom (_fields : List Byte) (s : State) : Judged := accept .ok (flushZoom s)

def flushZoomRule : RequestRule := .fixed 0 judgeFlushZoom

def execFlushZoom (fields : List Byte) (s : State) : Outcome State Fault Refusal :=
  .next (receiveRequest .al 0x21 (some flushZoomRule) fields s)

/-! ## Calibration (R91 to R94) -/

/-- A table holds at most 8 points (5.1). -/
def calTableSize : Nat := 8

/-- R91: the point takes its place in ascending order, replacing one of the same focus code. -/
def insertPoint (p : CalPoint) : List CalPoint → List CalPoint
  | [] => [p]
  | q :: rest =>
    if p.focus < q.focus then p :: q :: rest
    else if p.focus = q.focus then p :: rest
    else q :: insertPoint p rest

def hasPoint (focus : Nat) (t : List CalPoint) : Bool := t.any fun p => decide (p.focus = focus)

def judgePutCalPoint (fields : List Byte) (s : State) : Judged :=
  match parseCalPoint fields with
  | none => refuse .malformed s
  | some (n, p) =>
    onSource n
      (fun i =>
        let t := s.calTable i
        if !p.inRange then refuse .range s
        else if hasPoint p.focus t || decide (t.length < calTableSize) then accept .ok (s.setCal i (insertPoint p t))
        else refuse .full s)
      s

def putCalPointRule : RequestRule := .fixed 11 judgePutCalPoint

def execPutCalPoint (fields : List Byte) (s : State) : Outcome State Fault Refusal :=
  .next (receiveRequest .al 0x28 (some putCalPointRule) fields s)

def judgeDropCalPoint (fields : List Byte) (s : State) : Judged :=
  match parseCalKey fields with
  | none => refuse .malformed s
  | some (n, focus) =>
    onSource n
      (fun i =>
        let t := s.calTable i
        if 1023 < focus then refuse .range s
        else if hasPoint focus t then accept .ok (s.setCal i (t.filter fun p => decide (p.focus ≠ focus)))
        else refuse .notFound s)
      s

def dropCalPointRule : RequestRule := .fixed 3 judgeDropCalPoint

def execDropCalPoint (fields : List Byte) (s : State) : Outcome State Fault Refusal :=
  .next (receiveRequest .al 0x29 (some dropCalPointRule) fields s)

def judgeClearCal (fields : List Byte) (s : State) : Judged :=
  match parseByte fields with
  | none => refuse .malformed s
  | some b => onSource b.toNat (fun i => accept .ok (s.setCal i [])) s

def clearCalRule : RequestRule := .fixed 1 judgeClearCal

def execClearCal (fields : List Byte) (s : State) : Outcome State Fault Refusal :=
  .next (receiveRequest .al 0x2A (some clearCalRule) fields s)

def judgeReadCal (fields : List Byte) (s : State) : Judged :=
  match parseByte fields with
  | none => refuse .malformed s
  | some b => onSource b.toNat (fun i => acceptWith (calResponse (s.calTable i)) s) s

def readCalRule : RequestRule := .fixed 1 judgeReadCal

def execReadCal (fields : List Byte) (s : State) : Outcome State Fault Refusal :=
  .next (receiveRequest .al 0x2B (some readCalRule) fields s)

/-! ## Streams (R147 to R152) -/

/-- A stream number in a field; one above 1 is answered RANGE. -/
def onStream (number : Nat) (rule : StreamId → Judged) (s : State) : Judged :=
  match streamOf number with
  | some st => rule st
  | none => refuse .range s

/-- RUNNING or STOPPING. -/
def StreamState.busy : StreamState → Bool
  | .running | .stopping => true
  | .stopped | .done => false

/-- R147: the checks in their order, the whole configuration replaced. -/
def judgeConfigure (st : StreamId) (config : Option StreamConfig) (s : State) : Judged :=
  if (s.stream st).state.busy then refuse .busy s
  else
    match config with
    | none => refuse .range s
    | some c =>
      if !c.inRange then refuse .range s
      else if decide (c.cause = .chain) && decide ((s.stream st.partner).config.cause = .chain) then refuse .loop s
      else accept .ok (s.modStream st fun x => { x with config := c })

def judgeConfigureStream (fields : List Byte) (s : State) : Judged :=
  match parseStreamConfig fields with
  | none => refuse .malformed s
  | some (n, config) => onStream n (fun st => judgeConfigure st config s) s

def configureStreamRule : RequestRule := .fixed 17 judgeConfigureStream

def execConfigureStream (fields : List Byte) (s : State) : Outcome State Fault Refusal :=
  .next (receiveRequest .al 0x30 (some configureStreamRule) fields s)

def judgeStartStream (fields : List Byte) (s : State) : Judged :=
  match parseByte fields with
  | none => refuse .malformed s
  | some b =>
    onStream b.toNat
      (fun st => if (s.stream st).state.busy then refuse .busy s else accept .ok (startStream st s)) s

def startStreamRule : RequestRule := .fixed 1 judgeStartStream

def execStartStream (fields : List Byte) (s : State) : Outcome State Fault Refusal :=
  .next (receiveRequest .al 0x31 (some startStreamRule) fields s)

def judgeStopStream (fields : List Byte) (s : State) : Judged :=
  match parseByte fields with
  | none => refuse .malformed s
  | some b => onStream b.toNat (fun st => accept .ok (stopStream st s).settle) s

def stopStreamRule : RequestRule := .fixed 1 judgeStopStream

def execStopStream (fields : List Byte) (s : State) : Outcome State Fault Refusal :=
  .next (receiveRequest .al 0x32 (some stopStreamRule) fields s)

/-- R152: the fields after the stream number are ignored. -/
def judgeTriggerStream (fields : List Byte) (s : State) : Judged :=
  match fields with
  | [] => refuse .malformed s
  | b :: _ =>
    onStream b.toNat
      (fun st =>
        let x := s.stream st
        if decide (x.state = .running) && decide (x.config.cause = .request) then accept .ok (triggerStream st s).settle
        else refuse .wrongState s)
      s

/-- R165: TRIGGER_STREAM accepts any length from 1 to 60. -/
def triggerStreamRule : RequestRule :=
  { lengthOk := fun n => within (1, maxFields) n, early := false, judge := judgeTriggerStream }

def execTriggerStream (fields : List Byte) (s : State) : Outcome State Fault Refusal :=
  .next (receiveRequest .al 0x33 (some triggerStreamRule) fields s)

/-- R151: the selection applies to edges that arrive after the response is ready. -/
def judgeSetTriggerEdge (fields : List Byte) (s : State) : Judged :=
  match parsePair fields with
  | none => refuse .malformed s
  | some (n, e) =>
    match triggerLineOf n.toNat, edgeSelectionOf e.toNat with
    | some line, some selection => acceptLater (.setEdge line selection) s
    | _, _ => refuse .range s

def setTriggerEdgeRule : RequestRule := .fixed 2 judgeSetTriggerEdge

def execSetTriggerEdge (fields : List Byte) (s : State) : Outcome State Fault Refusal :=
  .next (receiveRequest .al 0x34 (some setTriggerEdgeRule) fields s)

end Sys2Proof.Machine
end

