-- ==== Sys2Proof/Machine/ModuleRequests.lean ====
section
/-! DEFINITION. The ML requests: the selected source, the link's reset, the module protocol and the reports. -/

namespace Sys2Proof.Machine

open Sys2Proof Host

/-! ## SELECT_SOURCE (R167) and RESET_LINK (R177) -/

def judgeSelectSource (fields : List Byte) (s : State) : Judged :=
  match parseByte fields with
  | none => refuse .malformed s
  | some b => onSource b.toNat (fun i => accept .ok { s with selected := i }) s

def selectSourceRule : RequestRule := .fixed 1 judgeSelectSource

def execSelectSource (fields : List Byte) (s : State) : Outcome State Fault Refusal :=
  .next (receiveRequest .ml 0x40 (some selectSourceRule) fields s)

/-- R177: the selected source, the ML notices and enables, and the ML cursor. -/
def resetModuleLink (s : State) : State :=
  let s := { s with selected := .s0 }
  let s := s.setNotice .ml .reset
  s.setView { s.view with cursors := s.view.cursors.set 0 .ml }

def judgeResetLink (_fields : List Byte) (s : State) : Judged := accept .ok (resetModuleLink s)

def resetLinkRule : RequestRule := .fixed 0 judgeResetLink

def execResetLink (fields : List Byte) (s : State) : Outcome State Fault Refusal :=
  .next (receiveRequest .ml 0x41 (some resetLinkRule) fields s)

/-! ## CONFIRM_START (R7) and REFUSE_START (R8) -/

/-- R7: entry to WARMING. -/
def enterWarming (i : Source) (s : State) : State :=
  let stall := stallFrom s i s.timebase
  s.modSrc i fun r =>
    { r with state := .warming, lastStopUnconfirmed := false, stall := some stall, qualify := 0 }

def judgeConfirmStart (_fields : List Byte) (s : State) : Judged :=
  onSelected
    (fun i => if (s.src i).state = .requested then accept .ok (enterWarming i s) else refuse .wrongState s) s

def confirmStartRule : RequestRule := .fixed 0 judgeConfirmStart

def execConfirmStart (fields : List Byte) (s : State) : Outcome State Fault Refusal :=
  .next (receiveRequest .ml 0x42 (some confirmStartRule) fields s)

/-- R8: the cause byte is kept as the refusal code. -/
def refuseStart (i : Source) (code : Byte) (s : State) : State :=
  enterFaulted i .refused (s.modSrc i fun r => { r with refusalCode := some code })

def judgeRefuseStart (fields : List Byte) (s : State) : Judged :=
  match parseByte fields with
  | none => refuse .malformed s
  | some code =>
    onSelected
      (fun i => if (s.src i).state = .requested then accept .ok (refuseStart i code s) else refuse .wrongState s) s

def refuseStartRule : RequestRule := .fixed 1 judgeRefuseStart

def execRefuseStart (fields : List Byte) (s : State) : Outcome State Fault Refusal :=
  .next (receiveRequest .ml 0x43 (some refuseStartRule) fields s)

/-! ## CONFIRM_STOP (R14) -/

/-- R14: the stop ends confirmed. -/
def confirmStop (i : Source) (s : State) : State :=
  enterOff i (raiseSrc i .stopped (s.modSrc i fun r => { r with stop := none }))

def judgeConfirmStop (_fields : List Byte) (s : State) : Judged :=
  onSelected
    (fun i =>
      match (s.src i).state with
      | .stopping => accept .ok (confirmStop i s)
      | .faulted => accept .ok s
      | .absent | .off | .requested | .warming | .standby | .live | .held => refuse .wrongState s)
    s

def confirmStopRule : RequestRule := .fixed 0 judgeConfirmStop

def execConfirmStop (fields : List Byte) (s : State) : Outcome State Fault Refusal :=
  .next (receiveRequest .ml 0x44 (some confirmStopRule) fields s)

/-! ## HOLD (R16), RELEASE_HOLD (R17), DECLARE_FAULT (R18) -/

def judgeHold (_fields : List Byte) (s : State) : Judged :=
  onSelected (fun i => if (s.src i).state = .held then accept .ok s else accept .ok (enterHeld i s)) s

def holdRule : RequestRule := .fixed 0 judgeHold

def execHold (fields : List Byte) (s : State) : Outcome State Fault Refusal :=
  .next (receiveRequest .ml 0x45 (some holdRule) fields s)

def judgeReleaseHold (_fields : List Byte) (s : State) : Judged :=
  onSelected (fun i => if (s.src i).state = .held then accept .ok (enterOff i s) else refuse .wrongState s) s

def releaseHoldRule : RequestRule := .fixed 0 judgeReleaseHold

def execReleaseHold (fields : List Byte) (s : State) : Outcome State Fault Refusal :=
  .next (receiveRequest .ml 0x46 (some releaseHoldRule) fields s)

def judgeDeclareFault (_fields : List Byte) (s : State) : Judged :=
  onSelected
    (fun i => if (s.src i).state = .faulted then accept .ok s else accept .ok (enterFaulted i .moduleFault s)) s

def declareFaultRule : RequestRule := .fixed 0 judgeDeclareFault

def execDeclareFault (fields : List Byte) (s : State) : Outcome State Fault Refusal :=
  .next (receiveRequest .ml 0x47 (some declareFaultRule) fields s)

/-! ## POST_REPORT (R127, R128) -/

/-- R127, R128: the checks in their order. -/
def judgeReport (i : Source) (r : Report) (flagsOk : Bool) (s : State) : Judged :=
  if !(s.src i).state.streaming then refuse .wrongState s
  else if !(r.inRange && flagsOk) then refuse .range s
  else if isLate (s.src i).lastCompleted r.frame then refuse .late s
  else
    let u := (s.report i).accept r
    accept (if u.2 then .displaced else .ok) (s.setReport i u.1)

def judgePostReport (fields : List Byte) (s : State) : Judged :=
  match parseReport fields with
  | none => refuse .malformed s
  | some (r, flagsOk) => onSelected (fun i => judgeReport i r flagsOk s) s

def postReportRule : RequestRule := .fixed 13 judgePostReport

def execPostReport (fields : List Byte) (s : State) : Outcome State Fault Refusal :=
  .next (receiveRequest .ml 0x48 (some postReportRule) fields s)

end Sys2Proof.Machine
end

