-- ==== Sys2Proof/Machine/LinkEvents.lean ====
section
/-! DEFINITION. The link events that are no known request: fetch frames, discarded frames, frames of an unknown code, and a
response's readiness. -/

namespace Sys2Proof.Machine

open Sys2Proof Host

/-- Table 64: the rule of a code on a link, none where the code names no request of it (R165). -/
def ruleFor (l : Link) (code : Byte) : Option RequestRule :=
  match l, code.toNat with
  | _, 0x01 => some readIdentityRule
  | l, 0x02 => some (setNoticeEnablesRule l)
  | l, 0x03 => some (takeNoticesRule l)
  | l, 0x04 => some (readViewRecordsRule l)
  | l, 0x05 => some (readSourceStatusRule l)
  | l, 0x06 => some (clearFaultRule l)
  | .al, 0x10 => some readPartStatusRule
  | .al, 0x11 => some resetPartRule
  | .al, 0x12 => some setParameterRule
  | .al, 0x18 => some enrollSourceRule
  | .al, 0x19 => some withdrawSourceRule
  | .al, 0x1A => some setKeepWarmRule
  | .al, 0x20 => some postZoomRule
  | .al, 0x21 => some flushZoomRule
  | .al, 0x28 => some putCalPointRule
  | .al, 0x29 => some dropCalPointRule
  | .al, 0x2A => some clearCalRule
  | .al, 0x2B => some readCalRule
  | .al, 0x30 => some configureStreamRule
  | .al, 0x31 => some startStreamRule
  | .al, 0x32 => some stopStreamRule
  | .al, 0x33 => some triggerStreamRule
  | .al, 0x34 => some setTriggerEdgeRule
  | .ml, 0x40 => some selectSourceRule
  | .ml, 0x41 => some resetLinkRule
  | .ml, 0x42 => some confirmStartRule
  | .ml, 0x43 => some refuseStartRule
  | .ml, 0x44 => some confirmStopRule
  | .ml, 0x45 => some holdRule
  | .ml, 0x46 => some releaseHoldRule
  | .ml, 0x47 => some declareFaultRule
  | .ml, 0x48 => some postReportRule
  | _, _ => none

/-- R162: the end of a frame of whole bytes, by its kind. -/
def receiveFrame (l : Link) (bytes : List Byte) (s : State) : State :=
  match classifyFrame bytes with
  | .empty => receiveEmpty l s
  | .fetch => receiveFetch l bytes.length s
  | .discard => discardBytes l bytes s
  | .request code fields => receiveRequest l code (ruleFor l code) fields s

/-- FETCH_FRAME (R163); one of no whole byte is no fetch frame (R162). -/
def execFetchFrame (l : Link) (bytes : Nat) (s : State) : Outcome State Fault Refusal :=
  .next (if bytes = 0 then receiveEmpty l s else receiveFetch l bytes s)

/-- DISCARDED_FRAME (R162): the bytes decide, so that a frame that is not to be discarded acts as what it is (log 9). -/
def execDiscardedFrame (l : Link) (bytes : List Byte) (s : State) : Outcome State Fault Refusal :=
  .next (receiveFrame l bytes s)

/-- RESPONSE_READY (R163). -/
def execResponseReady (l : Link) (inProgress : OpenFrames) (s : State) : Outcome State Fault Refusal :=
  .next (makeReady l inProgress s)

/-- UNKNOWN_REQUEST (R165): the code decides, so that a known code acts as its request, 0x00 as a fetch frame and a code of
0x80 or above as a discarded frame (log 9). -/
def execUnknownRequest (l : Link) (code : Byte) (fields : List Byte) (s : State) : Outcome State Fault Refusal :=
  .next
    (if code = 0 then receiveFetch l (2 + fields.length) s
     else if 0x80 ≤ code.toNat then receiveFrame l (code :: BitVec.ofNat 8 fields.length :: fields) s
     else receiveRequest l code (ruleFor l code) fields s)

end Sys2Proof.Machine
end

