-- ==== Sys2Proof/Machine/PacketCommands.lean ====
section
/-! DEFINITION. The camera packets as commands (Table 69). -/

namespace Sys2Proof.Machine

open Sys2Proof Host

/-- FRAME_START (R105, R106). -/
def execFrameStart (port : Source) (number width height : Half) (s : State) : Outcome State Fault Refusal :=
  .next (intakeFrameStart port number width height s)

/-- LINE (R108). -/
def execLine (port : Source) (number : Half) (data : List Byte) (s : State) : Outcome State Fault Refusal :=
  .next (intakeLine port number data s)

/-- FRAME_END (R109). -/
def execFrameEnd (port : Source) (count check : Half) (s : State) : Outcome State Fault Refusal :=
  .next (intakeFrameEnd port count check s)

/-- INVALID_PACKET (R178): discarded without change. Bytes that do spell a packet act as that packet (log 9). -/
def execInvalidPacket (port : Source) (bytes : List Byte) (s : State) : Outcome State Fault Refusal :=
  match decodePacket port bytes with
  | .frameStart p n w h => .next (intakeFrameStart p n w h s)
  | .line p n d => .next (intakeLine p n d s)
  | .frameEnd p c k => .next (intakeFrameEnd p c k s)
  | _ => .next s

end Sys2Proof.Machine
end

