-- ==== Sys2Proof/Machine/Dispatch.lean ====
section
/-! DEFINITION. One arm per command: the meaning that `exec` gives it. -/

namespace Sys2Proof.Machine

open Sys2Proof

/-- The effect of a command on everything but the queue. -/
def exec (i : Instr) (s : State) : Host.Outcome State Fault Refusal :=
  match i with
  | .readIdentity l fields => Sys2Proof.Machine.execReadIdentity l fields s
  | .setNoticeEnables l fields => Sys2Proof.Machine.execSetNoticeEnables l fields s
  | .takeNotices l fields => Sys2Proof.Machine.execTakeNotices l fields s
  | .readViewRecords l fields => Sys2Proof.Machine.execReadViewRecords l fields s
  | .readSourceStatus l fields => Sys2Proof.Machine.execReadSourceStatus l fields s
  | .clearFault l fields => Sys2Proof.Machine.execClearFault l fields s
  | .readPartStatus fields => Sys2Proof.Machine.execReadPartStatus fields s
  | .resetPart fields => Sys2Proof.Machine.execResetPart fields s
  | .setParameter fields => Sys2Proof.Machine.execSetParameter fields s
  | .enrollSource fields => Sys2Proof.Machine.execEnrollSource fields s
  | .withdrawSource fields => Sys2Proof.Machine.execWithdrawSource fields s
  | .setKeepWarm fields => Sys2Proof.Machine.execSetKeepWarm fields s
  | .postZoom fields => Sys2Proof.Machine.execPostZoom fields s
  | .flushZoom fields => Sys2Proof.Machine.execFlushZoom fields s
  | .putCalPoint fields => Sys2Proof.Machine.execPutCalPoint fields s
  | .dropCalPoint fields => Sys2Proof.Machine.execDropCalPoint fields s
  | .clearCal fields => Sys2Proof.Machine.execClearCal fields s
  | .readCal fields => Sys2Proof.Machine.execReadCal fields s
  | .configureStream fields => Sys2Proof.Machine.execConfigureStream fields s
  | .startStream fields => Sys2Proof.Machine.execStartStream fields s
  | .stopStream fields => Sys2Proof.Machine.execStopStream fields s
  | .triggerStream fields => Sys2Proof.Machine.execTriggerStream fields s
  | .setTriggerEdge fields => Sys2Proof.Machine.execSetTriggerEdge fields s
  | .selectSource fields => Sys2Proof.Machine.execSelectSource fields s
  | .resetLink fields => Sys2Proof.Machine.execResetLink fields s
  | .confirmStart fields => Sys2Proof.Machine.execConfirmStart fields s
  | .refuseStart fields => Sys2Proof.Machine.execRefuseStart fields s
  | .confirmStop fields => Sys2Proof.Machine.execConfirmStop fields s
  | .hold fields => Sys2Proof.Machine.execHold fields s
  | .releaseHold fields => Sys2Proof.Machine.execReleaseHold fields s
  | .declareFault fields => Sys2Proof.Machine.execDeclareFault fields s
  | .postReport fields => Sys2Proof.Machine.execPostReport fields s
  | .fetchFrame l bytes => Sys2Proof.Machine.execFetchFrame l bytes s
  | .discardedFrame l bytes => Sys2Proof.Machine.execDiscardedFrame l bytes s
  | .responseReady l inProgress => Sys2Proof.Machine.execResponseReady l inProgress s
  | .resetNLow inProgress => Sys2Proof.Machine.execResetNLow inProgress s
  | .resetNRelease => Sys2Proof.Machine.execResetNRelease s
  | .endOfInitialisation => Sys2Proof.Machine.execEndOfInitialisation s
  | .frameStart port number width height => Sys2Proof.Machine.execFrameStart port number width height s
  | .line port number data => Sys2Proof.Machine.execLine port number data s
  | .frameEnd port count check => Sys2Proof.Machine.execFrameEnd port count check s
  | .invalidPacket port bytes => Sys2Proof.Machine.execInvalidPacket port bytes s
  | .triggerEdge line polarity => Sys2Proof.Machine.execTriggerEdge line polarity s
  | .warmDeadlineExpiry src => Sys2Proof.Machine.execWarmDeadlineExpiry src s
  | .lingerDeadlineExpiry src => Sys2Proof.Machine.execLingerDeadlineExpiry src s
  | .stopDeadlineExpiry src => Sys2Proof.Machine.execStopDeadlineExpiry src s
  | .stallDeadlineExpiry src => Sys2Proof.Machine.execStallDeadlineExpiry src s
  | .dormancyDeadlineExpiry bank => Sys2Proof.Machine.execDormancyDeadlineExpiry bank s
  | .wakeCompletion bank => Sys2Proof.Machine.execWakeCompletion bank s
  | .viewTimerExpiry => Sys2Proof.Machine.execViewTimerExpiry s
  | .syncPulseEnd src => Sys2Proof.Machine.execSyncPulseEnd src s
  | .nextSyncPulse src => Sys2Proof.Machine.execNextSyncPulse src s
  | .followListPulse src => Sys2Proof.Machine.execFollowListPulse src s
  | .streamTimerExpiry st => Sys2Proof.Machine.execStreamTimerExpiry st s
  | .emissionCompletion st => Sys2Proof.Machine.execEmissionCompletion st s
  | .unknownRequest l code fields => Sys2Proof.Machine.execUnknownRequest l code fields s

end Sys2Proof.Machine
end

