-- ==== Sys2Proof/Safety.lean ====
section
/-! DEFINITION. The words the statements are made of: when a link takes a request, the state with its answer pending, and the
properties of State that every step keeps, and what a frame start, a departure and a change of primary leave. -/

namespace Sys2Proof.Machine

open Sys2Proof

/-! ## Links -/

/-- The link takes the request frame that ends now: RESET_N is high, the frame was not in progress at a reset, and no
response is pending (R163, R164, R175). -/
def LinkOpen (l : Link) (s : State) : Prop :=
  s.resetLow = false ∧ (s.link l).abandoned = none ∧ (s.link l).response.isPending = false

/-- The link takes the request and the part is past its initialisation (R165). -/
def LinkFree (l : Link) (s : State) : Prop := LinkOpen l s ∧ s.initialising = false

/-- The state with the answer to a request of n field bytes pending on its link; it becomes ready by 10 µs from now
(R163). -/
def answered (l : Link) (code : Byte) (st : Status) (fields : List Byte) (later : Deferred) (n : Nat) (s : State) : State :=
  s.setLink l
    { response := .pending { code := code, status := st, fields := fields } (timeAfter s.timebase 10) later
      abandoned := none
      shifted := List.replicate (2 + n) 0 }

/-- Answered OK without response fields and without an effect at readiness. -/
def answeredOk (l : Link) (code : Byte) (n : Nat) (s : State) : State := answered l code .ok [] .nothing n s

/-- Answered with a refusal: nothing else has changed (R166). -/
def refused (l : Link) (code : Byte) (st : Status) (n : Nat) (s : State) : State := answered l code st [] .nothing n s

/-- Table 64: the field lengths a request takes on its link, none for a command that is no request of known code. -/
def takesLength (i : Instr) (n : Nat) : Option Bool :=
  match i with
  | .readIdentity _ _ | .readPartStatus _ | .resetPart _ | .flushZoom _ | .resetLink _ | .confirmStart _ | .confirmStop _
  | .hold _ | .releaseHold _ | .declareFault _ | .readSourceStatus .ml _ | .clearFault .ml _ => some (decide (n = 0))
  | .readViewRecords _ _ | .readSourceStatus .al _ | .clearFault .al _ | .withdrawSource _ | .setKeepWarm _ | .clearCal _
  | .readCal _ | .startStream _ | .stopStream _ | .selectSource _ | .refuseStart _ => some (decide (n = 1))
  | .takeNotices _ _ | .setTriggerEdge _ => some (decide (n = 2))
  | .dropCalPoint _ => some (decide (n = 3))
  | .setNoticeEnables _ _ => some (decide (n = 4))
  | .setParameter _ => some (decide (n = 5))
  | .postZoom _ => some (decide (n = 6))
  | .putCalPoint _ => some (decide (n = 11))
  | .postReport _ => some (decide (n = 13))
  | .configureStream _ => some (decide (n = 17))
  | .enrollSource _ => some (decide (n = 26))
  | .triggerStream _ => some (decide (1 ≤ n) && decide (n ≤ 60))
  | .fetchFrame _ _ | .discardedFrame _ _ | .responseReady _ _ | .resetNLow _ | .resetNRelease | .endOfInitialisation
  | .frameStart _ _ _ _ | .line _ _ _ | .frameEnd _ _ _ | .invalidPacket _ _ | .triggerEdge _ _
  | .warmDeadlineExpiry _ | .lingerDeadlineExpiry _ | .stopDeadlineExpiry _ | .stallDeadlineExpiry _
  | .dormancyDeadlineExpiry _ | .wakeCompletion _ | .viewTimerExpiry | .syncPulseEnd _ | .nextSyncPulse _
  | .followListPulse _ | .streamTimerExpiry _ | .emissionCompletion _ | .unknownRequest _ _ _ => none

/-! ## Deadlines -/

/-- Table 48: the deadline whose expiry a command is, none when it does not run or the command is no expiry. The end of
initialisation is due at 2,000 (R175), and a pending response at the bound of its readiness (R163; log 6). -/
def deadlineOf (s : State) : Instr → Option Time
  | .warmDeadlineExpiry i => (s.src i).warm
  | .lingerDeadlineExpiry i => (s.src i).linger
  | .stopDeadlineExpiry i => (s.src i).stop
  | .stallDeadlineExpiry i => (s.src i).stall
  | .dormancyDeadlineExpiry k => (s.bank k).dormancy
  | .wakeCompletion k => (s.bank k).wake
  | .viewTimerExpiry => s.view.timer
  | .syncPulseEnd i => (s.syncLine i).pulseEnd
  | .nextSyncPulse i => (s.syncLine i).nextPulse
  | .followListPulse i => (s.syncLine i).followList.head?
  | .streamTimerExpiry st => (s.stream st).timer
  | .emissionCompletion st => (s.stream st).inFlight.map fun e => e.deadline
  | .endOfInitialisation => if s.initialising then some 2000 else none
  | .responseReady l ⟨false, false⟩ =>
    match (s.link l).response with
    | .pending _ t _ => some t
    | .none | .ready _ => none
  | _ => none

/-! ## Zoom -/

/-- R39, R62: of a list of sources, one with the largest B not exceeding c, or with the smallest B when each is above c. -/
def NearestBelow (s : State) (l : List Source) (c : Nat) (j : Source) : Prop :=
  j ∈ l ∧
    (((s.enr j).base ≤ c ∧ ∀ k ∈ l, (s.enr k).base ≤ c → (s.enr k).base ≤ (s.enr j).base) ∨
      ((∀ k ∈ l, c < (s.enr k).base) ∧ ∀ k ∈ l, (s.enr j).base ≤ (s.enr k).base))

/-- R40: the source in V with the smallest B above that of q, approaching from above at zoom c. -/
def ApproachesFromAbove (s : State) (q n : Source) (c : Nat) : Prop :=
  n ∈ availableSources s ∧ (s.enr q).base < (s.enr n).base ∧
    (∀ k ∈ availableSources s, (s.enr q).base < (s.enr k).base → (s.enr n).base ≤ (s.enr k).base) ∧
    (s.enr n).switchUp ≤ c + (s.enr n).approach

/-- R40: the source in V with the largest B below that of q, approaching from below at zoom c. -/
def ApproachesFromBelow (s : State) (q m : Source) (c : Nat) : Prop :=
  m ∈ availableSources s ∧ (s.enr m).base < (s.enr q).base ∧
    (∀ k ∈ availableSources s, (s.enr k).base < (s.enr q).base → (s.enr k).base ≤ (s.enr m).base) ∧
    c < (s.enr q).switchDown + (s.enr q).approach

/-! ## Frames -/

/-- `t` has what no camera packet, no expiry and no view step changes as `s` has it: the queue, the timebase and the resets,
the parameters, the calibration tables, the trigger lines, the links, the selected source, the notice enables and the stream
configurations. -/
structure Kept (s t : State) : Prop where
  pending : t.pending = s.pending
  resetLow : t.resetLow = s.resetLow
  initialising : t.initialising = s.initialising
  timebase : t.timebase = s.timebase
  params : t.params = s.params
  cal : t.cal = s.cal
  triggers : t.triggers = s.triggers
  links : t.links = s.links
  selected : t.selected = s.selected
  kinds : ∀ l, (t.notice l).kinds = (s.notice l).kinds
  groups : ∀ l, (t.notice l).groups = (s.notice l).groups
  configs : ∀ st, (t.stream st).config = (s.stream st).config

/-! ## Properties every step keeps -/

/-- R168: every parameter lies in its range of Table 58. -/
def ParamsInRange (q : Params) : Prop := ∀ p : Param, within p.range (q.get p) = true

/-- An effect that waits for readiness sets a parameter to a value of its range only. -/
def DeferredInRange (d : Deferred) : Prop :=
  match d with
  | .setParameter p v => within p.range v = true
  | .nothing | .setEdge _ _ | .resetPart => True

/-- The effect that waits on a link. -/
def ResponseState.deferred : ResponseState → Deferred
  | .pending _ _ d => d
  | .none | .ready _ => .nothing

/-- Every parameter is in range, and so is every value that waits to become one. -/
def ParamsOk (s : State) : Prop :=
  ParamsInRange s.params ∧ ∀ l, DeferredInRange (s.link l).response.deferred

/-- 5.1: a table holds at most 8 points, in ascending order of focus code, no two with one focus code, each with its fields
in the ranges of Table 32. -/
def CalTableOk (t : List CalPoint) : Prop :=
  t.length ≤ 8 ∧ t.Pairwise (fun p q => p.focus < q.focus) ∧ ∀ p ∈ t, p.inRange = true

def CalOk (s : State) : Prop := ∀ i, CalTableOk (s.calTable i)

/-- R29, Table 15: at most 8 queued requests, each of at most 1,023 steps. -/
def ZoomQueueOk (s : State) : Prop := s.planner.queue.length ≤ 8 ∧ ∀ z ∈ s.planner.queue, z.steps ≤ 1023

/-- R82: at most 32 records whose sequence numbers are consecutive and end just before the next sequence. -/
def RingOk (s : State) : Prop :=
  s.view.ring.length ≤ 32 ∧
    ∀ (k : Nat) (h : k < s.view.ring.length),
      (s.view.ring[k]).seq = s.view.nextSeq - BitVec.ofNat 32 (s.view.ring.length - k)

/-- R128: at most four queued reports, each later than the source's last completed frame number when there is one. -/
def ReportsOk (s : State) : Prop :=
  ∀ i, (s.report i).queue.length ≤ 4 ∧
    ∀ n, (s.src i).lastCompleted = some n → ∀ r ∈ (s.report i).queue, frameLater r.frame n = true

/-- R147: each configuration is in the ranges of Table 54, and P and R never both have cause CHAIN. -/
def StreamsOk (s : State) : Prop :=
  (∀ st, (s.stream st).config.inRange = true) ∧ ¬((s.stream .p).config.cause = .chain ∧ (s.stream .r).config.cause = .chain)

/-- Table 59: no kind that does not exist (bits 5 to 7 of PART) is ever pending or enabled. -/
def NoticesOk (s : State) : Prop :=
  ∀ l g, (s.notice l).pending.get g &&& ~~~g.kindMask = 0 ∧ (s.notice l).kinds.get g &&& ~~~g.kindMask = 0

/-- R139: a follow list holds at most 4 times. -/
def FollowOk (s : State) : Prop := ∀ i, (s.syncLine i).followList.length ≤ 4

/-- R3: no two sources outside ABSENT have one base zoom. -/
def BasesOk (s : State) : Prop :=
  ∀ i j, i ≠ j → (s.src i).state ≠ .absent → (s.src j).state ≠ .absent → (s.enr i).base ≠ (s.enr j).base

/-- R9, R12, R14, R20: each deadline of a source runs only in the states whose rules name it. -/
def DeadlinesOk (s : State) : Prop :=
  ∀ i, ((s.src i).warm ≠ none → (s.src i).state ∈ [.requested, .warming]) ∧
    ((s.src i).linger ≠ none → (s.src i).state ∈ [.requested, .warming, .standby]) ∧
    ((s.src i).stop ≠ none → (s.src i).state = .stopping) ∧
    ((s.src i).stall ≠ none → (s.src i).state.streaming = true)

/-- R46, Table 22: a source is LIVE exactly when it is the primary or the other member of a record in CROSSFADE; a record has
two different members, and the primary is its to source in SETTLE and its from source before. -/
def LiveOk (s : State) : Prop :=
  (∀ i, (s.src i).state = .live ↔
    s.handoff.primary = some i ∨
      ∃ r, s.handoff.record = some r ∧ r.phase = .crossfade ∧ (r.src = i ∨ r.dst = i)) ∧
  ∀ r, s.handoff.record = some r →
    r.src ≠ r.dst ∧ s.handoff.primary = some (if r.phase = .settle then r.dst else r.src)

/-- R113, R117, R121: each buffer is FREE, RETIRING, or in exactly one chain; a source that was requested or streams has
three buffers in its chain or outstanding, all in its chain once it is in STANDBY or LIVE, and any other source has neither;
who waits in the claim queue, once each, is who has an outstanding claim; and an assembling port names a FILLING buffer of
its source's chain, in the streaming states only (R104). -/
def ChainsOk (s : State) : Prop :=
  (∀ i, (s.src i).chain.Nodup) ∧
  (∀ i j b, b ∈ (s.src i).chain → b ∈ (s.src j).chain → i = j) ∧
  (∀ b, (∃ i, b ∈ (s.src i).chain) ↔ (s.buffer b).state ∈ [.empty, .filling, .ready]) ∧
  (∀ i, (s.src i).chain.length + (s.src i).claim =
    if (s.src i).state = .requested ∨ (s.src i).state.streaming = true then 3 else 0) ∧
  (∀ i, (s.src i).state ∈ [.standby, .live] → (s.src i).claim = 0) ∧
  s.pool.claimQueue.Nodup ∧ (∀ i, i ∈ s.pool.claimQueue ↔ (s.src i).claim ≠ 0) ∧
  (∀ i b f t k c, s.port i = .filling b f t k c →
    (s.src i).state.streaming = true ∧ b ∈ (s.src i).chain ∧ (s.buffer b).state = .filling)

/-- R76, R104, R113, R114: a source in STANDBY or LIVE has a READY buffer in its chain; a READY or RETIRING buffer has its
metadata, which in a chain names the chain's source; and a FILLING buffer of a chain is the one its port assembles. -/
def FramesOk (s : State) : Prop :=
  (∀ i, (s.src i).state ∈ [.standby, .live] → ∃ b ∈ (s.src i).chain, (s.buffer b).state = .ready) ∧
  (∀ b, (s.buffer b).state ∈ [.ready, .retiring] → (s.buffer b).info ≠ none) ∧
  (∀ i, ∀ b ∈ (s.src i).chain, (s.buffer b).state = .ready → ∀ m, (s.buffer b).info = some m → m.source = i) ∧
  ∀ i, ∀ b ∈ (s.src i).chain, (s.buffer b).state = .filling → ∃ f t k c, s.port i = .filling b f t k c

/-- R119: a bank is DORMANT or WAKING, and a dormancy deadline runs, only while all three of its buffers are FREE. -/
def BanksOk (s : State) : Prop :=
  ∀ k, ((s.bank k).state ≠ .awake ∨ (s.bank k).dormancy ≠ none) → ∀ b ∈ k.buffers, (s.buffer b).state = .free

/-- R115, R116, R146: every pin count is the number of stream holds that name the buffer; a FREE, EMPTY or FILLING buffer has
no pin and a RETIRING one has; and no hold of any kind remains in a STOPPED or DONE stream. -/
def PinsOk (s : State) : Prop :=
  (∀ b, (s.buffer b).pins = ((s.stream .p).allNames ++ (s.stream .r).allNames).count b) ∧
  (∀ b, (s.buffer b).state ∈ [.free, .empty, .filling] → (s.buffer b).pins = 0) ∧
  (∀ b, (s.buffer b).state = .retiring → (s.buffer b).pins ≠ 0) ∧
  ∀ st, (s.stream st).state ∈ [.stopped, .done] →
    (s.stream st).pendingSet = [] ∧ (s.stream st).current = none ∧ (s.stream st).holdRecord = .none

/-- Table 7, R3: a source outside ABSENT has an enrolment in range. -/
def EnrolledOk (s : State) : Prop :=
  ∀ i, (s.src i).state ≠ .absent → ∃ e, (s.src i).enrolment = some e ∧ e.inRange = true

/-- R28, R33: the commanded zoom and every zoom waiting or ramped between lies in 64 to 12800, and a ramp that goes on has steps
left. -/
def ZoomOk (s : State) : Prop :=
  within (64, 12800) s.planner.commanded = true ∧ (∀ z ∈ s.planner.queue, within (64, 12800) z.target = true) ∧
    ∀ r, s.planner.ramp = some r →
      within (64, 12800) r.origin = true ∧ within (64, 12800) r.target = true ∧ r.index < r.steps

/-- Table 22: the weight and the phase step count of a hand-off record, by its phase. -/
def RecordOk (s : State) : Prop :=
  ∀ r, s.handoff.record = some r →
    r.count ≤ 8 ∧
      match r.phase with
      | .prepare => r.weight = 0 ∧ r.count = 0
      | .align => r.weight = 0
      | .crossfade => 1 ≤ r.weight ∧ r.weight ≤ 255 ∧ r.count = 0
      | .settle => r.weight = 256

/-- R175: RESET_N is low and every block is at its reset value; a link may still be in a frame that the reset found. (The queue
and the counter of free values are the model's own, log 25.) -/
def HeldInReset (s : State) : Prop :=
  s = { State.reset with
        pending := s.pending, free := s.free, resetLow := true, initialising := false, links := s.links } ∧
    ∀ l, (s.link l).response = .none

/-! ## Entries to STANDBY and LIVE (R5, R11) -/

/-- In `t` the source has entered STANDBY from `s`: with want clear and no linger running, the linger is started. -/
def EntersStandby (i : Source) (s t : State) : Prop :=
  (t.src i).state = .standby ∧
    (t.src i).linger =
      if (s.src i).want = true ∨ (s.src i).linger ≠ none then (s.src i).linger
      else some (s.timebase + BitVec.ofNat 32 (1000 * s.params.lingerTime))

/-- In `t` the source has entered LIVE: no linger runs. -/
def EntersLive (i : Source) (t : State) : Prop := (t.src i).state = .live ∧ (t.src i).linger = none

/-- In `t` the record of a source is that of `s` but for the lock, which is UNLOCKED with match count 0 (R47). -/
def OnlyUnlocked (i : Source) (s t : State) : Prop := t.src i = { s.src i with locked := false, matchCount := 0 }

/-! ## Bytes at their offsets (Tables 65 to 68 and 70) -/

/-- The value of a field at an offset, most significant byte first (10.10). -/
def fieldAt (bytes : List Byte) (offset size : Nat) : Nat :=
  ((bytes.drop offset).take size).foldl (fun n b => 256 * n + b.toNat) 0

/-- The bits of a number from bit 0 on, with every further bit 0. -/
def BitsAre (n : Nat) (bits : List Bool) : Prop := ∀ k, n.testBit k = bits.getD k false

/-- A crop window at an offset: x, y, width and height, 2 bytes each. -/
def ShowsWindow (bytes : List Byte) (offset : Nat) (w : Window) : Prop :=
  fieldAt bytes offset 2 = w.x % 65536 ∧ fieldAt bytes (offset + 2) 2 = w.y % 65536 ∧
    fieldAt bytes (offset + 4) 2 = w.width % 65536 ∧ fieldAt bytes (offset + 6) 2 = w.height % 65536

/-- Table 65: NONE, PREPARE, ALIGN, CROSSFADE and SETTLE as 0 to 4. -/
def phaseCode (p : Option Phase) : Nat :=
  [none, some Phase.prepare, some Phase.align, some Phase.crossfade, some Phase.settle].idxOf p

/-- Table 65, offset 14: the eleven flags from bit 0 on. -/
def flagList (f : ViewFlags) : List Bool :=
  [f.noSource, f.clamped, f.cut, f.forced, f.aborted, f.reversed, f.staleReport, f.unpaired, f.heldSecondary,
    f.uncalibrated, f.edge]

/-- Table 65: a view record in 48 bytes. -/
def ShowsRecord (bytes : List Byte) (r : ViewRecord) : Prop :=
  bytes.length = 48 ∧ fieldAt bytes 0 4 = r.seq.toNat ∧ fieldAt bytes 4 4 = r.timestamp.toNat ∧
    fieldAt bytes 8 2 = r.commanded % 65536 ∧ fieldAt bytes 10 2 = r.view % 65536 ∧
    fieldAt bytes 12 1 = phaseCode r.phase ∧ fieldAt bytes 13 1 = r.tag.toNat ∧
    BitsAre (fieldAt bytes 14 2) (flagList r.flags) ∧
    (match r.primary with
      | some p =>
        fieldAt bytes 16 1 = p.source.number ∧ fieldAt bytes 17 1 = p.buffer.val ∧ fieldAt bytes 18 2 = p.frame.toNat ∧
          ShowsWindow bytes 20 p.window ∧ fieldAt bytes 28 2 = p.focus % 65536
      | none => fieldAt bytes 16 1 = 0xFF ∧ fieldAt bytes 17 13 = 0) ∧
    (match r.secondary with
      | some q =>
        fieldAt bytes 30 1 = q.source.number ∧ fieldAt bytes 31 1 = q.buffer.val ∧ fieldAt bytes 32 2 = q.frame.toNat ∧
          ShowsWindow bytes 34 q.window ∧ (fieldAt bytes 42 2 : Int) = q.roll % 65536 ∧
          fieldAt bytes 44 1 = q.weight % 256
      | none => fieldAt bytes 30 1 = 0xFF ∧ fieldAt bytes 31 14 = 0) ∧
    fieldAt bytes 45 3 = 0

/-- R26: what remains of a deadline in milliseconds, rounded up, 0xFFFF when it does not run (0 once it is reached, log 17). -/
def remainingField (now : Time) (deadline : Option Time) : Nat :=
  match deadline with
  | some d => ((d - now).toInt.toNat + 999) / 1000 % 65536
  | none => 0xFFFF

/-- Table 66: the status of a source in 23 bytes. The frame number's bytes are free when it is absent (log 18). -/
def ShowsSource (bytes : List Byte) (now : Time) (i : Source) (r : SourceRecord) : Prop :=
  bytes.length = 23 ∧ fieldAt bytes 0 1 = i.number ∧
    fieldAt bytes 1 1 =
      [SourceState.absent, .off, .requested, .warming, .standby, .live, .stopping, .held, .faulted].idxOf r.state ∧
    BitsAre (fieldAt bytes 2 1) [r.want, r.lastStopUnconfirmed, r.withdrawPending, r.locked, r.lastCompleted.isSome] ∧
    fieldAt bytes 3 1 =
      [none, some FaultCause.refused, some .warmTimeout, some .stall, some .badFrames, some .moduleFault].idxOf r.faultCause ∧
    fieldAt bytes 4 1 =
      (match r.refusalCode with
        | some c => c.toNat
        | none => 0) ∧
    fieldAt bytes 5 1 = r.chain.length % 256 ∧
    (∀ k, k < 3 → fieldAt bytes (6 + k) 1 =
      match r.chain[k]? with
      | some b => b.val
      | none => 0xFF) ∧
    fieldAt bytes 9 1 = r.claim % 256 ∧ fieldAt bytes 10 1 = r.qualify % 256 ∧ fieldAt bytes 11 1 = r.bad % 256 ∧
    fieldAt bytes 12 1 = r.matchCount % 256 ∧ (∀ n, r.lastCompleted = some n → fieldAt bytes 13 2 = n.toNat) ∧
    fieldAt bytes 15 2 = remainingField now r.warm ∧ fieldAt bytes 17 2 = remainingField now r.linger ∧
    fieldAt bytes 19 2 = remainingField now r.stop ∧ fieldAt bytes 21 2 = remainingField now r.stall

/-- Table 67: the status of the part in 48 bytes. Without a record its flags, count, weight and start sequence are free in their
ranges, and so is the edge time of a line without one (log 18). -/
def ShowsPart (bytes : List Byte) (s : State) : Prop :=
  bytes.length = 48 ∧
    fieldAt bytes 0 1 =
      (match s.handoff.primary, s.handoff.record with
        | none, _ => 0
        | some _, none => 1
        | some _, some _ => 2) ∧
    fieldAt bytes 1 1 =
      (match s.handoff.primary with
        | some p => p.number
        | none => 0xFF) ∧
    fieldAt bytes 2 1 = phaseCode (s.handoff.record.map fun r => r.phase) ∧
    (match s.handoff.record with
      | some r =>
        BitsAre (fieldAt bytes 3 1) [r.reversed, r.forced, r.cut, decide (r.direction = .up)] ∧
          fieldAt bytes 4 1 = r.src.number ∧ fieldAt bytes 5 1 = r.dst.number ∧ fieldAt bytes 6 1 = r.count % 256 ∧
          fieldAt bytes 8 2 = r.weight % 65536 ∧ fieldAt bytes 16 4 = r.startSeq.toNat
      | none =>
        fieldAt bytes 3 1 < 16 ∧ fieldAt bytes 4 1 = 0xFF ∧ fieldAt bytes 5 1 = 0xFF ∧ fieldAt bytes 6 1 ≤ 8 ∧
          fieldAt bytes 8 2 ≤ 256) ∧
    fieldAt bytes 7 1 = s.planner.queue.length % 256 ∧ fieldAt bytes 10 2 = s.planner.commanded % 65536 ∧
    fieldAt bytes 12 2 = s.handoff.viewZoom % 65536 ∧ fieldAt bytes 14 1 = s.planner.currentTag.toNat ∧
    fieldAt bytes 15 1 = s.planner.lastReachedTag.toNat ∧
    (∀ k x, [Bank.a, .b, .c, .d][k]? = some x →
      fieldAt bytes 20 1 / 4 ^ k % 4 = [BankState.awake, .dormant, .waking].idxOf (s.bank x).state) ∧
    fieldAt bytes 21 1 = s.pool.claimQueue.length % 256 ∧
    (∀ k, k < 4 → fieldAt bytes (22 + k) 1 =
      match s.pool.claimQueue[k]? with
      | some i => (16 * i.number + (s.src i).claim) % 256
      | none => 0xFF) ∧
    fieldAt bytes 26 4 = s.view.nextSeq.toNat ∧
    fieldAt bytes 30 4 =
      (match s.view.ring with
        | r :: _ => r.seq.toNat
        | [] => s.view.nextSeq.toNat) ∧
    BitsAre (fieldAt bytes 34 1)
      [s.planner.ramp.isSome, s.view.timer.isSome, (s.trigger .trg0).lastEdge.isSome, (s.trigger .trg1).lastEdge.isSome] ∧
    fieldAt bytes 35 1 = 0 ∧ fieldAt bytes 36 4 = s.timebase.toNat ∧
    (∀ t, (s.trigger .trg0).lastEdge = some t → fieldAt bytes 40 4 = t.toNat) ∧
    ∀ t, (s.trigger .trg1).lastEdge = some t → fieldAt bytes 44 4 = t.toNat

/-- Table 68: a calibration table, its points in their order. -/
def ShowsTable (bytes : List Byte) (t : List CalPoint) : Prop :=
  bytes.length = 1 + 10 * t.length ∧ fieldAt bytes 0 1 = t.length % 256 ∧
    ∀ k p, t[k]? = some p →
      fieldAt bytes (1 + 10 * k) 2 = p.focus % 65536 ∧ fieldAt bytes (3 + 10 * k) 2 = p.scale % 65536 ∧
        (fieldAt bytes (5 + 10 * k) 2 : Int) = p.offsetX % 65536 ∧ (fieldAt bytes (7 + 10 * k) 2 : Int) = p.offsetY % 65536 ∧
        (fieldAt bytes (9 + 10 * k) 2 : Int) = p.roll % 65536

/-- Table 68: view records, the oldest first. -/
def ShowsRecords (bytes : List Byte) (rs : List ViewRecord) : Prop :=
  bytes.length = 1 + 48 * rs.length ∧ fieldAt bytes 0 1 = rs.length % 256 ∧
    ∀ k r, rs[k]? = some r → ShowsRecord ((bytes.drop (1 + 48 * k)).take 48) r

/-- Table 70: a trailer in 28 bytes. The report's two flags and a sequence are free when absent (log 18). -/
def ShowsTrailer (bytes : List Byte) (t : Trailer) : Prop :=
  bytes.length = 28 ∧ fieldAt bytes 0 1 = [StreamId.p, .r].idxOf t.stream ∧
    fieldAt bytes 1 1 = [FrameKindOut.new, .repeat, .hold, .pattern].idxOf t.kind ∧ fieldAt bytes 2 1 < 128 ∧
    BitsAre (fieldAt bytes 2 1 % 32) [t.lost, t.skipped, t.currentSeq.isSome, t.shownSeq.isSome, t.report.isSome] ∧
    (∀ r, t.report = some r → BitsAre (fieldAt bytes 2 1 / 32) [r.focusMoving, r.exposureChanging]) ∧
    fieldAt bytes 3 1 = 0 ∧ fieldAt bytes 4 2 = t.number.toNat ∧ BitsAre (fieldAt bytes 6 2) (flagList t.shownFlags) ∧
    fieldAt bytes 8 4 = t.start.toNat ∧ (∀ q, t.currentSeq = some q → fieldAt bytes 12 4 = q.toNat) ∧
    (∀ q, t.shownSeq = some q → fieldAt bytes 16 4 = q.toNat) ∧ fieldAt bytes 20 2 = t.remaining % 65536 ∧
    fieldAt bytes 22 2 = 0 ∧
    fieldAt bytes 24 4 =
      match t.report with
      | some r => r.exposure % 2 ^ 32
      | none => 0

/-- R178: an output frame, its rows of one width sample by sample, then its trailer. -/
def ShowsFrame (bytes : List Byte) (width : Nat) (f : OutputFrame) : Prop :=
  ShowsTrailer (bytes.drop (6 * width * f.rows.length)) f.trailer ∧
    ∀ v row u p, f.rows[v]? = some row → row[u]? = some p →
      fieldAt bytes (6 * (v * width + u)) 2 = p.c0.toNat ∧ fieldAt bytes (6 * (v * width + u) + 2) 2 = p.c1.toNat ∧
        fieldAt bytes (6 * (v * width + u) + 4) 2 = p.c2.toNat

/-! ## A frame start (R106) -/

/-- `t` is `s` after a frame start of the source now: its start time, its stall deadline, the paced followers of a primary, and
the lock, the match count and LOCK_LOST as the judgement leaves them; of the rest of that source's record only the qualify count
may differ, and of the notices only DROP (R20, R106, R139, R141). -/
def StampedStart (i : Source) (s t : State) : Prop :=
  t.src i =
      { s.src i with
        lastStart := some s.timebase
        stall := some (s.timebase + BitVec.ofNat 32 (s.params.stallMultiple * (s.enr i).interval))
        locked := ((judgeLock i s.timebase s).src i).locked
        matchCount := ((judgeLock i s.timebase s).src i).matchCount
        qualify := (t.src i).qualify } ∧
    (∀ l, (t.notice l).isPending (.source i .lockLost) =
      ((judgeLock i s.timebase s).notice l).isPending (.source i .lockLost)) ∧
    (∀ l k, k ≠ .source i .lockLost → k ≠ .source i .drop → (t.notice l).isPending k = (s.notice l).isPending k) ∧
    (∀ j, t.syncLine j =
      if s.handoff.primary = some i then (paceFollowers i s.timebase s).syncLine j else s.syncLine j) ∧
    (∀ j, j ≠ i → t.src j = s.src j) ∧ t.handoff = s.handoff ∧ t.view = s.view ∧ Kept s t

/-! ## The departure on leaving STANDBY or LIVE (R11) -/

/-- `t` is what the controller's answer leaves of a state `u` in which the source has left for its state in `t` and been shut
down, and in which everything that answer reads is as in `s` (R11, R59). -/
def DepartsFrom (i : Source) (s t : State) : Prop :=
  ∃ u : State, t = departure i u ∧ u.handoff = s.handoff ∧ u.planner = s.planner ∧ u.view = s.view ∧
    u.params = s.params ∧ u.timebase = s.timebase ∧ (u.src i).state = (t.src i).state ∧ u.syncLine i = .reset ∧
    ∀ j, j ≠ i → (u.src j).state = (s.src j).state ∧ (u.src j).enrolment = (s.src j).enrolment ∧
      u.syncLine j = s.syncLine j

/-! ## The effects of a change of primary on the sync lines and the locks (R47, R144) -/

/-- In `t` every sync line is as in `u`, the state right after a change of primary, and every source is UNLOCKED with match count
0. -/
def PrimaryChanged (u t : State) : Prop :=
  ∀ i, t.syncLine i = u.syncLine i ∧ (t.src i).locked = false ∧ (t.src i).matchCount = 0

/-! ## Rendering (R102) -/

/-- A quotient rounded to the nearest whole number, halves away from zero. -/
def roundAway (q : ℚ) : Int := if 0 ≤ q then ⌊q + 1 / 2⌋ else ⌈q - 1 / 2⌉

/-- A position brought to the nearest place from 0 to n − 1. -/
def nearestIn (n : Nat) (x : Int) : Int := if x < 0 then 0 else if (n : Int) ≤ x then n - 1 else x

end Sys2Proof.Machine
end

