-- ==== Sys2Proof/WellFormed.lean ====
section
/-! DEFINITION. Which commands can exist at all: the bytes a command carries are those of the row it names. -/

namespace Sys2Proof

/-- R162: a request frame's field length is 0 to 60. -/
def fieldsOk (fields : List Byte) : Bool := fields.length ≤ maxFields

/-- R165: the code is a request code (R162) that names no request of the link. -/
def unknownOn (l : Link) (code : Byte) : Bool :=
  0x01 ≤ code.toNat && code.toNat ≤ 0x7F && (requestOf l code []).isNone

/-- R162: the bytes are those of a frame that is discarded whatever the link's state, or none: the frame of no whole byte has no
row of its own and stands here (log 5). -/
def discardedBytes (bytes : List Byte) : Bool := classifyFrame bytes = .discard || bytes.isEmpty

/-- R178: the bytes are those of no packet of Table 69. -/
def invalidBytes (port : Source) (bytes : List Byte) : Bool := decodePacket port bytes = .invalidPacket port bytes

/-- The check on a command's operands, one line per constructor. -/
def WellFormed : Instr → Bool
  | .readIdentity _ f => fieldsOk f
  | .setNoticeEnables _ f => fieldsOk f
  | .takeNotices _ f => fieldsOk f
  | .readViewRecords _ f => fieldsOk f
  | .readSourceStatus _ f => fieldsOk f
  | .clearFault _ f => fieldsOk f
  | .readPartStatus f => fieldsOk f
  | .resetPart f => fieldsOk f
  | .setParameter f => fieldsOk f
  | .enrollSource f => fieldsOk f
  | .withdrawSource f => fieldsOk f
  | .setKeepWarm f => fieldsOk f
  | .postZoom f => fieldsOk f
  | .flushZoom f => fieldsOk f
  | .putCalPoint f => fieldsOk f
  | .dropCalPoint f => fieldsOk f
  | .clearCal f => fieldsOk f
  | .readCal f => fieldsOk f
  | .configureStream f => fieldsOk f
  | .startStream f => fieldsOk f
  | .stopStream f => fieldsOk f
  | .triggerStream f => fieldsOk f
  | .setTriggerEdge f => fieldsOk f
  | .selectSource f => fieldsOk f
  | .resetLink f => fieldsOk f
  | .confirmStart f => fieldsOk f
  | .refuseStart f => fieldsOk f
  | .confirmStop f => fieldsOk f
  | .hold f => fieldsOk f
  | .releaseHold f => fieldsOk f
  | .declareFault f => fieldsOk f
  | .postReport f => fieldsOk f
  | .fetchFrame _ n => 1 ≤ n
  | .discardedFrame _ bs => discardedBytes bs
  | .responseReady _ _ => true
  | .resetNLow _ => true
  | .resetNRelease => true
  | .endOfInitialisation => true
  | .frameStart _ _ _ _ => true
  | .line _ _ _ => true
  | .frameEnd _ _ _ => true
  | .invalidPacket p bs => invalidBytes p bs
  | .triggerEdge _ _ => true
  | .warmDeadlineExpiry _ => true
  | .lingerDeadlineExpiry _ => true
  | .stopDeadlineExpiry _ => true
  | .stallDeadlineExpiry _ => true
  | .dormancyDeadlineExpiry _ => true
  | .wakeCompletion _ => true
  | .viewTimerExpiry => true
  | .syncPulseEnd _ => true
  | .nextSyncPulse _ => true
  | .followListPulse _ => true
  | .streamTimerExpiry _ => true
  | .emissionCompletion _ => true
  | .unknownRequest l c f => unknownOn l c && fieldsOk f

end Sys2Proof
end

