-- ==== Sys2Proof/Certificates/Slice0/Obligations.lean ====
section
/-! DEFINITION. The statements for the provers. -/

open Sys2Proof Sys2Proof.Machine

/-! ## The machine -/

/-- A step takes the command at the front of the queue and runs it on the rest. -/
def Obligations.StepRunsTheFrontCommand : Prop :=
  ∀ (c : Instr) (rest : List Instr) (s : State), step { s with pending := c :: rest } = exec c { s with pending := rest }

/-- On an empty queue (the model's choice, log 1, log 2 and log 26): the timebase holds while RESET_N is low; expiries that are
due are queued; otherwise the timebase counts up by one. What is due are the commands of the deadlines that the timebase has
reached, each of them and nothing else. -/
def Obligations.EmptyQueueTicks : Prop :=
  (∀ s : State, s.pending = [] →
    (s.resetLow = true → step s = .next s) ∧
    (s.resetLow = false → dueEvents s ≠ [] → step s = .next { s with pending := dueEvents s }) ∧
    (s.resetLow = false → dueEvents s = [] → step s = .next { s with timebase := s.timebase + 1 })) ∧
  (∀ (s : State) (c : Instr), c ∈ dueEvents s ↔ ∃ d, deadlineOf s c = some d ∧ reached s.timebase d = true)

/-- The state right after reset has every property that steps keep. -/
def Obligations.ResetIsSafe : Prop :=
  ParamsOk State.reset ∧ CalOk State.reset ∧ ZoomQueueOk State.reset ∧ RingOk State.reset ∧ ReportsOk State.reset ∧
    StreamsOk State.reset ∧ NoticesOk State.reset ∧ FollowOk State.reset ∧ BasesOk State.reset ∧ DeadlinesOk State.reset ∧
    LiveOk State.reset ∧ ChainsOk State.reset ∧ BanksOk State.reset ∧ PinsOk State.reset ∧ FramesOk State.reset ∧
    EnrolledOk State.reset ∧ ZoomOk State.reset ∧ RecordOk State.reset

/-! ## Invariants of the step -/

/-- R168, Table 58: the parameters stay in range; R147: so do the stream configurations, and P and R never both have cause
CHAIN. -/
def Obligations.SettingsStayInRange : Prop :=
  ∀ s t : State, step s = .next t → (ParamsOk s → ParamsOk t) ∧ (StreamsOk s → StreamsOk t)

/-- R90 to R93, R28, R29, R139: the calibration tables stay sorted and bounded, the zoom queue and the follow lists stay
bounded, and (R171, R172, Table 59) no notice bit that names no kind is ever pending or enabled. -/
def Obligations.StoresStayBounded : Prop :=
  ∀ s t : State, step s = .next t →
    (CalOk s → CalOk t) ∧ (ZoomQueueOk s → ZoomQueueOk t) ∧ (FollowOk s → FollowOk t) ∧ (NoticesOk s → NoticesOk t)

/-- R82: the ring stays bounded and consecutive; R128: the report queues stay bounded and later than the last completed frame
number. -/
def Obligations.RecordsAndReportsKeepOrder : Prop :=
  ∀ s t : State, step s = .next t → (RingOk s → RingOk t) ∧ (ReportsOk s → ReportsOk t)

/-- R113, R115, R116, R119, R121, R146: the chains, the claims, the pins and the banks stay those of one pool of twelve
buffers. The two premises about sources (that LIVE follows the controller, and where a deadline runs) are kept too
(LiveSourcesFollowTheController). -/
def Obligations.PoolStaysWhole : Prop :=
  ∀ s t : State, (LiveOk s ∧ DeadlinesOk s ∧ ChainsOk s ∧ BanksOk s ∧ PinsOk s) → step s = .next t →
    ChainsOk t ∧ BanksOk t ∧ PinsOk t

/-- R46, R3, R9, R12, R14, R20: which sources are LIVE follows the primary and the record, the enrolled base zooms stay
distinct, and each deadline of a source runs only in its states. Table 7, R28: with them every source outside ABSENT keeps an
enrolment in range, and with that the commanded zoom and the targets that wait stay in 64 to 12800. Table 22: with the parameters
in range the weight and the count of a record stay those of its phase. -/
def Obligations.LiveSourcesFollowTheController : Prop :=
  ∀ s t : State, (LiveOk s ∧ DeadlinesOk s ∧ BasesOk s) → step s = .next t →
    LiveOk t ∧ DeadlinesOk t ∧ BasesOk t ∧
      (EnrolledOk s → EnrolledOk t ∧ (ZoomOk s → ZoomOk t)) ∧ (ParamsOk s → RecordOk s → RecordOk t)

/-- R76, R104, R113, R114: a source that is shown or ready to be always has a READY frame in its chain, every READY or RETIRING
buffer has its metadata, that of its chain's source while in a chain, and a FILLING buffer is the one its source's port
assembles. The other premises are kept too (PoolStaysWhole, LiveSourcesFollowTheController). -/
def Obligations.FramesStayNameable : Prop :=
  ∀ s t : State, (LiveOk s ∧ DeadlinesOk s ∧ ChainsOk s ∧ BanksOk s ∧ PinsOk s ∧ FramesOk s) → step s = .next t →
    FramesOk t

/-! ## Frames and packets -/

/-- Tables 62, 64 and 69, R162, R178: a request's frame and a camera's packet read back as the command they carry, with
every field. -/
def Obligations.FramesAndPacketsRoundTrip : Prop :=
  ∀ i : Instr, WellFormed i = true →
    (∀ (l : Link) (bytes : List Byte), encodeLinkFrame i = some (l, bytes) → decodeLinkFrame l bytes = some i) ∧
    (∀ (p : Source) (bytes : List Byte), encodePacket i = some (p, bytes) → decodePacket p bytes = i)

/-- R165, checks 1 to 3 in their order: a code that names no request of the link is UNKNOWN; a known request of another length
than its fields take is MALFORMED; during initialisation every other request but READ_IDENTITY is BUSY. The first two hold
during initialisation too, and none changes anything else. -/
def Obligations.LinkChecksInOrder : Prop :=
  (∀ (l : Link) (code : Byte) (f : List Byte) (s : State), LinkOpen l s → unknownOn l code = true → f.length ≤ 60 →
    exec (.unknownRequest l code f) s = .next (refused l code .unknown f.length s)) ∧
  (∀ (i : Instr) (l : Link) (code : Byte) (f : List Byte) (s : State), requestParts i = some (l, code, f) →
    f.length ≤ 60 → LinkOpen l s →
    (takesLength i f.length = some false → exec i s = .next (refused l code .malformed f.length s)) ∧
    (takesLength i f.length = some true → code ≠ 0x01 → s.initialising = true →
      exec i s = .next (refused l code .busy f.length s)))

/-- R162, R164: a frame to be discarded, and a request frame that ends while its link is PENDING, raise LINK_ERROR on that
link and no other; the response state is unaffected. What is shifted out in a frame whose first byte is 0x80 or above is free
(log 8). -/
def Obligations.DiscardedFramesRaiseLinkError : Prop :=
  ∀ (l : Link) (s : State), s.resetLow = false → (s.link l).abandoned = none →
    (∀ (b : Byte) (rest : List Byte), WellFormed (.discardedFrame l (b :: rest)) = true →
      (b.toNat < 0x80 →
        exec (.discardedFrame l (b :: rest)) s =
          .next ((s.setLink l { s.link l with shifted := List.replicate (rest.length + 1) 0 }).setNotice l
            ((s.notice l).raise (.part .linkError)))) ∧
      (0x80 ≤ b.toNat →
        exec (.discardedFrame l (b :: rest)) s =
          .next (({ s with free := s.free + 1 }.setLink l
              { s.link l with shifted := freeBytes (Config.freeByte s.free) 0 (rest.length + 1) }).setNotice l
            ((s.notice l).raise (.part .linkError))))) ∧
    (∀ (i : Instr) (code : Byte) (f : List Byte), requestParts i = some (l, code, f) → WellFormed i = true →
      (s.link l).response.isPending = true →
      exec i s =
        .next ((s.setLink l { s.link l with shifted := List.replicate (2 + f.length) 0 }).setNotice l
          ((s.notice l).raise (.part .linkError))))

/-- R175: while RESET_N is low, and for a frame in progress at a reset, a frame is ignored, without LINK_ERROR. A request frame
shifts out 0x00 on every byte (R162), and so does any frame while RESET_N is low. A frame found in progress by a reset shifts
out, for one or more bytes, what it would have without it, and then 0x00 while RESET_N stays low; the rest, and where the
reset fell, is free (log 8, log 28). A frame of no whole byte (log 5) ends a frame in progress at a reset, and has no other
effect (R162). -/
def Obligations.FramesIgnoredInReset : Prop :=
  ∀ (l : Link) (s : State), (s.resetLow = true ∨ (s.link l).abandoned ≠ none) →
    let ended (out : List Byte) (u : State) : State := u.setLink l { s.link l with abandoned := none, shifted := out }
    (∀ (i : Instr) (code : Byte) (f : List Byte), requestParts i = some (l, code, f) → WellFormed i = true →
      exec i s = .next (ended (List.replicate (2 + f.length) 0) s)) ∧
    (∀ (b : Byte) (rest : List Byte), WellFormed (.discardedFrame l (b :: rest)) = true → b.toNat < 0x80 →
      exec (.discardedFrame l (b :: rest)) s = .next (ended (List.replicate (rest.length + 1) 0) s)) ∧
    ((s.link l).abandoned = none →
      (∀ n : Nat, 1 ≤ n → exec (.fetchFrame l n) s = .next (ended (List.replicate n 0) s)) ∧
      (∀ (b : Byte) (rest : List Byte), WellFormed (.discardedFrame l (b :: rest)) = true →
        exec (.discardedFrame l (b :: rest)) s = .next (ended (List.replicate (rest.length + 1) 0) s))) ∧
    (∀ a, (s.link l).abandoned = some a →
      (∀ n : Nat, 1 ≤ n → ∃ out,
        exec (.fetchFrame l n) s = .next (ended out { s with free := s.free + 1 }) ∧ out.length = n ∧
          ∃ k, 1 ≤ k ∧ out.take k = (fetchShifted a.met n).take k ∧
            (a.low = true → s.resetLow = true → ∀ x ∈ out.drop k, x = 0)) ∧
      (∀ (b : Byte) (rest : List Byte), WellFormed (.discardedFrame l (b :: rest)) = true → 0x80 ≤ b.toNat → ∃ out,
        exec (.discardedFrame l (b :: rest)) s = .next (ended out { s with free := s.free + 1 }) ∧
          out.length = rest.length + 1 ∧
          ∃ k, 1 ≤ k ∧ (a.low = true → s.resetLow = true → ∀ x ∈ out.drop k, x = 0))) ∧
    exec (.discardedFrame l []) s = .next (if (s.link l).abandoned = none then s else ended [] s)

/-- R163, R70, R143, R151, R176: what a fetch frame shifts out, by the response state, which it does not change (a whole frame
is one event, log 8); and a pending response becomes ready with the effect that waits for it (log 7), with none pending nothing
happens (log 6). A reset leaves the queue and the model's counter (log 25) and abandons the frames in progress (log 5). -/
def Obligations.FetchAndReadiness : Prop :=
  (∀ (l : Link) (n : Nat) (s : State), s.resetLow = false → (s.link l).abandoned = none →
    exec (.fetchFrame l n) s =
      .next (if n = 0 then s else s.setLink l { s.link l with
        shifted := match (s.link l).response with
          | .none => (([0x00, 0x80] : List Byte) ++ List.replicate n (0 : Byte)).take n
          | .pending _ _ _ => (([0x00, 0x81] : List Byte) ++ List.replicate n (0 : Byte)).take n
          | .ready r =>
            (([0x00, 0x82, r.code, r.status.value] : List Byte) ++ halfBytes (BitVec.ofNat 16 r.fields.length) ++
              r.fields ++ List.replicate n (0 : Byte)).take n })) ∧
  (∀ (l : Link) (o : OpenFrames) (s : State),
    let found (l : Link) (inProgress : Bool) : Option AbandonedFrame :=
      match (s.link l).abandoned with
      | some a => some { a with low := a.low && s.resetLow }
      | none => if inProgress && !s.resetLow then some { met := (s.link l).response, low := false } else none
    (∀ r t, (s.link l).response = .pending r t .nothing →
      exec (.responseReady l o) s = .next (s.setLink l { s.link l with response := .ready r })) ∧
    (∀ r t p v, (s.link l).response = .pending r t (.setParameter p v) →
      exec (.responseReady l o) s =
        .next ({ s with params := s.params.set v p }.setLink l { s.link l with response := .ready r })) ∧
    (∀ r t line e, (s.link l).response = .pending r t (.setEdge line e) →
      exec (.responseReady l o) s =
        .next ((s.setTrigger line { s.trigger line with selection := e }).setLink l { s.link l with response := .ready r })) ∧
    (∀ r t, (s.link l).response = .pending r t .resetPart →
      exec (.responseReady l o) s =
        .next { State.reset with
          pending := s.pending, free := s.free,
          links := ⟨{ response := .none, abandoned := found .al o.al, shifted := [] },
            { response := .none, abandoned := found .ml o.ml, shifted := [] }⟩ }) ∧
    ((s.link l).response.isPending = false → exec (.responseReady l o) s = .next s))

/-! ## Resets -/

/-- R175, R72: RESET_N low holds every block at its reset value, through every command but its release; at its release
initialisation begins, from timebase 0; at timebase value 2,000 the initialising flag becomes no, PART_READY is raised on both
links and the view timer is started. A frame in progress is abandoned, and one abandoned before stays so (log 5, log 27); the
queue and the counter are the model's own (log 25). -/
def Obligations.ResetsAndInitialisation : Prop :=
  (∀ (o : OpenFrames) (s : State),
    let found (l : Link) (inProgress : Bool) : Option AbandonedFrame :=
      match (s.link l).abandoned with
      | some a => some { a with low := a.low && s.resetLow }
      | none => if inProgress && !s.resetLow then some { met := (s.link l).response, low := true } else none
    exec (.resetNLow o) s =
      .next { State.reset with
        pending := s.pending, free := s.free, resetLow := true, initialising := false,
        links := ⟨{ response := .none, abandoned := found .al o.al, shifted := [] },
          { response := .none, abandoned := found .ml o.ml, shifted := [] }⟩ } ∧
    (s.resetLow = true → exec .resetNRelease s = .next { s with resetLow := false, initialising := true }) ∧
    (s.resetLow = false → exec .resetNRelease s = .next s)) ∧
  (∀ s : State, s.resetLow = false → s.initialising = true → s.timebase = 2000 →
    ∃ t, exec .endOfInitialisation s = .next t ∧ t.initialising = false ∧
      (∀ l, t.notice l = (s.notice l).raise (.part .partReady)) ∧
      t.view = { s.view with timer := some (2000 + BitVec.ofNat 32 s.params.viewTimerPeriod) } ∧
      { t with initialising := true, notices := s.notices, view := s.view } = s) ∧
  (∀ (o : OpenFrames) (s t : State), exec (.resetNLow o) s = .next t → HeldInReset t) ∧
  (∀ s t : State, HeldInReset s → step s = .next t → s.pending.head? ≠ some .resetNRelease → HeldInReset t) ∧
  (∀ s t : State, (s.resetLow = true → HeldInReset s) → step s = .next t → t.resetLow = true → HeldInReset t) ∧
  ∀ s : State, HeldInReset s →
    s.timebase = 0 ∧ (∀ i, s.syncLine i = .reset) ∧ (∀ st, (s.stream st).inFlight = none) ∧ ∀ i, (s.src i).state = .absent

/-! ## Notices -/

/-- R173: the line is asserted exactly when the link holds a pending notice whose kind and group are both enabled, is
deasserted while RESET_N is low, and stays as it is when a kind already pending is raised. -/
def Obligations.NoticeLineRule : Prop :=
  (∀ (s : State) (l : Link),
    noticeLine s l = true ↔
      ∃ g : Group, (s.notice l).groups.get g = true ∧ (s.notice l).pending.get g &&& (s.notice l).kinds.get g ≠ 0) ∧
  (∀ (o : OpenFrames) (s t : State) (l : Link), exec (.resetNLow o) s = .next t → noticeLine t l = false) ∧
  (∀ (s : State) (l : Link), HeldInReset s →
    noticeLine s l = false ∧ ∀ t, step s = .next t → t.resetLow = true → HeldInReset t) ∧
  ∀ (s : State) (l : Link) (k : Notice), (s.notice l).isPending k = true → noticeLine (raise k s) l = noticeLine s l

/-- R172, R174: SET_NOTICE_ENABLES disables, enables and switches the group; TAKE_NOTICES returns the set as it stood and
removes the kinds named, whatever the enables. -/
def Obligations.NoticeRequestsAct : Prop :=
  ∀ (l : Link) (g setMask clearMask e : Byte) (s : State), LinkFree l s →
    (∀ group enable, Group.ofNumber g.toNat = some group → groupEnableOf e.toNat = some enable →
      exec (.setNoticeEnables l [g, setMask, clearMask, e]) s =
        .next (answeredOk l 0x02 4 (s.setNotice l { s.notice l with
          kinds := (s.notice l).kinds.set
            (((s.notice l).kinds.get group &&& ~~~clearMask) ||| (setMask &&& group.kindMask)) group
          groups := match enable with
            | .on => (s.notice l).groups.set true group
            | .off => (s.notice l).groups.set false group
            | .unchanged => (s.notice l).groups }))) ∧
    ((6 < g.toNat ∨ 2 < e.toNat) →
      exec (.setNoticeEnables l [g, setMask, clearMask, e]) s = .next (refused l 0x02 .range 4 s)) ∧
    (∀ group, Group.ofNumber g.toNat = some group →
      exec (.takeNotices l [g, clearMask]) s =
        .next (answered l 0x03 .ok [g, (s.notice l).pending.get group] .nothing 2
          (s.setNotice l { s.notice l with
            pending := (s.notice l).pending.set ((s.notice l).pending.get group &&& ~~~clearMask) group }))) ∧
    (6 < g.toNat → exec (.takeNotices l [g, clearMask]) s = .next (refused l 0x03 .range 2 s))

/-! ## Identity, status and parameters -/

/-- R169, R26, R170, R94: the reads of identity, status and calibration answer with the state as it stands and change
nothing (a status read advances the model's own counter of free bytes, log 18); READ_IDENTITY answers during initialisation
too. Tables 66 to 68: each field stands at its offset, absent items as the tables say, and milliseconds rounded up. -/
def Obligations.StatusReadsChangeNothing : Prop :=
  ∀ s : State,
    (∀ l, LinkOpen l s →
      exec (.readIdentity l []) s =
        .next (answered l 0x01 .ok [0x4D, 0x34, 0x12, 4, 12, 32, 8, 8, 2, if s.initialising then 1 else 0] .nothing 0 s)) ∧
    (LinkFree .al s →
      exec (.readPartStatus []) s =
        .next (answered .al 0x10 .ok (partStatus (Config.freeByte s.free) s) .nothing 0 { s with free := s.free + 1 })) ∧
    (∀ (b : Byte) (i : Source), LinkFree .al s → Source.ofNumber b.toNat = some i →
      exec (.readSourceStatus .al [b]) s =
        .next (answered .al 0x05 .ok (sourceStatus (Config.freeByte s.free) s.timebase i (s.src i)) .nothing 1
          { s with free := s.free + 1 }) ∧
      exec (.readCal [b]) s = .next (answered .al 0x2B .ok (calResponse (s.calTable i)) .nothing 1 s)) ∧
    (LinkFree .ml s → (s.src s.selected).state ≠ .absent →
      exec (.readSourceStatus .ml []) s =
        .next (answered .ml 0x05 .ok
          (sourceStatus (Config.freeByte s.free) s.timebase s.selected (s.src s.selected)) .nothing 0
          { s with free := s.free + 1 })) ∧
    (∀ b : Byte, LinkFree .al s → 3 < b.toNat →
      exec (.readSourceStatus .al [b]) s = .next (refused .al 0x05 .range 1 s) ∧
      exec (.readCal [b]) s = .next (refused .al 0x2B .range 1 s)) ∧
    (∀ g : Nat → Byte, (partStatus g s).length = 48) ∧
    (∀ (g : Nat → Byte) (i : Source), (sourceStatus g s.timebase i (s.src i)).length = 23) ∧
    (∀ r ∈ s.view.ring, (recordBytes r).length = 48) ∧
    (∀ i, (calResponse (s.calTable i)).length = 1 + 10 * (s.calTable i).length) ∧
    (∀ g : Nat → Byte, ShowsPart (partStatus g s) s) ∧
    (∀ (g : Nat → Byte) (i : Source), ShowsSource (sourceStatus g s.timebase i (s.src i)) s.timebase i (s.src i)) ∧
    ∀ i, ShowsTable (calResponse (s.calTable i)) (s.calTable i)

/-- R168, R70, R143, R151, R176: SET_PARAMETER, SET_TRIGGER_EDGE and RESET_PART are answered OK and their effect waits for the
response's readiness (for a parameter read where Table 58 says, log 7); a value out of its list or range is RANGE. -/
def Obligations.DeferredRequestsWait : Prop :=
  (∀ (id v3 v2 v1 v0 : Byte) (s : State), LinkFree .al s →
    (∀ p, paramOf id.toNat = some p → within p.range (word v3 v2 v1 v0).toNat = true →
      exec (.setParameter [id, v3, v2, v1, v0]) s =
        .next (answered .al 0x12 .ok [] (.setParameter p (word v3 v2 v1 v0).toNat) 5 s)) ∧
    ((11 < id.toNat ∨ ∃ p, paramOf id.toNat = some p ∧ within p.range (word v3 v2 v1 v0).toNat = false) →
      exec (.setParameter [id, v3, v2, v1, v0]) s = .next (refused .al 0x12 .range 5 s))) ∧
  (∀ (n e : Byte) (s : State), LinkFree .al s →
    (∀ line sel, triggerLineOf n.toNat = some line → edgeSelectionOf e.toNat = some sel →
      exec (.setTriggerEdge [n, e]) s = .next (answered .al 0x34 .ok [] (.setEdge line sel) 2 s)) ∧
    ((1 < n.toNat ∨ 3 < e.toNat) → exec (.setTriggerEdge [n, e]) s = .next (refused .al 0x34 .range 2 s))) ∧
  (∀ s : State, LinkFree .al s → exec (.resetPart []) s = .next (answered .al 0x11 .ok [] .resetPart 0 s))

/-! ## The selected source -/

/-- R167, R177, R2: SELECT_SOURCE and RESET_LINK; and a selected source in ABSENT gives WRONG_STATE for every source-directed
ML request. -/
def Obligations.SelectedSourceRequests : Prop :=
  (∀ s : State, LinkFree .ml s →
    (∀ (b : Byte) (i : Source), Source.ofNumber b.toNat = some i →
      exec (.selectSource [b]) s = .next (answeredOk .ml 0x40 1 { s with selected := i })) ∧
    (∀ b : Byte, 3 < b.toNat → exec (.selectSource [b]) s = .next (refused .ml 0x40 .range 1 s)) ∧
    exec (.resetLink []) s =
      .next (answeredOk .ml 0x41 0
        ({ s with selected := .s0, view := { s.view with cursors := s.view.cursors.set 0 .ml } }.setNotice .ml
          Notices.reset))) ∧
  (∀ (i : Instr) (code : Byte) (f : List Byte) (s : State),
    i ∈ [.confirmStart f, .refuseStart f, .confirmStop f, .hold f, .releaseHold f, .declareFault f, .clearFault .ml f,
      .postReport f, .readSourceStatus .ml f] →
    requestParts i = some (.ml, code, f) → takesLength i f.length = some true → LinkFree .ml s →
    (s.src s.selected).state = .absent → exec i s = .next (refused .ml code .wrongState f.length s))

/-! ## The source protocol -/

/-- R15, R23, R6: at an entry to OFF the source goes on to ABSENT (with last stop unconfirmed cleared, log 31), goes on to
REQUESTED, or stays in OFF; and entry to REQUESTED with an empty chain: the claim (R121), the banks woken for the deficit, lowest
letter first (R122, R120), and the first pulse and the schedule by sync mode (R137 to R140). -/
def Obligations.EntryToOffAndRequested : Prop :=
  (∀ (i : Source) (s : State),
    ((s.src i).withdrawPending = true →
      enterOff i s = s.setSrc i { s.src i with
        state := .absent, enrolment := none, want := false, withdrawPending := false, lastStopUnconfirmed := false,
        faultCause := none, refusalCode := none }) ∧
    ((s.src i).withdrawPending = false → (s.src i).want = true →
      enterOff i s = enterRequested i (s.setSrc i { s.src i with state := .off })) ∧
    ((s.src i).withdrawPending = false → (s.src i).want = false → enterOff i s = s.setSrc i { s.src i with state := .off })) ∧
  (∀ (i : Source) (s : State), (s.src i).chain = [] →
    let t := enterRequested i s
    (t.src i).state = .requested ∧
      (t.src i).warm = some (s.timebase + BitVec.ofNat 32 (1000 * s.params.warmTimeout)) ∧
      (t.src i).chain.length + (t.src i).claim = 3 ∧ (t.src i).chain = (freeAwake s).take 3 ∧
      ((t.src i).claim = 0 → t.pool.claimQueue = s.pool.claimQueue) ∧
      ((t.src i).claim ≠ 0 → t.pool.claimQueue = s.pool.claimQueue ++ [i]) ∧
      (∀ l, (t.notice l).isPending (.source i .startWanted) = true) ∧
      ((t.src i).claim ≠ 0 → ∀ l, (t.notice l).isPending (.part .bufferWait) = true) ∧
      ((t.src i).claim = 0 → ∀ l,
        (t.notice l).isPending (.part .bufferWait) = (s.notice l).isPending (.part .bufferWait)) ∧
      (∀ k, t.bank k =
        if (s.bank k).state = .dormant ∧ (t.src i).claim ≠ 0 ∧
            3 * ((([Bank.a, .b, .c, .d].takeWhile fun x => decide (x ≠ k)).filter fun x =>
              decide ((s.bank x).state = .dormant)).length : Int) <
            ((t.pool.claimQueue.map fun j => (t.src j).claim).sum : Int) -
              3 * (([Bank.a, .b, .c, .d].filter fun x => decide ((s.bank x).state = .waking)).length : Int) then
          { state := .waking, dormancy := none, wake := some (s.timebase + 300) }
        else { s.bank k with
          dormancy := if ∃ b ∈ (t.src i).chain, b ∈ k.buffers then none else (s.bank k).dormancy }) ∧
      (let l := s.syncLine i
       let own (span : Nat) : SyncLine := { l with
         pulsing := true, lastPulse := some s.timebase, nextPulse := some (s.timebase + BitVec.ofNat 32 span)
         pulseEnd := if l.pulseEnd = none then some (s.timebase + 10) else l.pulseEnd }
       t.syncLine i = match (s.enr i).syncMode with
         | .none => { l with pulsing := true }
         | .free => own (s.enr i).freePeriod
         | .follow => if s.handoff.primary = none then own (s.enr i).interval else { l with pulsing := true }) ∧
      (∀ j, j ≠ i → t.syncLine j = s.syncLine j) ∧ (∀ j, j ≠ i → t.src j = s.src j) ∧ Kept s t)

/-- R22, R2, R14, R7, R20: CLEAR_FAULT in FAULTED and CONFIRM_STOP in STOPPING enter OFF, CONFIRM_START in REQUESTED enters
WARMING; in any other state (but CONFIRM_STOP in FAULTED, which is OK without change) they are WRONG_STATE. A source number above 3 is RANGE. -/
def Obligations.ConfirmationsByState : Prop :=
  (∀ (b : Byte) (i : Source) (s : State), LinkFree .al s → Source.ofNumber b.toNat = some i →
    exec (.clearFault .al [b]) s =
      .next (if (s.src i).state = .faulted then
          answeredOk .al 0x06 1 (enterOff i (s.setSrc i { s.src i with faultCause := none, refusalCode := none }))
        else refused .al 0x06 .wrongState 1 s)) ∧
  (∀ (b : Byte) (s : State), LinkFree .al s → 3 < b.toNat →
    exec (.clearFault .al [b]) s = .next (refused .al 0x06 .range 1 s)) ∧
  (∀ s : State, LinkFree .ml s →
    exec (.clearFault .ml []) s =
      .next (if (s.src s.selected).state = .faulted then
          answeredOk .ml 0x06 0
            (enterOff s.selected (s.setSrc s.selected { s.src s.selected with faultCause := none, refusalCode := none }))
        else refused .ml 0x06 .wrongState 0 s) ∧
    exec (.confirmStop []) s =
      .next (if (s.src s.selected).state = .stopping then
          answeredOk .ml 0x44 0
            (enterOff s.selected
              (raise (.source s.selected .stopped) (s.setSrc s.selected { s.src s.selected with stop := none })))
        else if (s.src s.selected).state = .faulted then answeredOk .ml 0x44 0 s
        else refused .ml 0x44 .wrongState 0 s) ∧
    exec (.confirmStart []) s =
      .next (if (s.src s.selected).state = .requested then
          answeredOk .ml 0x42 0 (s.setSrc s.selected { s.src s.selected with
            state := .warming, lastStopUnconfirmed := false, qualify := 0,
            stall := some (s.timebase + BitVec.ofNat 32 (s.params.stallMultiple * (s.enr s.selected).interval)) })
        else refused .ml 0x42 .wrongState 0 s))

/-- R17: RELEASE_HOLD in HELD enters OFF, and goes on to REQUESTED when want is yes (or to ABSENT when a withdrawal waits,
R15); in any other state it is WRONG_STATE. -/
def Obligations.ReleaseHoldEntersOff : Prop :=
  ∀ s : State, LinkFree .ml s →
    ((s.src s.selected).state = .held →
      exec (.releaseHold []) s = .next (answeredOk .ml 0x46 0 (enterOff s.selected s)) ∧
      ((enterOff s.selected s).src s.selected).state =
        if (s.src s.selected).withdrawPending then .absent else if (s.src s.selected).want then .requested else .off) ∧
    ((s.src s.selected).state ≠ .held →
      exec (.releaseHold []) s = .next (refused .ml 0x46 .wrongState 0 s))

/-- What STOPPING, HELD and FAULTED share (R13, R16, R19, R24, R118, R124, R137): the deadlines of a start and a linger, the
chain, the claim and the pulses are gone, and the history of a source that was streaming; an entry from STANDBY or LIVE has the
controller's answer to the departure (R11), and any other leaves the controller as it is; entry to STOPPING also sets its
deadline and raises STOP_WANTED. -/
def Obligations.LeavingReleasesEverything : Prop :=
  ∀ (i : Source) (cause : FaultCause) (s : State),
    (∀ t : State, t ∈ [enterStopping i s, enterHeld i s, enterFaulted i cause s] →
      (t.src i).warm = none ∧ (t.src i).linger = none ∧ (t.src i).chain = [] ∧ (t.src i).claim = 0 ∧
        i ∉ t.pool.claimQueue ∧ t.syncLine i = SyncLine.reset ∧
        ((s.src i).state.streaming = true →
          t.report i = { queue := [], current := none } ∧ t.port i = .idle ∧ (t.src i).lastCompleted = none ∧
            (t.src i).lastStart = none ∧ (t.src i).qualify = 0 ∧ (t.src i).bad = 0 ∧ (t.src i).stall = none ∧
            (t.src i).locked = false ∧ (t.src i).matchCount = 0) ∧
        ((s.src i).state ∈ [.standby, .live] → DepartsFrom i s t) ∧
        ((s.src i).state ∉ [.standby, .live] → t.handoff = s.handoff ∧ t.view = s.view) ∧
        Kept s t) ∧
    ((enterStopping i s).src i).state = .stopping ∧
    ((enterStopping i s).src i).stop = some (s.timebase + BitVec.ofNat 32 (1000 * s.params.stopTimeout)) ∧
    ((enterStopping i s).src i).want = (s.src i).want ∧
    ((enterStopping i s).src i).withdrawPending = (s.src i).withdrawPending ∧
    ((enterStopping i s).src i).enrolment = (s.src i).enrolment ∧
    ∀ l, ((enterStopping i s).notice l).isPending (.source i .stopWanted) = true

/-- R16, R23: HOLD from every state but ABSENT and HELD, which does not raise STOP_WANTED; in HELD it is OK and changes
nothing. -/
def Obligations.HoldTakesTheSource : Prop :=
  ∀ s : State, LinkFree .ml s → (s.src s.selected).state ≠ .absent →
    ((s.src s.selected).state = .held → exec (.hold []) s = .next (answeredOk .ml 0x45 0 s)) ∧
    ((s.src s.selected).state ≠ .held →
      ∃ t, exec (.hold []) s = .next (answeredOk .ml 0x45 0 t) ∧ t = enterHeld s.selected s ∧
        (t.src s.selected).stop = none ∧ (t.src s.selected).faultCause = none ∧
        (t.src s.selected).refusalCode = none ∧
        (∀ l, (t.notice l).isPending (.source s.selected .stopWanted) =
          (s.notice l).isPending (.source s.selected .stopWanted)) ∧
        ((s.src s.selected).withdrawPending = false →
          (t.src s.selected).state = .held ∧ (t.src s.selected).want = (s.src s.selected).want ∧
            (t.src s.selected).enrolment = (s.src s.selected).enrolment) ∧
        ((s.src s.selected).withdrawPending = true →
          (t.src s.selected).state = .absent ∧ (t.src s.selected).want = false ∧
            (t.src s.selected).enrolment = none))

/-- R18, R19: DECLARE_FAULT in ABSENT is WRONG_STATE, in FAULTED OK without change, and in the other seven states OK with entry
to FAULTED with cause MODULE_FAULT, where the stop deadline is cleared. (Whether STOP_WANTED is raised from REQUESTED is not
stated, log 10; nothing here depends on it.) -/
def Obligations.DeclareFaultTakesTheSource : Prop :=
  ∀ s : State, LinkFree .ml s →
    ((s.src s.selected).state = .absent → exec (.declareFault []) s = .next (refused .ml 0x47 .wrongState 0 s)) ∧
    ((s.src s.selected).state = .faulted → exec (.declareFault []) s = .next (answeredOk .ml 0x47 0 s)) ∧
    ((s.src s.selected).state ≠ .absent → (s.src s.selected).state ≠ .faulted →
      ∃ t, exec (.declareFault []) s = .next (answeredOk .ml 0x47 0 t) ∧ t = enterFaulted s.selected .moduleFault s ∧
        (t.src s.selected).stop = none ∧
        ((s.src s.selected).withdrawPending = false →
          (t.src s.selected).state = .faulted ∧ (t.src s.selected).faultCause = some .moduleFault))

/-- R19, R8, R9, R23: every entry to FAULTED with its notices (STOP_WANTED where R19 has it raised, and not where it has it not),
and REFUSE_START, which keeps its cause byte and is accepted in REQUESTED only. -/
def Obligations.EntryToFaulted : Prop :=
  (∀ (i : Source) (cause : FaultCause) (s : State),
    ((enterFaulted i cause s).src i).stop = none ∧ ((enterFaulted i cause s).src i).locked = false ∧
      ((enterFaulted i cause s).src i).matchCount = 0 ∧
      (∀ l, ((enterFaulted i cause s).notice l).isPending (.source i .faulted) = true) ∧
      ((s.src i).state.streaming = true ∨ ((s.src i).state = .requested ∧ cause = .warmTimeout) →
        ∀ l, ((enterFaulted i cause s).notice l).isPending (.source i .stopWanted) = true) ∧
      ((s.src i).state ∈ [.off, .stopping, .held] ∨ ((s.src i).state = .requested ∧ cause = .refused) →
        ∀ l, ((enterFaulted i cause s).notice l).isPending (.source i .stopWanted) =
          (s.notice l).isPending (.source i .stopWanted)) ∧
      ((s.src i).withdrawPending = false →
        ((enterFaulted i cause s).src i).state = .faulted ∧ ((enterFaulted i cause s).src i).faultCause = some cause ∧
          ((enterFaulted i cause s).src i).want = (s.src i).want ∧
          ((enterFaulted i cause s).src i).refusalCode = (s.src i).refusalCode ∧
          ((enterFaulted i cause s).src i).enrolment = (s.src i).enrolment) ∧
      ((s.src i).withdrawPending = true →
        ((enterFaulted i cause s).src i).state = .absent ∧ ((enterFaulted i cause s).src i).faultCause = none)) ∧
  (∀ (code : Byte) (s : State), LinkFree .ml s →
    ((s.src s.selected).state = .requested →
      exec (.refuseStart [code]) s =
        .next (answeredOk .ml 0x43 1
          (enterFaulted s.selected .refused (s.setSrc s.selected { s.src s.selected with refusalCode := some code })))) ∧
    ((s.src s.selected).state ≠ .requested →
      exec (.refuseStart [code]) s = .next (refused .ml 0x43 .wrongState 1 s)))

/-- R3, R2: ENROLL_SOURCE in the order of its checks. -/
def Obligations.EnrollSourceChecksInOrder : Prop :=
  ∀ (f : List Byte) (n : Nat) (e : Option Enrolment) (s : State), LinkFree .al s → parseEnrolment f = some (n, e) →
    (3 < n → exec (.enrollSource f) s = .next (refused .al 0x18 .range 26 s)) ∧
    (∀ i, Source.ofNumber n = some i →
      ((s.src i).state ∉ [.absent, .off, .faulted] →
        exec (.enrollSource f) s = .next (refused .al 0x18 .wrongState 26 s)) ∧
      ((s.src i).state ∈ [.absent, .off, .faulted] →
        ((∀ x, e = some x → x.inRange = false) → exec (.enrollSource f) s = .next (refused .al 0x18 .range 26 s)) ∧
        (∀ x, e = some x → x.inRange = true →
          ((∃ j, j ≠ i ∧ (s.src j).state ≠ .absent ∧ (s.enr j).base = x.base) →
            exec (.enrollSource f) s = .next (refused .al 0x18 .conflict 26 s)) ∧
          ((∀ j, j ≠ i → (s.src j).state ≠ .absent → (s.enr j).base ≠ x.base) →
            exec (.enrollSource f) s =
              .next (answeredOk .al 0x18 26 (enterOff i (s.setSrc i { s.src i with
                enrolment := some x, lastStopUnconfirmed := false,
                want := if (s.src i).state = .absent then s.planner.keepWarm.get i else (s.src i).want,
                faultCause := if (s.src i).state = .faulted then none else (s.src i).faultCause,
                refusalCode := if (s.src i).state = .faulted then none else (s.src i).refusalCode })))))))

/-- R23, R2: WITHDRAW_SOURCE by the state of the source; a source number above 3 is RANGE. -/
def Obligations.WithdrawSourceByState : Prop :=
  (∀ (b : Byte) (s : State), LinkFree .al s → 3 < b.toNat →
    exec (.withdrawSource [b]) s = .next (refused .al 0x19 .range 1 s)) ∧
  ∀ (b : Byte) (i : Source) (s : State), LinkFree .al s → Source.ofNumber b.toNat = some i →
    exec (.withdrawSource [b]) s =
      .next (match (s.src i).state with
        | .off | .faulted | .held =>
          answeredOk .al 0x19 1 (s.setSrc i { s.src i with
            state := .absent, enrolment := none, want := false, withdrawPending := false, lastStopUnconfirmed := false,
            faultCause := none, refusalCode := none })
        | .requested | .warming | .standby =>
          answeredOk .al 0x19 1 (enterStopping i (s.setSrc i { s.src i with withdrawPending := true }))
        | .stopping => answeredOk .al 0x19 1 (s.setSrc i { s.src i with withdrawPending := true })
        | .live => refused .al 0x19 .inView 1 s
        | .absent => refused .al 0x19 .wrongState 1 s)

/-- R25: the mask is kept and want is written to every source not in ABSENT, in the order S0 to S3. R4, R5, R6: what a write of
want does, by the state of the source. -/
def Obligations.SetKeepWarmWrites : Prop :=
  (∀ (b : Byte) (s : State), LinkFree .al s →
    (15 < b.toNat → exec (.setKeepWarm [b]) s = .next (refused .al 0x1A .range 1 s)) ∧
    (∀ m, sourceMask b = some m →
      ∃ t, exec (.setKeepWarm [b]) s = .next (answeredOk .al 0x1A 1 t) ∧
        t = [Source.s0, .s1, .s2, .s3].foldl (fun u i => writeWant i (m.get i || s.planner.planned.get i) u)
          { s with planner := { s.planner with keepWarm := m } } ∧
        t.planner = { s.planner with keepWarm := m } ∧
        (∀ i, (s.src i).state ≠ .absent → (t.src i).want = (m.get i || s.planner.planned.get i)) ∧
        (∀ i, (s.src i).state = .absent → t.src i = s.src i) ∧ Kept s t)) ∧
  (∀ (i : Source) (v : Bool) (s : State),
    ((s.src i).state = .absent → writeWant i v s = s) ∧
    ((s.src i).state = .off →
      writeWant i v s =
        if v = true ∧ (s.src i).want = false then enterRequested i (s.setSrc i { s.src i with want := true })
        else s.setSrc i { s.src i with want := v }) ∧
    ((s.src i).state ∈ [.requested, .warming, .standby] →
      (v = true → (s.src i).want = false →
        writeWant i v s = s.setSrc i { s.src i with want := true, linger := none }) ∧
      (v = false → (s.src i).want = true →
        writeWant i v s = s.setSrc i { s.src i with
          want := false
          linger := if (s.src i).linger = none then some (s.timebase + BitVec.ofNat 32 (1000 * s.params.lingerTime))
            else (s.src i).linger }) ∧
      (v = (s.src i).want → writeWant i v s = s)) ∧
    ((s.src i).state ∈ [.live, .stopping, .held, .faulted] →
      writeWant i v s = s.setSrc i { s.src i with want := v }))

/-- R9, R12, R14, R20, R1: the expiry of a source's deadline, and no effect while it is not reached (log 4). -/
def Obligations.SourceDeadlinesExpire : Prop :=
  ∀ (i : Source) (s : State),
    (∀ d, (s.src i).warm = some d → reached s.timebase d = true →
      exec (.warmDeadlineExpiry i) s = .next (enterFaulted i .warmTimeout s)) ∧
    (∀ d, (s.src i).linger = some d → reached s.timebase d = true →
      exec (.lingerDeadlineExpiry i) s = .next (enterStopping i s)) ∧
    (∀ d, (s.src i).stop = some d → reached s.timebase d = true →
      exec (.stopDeadlineExpiry i) s =
        .next (enterOff i (raise (.source i .stopped)
          (s.setSrc i { s.src i with stop := none, lastStopUnconfirmed := true })))) ∧
    (∀ d, (s.src i).stall = some d → reached s.timebase d = true →
      exec (.stallDeadlineExpiry i) s = .next (enterFaulted i .stall s)) ∧
    ((∀ d, (s.src i).warm = some d → reached s.timebase d = false) → exec (.warmDeadlineExpiry i) s = .next s) ∧
    ((∀ d, (s.src i).linger = some d → reached s.timebase d = false) → exec (.lingerDeadlineExpiry i) s = .next s) ∧
    ((∀ d, (s.src i).stop = some d → reached s.timebase d = false) → exec (.stopDeadlineExpiry i) s = .next s) ∧
    ((∀ d, (s.src i).stall = some d → reached s.timebase d = false) → exec (.stallDeadlineExpiry i) s = .next s)

/-! ## Reports -/

/-- R127, R128: the checks in their order, then the queue's tail, with the head displaced when four are queued. R129: matching
removes every report not later than n, and the one of number n accepted latest becomes current. -/
def Obligations.ReportsQueueAndMatch : Prop :=
  (∀ (f : List Byte) (r : Report) (flagsOk : Bool) (s : State), LinkFree .ml s → parseReport f = some (r, flagsOk) →
    ((s.src s.selected).state.streaming = false →
      exec (.postReport f) s = .next (refused .ml 0x48 .wrongState 13 s)) ∧
    ((s.src s.selected).state.streaming = true →
      ((r.inRange && flagsOk) = false → exec (.postReport f) s = .next (refused .ml 0x48 .range 13 s)) ∧
      ((r.inRange && flagsOk) = true →
        (∀ n, (s.src s.selected).lastCompleted = some n → frameLater r.frame n = false →
          exec (.postReport f) s = .next (refused .ml 0x48 .late 13 s)) ∧
        ((∀ n, (s.src s.selected).lastCompleted = some n → frameLater r.frame n = true) →
          ((s.report s.selected).queue.length < 4 →
            exec (.postReport f) s =
              .next (answeredOk .ml 0x48 13
                (s.setReport s.selected { s.report s.selected with queue := (s.report s.selected).queue ++ [r] }))) ∧
          (4 ≤ (s.report s.selected).queue.length →
            exec (.postReport f) s =
              .next (answered .ml 0x48 .displaced [] .nothing 13
                (s.setReport s.selected
                  { s.report s.selected with queue := (s.report s.selected).queue.tail ++ [r] }))))))) ∧
  ∀ (u : ReportUnit) (n : FrameNo),
    (u.matching n).1.queue = u.queue.filter (fun r => frameLater r.frame n) ∧
    (∀ before r after, u.queue = before ++ r :: after → r.frame = n → (∀ x ∈ after, x.frame ≠ n) →
      (u.matching n).2 = some r ∧ (u.matching n).1.current = some r) ∧
    ((∀ x ∈ u.queue, x.frame ≠ n) → (u.matching n).2 = none ∧ (u.matching n).1.current = u.current)

/-! ## Zoom -/

/-- R28 to R31: POST_ZOOM with the interval its target is clamped into; FLUSH_ZOOM: the queue and the ramp go, the commanded zoom
and the tags stay, no notice is raised, and the commanded zoom holds at the next advance. -/
def Obligations.ZoomRequestsQueue : Prop :=
  (∀ (t1 t0 n1 n0 tag rep : Byte) (s : State), LinkFree .al s →
    let target := (half t1 t0).toNat
    let steps := (half n1 n0).toNat
    let z : ZoomRequest := { target := clampTarget s target, steps := steps, tag := tag, replace := decide (rep = 1) }
    let st := if z.target = target then Status.ok else Status.clamped
    ((1023 < steps ∨ 1 < rep.toNat) →
      exec (.postZoom [t1, t0, n1, n0, tag, rep]) s = .next (refused .al 0x20 .range 6 s)) ∧
    (steps ≤ 1023 → rep = 0 → 8 ≤ s.planner.queue.length →
      exec (.postZoom [t1, t0, n1, n0, tag, rep]) s = .next (refused .al 0x20 .full 6 s)) ∧
    (steps ≤ 1023 → rep = 0 → s.planner.queue.length < 8 →
      exec (.postZoom [t1, t0, n1, n0, tag, rep]) s =
        .next (answered .al 0x20 st [] .nothing 6 { s with planner := { s.planner with queue := s.planner.queue ++ [z] } })) ∧
    (steps ≤ 1023 → rep = 1 → s.planner.queue = [] → s.planner.ramp = none →
      exec (.postZoom [t1, t0, n1, n0, tag, rep]) s =
        .next (answered .al 0x20 st [] .nothing 6 { s with planner := { s.planner with queue := [z] } })) ∧
    (steps ≤ 1023 → rep = 1 → (s.planner.queue ≠ [] ∨ s.planner.ramp ≠ none) →
      exec (.postZoom [t1, t0, n1, n0, tag, rep]) s =
        .next (answered .al 0x20 st [] .nothing 6
          (raise (.part .zoomDiscarded) { s with planner := { s.planner with queue := [z], ramp := none } })))) ∧
  (∀ (s : State) (target low high : Nat),
    ((∀ i, (s.src i).state = .absent) ∧ low = 64 ∧ high = 12800) ∨
      (((∃ i, (s.src i).state ≠ .absent ∧ (s.enr i).base = low) ∧
        (∀ i, (s.src i).state ≠ .absent → low ≤ (s.enr i).base)) ∧
        (∃ i, (s.src i).state ≠ .absent ∧ (s.enr i).limit = high) ∧
        ∀ i, (s.src i).state ≠ .absent → (s.enr i).limit ≤ high) →
    clampTarget s target = if target < low then low else if high < target then high else target) ∧
  (∀ s : State, LinkFree .al s →
    exec (.flushZoom []) s =
        .next (answeredOk .al 0x21 0 { s with planner := { s.planner with queue := [], ramp := none } }) ∧
      ∀ t : State, t.planner.queue = [] → t.planner.ramp = none → advanceRamp t = t)

/-- R37 to R40: V, Q, W by its cases in their order, and the approach sources. The base zooms of V are distinct (R3), which every
step keeps (LiveSourcesFollowTheController). That V keeps a withdrawn source while it is STOPPING is R37 with R52 and R64,
against the words of R45 (the model's choice, log 33). -/
def Obligations.WantedAndApproachSources : Prop :=
  (∀ (s : State) (i : Source),
    i ∈ availableSources s ↔ (s.src i).state ∈ [.off, .requested, .warming, .standby, .live, .stopping]) ∧
  (∀ s : State,
    (s.handoff.primary = none → reference s = none) ∧
    (s.handoff.record = none → reference s = s.handoff.primary) ∧
    (∀ p r, s.handoff.primary = some p → s.handoff.record = some r →
      reference s = if r.phase = .crossfade ∨ r.phase = .settle then some r.dst else some p)) ∧
  (∀ (s : State) (q : Option Source) (c : Nat),
    (availableSources s = [] → wanted s q c = none) ∧
    (availableSources s ≠ [] → (∀ p, q = some p → p ∉ availableSources s) →
      ∃ w, wanted s q c = some w ∧ NearestBelow s (availableSources s) c w) ∧
    (∀ p, q = some p → p ∈ availableSources s →
      ((∃ u ∈ availableSources s, (s.enr p).base < (s.enr u).base ∧ (s.enr u).switchUp ≤ c) →
        ∃ w ∈ availableSources s, wanted s q c = some w ∧ (s.enr p).base < (s.enr w).base ∧ (s.enr w).switchUp ≤ c ∧
          ∀ u ∈ availableSources s, (s.enr p).base < (s.enr u).base → (s.enr u).switchUp ≤ c →
            (s.enr u).base ≤ (s.enr w).base) ∧
      ((∀ u ∈ availableSources s, (s.enr p).base < (s.enr u).base → c < (s.enr u).switchUp) →
        (c < (s.enr p).switchDown → (∃ d ∈ availableSources s, (s.enr d).base < (s.enr p).base) →
          ∃ w, wanted s q c = some w ∧
            NearestBelow s ((availableSources s).filter fun i => (s.enr i).base < (s.enr p).base) c w) ∧
        (c < (s.enr p).switchDown → (∀ d ∈ availableSources s, (s.enr p).base ≤ (s.enr d).base) →
          wanted s q c = some p) ∧
        ((s.enr p).switchDown ≤ c → wanted s q c = some p)))) ∧
  (∀ (s : State) (q : Option Source) (c : Nat) (n : Source), BasesOk s →
    (n ∈ approachSources s q c ↔
      ∃ p, q = some p ∧ p ∈ availableSources s ∧ (ApproachesFromAbove s p n c ∨ ApproachesFromBelow s p n c)))

/-- R33 to R35: the ramp's advance at a view step. -/
def Obligations.RampAdvances : Prop :=
  ∀ s : State,
    (s.planner.ramp = none → s.planner.queue = [] → advanceRamp s = s) ∧
    (∀ z rest, s.planner.ramp = none → s.planner.queue = z :: rest →
      advanceRamp s = advanceRamp { s with planner := { s.planner with
        queue := rest, currentTag := z.tag,
        ramp := some { origin := s.planner.commanded, target := z.target, steps := z.steps, index := 0, tag := z.tag } } }) ∧
    (∀ r, s.planner.ramp = some r → r.index + 1 < r.steps →
      advanceRamp s = { s with planner := { s.planner with
        commanded := ((r.origin : Int) + Int.tdiv (((r.target : Int) - r.origin) * (r.index + 1)) r.steps).toNat,
        ramp := some { r with index := r.index + 1 } } }) ∧
    (∀ r, s.planner.ramp = some r → (r.steps = 0 ∨ r.index + 1 = r.steps) →
      advanceRamp s = raise (.handoff .zoomReached)
        { s with planner := { s.planner with commanded := r.target, ramp := none, lastReachedTag := r.tag } })

/-! ## Calibration, alignment and rendering -/

/-- R83, R84, R116: an append to a full ring overwrites its oldest record, removing the pending pins on it, marking to skip the
RUNNING SEQUENTIAL streams that had one, and raising CURSOR_OVERRUN on the links whose cursor named it; the record then stands
in the ring with a pending pin for each RUNNING SEQUENTIAL stream; and the holds that the append and the takes it triggers
remove are removed together. -/
def Obligations.AppendHandlesPinsAndCursors : Prop :=
  (∀ s : State, s.view.ring.length < 32 → roomInRing s = { state := s, names := [] }) ∧
  (∀ (s : State) (o : ViewRecord) (rest : List ViewRecord), s.view.ring = o :: rest → 32 ≤ s.view.ring.length →
    let x := roomInRing s
    x.state.view = { s.view with ring := rest } ∧
      (∀ st, x.state.stream st = { s.stream st with
        skip := (s.stream st).skip || decide ((∃ p ∈ (s.stream st).pendingSet, p.seq = o.seq) ∧
          (s.stream st).state = .running ∧ (s.stream st).config.take = .sequential)
        pendingSet := (s.stream st).pendingSet.filter fun p => decide (p.seq ≠ o.seq) }) ∧
      (∀ b, x.names.count b =
        ([StreamId.p, .r].flatMap fun st =>
          ((s.stream st).pendingSet.filter fun p => decide (p.seq = o.seq)).flatMap fun p => p.buffers).count b) ∧
      (∀ l, x.state.notice l =
        if s.view.cursors.get l = o.seq then (s.notice l).raise (.part .cursorOverrun) else s.notice l) ∧
      x.state.pool = s.pool ∧ x.state.sources = s.sources ∧ Kept s x.state) ∧
  (∀ (r : ViewRecord) (s : State),
    let t := placeRecord r s
    t.view = { s.view with
        ring := s.view.ring ++ [r], nextSeq := s.view.nextSeq + 1,
        lastSecondary := r.secondary.map fun q => (q.source, q.frame) } ∧
      (∀ st, t.stream st =
        if (s.stream st).state = .running ∧ (s.stream st).config.take = .sequential then
          { s.stream st with
            pendingSet := (s.stream st).pendingSet ++ [{ seq := r.seq, buffers := holdNames s r }] }
        else s.stream st) ∧
      (∀ b, t.buffer b = { s.buffer b with
        pins := (s.buffer b).pins + (holdNames s r).count b * ([StreamId.p, .r].filter fun st =>
          decide ((s.stream st).state = .running ∧ (s.stream st).config.take = .sequential)).length }) ∧
      t.notices = s.notices ∧ t.sources = s.sources ∧ Kept s t) ∧
  (∀ (r : ViewRecord) (s : State),
    let x := roomInRing s
    let y := offerBoth .view (placeRecord r x.state)
    appendRecord r s = removePins (x.names ++ y.names) y.state)

/-- R91, R92: a point is replaced, inserted in its place or refused FULL; a point is dropped or NOT_FOUND. R93: CLEAR_CAL empties
the table and is OK, also when it is empty. In each a source number above 3 is RANGE (R2). -/
def Obligations.CalibrationEdits : Prop :=
  (∀ (b : Byte) (s : State), LinkFree .al s →
    (∀ i, Source.ofNumber b.toNat = some i →
      exec (.clearCal [b]) s = .next (answeredOk .al 0x2A 1 (s.setCal i [])) ∧ (s.setCal i []).calTable i = []) ∧
    (3 < b.toNat → exec (.clearCal [b]) s = .next (refused .al 0x2A .range 1 s))) ∧
  (∀ (f : List Byte) (s : State), LinkFree .al s →
    (∀ (n : Nat) (p : CalPoint), parseCalPoint f = some (n, p) → 3 < n →
      exec (.putCalPoint f) s = .next (refused .al 0x28 .range 11 s)) ∧
    (∀ n focus : Nat, parseCalKey f = some (n, focus) → 3 < n →
      exec (.dropCalPoint f) s = .next (refused .al 0x29 .range 3 s))) ∧
  ∀ (i : Source) (s : State), LinkFree .al s → CalTableOk (s.calTable i) →
    (∀ (f : List Byte) (n : Nat) (p : CalPoint), parseCalPoint f = some (n, p) → Source.ofNumber n = some i →
      (p.inRange = false → exec (.putCalPoint f) s = .next (refused .al 0x28 .range 11 s)) ∧
      (p.inRange = true → (∀ q ∈ s.calTable i, q.focus ≠ p.focus) → (s.calTable i).length = 8 →
        exec (.putCalPoint f) s = .next (refused .al 0x28 .full 11 s)) ∧
      (p.inRange = true → ((∃ q ∈ s.calTable i, q.focus = p.focus) ∨ (s.calTable i).length < 8) →
        ∃ table, exec (.putCalPoint f) s = .next (answeredOk .al 0x28 11 (s.setCal i table)) ∧ CalTableOk table ∧
          ∀ q, q ∈ table ↔ q = p ∨ (q ∈ s.calTable i ∧ q.focus ≠ p.focus))) ∧
    (∀ (f : List Byte) (n focus : Nat), parseCalKey f = some (n, focus) → Source.ofNumber n = some i →
      (1023 < focus → exec (.dropCalPoint f) s = .next (refused .al 0x29 .range 3 s)) ∧
      (focus ≤ 1023 → (∀ q ∈ s.calTable i, q.focus ≠ focus) →
        exec (.dropCalPoint f) s = .next (refused .al 0x29 .notFound 3 s)) ∧
      (focus ≤ 1023 → (∃ q ∈ s.calTable i, q.focus = focus) →
        exec (.dropCalPoint f) s =
          .next (answeredOk .al 0x29 3 (s.setCal i ((s.calTable i).filter fun q => decide (q.focus ≠ focus))))))

/-- R96: below the lowest point, above the highest, at a point, and strictly between two neighbours. R97: an empty table gives the
identity alignment. -/
def Obligations.InterpolationByFocus : Prop :=
  (∀ f : Nat, alignmentAt f [] = { scale := 4096, offsetX := 0, offsetY := 0, roll := 0 }) ∧
  ∀ (t : List CalPoint) (f : Nat), CalTableOk t →
    (∀ p ∈ t, p.focus = f → alignmentAt f t = p.alignment) ∧
    (∀ p rest, t = p :: rest → f ≤ p.focus → alignmentAt f t = p.alignment) ∧
    (∀ before p, t = before ++ [p] → p.focus ≤ f → alignmentAt f t = p.alignment) ∧
    (∀ before p q after, t = before ++ p :: q :: after → p.focus < f → f < q.focus →
      alignmentAt f t =
        { scale := ((p.scale : Int) + Int.tdiv (((q.scale : Int) - p.scale) * ((f : Int) - p.focus))
            ((q.focus : Int) - p.focus)).toNat
          offsetX := p.offsetX + Int.tdiv ((q.offsetX - p.offsetX) * ((f : Int) - p.focus)) ((q.focus : Int) - p.focus)
          offsetY := p.offsetY + Int.tdiv ((q.offsetY - p.offsetY) * ((f : Int) - p.focus)) ((q.focus : Int) - p.focus)
          roll := p.roll + Int.tdiv ((q.roll - p.roll) * ((f : Int) - p.focus)) ((q.focus : Int) - p.focus) })

/-- R98 to R100, R102, R103: the size and the place of a crop window, that it lies in the frame, and when the frame's edge
limits it; that each primary position lies inside the window; the secondary's position, turned by the sine and cosine to the
nearest 1/65536 (log 15) and rounded; that a position outside the frame takes the sample on the frame's edge; the blend of two
sample values, that it lies between them, and that one weight serves every component; and (R157) that an output frame is these
samples, or mid-grey. (A primary's position is outside its frame only in a window of no width or no height, of which R102 says
nothing: log 32.) -/
def Obligations.CropWindowAndBlend : Prop :=
  (∀ (e : Enrolment) (a : Machine.Alignment) (zoom : Nat) (r : ReportUsed),
    (e.width < e.width * e.base * 4096 / (zoom * a.scale) →
      cropWindow e a zoom r = ({ x := 0, y := 0, width := e.width, height := e.height }, true)) ∧
    (e.width * e.base * 4096 / (zoom * a.scale) ≤ e.width →
      (cropWindow e a zoom r).1.width = e.width * e.base * 4096 / (zoom * a.scale) ∧
        (cropWindow e a zoom r).1.height = e.width * e.base * 4096 / (zoom * a.scale) * e.height / e.width) ∧
    (e.width * e.base * 4096 / (zoom * a.scale) ≤ e.width →
      let w := (cropWindow e a zoom r).1
      let moveX := Int.tdiv (a.offsetX * e.width * e.base) (256 * a.scale) + r.shiftX
      let moveY := Int.tdiv (a.offsetY * e.width * e.base) (256 * a.scale) + r.shiftY
      let x := Int.tdiv (8 * (e.width : Int) - moveX - 8 * w.width) 16
      let y := Int.tdiv (8 * (e.height : Int) - moveY - 8 * w.height) 16
      (w.x : Int) = (if x < 0 then 0 else if (e.width : Int) < x + w.width then (e.width : Int) - w.width else x) ∧
        (w.y : Int) = (if y < 0 then 0 else if (e.height : Int) < y + w.height then (e.height : Int) - w.height else y) ∧
        ((cropWindow e a zoom r).2 = true ↔
          x < 0 ∨ (e.width : Int) < x + w.width ∨ y < 0 ∨ (e.height : Int) < y + w.height)) ∧
    (cropWindow e a zoom r).1.x + (cropWindow e a zoom r).1.width ≤ e.width ∧
    (cropWindow e a zoom r).1.y + (cropWindow e a zoom r).1.height ≤ e.height) ∧
  (∀ origin size out u : Nat, u < out → 0 < size →
    primaryPosition origin size out u = origin + (2 * u + 1) * size / (2 * out) ∧
      origin ≤ primaryPosition origin size out u ∧ primaryPosition origin size out u < origin + size) ∧
  (∀ k : Int, -1000 ≤ k → k ≤ 1000 →
    |65536 * Real.sin (k * Real.pi / 18000) - sin16 k| < 1 / 2 ∧
      |65536 * Real.cos (k * Real.pi / 18000) - cos16 k| < 1 / 2) ∧
  (∀ (w : Window) (roll : Int) (outW outH u v : Nat), 0 < outW → 0 < outH →
    let across : ℚ := (2 * u + 1) * w.width / (2 * outW) - w.width / 2
    let down : ℚ := (2 * v + 1) * w.height / (2 * outH) - w.height / 2
    let c : ℚ := cos16 roll / 65536
    let n : ℚ := sin16 roll / 65536
    secondaryPosition w roll outW outH u v =
      (roundAway (w.x + w.width / 2 + (across * c - down * n)), roundAway (w.y + w.height / 2 + (across * n + down * c)))) ∧
  (∀ (content : List (List Pixel)) (width height : Nat) (col row : Int), 0 < width → 0 < height →
    content.length = height → (∀ samples ∈ content, samples.length = width) →
    ∃ samples, content[(nearestIn height row).toNat]? = some samples ∧
      samples[(nearestIn width col).toNat]? = some (sampleAt content col row)) ∧
  (∀ w : Nat, 1 ≤ w → w ≤ 255 →
    (∀ p s : BitVec 10,
      (blendValue w p s).toNat = ((256 - w) * p.toNat + w * s.toNat) / 256 ∧
        min p.toNat s.toNat ≤ (blendValue w p s).toNat ∧ (blendValue w p s).toNat ≤ max p.toNat s.toNat) ∧
    (∀ p s : Pixel,
      blendPixel w p s = { c0 := blendValue w p.c0 s.c0, c1 := blendValue w p.c1 s.c1, c2 := blendValue w p.c2 s.c2 })) ∧
  ∀ (s : State) (outW outH u v : Nat),
    (∀ r p, r.primary = some p →
      let main := sampleAt (s.buffer p.buffer).content (primaryPosition p.window.x p.window.width outW u)
        (primaryPosition p.window.y p.window.height outH v)
      (r.secondary = none → outputPixel s r outW outH u v = main) ∧
        ∀ q, r.secondary = some q →
          outputPixel s r outW outH u v =
            blendPixel q.weight main
              (sampleAt (s.buffer q.buffer).content (secondaryPosition q.window q.roll outW outH u v).1
                (secondaryPosition q.window q.roll outW outH u v).2)) ∧
    (u < outW → v < outH → ∀ shown,
      ∃ samples, (renderRows s shown outW outH)[v]? = some samples ∧
        samples[u]? = some (match shown with
          | some r => outputPixel s r outW outH u v
          | none => { c0 := 512, c1 := 512, c2 := 512 })) ∧
    ∀ shown, (renderRows s shown outW outH).length = outH ∧
      ∀ samples ∈ renderRows s shown outW outH, samples.length = outW

/-! ## View records -/

/-- R85, R86: a cursor at the newest end, on a present record, and outside; a count of 0 or above 4 is RANGE. Tables 65 and 68: each
field of a record stands at its offset. -/
def Obligations.ReadViewRecordsByCursor : Prop :=
  (∀ r : ViewRecord, ShowsRecord (recordBytes r) r) ∧ (∀ rs : List ViewRecord, ShowsRecords (recordsResponse rs) rs) ∧
  ∀ (l : Link) (b : Byte) (s : State), LinkFree l s → RingOk s →
    ((b = 0 ∨ 4 < b.toNat) → exec (.readViewRecords l [b]) s = .next (refused l 0x04 .range 1 s)) ∧
    (1 ≤ b.toNat → b.toNat ≤ 4 →
      (s.view.cursors.get l = s.view.nextSeq →
        exec (.readViewRecords l [b]) s = .next (answered l 0x04 .empty [0] .nothing 1 s)) ∧
      (∀ (k : Nat) (h : k < s.view.ring.length), s.view.cursors.get l = (s.view.ring[k]).seq →
        exec (.readViewRecords l [b]) s =
          .next (answered l 0x04 .ok (recordsResponse ((s.view.ring.drop k).take b.toNat)) .nothing 1
            { s with view := { s.view with
              cursors := s.view.cursors.set
                (s.view.cursors.get l + BitVec.ofNat 32 (min b.toNat (s.view.ring.length - k))) l } })) ∧
      (s.view.cursors.get l ≠ s.view.nextSeq → (∀ r ∈ s.view.ring, r.seq ≠ s.view.cursors.get l) →
        exec (.readViewRecords l [b]) s =
          .next (answered l 0x04 .overrun (recordsResponse (s.view.ring.take b.toNat)) .nothing 1
            { s with view := { s.view with
              cursors := s.view.cursors.set
                (oldestSeq s.view + BitVec.ofNat 32 (min b.toNat s.view.ring.length)) l } })))

/-- R43, R75, R72, R68, R69, R81, R41, R42, R74: every view step appends one record, numbered and stamped, composed (as
RecordsNameTheirFrames says) from the state after the controller's update, with W for the zoom after the ramp's advance, the
view zoom of R68, and the frames, reports and tables as they were; a READY frame of a shown source is always there to name
(FramesStayNameable), so that NO_SOURCE is set exactly when there is no primary (R76); the marks, those set before the step and those the update
set, are the record's flags and are cleared; the planned want set is the union of Q, W, the primary and the record's members
after the update and the approach sources, and want is written from it and the keep-warm mask. The view timer's expiry is a
view step without a frame, with the next deadline a period after the expired one; one that is not reached changes nothing
(log 4). -/
def Obligations.ViewStepAppendsOneRecord : Prop :=
  (∀ (step : StepFrame) (now : Time) (s : State), s.view.ring.length ≤ 32 →
    let a := advanceRamp s
    let q := reference a
    let w := wanted a q a.planner.commanded
    let h := (handoffStep w (step.map fun x => x.2) a).handoff
    let t := viewStep step now s
    ∃ r x, t = appendRecord r (clearMarks x) ∧ r = composeRecord x step now ∧
      x.handoff = { h with viewZoom := t.handoff.viewZoom } ∧ (∀ i, x.enr i = s.enr i) ∧ x.cal = s.cal ∧
      x.reports = s.reports ∧ x.params = s.params ∧ x.view.lastSecondary = s.view.lastSecondary ∧
      (∀ b, (s.buffer b).state ∈ [.ready, .retiring] → x.buffer b = s.buffer b) ∧
      (∀ i, (s.src i).state ∈ [.standby, .live] → (x.src i).chain = (s.src i).chain) ∧
      (let c := a.planner.commanded
       let clamped (low high : Nat) : Nat := if c < low then low else if high < c then high else c
       (h.primary = none → t.handoff.viewZoom = c) ∧
       (∀ p, h.primary = some p → (∀ y, h.record = some y → y.phase ≠ .crossfade) →
         t.handoff.viewZoom = clamped (s.enr p).base (s.enr p).limit) ∧
       (∀ p y, h.primary = some p → h.record = some y → y.phase = .crossfade →
         t.handoff.viewZoom = clamped (max (s.enr y.src).base (s.enr y.dst).base)
           (min (s.enr y.src).limit (s.enr y.dst).limit))) ∧
      (LiveOk s → FramesOk s → (∀ y, step = some y → (s.buffer y.2).state = .ready) →
        (r.flags.noSource = true ↔ h.primary = none)) ∧
      t.view.ring = (if s.view.ring.length = 32 then s.view.ring.tail else s.view.ring) ++ [r] ∧
      r.seq = s.view.nextSeq ∧ r.timestamp = now ∧ t.view.nextSeq = s.view.nextSeq + 1 ∧
      t.planner.commanded = a.planner.commanded ∧ t.handoff = { h with viewZoom := t.handoff.viewZoom, marks := Marks.empty } ∧
      r.commanded = t.planner.commanded ∧ r.view = t.handoff.viewZoom ∧
      r.tag = t.planner.currentTag ∧ r.phase = t.handoff.record.map (fun x => x.phase) ∧
      (r.flags.noSource = true ↔ r.primary = none) ∧ (r.flags.clamped = true ↔ r.view ≠ r.commanded) ∧
      r.flags.cut = h.marks.cut ∧ r.flags.forced = h.marks.forced ∧ r.flags.aborted = h.marks.aborted ∧
      r.flags.reversed = h.marks.reversed ∧
      (s.handoff.marks.cut = true → r.flags.cut = true) ∧ (s.handoff.marks.forced = true → r.flags.forced = true) ∧
      (s.handoff.marks.aborted = true → r.flags.aborted = true) ∧
      (s.handoff.marks.reversed = true → r.flags.reversed = true) ∧
      (∀ i, t.planner.planned.get i = true ↔
        q = some i ∨ w = some i ∨ t.handoff.primary = some i ∨
          (∃ x, t.handoff.record = some x ∧ (x.src = i ∨ x.dst = i)) ∨ i ∈ approachSources a q a.planner.commanded) ∧
      (∀ i, (t.src i).state ≠ .absent → (t.src i).want = (t.planner.planned.get i || s.planner.keepWarm.get i)) ∧
      Kept s t) ∧
  (∀ s : State,
    (∀ d, s.view.timer = some d → reached s.timebase d = true →
      exec .viewTimerExpiry s =
        .next (viewStep none d
          { s with view := { s.view with timer := some (d + BitVec.ofNat 32 s.params.viewTimerPeriod) } })) ∧
    ((∀ d, s.view.timer = some d → reached s.timebase d = false) → exec .viewTimerExpiry s = .next s))

/-- R75 to R81, R101: what a record is composed of: the fields common to every record; the primary part, which names the
controller's primary with the step's frame when it is the primary's and its newest READY frame otherwise, and NO_SOURCE
without a primary (or, in states no run reaches, without such a frame, log 14); the secondary part, which names the to source
in CROSSFADE and nothing else; the report used for each; and the eleven flags. -/
def Obligations.RecordsNameTheirFrames : Prop :=
  (∀ (s : State) (i : Source) (m : FrameMeta),
    (∀ r, m.report = some r →
      reportUsed s i m = { focus := r.focus, shiftX := r.shiftX, shiftY := r.shiftY, stale := false }) ∧
    (∀ r, m.report = none → (s.report i).current = some r →
      reportUsed s i m = { focus := r.focus, shiftX := r.shiftX, shiftY := r.shiftY, stale := true }) ∧
    (m.report = none → (s.report i).current = none →
      reportUsed s i m = { focus := 0, shiftX := 0, shiftY := 0, stale := true })) ∧
  (∀ (step : StepFrame) (now : Time) (s : State),
    let r := composeRecord s step now
    let shownAt (i : Source) (m : FrameMeta) : Machine.Alignment × Window × Bool :=
      let a := alignmentAt (reportUsed s i m).focus (s.calTable i)
      (a, cropWindow (s.enr i) a s.handoff.viewZoom (reportUsed s i m))
    let frameOf (p : Source) : Option BufferId :=
      match step with
      | some y => if y.1 = p then some y.2 else newestReady s p
      | none => newestReady s p
    (r.seq = s.view.nextSeq ∧ r.timestamp = now ∧ r.commanded = s.planner.commanded ∧ r.view = s.handoff.viewZoom ∧
      r.phase = (s.handoff.record.map fun x => x.phase) ∧ r.tag = s.planner.currentTag ∧
      (r.flags.noSource = true ↔ r.primary = none) ∧
      (r.flags.clamped = true ↔ s.handoff.viewZoom ≠ s.planner.commanded) ∧
      r.flags.cut = s.handoff.marks.cut ∧ r.flags.forced = s.handoff.marks.forced ∧
      r.flags.aborted = s.handoff.marks.aborted ∧ r.flags.reversed = s.handoff.marks.reversed) ∧
    ((s.handoff.primary = none ∨
        ∃ p, s.handoff.primary = some p ∧ ∀ b, frameOf p = some b → (s.buffer b).info = none) →
      r.primary = none ∧ r.secondary = none ∧ r.flags.staleReport = false ∧ r.flags.unpaired = false ∧
        r.flags.heldSecondary = false ∧ r.flags.uncalibrated = false ∧ r.flags.edge = false) ∧
    (∀ p b m, s.handoff.primary = some p → frameOf p = some b → (s.buffer b).info = some m →
      r.primary = some { source := p, frame := m.frame, buffer := b, window := (shownAt p m).2.1,
                         focus := (reportUsed s p m).focus } ∧
      ((∀ x, s.handoff.record = some x → x.phase ≠ .crossfade) →
        r.secondary = none ∧ r.flags.staleReport = (reportUsed s p m).stale ∧ r.flags.unpaired = false ∧
          r.flags.heldSecondary = false ∧ (r.flags.uncalibrated = true ↔ s.calTable p = []) ∧
          r.flags.edge = (shownAt p m).2.2) ∧
      (∀ x c n, s.handoff.record = some x → x.phase = .crossfade → newestReady s x.dst = some c →
        (s.buffer c).info = some n →
        r.secondary = some { source := x.dst, frame := n.frame, buffer := c, window := (shownAt x.dst n).2.1,
                             roll := (shownAt x.dst n).1.roll - (shownAt p m).1.roll, weight := x.weight } ∧
          r.flags.staleReport = ((reportUsed s p m).stale || (reportUsed s x.dst n).stale) ∧
          (r.flags.unpaired = true ↔ s.params.pairingWindow < (n.start - m.start).toInt.natAbs) ∧
          (r.flags.heldSecondary = true ↔ s.view.lastSecondary = some (x.dst, n.frame)) ∧
          (r.flags.uncalibrated = true ↔ s.calTable p = [] ∨ s.calTable x.dst = []) ∧
          r.flags.edge = ((shownAt p m).2.2 || (shownAt x.dst n).2.2))))

/-! ## Hand-off -/

/-- R48, R66: a view step in NO_PRIMARY takes W as the candidate, or makes a W in STANDBY the first primary, with
the effects of a change of primary on the locks and the sync lines (R47, R144); in STEADY a W other than the primary starts a
hand-off. -/
def Obligations.HandoffBegins : Prop :=
  ∀ (w : Option Source) (b : Option BufferId) (s : State),
    (s.handoff.primary = none → (∀ q, w = some q → (s.src q).state ≠ .standby) →
      handoffStep w b s = { s with handoff := { s.handoff with candidate := w } }) ∧
    (∀ q, s.handoff.primary = none → w = some q → (s.src q).state = .standby →
      (handoffStep w b s).handoff =
          { s.handoff with primary := some q, candidate := none, marks := { s.handoff.marks with cut := true } } ∧
        EntersLive q (handoffStep w b s) ∧ (∀ j, j ≠ q → OnlyUnlocked j s (handoffStep w b s)) ∧
        (handoffStep w b s).view = { s.view with timer := none } ∧
        PrimaryChanged (changePrimary (some q) s) (handoffStep w b s)) ∧
    (∀ p, s.handoff.primary = some p → s.handoff.record = none → (w = none ∨ w = some p) → handoffStep w b s = s) ∧
    (∀ p q, s.handoff.primary = some p → s.handoff.record = none → w = some q → q ≠ p →
      handoffStep w b s =
        raise (.handoff .started)
          (setRecord
            (some
              { src := p, dst := q, direction := if (s.enr p).base < (s.enr q).base then .up else .down,
                phase := .prepare, weight := 0, count := 0, startSeq := s.view.nextSeq, reversed := false,
                forced := false, cut := false })
            s))

/-- R50, R51, R52: a view step in PREPARE or ALIGN cancels, retargets, tests for STANDBY, or counts qualifying steps. R114: the
newest READY frame of a source is the one of its chain with the latest end time, the first in the chain on a tie (log 13). -/
def Obligations.PrepareAndAlign : Prop :=
  ∀ (r : HandoffRecord) (w : Option Source) (b : Option BufferId) (s : State),
    s.handoff.primary = some r.src → s.handoff.record = some r → r.src ≠ r.dst → r.phase ∈ [.prepare, .align] →
    (w = some r.src →
      handoffStep w b s = raise (.handoff .cancelled) (setRecord none s)) ∧
    (∀ q, w = some q → q ≠ r.src → q ≠ r.dst →
      handoffStep w b s =
        setRecord
          (some
            { r with
              dst := q, direction := if (s.enr r.src).base < (s.enr q).base then .up else .down,
              phase := if (s.src q).state = .standby then .align else .prepare, weight := 0, count := 0 })
          s) ∧
    (w = none ∨ w = some r.dst → r.phase = .prepare →
      handoffStep w b s =
        setRecord (some (if (s.src r.dst).state = .standby then { r with phase := .align, count := 0 } else r)) s) ∧
    (w = none ∨ w = some r.dst → r.phase = .align →
      ((s.src r.dst).state ≠ .standby →
        handoffStep w b s = setRecord (some { r with phase := .prepare, count := 0 }) s) ∧
      ((s.src r.dst).state = .standby → alignQualifies r b s = false →
        handoffStep w b s = setRecord (some { r with count := 0 }) s) ∧
      ((s.src r.dst).state = .standby → alignQualifies r b s = true → r.count + 1 < s.params.alignSteps →
        handoffStep w b s = setRecord (some { r with count := r.count + 1 }) s) ∧
      ((s.src r.dst).state = .standby → alignQualifies r b s = true → s.params.alignSteps ≤ r.count + 1 →
        handoffStep w b s = endAlign { r with count := r.count + 1 } s)) ∧
    (alignQualifies r b s = true ↔
      (∃ bp mp bt mt, b = some bp ∧ (s.buffer bp).info = some mp ∧ newestReady s r.dst = some bt ∧
        (s.buffer bt).info = some mt ∧ (timeDiff mt.start mp.start).natAbs ≤ s.params.pairingWindow ∧
        mp.report ≠ none ∧ mt.report ≠ none) ∧
      ((s.enr r.dst).syncMode = .follow → (s.src r.dst).locked = true) ∧ s.calTable r.src ≠ [] ∧ s.calTable r.dst ≠ []) ∧
    (∀ i, newestReady s i = none ↔ ∀ c ∈ (s.src i).chain, (s.buffer c).state ≠ .ready) ∧
    (∀ i before c after m, (s.src i).chain = before ++ c :: after → (s.buffer c).state = .ready →
      (s.buffer c).info = some m →
      (∀ x ∈ before, (s.buffer x).state = .ready →
        ∃ n, (s.buffer x).info = some n ∧ timeLater m.finish n.finish = true) →
      (∀ x ∈ after, (s.buffer x).state = .ready →
        ∃ n, (s.buffer x).info = some n ∧ timeLater n.finish m.finish = false) →
      newestReady s i = some c)

/-- R53, R54, R57: the end of ALIGN is the entry to CROSSFADE, on to SETTLE in the same step when the increment is 256 (as with
CROSSFADE_STEPS at 1), or a cut when the coverages do not meet; in the last two the primary changes, with its effects on the locks
and the sync lines (R47, R144). -/
def Obligations.AlignEnds : Prop :=
  ∀ (r : HandoffRecord) (s : State), r.src ≠ r.dst →
    (max (s.enr r.src).base (s.enr r.dst).base ≤ min (s.enr r.src).limit (s.enr r.dst).limit →
      ceilDiv 256 s.params.crossfadeSteps < 256 →
      (endAlign r s).handoff.record =
          some { r with phase := .crossfade, weight := ceilDiv 256 s.params.crossfadeSteps, count := 0 } ∧
        { (endAlign r s).handoff with record := s.handoff.record } = s.handoff ∧
        (endAlign r s).src r.dst = { s.src r.dst with state := .live, linger := none } ∧
        (∀ i, i ≠ r.dst → (endAlign r s).src i = s.src i) ∧
        ∀ l, ((endAlign r s).notice l).isPending (.handoff .crossfadeBegun) = true) ∧
    (s.params.crossfadeSteps = 1 → ceilDiv 256 s.params.crossfadeSteps = 256) ∧
    (max (s.enr r.src).base (s.enr r.dst).base ≤ min (s.enr r.src).limit (s.enr r.dst).limit →
      256 ≤ ceilDiv 256 s.params.crossfadeSteps →
      (endAlign r s).handoff = { s.handoff with
          primary := some r.dst
          record := if s.params.settleSteps = 0 then none
            else some { r with phase := .settle, weight := 256, count := 0 } } ∧
        EntersLive r.dst (endAlign r s) ∧ EntersStandby r.src s (endAlign r s) ∧
        (∀ j, j ≠ r.src → j ≠ r.dst → OnlyUnlocked j s (endAlign r s)) ∧
        PrimaryChanged (changePrimary (some r.dst) s) (endAlign r s) ∧
        ∀ l, ((endAlign r s).notice l).isPending (.handoff .crossfadeBegun) = true ∧
          ((endAlign r s).notice l).isPending (.handoff .done) = true) ∧
    (min (s.enr r.src).limit (s.enr r.dst).limit < max (s.enr r.src).base (s.enr r.dst).base →
      (endAlign r s).handoff = { s.handoff with
          primary := some r.dst
          record := if s.params.settleSteps = 0 then none
            else some { r with phase := .settle, weight := 256, count := 0, cut := true }
          marks := { s.handoff.marks with cut := true } } ∧
        EntersLive r.dst (endAlign r s) ∧ EntersStandby r.src s (endAlign r s) ∧
        (∀ j, j ≠ r.src → j ≠ r.dst → OnlyUnlocked j s (endAlign r s)) ∧
        PrimaryChanged (changePrimary (some r.dst) s) (endAlign r s) ∧
        ∀ l, ((endAlign r s).notice l).isPending (.handoff .done) = true)

/-- R55 to R58: a view step in CROSSFADE advances the weight, reverses first when W is the from source, and enters SETTLE at
256, also in the step of a reversal; the entry to SETTLE and the reversal are changes of primary, and a reversal on to SETTLE is
two, with their effects on the locks and the sync lines (R47, R144); a view step in SETTLE counts, and removes the record at SETTLE_STEPS. -/
def Obligations.CrossfadeAndSettle : Prop :=
  ∀ (r : HandoffRecord) (w : Option Source) (b : Option BufferId) (s : State),
    s.handoff.primary = some r.src ∨ r.phase = .settle → s.handoff.primary ≠ none → s.handoff.record = some r →
    (r.phase = .crossfade → w ≠ some r.src → r.weight + ceilDiv 256 s.params.crossfadeSteps < 256 →
      handoffStep w b s = setRecord (some { r with weight := r.weight + ceilDiv 256 s.params.crossfadeSteps }) s) ∧
    (r.phase = .crossfade → w ≠ some r.src → 256 ≤ r.weight + ceilDiv 256 s.params.crossfadeSteps →
      (handoffStep w b s).handoff = { s.handoff with
          primary := some r.dst
          record := if s.params.settleSteps = 0 then none
            else some { r with phase := .settle, weight := 256, count := 0 } } ∧
        EntersStandby r.src s (handoffStep w b s) ∧ (∀ j, j ≠ r.src → OnlyUnlocked j s (handoffStep w b s)) ∧
        (r.src ≠ r.dst → ((handoffStep w b s).src r.dst).state = (s.src r.dst).state) ∧
        PrimaryChanged (changePrimary (some r.dst) s) (handoffStep w b s) ∧
        ∀ l, ((handoffStep w b s).notice l).isPending (.handoff .done) = true) ∧
    (r.phase = .crossfade → w = some r.src → 256 - r.weight + ceilDiv 256 s.params.crossfadeSteps < 256 →
      (handoffStep w b s).handoff = { s.handoff with
          primary := some r.dst
          record := some { r with
            src := r.dst, dst := r.src, direction := if (s.enr r.dst).base < (s.enr r.src).base then .up else .down,
            weight := 256 - r.weight + ceilDiv 256 s.params.crossfadeSteps, reversed := true }
          marks := { s.handoff.marks with reversed := true } } ∧
        (∀ i, OnlyUnlocked i s (handoffStep w b s)) ∧
        PrimaryChanged (changePrimary (some r.dst) s) (handoffStep w b s) ∧
        ∀ l, ((handoffStep w b s).notice l).isPending (.handoff .reversed) = true) ∧
    (r.phase = .crossfade → w = some r.src → 256 ≤ 256 - r.weight + ceilDiv 256 s.params.crossfadeSteps →
      (handoffStep w b s).handoff = { s.handoff with
          primary := some r.src
          record := if s.params.settleSteps = 0 then none
            else some { r with
              src := r.dst, dst := r.src, direction := if (s.enr r.dst).base < (s.enr r.src).base then .up else .down,
              phase := .settle, weight := 256, count := 0, reversed := true }
          marks := { s.handoff.marks with reversed := true } } ∧
        EntersStandby r.dst s (handoffStep w b s) ∧ (∀ j, j ≠ r.dst → OnlyUnlocked j s (handoffStep w b s)) ∧
        (r.src ≠ r.dst → ((handoffStep w b s).src r.src).state = (s.src r.src).state) ∧
        PrimaryChanged (changePrimary (some r.src) (changePrimary (some r.dst) s)) (handoffStep w b s) ∧
        ∀ l, ((handoffStep w b s).notice l).isPending (.handoff .reversed) = true ∧
          ((handoffStep w b s).notice l).isPending (.handoff .done) = true) ∧
    (r.phase = .settle →
      handoffStep w b s =
        setRecord (if s.params.settleSteps ≤ r.count + 1 then none else some { r with count := r.count + 1 }) s)

/-- R60, R61, R62, R65, R64: the controller's answer to a source that has left LIVE or STANDBY, and the choice of a successor in
its three cases. The forced completion, the emergency cut and the entry to NO_PRIMARY have the effects of a change of primary on
the locks and the sync lines (R47, R144). -/
def Obligations.Departures : Prop :=
  (∀ s : State,
    (∀ w, NearestBelow s (availableSources s) s.planner.commanded w → (s.src w).state = .standby → BasesOk s →
      successor s = some w) ∧
    (∀ w, NearestBelow s (availableSources s) s.planner.commanded w → (s.src w).state ≠ .standby → BasesOk s →
      ∀ j, NearestBelow s ([Source.s0, .s1, .s2, .s3].filter fun k => (s.src k).state = .standby)
          s.planner.commanded j → successor s = some j) ∧
    (successor s = none ↔ ∀ k, (s.src k).state ≠ .standby) ∧
    (∀ j, successor s = some j → (s.src j).state = .standby) ∧
    ((∀ w, wantedWithoutReference s s.planner.commanded = some w →
        NearestBelow s (availableSources s) s.planner.commanded w) ∧
      (wantedWithoutReference s s.planner.commanded = none ↔ availableSources s = []))) ∧
  ∀ (i : Source) (s : State),
    (∀ r, s.handoff.record = some r → r.phase = .crossfade → s.handoff.primary = some i →
      (departure i s).handoff = { s.handoff with
          primary := some r.dst
          record := if s.params.settleSteps = 0 then none
            else some { r with phase := .settle, weight := 256, count := 0, forced := true }
          marks := { s.handoff.marks with forced := true } } ∧
        PrimaryChanged (changePrimary (some r.dst) s) (departure i s) ∧ (∀ j, OnlyUnlocked j s (departure i s)) ∧
        ∀ l, ((departure i s).notice l).isPending (.handoff .done) = true) ∧
    (∀ r, s.handoff.record = some r → r.phase = .crossfade → s.handoff.primary ≠ some i → r.dst = i →
      departure i s = raise (.handoff .aborted)
        { s with handoff := { s.handoff with record := none, marks := { s.handoff.marks with aborted := true } } }) ∧
    ((∀ r, s.handoff.record = some r → r.phase ≠ .crossfade) → s.handoff.primary = some i →
      (∀ l, ((departure i s).notice l).isPending (.handoff .primaryLost) = true) ∧
      (∀ j, successor s = some j →
        (departure i s).handoff = { s.handoff with
            primary := some j, record := none, marks := { s.handoff.marks with cut := true } } ∧
          EntersLive j (departure i s) ∧ (∀ k, k ≠ j → OnlyUnlocked k s (departure i s)) ∧
          PrimaryChanged (changePrimary (some j) s) (departure i s)) ∧
      (successor s = none →
        PrimaryChanged (changePrimary none s) (departure i s) ∧ (∀ k, OnlyUnlocked k s (departure i s)) ∧
        (departure i s).handoff = { s.handoff with
            primary := none, record := none, candidate := wantedWithoutReference s s.planner.commanded } ∧
          (departure i s).view = { s.view with
            timer := some (s.timebase + BitVec.ofNat 32 s.params.viewTimerPeriod) })) ∧
    (s.handoff.primary ≠ some i → (∀ r, s.handoff.record = some r → r.phase = .crossfade → r.dst ≠ i) →
      departure i s = s)

/-! ## Frame synchronisation -/

/-- R47, R144, R140, R142, R139: a change of primary unlocks every source, empties the schedules of the followers, and has a
FOLLOW source that becomes self-paced go on from its last pulse (one that was self-paced already keeps its next pulse, log 21);
a judged frame start within the window counts towards LOCKED, and one outside it unlocks, with LOCK_LOST when the source was
LOCKED, by the smaller difference of the two references, the primary's last start and that plus its interval, the former on a
tie; a frame start of the primary gives each follower its pulse, at once or in its place on the follow list, from whose four
times the earliest goes first (one that is due pulses as it goes, log 30). -/
def Obligations.LockFollowsThePrimary : Prop :=
  (∀ (new : Option Source) (i : Source) (s : State),
    (changePrimary new s).handoff = { s.handoff with primary := new } ∧
      (changePrimary new s).src i = { s.src i with locked := false, matchCount := 0 } ∧
      ((s.syncLine i).pulsing = false ∨ (s.enr i).syncMode ≠ .follow →
        (changePrimary new s).syncLine i = s.syncLine i) ∧
      (∀ p, new = some p → p ≠ i → (s.syncLine i).pulsing = true → (s.enr i).syncMode = .follow →
        (changePrimary new s).syncLine i = { s.syncLine i with nextPulse := none, followList := [] }) ∧
      ((new = none ∨ new = some i) → (s.syncLine i).pulsing = true → (s.enr i).syncMode = .follow →
        ((s.syncLine i).nextPulse ≠ none →
          (changePrimary new s).syncLine i = { s.syncLine i with followList := [] }) ∧
        (∀ d, (s.syncLine i).nextPulse = none → (s.syncLine i).lastPulse = some d →
          timeLater (d + BitVec.ofNat 32 (s.enr i).interval) s.timebase = true →
          (changePrimary new s).syncLine i = { s.syncLine i with
            followList := [], nextPulse := some (d + BitVec.ofNat 32 (s.enr i).interval) }) ∧
        ((s.syncLine i).nextPulse = none →
          (∀ d, (s.syncLine i).lastPulse = some d →
            timeLater (d + BitVec.ofNat 32 (s.enr i).interval) s.timebase = false) →
          (changePrimary new s).syncLine i = { s.syncLine i with
            followList := [], lastPulse := some s.timebase
            pulseEnd := if (s.syncLine i).pulseEnd = none then some (s.timebase + 10) else (s.syncLine i).pulseEnd
            nextPulse := some (s.timebase + BitVec.ofNat 32 (s.enr i).interval) }))) ∧
  (∀ (i p : Source) (t ref : Time) (s : State), s.handoff.primary = some p → p ≠ i → (s.src p).lastStart = some ref →
    (s.src i).state.streaming = true → (s.enr i).syncMode = .follow →
    ((lockDifference t ref (s.enr p).interval).natAbs ≤ s.params.pairingWindow →
      judgeLock i t s = s.setSrc i { s.src i with
        matchCount := min 2 ((s.src i).matchCount + 1)
        locked := (s.src i).locked || decide (2 ≤ (s.src i).matchCount + 1) }) ∧
    (s.params.pairingWindow < (lockDifference t ref (s.enr p).interval).natAbs →
      judgeLock i t s =
        if (s.src i).locked then
          raise (.source i .lockLost) (s.setSrc i { s.src i with matchCount := 0, locked := false })
        else s.setSrc i { s.src i with matchCount := 0, locked := false })) ∧
  (∀ (t ref : Time) (interval : Nat),
    lockDifference t ref interval =
      if (t - (ref + BitVec.ofNat 32 interval)).toInt.natAbs < (t - ref).toInt.natAbs then
        (t - (ref + BitVec.ofNat 32 interval)).toInt
      else (t - ref).toInt) ∧
  (∀ (p : Source) (start : Time) (s : State),
    (∀ i, (s.syncLine i).pulsing = false ∨ (s.enr i).syncMode ≠ .follow ∨ i = p →
      (paceFollowers p start s).syncLine i = s.syncLine i) ∧
    (∀ i, (s.syncLine i).pulsing = true → (s.enr i).syncMode = .follow → i ≠ p →
      (paceFollowers p start s).syncLine i = (s.syncLine i).follow start
        (start + BitVec.ofNat 32 (s.enr p).interval + BitVec.ofInt 32 (s.enr i).syncOffset)) ∧
    { paceFollowers p start s with sync := s.sync } = s) ∧
  (∀ (l : SyncLine) (start t : Time),
    (timeLater t start = false → l.follow start t = { l with
      lastPulse := some start
      pulseEnd := if l.pulseEnd = none then some (start + 10) else l.pulseEnd }) ∧
    (timeLater t start = true → l.followList.length < 4 →
      ∃ before after, l.followList = before ++ after ∧
        l.follow start t = { l with followList := before ++ t :: after } ∧
        (∀ x ∈ before, timeLater x t = false) ∧ ∀ x, after.head? = some x → timeLater x t = true) ∧
    (∀ d rest, timeLater t start = true → l.followList = d :: rest → rest.length = 3 →
      l.follow start t =
        if reached start d = true then
          { l with
            followList := rest, lastPulse := some d
            pulseEnd := if l.pulseEnd = none then some (d + 10) else l.pulseEnd }.follow start t
        else { l with followList := rest }.follow start t))

/-- R137 to R140: the end of a pulse, a scheduled pulse with the next one a period later, and a pulse of the follow list; a
pulse on a line already high keeps its pulse end. Nothing happens before the deadline (log 4); the time of a scheduled pulse
is its scheduled time (log 16). -/
def Obligations.SyncLinesPulse : Prop :=
  ∀ (i : Source) (s : State),
    (∀ d, (s.syncLine i).pulseEnd = some d → reached s.timebase d = true →
      exec (.syncPulseEnd i) s = .next (s.setSync i { s.syncLine i with pulseEnd := none })) ∧
    (∀ d, (s.syncLine i).nextPulse = some d → reached s.timebase d = true →
      exec (.nextSyncPulse i) s =
        .next (s.setSync i { s.syncLine i with
          lastPulse := some d
          pulseEnd := if (s.syncLine i).pulseEnd = none then some (d + 10) else (s.syncLine i).pulseEnd
          nextPulse := some (d + BitVec.ofNat 32
            (if (s.enr i).syncMode = .free then (s.enr i).freePeriod else (s.enr i).interval)) })) ∧
    (∀ d rest, (s.syncLine i).followList = d :: rest → reached s.timebase d = true →
      exec (.followListPulse i) s =
        .next (s.setSync i { s.syncLine i with
          lastPulse := some d
          pulseEnd := if (s.syncLine i).pulseEnd = none then some (d + 10) else (s.syncLine i).pulseEnd
          followList := rest })) ∧
    ((∀ d, (s.syncLine i).pulseEnd = some d → reached s.timebase d = false) → exec (.syncPulseEnd i) s = .next s) ∧
    ((∀ d, (s.syncLine i).nextPulse = some d → reached s.timebase d = false) → exec (.nextSyncPulse i) s = .next s) ∧
    ((∀ d rest, (s.syncLine i).followList = d :: rest → reached s.timebase d = false) →
      exec (.followListPulse i) s = .next s)

/-! ## Frame intake and the pool -/

/-- R104 to R107, R139, R141, R142: a FRAME_START of a source that is not streaming is discarded; one that finds a frame in
assembly makes it bad first; every other one is stamped: the stall deadline moves on, the followers of a primary are paced, and
the lock is judged when the source is FOLLOW and another source is the primary with a last frame start, as LockFollowsThePrimary
has the judgement, and left as it is otherwise. One of the enrolled size then begins to fill the chosen buffer, or is dropped
with DROP; one of another size is bad. The chosen buffer is the earliest EMPTY one in the chain, else the unpinned READY one with
the oldest end time, the first in the chain on a tie (log 13), else none. -/
def Obligations.FrameStartTakesABuffer : Prop :=
  (∀ (i : Source) (s : State),
    (∀ before b after, (s.src i).chain = before ++ b :: after → (s.buffer b).state = .empty →
      (∀ x ∈ before, (s.buffer x).state ≠ .empty) → fillChoice s i = some b) ∧
    (∀ before b after m, (s.src i).chain = before ++ b :: after → (∀ x ∈ (s.src i).chain, (s.buffer x).state ≠ .empty) →
      (s.buffer b).state = .ready → (s.buffer b).pins = 0 → (s.buffer b).info = some m →
      (∀ x ∈ before, (s.buffer x).state = .ready → (s.buffer x).pins = 0 →
        ∃ n, (s.buffer x).info = some n ∧ timeLater n.finish m.finish = true) →
      (∀ x ∈ after, (s.buffer x).state = .ready → (s.buffer x).pins = 0 →
        ∃ n, (s.buffer x).info = some n ∧ timeLater m.finish n.finish = false) →
      fillChoice s i = some b) ∧
    (fillChoice s i = none ↔ ∀ x ∈ (s.src i).chain,
      (s.buffer x).state ≠ .empty ∧ ¬((s.buffer x).state = .ready ∧ (s.buffer x).pins = 0))) ∧
  ∀ (i : Source) (n w h : Half) (s : State),
    ((s.src i).state.streaming = false → exec (.frameStart i n w h) s = .next s) ∧
    (∀ b f st k c, (s.src i).state.streaming = true → s.port i = .filling b f st k c →
      exec (.frameStart i n w h) s =
        if ((badFrame i s).src i).state.streaming then exec (.frameStart i n w h) (badFrame i s)
        else .next (badFrame i s)) ∧
    ((s.src i).state.streaming = true → s.port i = .idle →
      (w.toNat ≠ (s.enr i).width ∨ h.toNat ≠ (s.enr i).height →
        exec (.frameStart i n w h) s = .next (badFrame i (stampStart i s))) ∧
      (w.toNat = (s.enr i).width → h.toNat = (s.enr i).height →
        ∃ t, exec (.frameStart i n w h) s = .next t ∧ StampedStart i s t ∧
          (∀ j, j ≠ i → t.port j = s.port j) ∧
          (∀ b, fillChoice s i = some b →
            t.port i = .filling b n s.timebase 0 0 ∧
              t.buffer b = { s.buffer b with state := .filling, info := none, content := [] } ∧
              (∀ b', b' ≠ b → t.buffer b' = s.buffer b') ∧ (t.src i).qualify = (s.src i).qualify ∧
              ∀ l, (t.notice l).isPending (.source i .drop) = (s.notice l).isPending (.source i .drop)) ∧
          (fillChoice s i = none →
            t.port i = .idle ∧ t.pool = s.pool ∧
              (t.src i).qualify = (if (s.src i).state = .warming then 0 else (s.src i).qualify) ∧
              ∀ l, (t.notice l).isPending (.source i .drop) = true)) ∧
      (StampedStart i s (stampStart i s) ∧ (stampStart i s).pool = s.pool ∧ (stampStart i s).ports = s.ports ∧
        ((stampStart i s).src i).qualify = (s.src i).qualify) ∧
      (∀ p ref, s.handoff.primary = some p → p ≠ i → (s.src p).lastStart = some ref → (s.enr i).syncMode = .follow →
        (lockDifference s.timebase ref (s.enr p).interval).natAbs ≤ s.params.pairingWindow →
        judgeLock i s.timebase s = s.setSrc i { s.src i with
          matchCount := min 2 ((s.src i).matchCount + 1)
          locked := (s.src i).locked || decide (2 ≤ (s.src i).matchCount + 1) }) ∧
      (∀ p ref, s.handoff.primary = some p → p ≠ i → (s.src p).lastStart = some ref → (s.enr i).syncMode = .follow →
        s.params.pairingWindow < (lockDifference s.timebase ref (s.enr p).interval).natAbs →
        ((judgeLock i s.timebase s).src i).matchCount = 0 ∧ ((judgeLock i s.timebase s).src i).locked = false ∧
          ∀ l, (judgeLock i s.timebase s).notice l =
            if (s.src i).locked then (s.notice l).raise (.source i .lockLost) else s.notice l) ∧
      ((∀ p, s.handoff.primary = some p → p = i ∨ (s.src p).lastStart = none) ∨ (s.enr i).syncMode ≠ .follow →
        judgeLock i s.timebase s = s))

/-- R104, R108, R109, R178: a LINE in order and of the right length is written and summed, and any other makes the frame bad;
a FRAME_END that fails a test makes it bad; stray packets and invalid ones change nothing. A row's samples are the lowest 10 bits
of the data's words, three to a pixel, and its sum is that of all of them modulo 65536. -/
def Obligations.LinesFillTheBuffer : Prop :=
  (∀ (data : List Byte) (width : Nat), data.length = 6 * width →
    (parsePixels data).length = width ∧
      ∀ u p, (parsePixels data)[u]? = some p →
        p.c0.toNat = fieldAt data (6 * u) 2 % 1024 ∧ p.c1.toNat = fieldAt data (6 * u + 2) 2 % 1024 ∧
          p.c2.toNat = fieldAt data (6 * u + 4) 2 % 1024) ∧
  (∀ row : List Pixel,
    (rowSum row).toNat = (row.map fun p => p.c0.toNat + p.c1.toNat + p.c2.toNat).sum % 65536) ∧
  ∀ (i : Source) (number count check : Half) (data : List Byte) (s : State),
    ((s.src i).state.streaming = false ∨ s.port i = .idle →
      exec (.line i number data) s = .next s ∧ exec (.frameEnd i count check) s = .next s) ∧
    (∀ bytes, WellFormed (.invalidPacket i bytes) = true → exec (.invalidPacket i bytes) s = .next s) ∧
    (∀ b f st lines sum, (s.src i).state.streaming = true → s.port i = .filling b f st lines sum →
      (number.toNat = lines ∧ lines < (s.enr i).height ∧ data.length = 6 * (s.enr i).width →
        exec (.line i number data) s =
          .next ((s.modBuffer b fun x => { x with content := x.content ++ [parsePixels data] }).setPort i
            (.filling b f st (lines + 1) (sum + rowSum (parsePixels data))))) ∧
      (¬(number.toNat = lines ∧ lines < (s.enr i).height ∧ data.length = 6 * (s.enr i).width) →
        exec (.line i number data) s = .next (badFrame i s)) ∧
      (¬(count.toNat = (s.enr i).height ∧ lines = (s.enr i).height ∧ check = sum) →
        exec (.frameEnd i count check) s = .next (badFrame i s)))

/-- R110, R21: a bad frame empties its buffer and its context, counts, and faults the source at BAD_FRAME_LIMIT. -/
def Obligations.BadFramesCount : Prop :=
  ∀ (i : Source) (s : State),
    (badFrame i s).port i = .idle ∧
    ((s.src i).bad + 1 < s.params.badFrameLimit →
      (badFrame i s).src i = { s.src i with bad := (s.src i).bad + 1, qualify := 0 } ∧
        (∀ j, j ≠ i → (badFrame i s).src j = s.src j) ∧
        (∀ b f st k c, s.port i = .filling b f st k c →
          (badFrame i s).buffer b = { s.buffer b with state := .empty, info := none, content := [] } ∧
            ∀ b', b' ≠ b → (badFrame i s).buffer b' = s.buffer b') ∧
        (s.port i = .idle → (badFrame i s).pool = s.pool) ∧
        (badFrame i s).view = s.view ∧ (badFrame i s).notices = s.notices ∧ Kept s (badFrame i s)) ∧
    (s.params.badFrameLimit ≤ (s.src i).bad + 1 → (s.src i).withdrawPending = false →
      ((badFrame i s).src i).state = .faulted ∧ ((badFrame i s).src i).faultCause = some .badFrames)

/-- R111, R129, R130, R10, R73: a good frame end writes the metadata, matches the reports and counts; in WARMING it keeps the
qualify count, and a source that qualifies enters STANDBY, with its linger started where R5 says, and as the candidate in
NO_PRIMARY becomes the first primary at once (R66, R67), with the effects of a change of primary (R47, R144); nothing else changes.
The primary's good frame end then takes a view step. -/
def Obligations.GoodFrameEnds : Prop :=
  ∀ (i : Source) (count check : Half) (b : BufferId) (f : FrameNo) (st : Time) (s : State),
    (s.src i).state.streaming = true → s.port i = .filling b f st (s.enr i).height check →
    count.toNat = (s.enr i).height →
    let matched := ((s.report i).matching f).2 ≠ none
    let qualifies := s.params.qualifyFrames ≤ min 8 ((s.src i).qualify + 1) ∧ (s.src i).chain.length = 3 ∧ s.calTable i ≠ [] ∧
      ((s.enr i).syncMode = .follow → s.handoff.primary ≠ none → (s.src i).locked = true)
    let candidate := s.handoff.primary = none ∧ s.handoff.candidate = some i
    ∃ u, exec (.frameEnd i count check) s =
        .next (if s.handoff.primary = some i then viewStep (some (i, b)) s.timebase u else u) ∧
      u.port i = .idle ∧ (u.buffer b).state = .ready ∧ (u.buffer b).content = (s.buffer b).content ∧
      (u.buffer b).pins = (s.buffer b).pins ∧
      (u.buffer b).info = some { source := i, frame := f, start := st, finish := s.timebase,
                                 report := ((s.report i).matching f).2 } ∧
      (∀ b', b' ≠ b → u.buffer b' = s.buffer b') ∧ u.report i = ((s.report i).matching f).1 ∧
      u.pool.banks = s.pool.banks ∧ u.pool.claimQueue = s.pool.claimQueue ∧ u.planner = s.planner ∧ u.streams = s.streams ∧
      (∀ j, j ≠ i → u.report j = s.report j ∧ u.port j = s.port j) ∧ Kept s u ∧
      (¬((s.src i).state = .warming ∧ matched ∧ qualifies ∧ candidate) →
        u.handoff = s.handoff ∧ u.view = s.view ∧ u.sync = s.sync ∧ ∀ j, j ≠ i → u.src j = s.src j) ∧
      ((s.src i).state ≠ .warming →
        u.src i = { s.src i with bad := 0, lastCompleted := some f } ∧ u.notices = s.notices) ∧
      ((s.src i).state = .warming → ¬matched →
        u.src i = { s.src i with bad := 0, lastCompleted := some f, qualify := 0 } ∧
          ∀ l, u.notice l = (s.notice l).raise (.source i .reportMissing)) ∧
      ((s.src i).state = .warming → matched → ¬qualifies →
        u.src i = { s.src i with bad := 0, lastCompleted := some f, qualify := min 8 ((s.src i).qualify + 1) } ∧
          u.notices = s.notices) ∧
      ((s.src i).state = .warming → matched → qualifies →
        (∀ l, u.notice l = (s.notice l).raise (.source i .ready)) ∧
        (¬candidate →
          EntersStandby i s u ∧
            u.src i = { s.src i with
              bad := 0, lastCompleted := some f, qualify := min 8 ((s.src i).qualify + 1), warm := none, state := .standby
              linger := (u.src i).linger }) ∧
        (candidate →
          EntersLive i u ∧
            u.src i = { s.src i with
              bad := 0, lastCompleted := some f, qualify := min 8 ((s.src i).qualify + 1), warm := none, state := .live
              linger := none, locked := false, matchCount := 0 } ∧
            (∀ j, j ≠ i → OnlyUnlocked j s u) ∧ PrimaryChanged (changePrimary (some i) s) u ∧
            u.handoff =
              { s.handoff with primary := some i, candidate := none, marks := { s.handoff.marks with cut := true } } ∧
            u.view = { s.view with timer := none }))

/-- R118, R119, R120, R123: a FREE buffer of an AWAKE bank that is delivered joins the head claim's chain as EMPTY, clears its
bank's dormancy deadline, and lowers the claim, which leaves the queue at 0. Buffers that become FREE in one event are delivered
so in ascending number, each to the head as it then stands, and their banks are then considered for dormancy (log 29): at the
release of a chain, whose pinned READY buffers retire instead, and at the completion of a wake, where the three buffers go to a
head claim of three or more, or complete one of 1 or 2 and pass on to the next claim or stay FREE. A bank goes DORMANT at its
deadline. Nothing happens before a deadline (log 4). -/
def Obligations.BanksSleepAndWake : Prop :=
  (∀ (s : State) (b : BufferId),
    (s.pool.claimQueue = [] ∨ (s.bank (bankOf b)).state ≠ .awake ∨ (s.buffer b).state ≠ .free → deliver s b = s) ∧
    (∀ h rest, s.pool.claimQueue = h :: rest → (s.bank (bankOf b)).state = .awake → (s.buffer b).state = .free →
      deliver s b =
        (((s.setSrc h { s.src h with chain := (s.src h).chain ++ [b], claim := (s.src h).claim - 1 }).modBuffer b
          fun x => { x with state := .empty, info := none, content := [] }).setBank (bankOf b)
          { s.bank (bankOf b) with dormancy := none }).setClaimQueue (if (s.src h).claim ≤ 1 then rest else h :: rest))) ∧
  (∀ (freed : List BufferId) (s : State), ∃ order : List BufferId,
    order.Pairwise (· < ·) ∧ (∀ b, b ∈ order ↔ b ∈ freed) ∧
      let u := order.foldl deliver s
      let t := settleFreed freed s
      t = { u with pool := { u.pool with banks := t.pool.banks } } ∧
        ∀ k, t.bank k =
          if (∃ b ∈ freed, bankOf b = k) ∧ (u.bank k).state = .awake ∧ (∀ b ∈ k.buffers, (u.buffer b).state = .free) ∧
              (u.bank k).dormancy = none ∧ s.params.dormancyDelay ≠ 0 then
            { u.bank k with dormancy := some (s.timebase + BitVec.ofNat 32 (1000 * s.params.dormancyDelay)) }
          else u.bank k) ∧
  (∀ (i : Source) (s : State), ∃ freed u,
    releaseChain i s = settleFreed freed u ∧
      (∀ b, b ∈ freed ↔ b ∈ (s.src i).chain ∧ ¬((s.buffer b).state = .ready ∧ 0 < (s.buffer b).pins)) ∧
      { u with pool := { u.pool with buffers := s.pool.buffers } } = s.setSrc i { s.src i with chain := [] } ∧
      ∀ b, u.buffer b =
        if b ∈ freed then { s.buffer b with state := .free, info := none, content := [] }
        else if b ∈ (s.src i).chain then { s.buffer b with state := .retiring }
        else s.buffer b) ∧
  ∀ (k : Bank) (s : State),
    (∀ d, (s.bank k).dormancy = some d → reached s.timebase d = true →
      exec (.dormancyDeadlineExpiry k) s = .next (s.setBank k { state := .dormant, dormancy := none, wake := none })) ∧
    ((∀ d, (s.bank k).dormancy = some d → reached s.timebase d = false) →
      exec (.dormancyDeadlineExpiry k) s = .next s) ∧
    ((∀ d, (s.bank k).wake = some d → reached s.timebase d = false) → exec (.wakeCompletion k) s = .next s) ∧
    (∀ d, (s.bank k).wake = some d → reached s.timebase d = true →
      exec (.wakeCompletion k) s =
        .next (settleFreed k.buffers (s.setBank k { state := .awake, dormancy := none, wake := none }))) ∧
    (∀ d, (s.bank k).wake = some d → reached s.timebase d = true → (∀ b ∈ k.buffers, (s.buffer b).state = .free) →
      (s.pool.claimQueue = [] →
        exec (.wakeCompletion k) s =
          .next (s.setBank k { state := .awake, wake := none,
                               dormancy := if s.params.dormancyDelay = 0 then none
                                 else some (s.timebase + BitVec.ofNat 32 (1000 * s.params.dormancyDelay)) })) ∧
      (∀ h rest, s.pool.claimQueue = h :: rest → 3 ≤ (s.src h).claim →
        ∃ t, exec (.wakeCompletion k) s = .next t ∧ (t.src h).chain = (s.src h).chain ++ k.buffers ∧
          (t.src h).claim = (s.src h).claim - 3 ∧
          t.pool.claimQueue = (if (s.src h).claim = 3 then rest else h :: rest) ∧
          t.bank k = { state := .awake, dormancy := none, wake := none } ∧
          (∀ b ∈ k.buffers, (t.buffer b).state = .empty) ∧ (∀ b, b ∉ k.buffers → t.buffer b = s.buffer b) ∧ Kept s t) ∧
      (∀ h, s.pool.claimQueue = [h] → (s.src h).claim ∈ [1, 2] →
        ∃ t, exec (.wakeCompletion k) s = .next t ∧
          (t.src h).chain = (s.src h).chain ++ k.buffers.take (s.src h).claim ∧ (t.src h).claim = 0 ∧
          t.pool.claimQueue = [] ∧ (∀ b ∈ k.buffers.take (s.src h).claim, (t.buffer b).state = .empty) ∧
          (∀ b ∈ k.buffers.drop (s.src h).claim, t.buffer b = s.buffer b) ∧
          t.bank k = { state := .awake, dormancy := none, wake := none }) ∧
      (∀ h g rest, s.pool.claimQueue = h :: g :: rest → h ≠ g → (s.src h).claim ∈ [1, 2] →
        3 ≤ (s.src h).claim + (s.src g).claim →
        ∃ t, exec (.wakeCompletion k) s = .next t ∧
          (t.src h).chain = (s.src h).chain ++ k.buffers.take (s.src h).claim ∧ (t.src h).claim = 0 ∧
          (t.src g).chain = (s.src g).chain ++ k.buffers.drop (s.src h).claim ∧
          (t.src g).claim = (s.src h).claim + (s.src g).claim - 3 ∧
          t.pool.claimQueue = (if (s.src h).claim + (s.src g).claim = 3 then rest else g :: rest) ∧
          (∀ b ∈ k.buffers, (t.buffer b).state = .empty) ∧
          t.bank k = { state := .awake, dormancy := none, wake := none }))

/-- R115, R116, R123: holds placed and removed change the pin counts together, and each RETIRING buffer whose last pin goes
becomes FREE. Those freed together are delivered to waiting claims, and their banks considered for dormancy, as
BanksSleepAndWake has it: with no claim waiting they stay FREE, and one of an AWAKE bank goes to the head claim. -/
def Obligations.HoldsCountPins : Prop :=
  ∀ (names : List BufferId) (s : State) (b : BufferId),
    (addPins names s).buffer b = { s.buffer b with pins := (s.buffer b).pins + names.count b } ∧
    (((s.buffer b).state ≠ .retiring ∨ b ∉ names ∨ names.count b < (s.buffer b).pins) →
      (removePins names s).buffer b = { s.buffer b with pins := (s.buffer b).pins - names.count b }) ∧
    ((s.buffer b).state = .retiring → b ∈ names → (s.buffer b).pins ≤ names.count b → s.pool.claimQueue = [] →
      (removePins names s).buffer b = { state := .free, info := none, content := [], pins := 0 }) ∧
    (∃ freed u,
      removePins names s = settleFreed freed u ∧
        (∀ c, c ∈ freed ↔ c ∈ names ∧ (s.buffer c).state = .retiring ∧ (s.buffer c).pins ≤ names.count c) ∧
        { u with pool := { u.pool with buffers := s.pool.buffers } } = s ∧
        ∀ c, u.buffer c =
          if c ∈ freed then { state := .free, info := none, content := [], pins := 0 }
          else { s.buffer c with pins := (s.buffer c).pins - names.count c }) ∧
    (∀ h rest, (∀ c ∈ names, (s.buffer c).state = .retiring → (s.buffer c).pins ≤ names.count c → c = b) →
      b ∈ names → (s.buffer b).state = .retiring → (s.buffer b).pins ≤ names.count b →
      (s.bank (bankOf b)).state = .awake → s.pool.claimQueue = h :: rest →
      (removePins names s).buffer b = { state := .empty, info := none, content := [], pins := 0 } ∧
        (removePins names s).src h =
          { s.src h with chain := (s.src h).chain ++ [b], claim := (s.src h).claim - 1 } ∧
        (removePins names s).pool.claimQueue = (if (s.src h).claim ≤ 1 then rest else h :: rest)) ∧
    Kept s (addPins names s) ∧ Kept s (removePins names s)

/-! ## Streams -/

/-- R147: CONFIGURE_STREAM in the order of its checks; the timer period is checked whatever the cause, the count only when
the count mode is COUNTED. -/
def Obligations.ConfigureStreamChecksInOrder : Prop :=
  (∀ (f : List Byte) (n : Nat) (c : Option StreamConfig) (s : State), LinkFree .al s →
    parseStreamConfig f = some (n, c) →
    (1 < n → exec (.configureStream f) s = .next (refused .al 0x30 .range 17 s)) ∧
    (∀ st, streamOf n = some st →
      ((s.stream st).state ∈ [.running, .stopping] →
        exec (.configureStream f) s = .next (refused .al 0x30 .busy 17 s)) ∧
      ((s.stream st).state ∈ [.stopped, .done] →
        ((∀ x, c = some x → x.inRange = false) →
          exec (.configureStream f) s = .next (refused .al 0x30 .range 17 s)) ∧
        (∀ x, c = some x → x.inRange = true →
          (x.cause = .chain → (s.stream st.partner).config.cause = .chain →
            exec (.configureStream f) s = .next (refused .al 0x30 .loop 17 s)) ∧
          (x.cause ≠ .chain ∨ (s.stream st.partner).config.cause ≠ .chain →
            exec (.configureStream f) s =
              .next (answeredOk .al 0x30 17 (s.setStream st { s.stream st with config := x }))))))) ∧
  (∀ c : StreamConfig, c.inRange = true ↔
    ((c.countMode = .counted → 1 ≤ c.count ∧ c.count ≤ 65535) ∧ 1000 ≤ c.period ∧ c.period ≤ 1000000 ∧ 64 ≤ c.width ∧
      c.width ≤ 4096 ∧ 64 ≤ c.height ∧ c.height ≤ 3072 ∧ 1 ≤ c.linePeriod ∧ c.linePeriod ≤ 1024))

/-- R148, R149: START_STREAM and STOP_STREAM in every state. -/
def Obligations.StartAndStopStream : Prop :=
  ∀ (b : Byte) (s : State), LinkFree .al s →
    (1 < b.toNat →
      exec (.startStream [b]) s = .next (refused .al 0x31 .range 1 s) ∧
        exec (.stopStream [b]) s = .next (refused .al 0x32 .range 1 s)) ∧
    (∀ st, streamOf b.toNat = some st →
      exec (.startStream [b]) s =
        .next (if (s.stream st).state = .running ∨ (s.stream st).state = .stopping then refused .al 0x31 .busy 1 s
          else answeredOk .al 0x31 1 (s.setStream st { s.stream st with
            state := .running
            remaining := if (s.stream st).config.countMode = .counted then (s.stream st).config.count else 0
            number := 0, pendingTrigger := false, skip := false, pendingSet := [], current := none, holdRecord := .none
            position := if (s.stream st).config.take = .sequential then some (s.view.nextSeq - 1) else none
            timer := if (s.stream st).config.cause = .timer then
                some (s.timebase + BitVec.ofNat 32 (s.stream st).config.period)
              else none })) ∧
      exec (.stopStream [b]) s =
        .next (answeredOk .al 0x32 1
          (match (s.stream st).state with
            | .running =>
              if (s.stream st).inFlight = none then
                removePins ((s.stream st).pendingNames ++ (s.stream st).currentNames ++ (s.stream st).ownHoldNames)
                  (s.setStream st { s.stream st with
                    state := .stopped, pendingTrigger := false, skip := false, timer := none, pendingSet := [],
                    current := none, holdRecord := .none })
              else
                removePins (s.stream st).pendingNames
                  (s.setStream st { s.stream st with
                    state := .stopping, pendingTrigger := false, skip := false, timer := none, pendingSet := [] })
            | .done => s.setStream st { s.stream st with state := .stopped }
            | .stopping | .stopped => s)))

/-- R150 to R153, R136: a trigger by the emission in flight; TRIGGER_STREAM, a selected edge (the trigger to P before the one to R
is the model's order, log 11) and the stream timer's expiry as triggers, with no effect before its deadline (log 4). The holds
that one event removes, in both streams, are removed together (R116). -/
def Obligations.TriggersReachTheirStream : Prop :=
  (∀ (st : StreamId) (s : State),
    ((s.stream st).state ≠ .running → triggerStream st s = { state := s, names := [] }) ∧
    ((s.stream st).state = .running → (s.stream st).inFlight = none → triggerStream st s = startEmission st s) ∧
    ((s.stream st).state = .running → (s.stream st).inFlight ≠ none → (s.stream st).pendingTrigger = false →
      triggerStream st s =
        { state := s.setStream st { s.stream st with pendingTrigger := true }, names := [] }) ∧
    ((s.stream st).state = .running → (s.stream st).inFlight ≠ none → (s.stream st).pendingTrigger = true →
      triggerStream st s =
        { state := raise (match st with
            | .p => .output .pOverlap
            | .r => .output .rOverlap) s
          names := [] }) ∧
    (∀ cause, offerTrigger cause st s =
      if (s.stream st).config.cause = cause then triggerStream st s else { state := s, names := [] }) ∧
    (∀ d, (s.stream st).timer = some d → reached s.timebase d = true →
      let x := triggerStream st (s.setStream st { s.stream st with
        timer := some (d + BitVec.ofNat 32 (s.stream st).config.period) })
      exec (.streamTimerExpiry st) s = .next (removePins x.names x.state)) ∧
    ((∀ d, (s.stream st).timer = some d → reached s.timebase d = false) →
      exec (.streamTimerExpiry st) s = .next s)) ∧
  (∀ (b : Byte) (f : List Byte) (s : State), LinkFree .al s → f.length ≤ 59 →
    (1 < b.toNat → exec (.triggerStream (b :: f)) s = .next (refused .al 0x33 .range (f.length + 1) s)) ∧
    (∀ st, streamOf b.toNat = some st →
      exec (.triggerStream (b :: f)) s =
        .next (if (s.stream st).state = .running ∧ (s.stream st).config.cause = .request then
            answeredOk .al 0x33 (f.length + 1) (removePins (triggerStream st s).names (triggerStream st s).state)
          else refused .al 0x33 .wrongState (f.length + 1) s))) ∧
  (∀ (line : TriggerLine) (e : Polarity) (s : State),
    let cause := match line with
      | .trg0 => Cause.trg0
      | .trg1 => Cause.trg1
    let edge := raise (match line with
      | .trg0 => .output .trg0
      | .trg1 => .output .trg1) (s.setTrigger line { s.trigger line with lastEdge := some s.timebase })
    let x := offerTrigger cause .p edge
    let y := offerTrigger cause .r x.state
    exec (.triggerEdge line e) s =
      .next (if (s.trigger line).selection = .both ∨ ((s.trigger line).selection = .rising ∧ e = .rising) ∨
            ((s.trigger line).selection = .falling ∧ e = .falling) then
          removePins (x.names ++ y.names) y.state
        else s))

/-- R155 to R158, R160: an emission begins with its take: its start, span and number, the record it takes, the holds it settles
and removes, the frame kind in its four cases, and the trailer. -/
def Obligations.EmissionBegins : Prop :=
  ∀ (st : StreamId) (s : State),
    let x := s.stream st
    let t := startEmission st s
    let y := t.state.stream st
    let found := takeRecord s.view.ring x
    ∃ e, y.inFlight = some e ∧ e.start = s.timebase ∧
      e.deadline = s.timebase + BitVec.ofNat 32 (ceilDiv (x.config.height * x.config.linePeriod) 16) ∧
      e.number = x.number ∧ y.number = x.number + 1 ∧ y.state = x.state ∧
      (∀ r, found = some r →
        y.position = some r.seq ∧ y.current = some { record := r, buffers := holdNames s r, intact := recordIntact s r } ∧
        y.pendingSet = x.pendingSet.filter (fun p => decide (p.seq ≠ r.seq)) ∧
        (r.primary ≠ none ∧ recordIntact s r = true →
          e.kind = .new ∧ y.holdRecord = .current ∧
            ∀ b, t.names.count b = (((x.pendingSet.filter fun p => decide (p.seq = r.seq)).flatMap fun p => p.buffers) ++
              x.currentNames ++ x.ownHoldNames).count b) ∧
        (¬(r.primary ≠ none ∧ recordIntact s r = true) → x.config.holdMode = .pattern →
          e.kind = .pattern ∧ y.holdRecord = .none ∧
            ∀ b, t.names.count b = (((x.pendingSet.filter fun p => decide (p.seq = r.seq)).flatMap fun p => p.buffers) ++
              x.currentNames ++ x.ownHoldNames).count b) ∧
        (¬(r.primary ≠ none ∧ recordIntact s r = true) → x.config.holdMode = .repeat →
          (e.kind = if y.held = none then .pattern else .hold) ∧ y.held = x.held ∧
            ∀ b, t.names.count b = (((x.pendingSet.filter fun p => decide (p.seq = r.seq)).flatMap fun p => p.buffers) ++
              if x.holdRecord = .current then [] else x.currentNames).count b)) ∧
      (found = none →
        y.position = x.position ∧ y.current = x.current ∧ y.pendingSet = x.pendingSet ∧ y.holdRecord = x.holdRecord ∧
        t.names = [] ∧
        ((∃ h, x.current = some h ∧ h.record.primary ≠ none ∧ h.intact = true) → e.kind = .repeat) ∧
        ((∀ h, x.current = some h → h.record.primary = none ∨ h.intact = false) →
          e.kind = if x.config.holdMode = .repeat ∧ x.held ≠ none then .hold else .pattern)) ∧
      (let shown : Option ViewRecord := match e.kind with
        | .new | .repeat => y.current.map fun h => h.record
        | .hold => y.held.map fun h => h.record
        | .pattern => none
      e.trailer =
        { stream := st, number := x.number, start := s.timebase, kind := e.kind
          lost := found.any fun r => !recordIntact s r
          skipped := decide (x.config.take = .sequential ∧ x.skip = true)
          currentSeq := y.current.map fun h => h.record.seq
          shownSeq := shown.map fun r => r.seq
          shownFlags := match shown with
            | some r => r.flags
            | none => .clear
          remaining := if x.config.countMode = .counted then x.remaining - 1 else 0
          report := shown.bind fun r => r.primary.bind fun p => (s.buffer p.buffer).info.bind fun m =>
            m.report.map fun rep =>
              { exposure := rep.exposure, focusMoving := rep.focusMoving, exposureChanging := rep.exposureChanging } }) ∧
      (x.config.take = .latest →
        found =
          match s.view.ring.getLast?, x.position with
          | none, _ => none
          | some r, none => some r
          | some r, some p => if timeLater r.seq p then some r else none) ∧
      (x.config.take = .sequential → x.skip = true →
        found = s.view.ring.head? ∧ y.skip = false ∧
          ∀ l, (t.state.notice l).isPending (match st with
            | .p => .output .pSkip
            | .r => .output .rSkip) = true) ∧
      (∀ p, x.config.take = .sequential → x.skip = false → x.position = some p →
        (∀ r, found = some r → r ∈ s.view.ring ∧ r.seq = p + 1) ∧
        (found = none → ∀ r ∈ s.view.ring, r.seq ≠ p + 1)) ∧
      (∀ b, t.state.buffer b = { s.buffer b with
        pins := (s.buffer b).pins + (match found with
          | some r => (holdNames s r).count b
          | none => 0) }) ∧
      (∀ other, other ≠ st → t.state.stream other = s.stream other) ∧ Kept s t.state ∧
      t.state.view = s.view ∧ t.state.handoff = s.handoff ∧ t.state.planner = s.planner ∧ t.state.sources = s.sources ∧
      t.state.reports = s.reports ∧ t.state.ports = s.ports ∧ t.state.sync = s.sync ∧ t.state.pool.banks = s.pool.banks ∧
      t.state.pool.claimQueue = s.pool.claimQueue ∧
      (¬(x.config.take = .sequential ∧ x.skip = true) → t.state.notices = s.notices)

/-- R159: the completion of an emission, with the partner's CHAIN trigger first, and no effect before the deadline (log 4). The
holds that the partner's take and the stream's own take or end remove are removed together (R116). The frame kept as the one
that left the port is the model's own (log 19); its bytes on the port are its rows, sample by sample, and the trailer of Table 70
(R178). -/
def Obligations.EmissionCompletes : Prop :=
  (∀ (f : OutputFrame) (width : Nat), (∀ row ∈ f.rows, row.length = width) → ShowsFrame f.bytes width f) ∧
  ∀ (st : StreamId) (s : State),
    (∀ (e : Emission) (x : Releasing), (s.stream st).inFlight = some e → reached s.timebase e.deadline = true →
      x = offerTrigger .chain st.partner (s.setStream st { s.stream st with
        inFlight := none
        sent := some { rows := renderRows s ((s.stream st).shownRecord e.kind) (s.stream st).config.width
                         (s.stream st).config.height
                       trailer := e.trailer } }) →
      let u := x.state
      ((s.stream st).state = .stopping →
        exec (.emissionCompletion st) s =
          .next (removePins (x.names ++ (restStream st .stopped u).names) (restStream st .stopped u).state)) ∧
      ((s.stream st).state = .running →
        ((s.stream st).config.countMode = .counted → (s.stream st).remaining = 1 →
          let v := restStream st .done (u.setStream st { u.stream st with remaining := 0 })
          exec (.emissionCompletion st) s =
            .next (removePins (x.names ++ v.names) (raise (match st with
                | .p => .output .pDone
                | .r => .output .rDone) v.state))) ∧
        ((s.stream st).config.countMode = .continuous →
          exec (.emissionCompletion st) s =
            .next (if (s.stream st).pendingTrigger then
                let v := startEmission st (u.setStream st { u.stream st with pendingTrigger := false })
                removePins (x.names ++ v.names) v.state
              else removePins x.names u)) ∧
        ((s.stream st).config.countMode = .counted → 2 ≤ (s.stream st).remaining →
          exec (.emissionCompletion st) s =
            .next (if (s.stream st).pendingTrigger then
                let v := startEmission st (u.setStream st { u.stream st with
                  remaining := (s.stream st).remaining - 1, pendingTrigger := false })
                removePins (x.names ++ v.names) v.state
              else removePins x.names (u.setStream st { u.stream st with remaining := (s.stream st).remaining - 1 }))))) ∧
    ((∀ e, (s.stream st).inFlight = some e → reached s.timebase e.deadline = false) →
      exec (.emissionCompletion st) s = .next s) ∧
    (∀ next : StreamState,
      let v := restStream st next s
      (v.state.stream st).state = next ∧ (v.state.stream st).pendingTrigger = false ∧
        (v.state.stream st).skip = false ∧
        (v.state.stream st).current = none ∧ (v.state.stream st).holdRecord = .none ∧
        (v.state.stream st).pendingSet = [] ∧ (v.state.stream st).timer = none ∧ v.state.pool = s.pool ∧
        ∀ b, v.names.count b = ((s.stream st).pendingNames ++ (s.stream st).currentNames ++
          (s.stream st).ownHoldNames).count b)
end

