-- ==== Sys2Proof/Laws/State.lean ====
section
/-! SUPPORT. What each update of State leaves and writes, one fact a line: every field and every read after every write. -/

namespace Sys2Proof.Machine

open Sys2Proof

/-! ## The small families -/

@[simp] theorem PerSource.get_set {α : Type} (v : PerSource α) (x : α) (i j : Source) :
    (v.set x i).get j = if j = i then x else v.get j := by
  cases i <;> cases j <;> rfl

@[simp] theorem PerLink.get_set {α : Type} (v : PerLink α) (x : α) (i j : Link) :
    (v.set x i).get j = if j = i then x else v.get j := by
  cases i <;> cases j <;> rfl

@[simp] theorem PerStream.get_set {α : Type} (v : PerStream α) (x : α) (i j : StreamId) :
    (v.set x i).get j = if j = i then x else v.get j := by
  cases i <;> cases j <;> rfl

@[simp] theorem PerLine.get_set {α : Type} (v : PerLine α) (x : α) (i j : TriggerLine) :
    (v.set x i).get j = if j = i then x else v.get j := by
  cases i <;> cases j <;> rfl

@[simp] theorem PerBank.get_set {α : Type} (v : PerBank α) (x : α) (i j : Bank) :
    (v.set x i).get j = if j = i then x else v.get j := by
  cases i <;> cases j <;> rfl

@[simp] theorem PerSource.get_all {α : Type} (x : α) (i : Source) : (PerSource.all x).get i = x := by
  cases i <;> rfl

@[simp] theorem PerSource.get_tabulate {α : Type} (f : Source → α) (i : Source) : (PerSource.tabulate f).get i = f i := by
  cases i <;> rfl

namespace State

/-! ## Fields after updates -/

@[simp] theorem setSrc_pending (s : State) (i : Source) (x : SourceRecord) : (s.setSrc i x).pending = s.pending := rfl
@[simp] theorem setSrc_free (s : State) (i : Source) (x : SourceRecord) : (s.setSrc i x).free = s.free := rfl
@[simp] theorem setSrc_resetLow (s : State) (i : Source) (x : SourceRecord) : (s.setSrc i x).resetLow = s.resetLow := rfl
@[simp] theorem setSrc_initialising (s : State) (i : Source) (x : SourceRecord) : (s.setSrc i x).initialising = s.initialising := rfl
@[simp] theorem setSrc_timebase (s : State) (i : Source) (x : SourceRecord) : (s.setSrc i x).timebase = s.timebase := rfl
@[simp] theorem setSrc_params (s : State) (i : Source) (x : SourceRecord) : (s.setSrc i x).params = s.params := rfl
@[simp] theorem setSrc_reports (s : State) (i : Source) (x : SourceRecord) : (s.setSrc i x).reports = s.reports := rfl
@[simp] theorem setSrc_cal (s : State) (i : Source) (x : SourceRecord) : (s.setSrc i x).cal = s.cal := rfl
@[simp] theorem setSrc_ports (s : State) (i : Source) (x : SourceRecord) : (s.setSrc i x).ports = s.ports := rfl
@[simp] theorem setSrc_sync (s : State) (i : Source) (x : SourceRecord) : (s.setSrc i x).sync = s.sync := rfl
@[simp] theorem setSrc_planner (s : State) (i : Source) (x : SourceRecord) : (s.setSrc i x).planner = s.planner := rfl
@[simp] theorem setSrc_handoff (s : State) (i : Source) (x : SourceRecord) : (s.setSrc i x).handoff = s.handoff := rfl
@[simp] theorem setSrc_view (s : State) (i : Source) (x : SourceRecord) : (s.setSrc i x).view = s.view := rfl
@[simp] theorem setSrc_pool (s : State) (i : Source) (x : SourceRecord) : (s.setSrc i x).pool = s.pool := rfl
@[simp] theorem setSrc_streams (s : State) (i : Source) (x : SourceRecord) : (s.setSrc i x).streams = s.streams := rfl
@[simp] theorem setSrc_triggers (s : State) (i : Source) (x : SourceRecord) : (s.setSrc i x).triggers = s.triggers := rfl
@[simp] theorem setSrc_notices (s : State) (i : Source) (x : SourceRecord) : (s.setSrc i x).notices = s.notices := rfl
@[simp] theorem setSrc_links (s : State) (i : Source) (x : SourceRecord) : (s.setSrc i x).links = s.links := rfl
@[simp] theorem setSrc_selected (s : State) (i : Source) (x : SourceRecord) : (s.setSrc i x).selected = s.selected := rfl

@[simp] theorem modSrc_pending (s : State) (i : Source) (f : SourceRecord → SourceRecord) : (s.modSrc i f).pending = s.pending := rfl
@[simp] theorem modSrc_free (s : State) (i : Source) (f : SourceRecord → SourceRecord) : (s.modSrc i f).free = s.free := rfl
@[simp] theorem modSrc_resetLow (s : State) (i : Source) (f : SourceRecord → SourceRecord) : (s.modSrc i f).resetLow = s.resetLow := rfl
@[simp] theorem modSrc_initialising (s : State) (i : Source) (f : SourceRecord → SourceRecord) : (s.modSrc i f).initialising = s.initialising := rfl
@[simp] theorem modSrc_timebase (s : State) (i : Source) (f : SourceRecord → SourceRecord) : (s.modSrc i f).timebase = s.timebase := rfl
@[simp] theorem modSrc_params (s : State) (i : Source) (f : SourceRecord → SourceRecord) : (s.modSrc i f).params = s.params := rfl
@[simp] theorem modSrc_reports (s : State) (i : Source) (f : SourceRecord → SourceRecord) : (s.modSrc i f).reports = s.reports := rfl
@[simp] theorem modSrc_cal (s : State) (i : Source) (f : SourceRecord → SourceRecord) : (s.modSrc i f).cal = s.cal := rfl
@[simp] theorem modSrc_ports (s : State) (i : Source) (f : SourceRecord → SourceRecord) : (s.modSrc i f).ports = s.ports := rfl
@[simp] theorem modSrc_sync (s : State) (i : Source) (f : SourceRecord → SourceRecord) : (s.modSrc i f).sync = s.sync := rfl
@[simp] theorem modSrc_planner (s : State) (i : Source) (f : SourceRecord → SourceRecord) : (s.modSrc i f).planner = s.planner := rfl
@[simp] theorem modSrc_handoff (s : State) (i : Source) (f : SourceRecord → SourceRecord) : (s.modSrc i f).handoff = s.handoff := rfl
@[simp] theorem modSrc_view (s : State) (i : Source) (f : SourceRecord → SourceRecord) : (s.modSrc i f).view = s.view := rfl
@[simp] theorem modSrc_pool (s : State) (i : Source) (f : SourceRecord → SourceRecord) : (s.modSrc i f).pool = s.pool := rfl
@[simp] theorem modSrc_streams (s : State) (i : Source) (f : SourceRecord → SourceRecord) : (s.modSrc i f).streams = s.streams := rfl
@[simp] theorem modSrc_triggers (s : State) (i : Source) (f : SourceRecord → SourceRecord) : (s.modSrc i f).triggers = s.triggers := rfl
@[simp] theorem modSrc_notices (s : State) (i : Source) (f : SourceRecord → SourceRecord) : (s.modSrc i f).notices = s.notices := rfl
@[simp] theorem modSrc_links (s : State) (i : Source) (f : SourceRecord → SourceRecord) : (s.modSrc i f).links = s.links := rfl
@[simp] theorem modSrc_selected (s : State) (i : Source) (f : SourceRecord → SourceRecord) : (s.modSrc i f).selected = s.selected := rfl

@[simp] theorem setReport_pending (s : State) (i : Source) (x : ReportUnit) : (s.setReport i x).pending = s.pending := rfl
@[simp] theorem setReport_free (s : State) (i : Source) (x : ReportUnit) : (s.setReport i x).free = s.free := rfl
@[simp] theorem setReport_resetLow (s : State) (i : Source) (x : ReportUnit) : (s.setReport i x).resetLow = s.resetLow := rfl
@[simp] theorem setReport_initialising (s : State) (i : Source) (x : ReportUnit) : (s.setReport i x).initialising = s.initialising := rfl
@[simp] theorem setReport_timebase (s : State) (i : Source) (x : ReportUnit) : (s.setReport i x).timebase = s.timebase := rfl
@[simp] theorem setReport_params (s : State) (i : Source) (x : ReportUnit) : (s.setReport i x).params = s.params := rfl
@[simp] theorem setReport_sources (s : State) (i : Source) (x : ReportUnit) : (s.setReport i x).sources = s.sources := rfl
@[simp] theorem setReport_cal (s : State) (i : Source) (x : ReportUnit) : (s.setReport i x).cal = s.cal := rfl
@[simp] theorem setReport_ports (s : State) (i : Source) (x : ReportUnit) : (s.setReport i x).ports = s.ports := rfl
@[simp] theorem setReport_sync (s : State) (i : Source) (x : ReportUnit) : (s.setReport i x).sync = s.sync := rfl
@[simp] theorem setReport_planner (s : State) (i : Source) (x : ReportUnit) : (s.setReport i x).planner = s.planner := rfl
@[simp] theorem setReport_handoff (s : State) (i : Source) (x : ReportUnit) : (s.setReport i x).handoff = s.handoff := rfl
@[simp] theorem setReport_view (s : State) (i : Source) (x : ReportUnit) : (s.setReport i x).view = s.view := rfl
@[simp] theorem setReport_pool (s : State) (i : Source) (x : ReportUnit) : (s.setReport i x).pool = s.pool := rfl
@[simp] theorem setReport_streams (s : State) (i : Source) (x : ReportUnit) : (s.setReport i x).streams = s.streams := rfl
@[simp] theorem setReport_triggers (s : State) (i : Source) (x : ReportUnit) : (s.setReport i x).triggers = s.triggers := rfl
@[simp] theorem setReport_notices (s : State) (i : Source) (x : ReportUnit) : (s.setReport i x).notices = s.notices := rfl
@[simp] theorem setReport_links (s : State) (i : Source) (x : ReportUnit) : (s.setReport i x).links = s.links := rfl
@[simp] theorem setReport_selected (s : State) (i : Source) (x : ReportUnit) : (s.setReport i x).selected = s.selected := rfl

@[simp] theorem setCal_pending (s : State) (i : Source) (x : List CalPoint) : (s.setCal i x).pending = s.pending := rfl
@[simp] theorem setCal_free (s : State) (i : Source) (x : List CalPoint) : (s.setCal i x).free = s.free := rfl
@[simp] theorem setCal_resetLow (s : State) (i : Source) (x : List CalPoint) : (s.setCal i x).resetLow = s.resetLow := rfl
@[simp] theorem setCal_initialising (s : State) (i : Source) (x : List CalPoint) : (s.setCal i x).initialising = s.initialising := rfl
@[simp] theorem setCal_timebase (s : State) (i : Source) (x : List CalPoint) : (s.setCal i x).timebase = s.timebase := rfl
@[simp] theorem setCal_params (s : State) (i : Source) (x : List CalPoint) : (s.setCal i x).params = s.params := rfl
@[simp] theorem setCal_sources (s : State) (i : Source) (x : List CalPoint) : (s.setCal i x).sources = s.sources := rfl
@[simp] theorem setCal_reports (s : State) (i : Source) (x : List CalPoint) : (s.setCal i x).reports = s.reports := rfl
@[simp] theorem setCal_ports (s : State) (i : Source) (x : List CalPoint) : (s.setCal i x).ports = s.ports := rfl
@[simp] theorem setCal_sync (s : State) (i : Source) (x : List CalPoint) : (s.setCal i x).sync = s.sync := rfl
@[simp] theorem setCal_planner (s : State) (i : Source) (x : List CalPoint) : (s.setCal i x).planner = s.planner := rfl
@[simp] theorem setCal_handoff (s : State) (i : Source) (x : List CalPoint) : (s.setCal i x).handoff = s.handoff := rfl
@[simp] theorem setCal_view (s : State) (i : Source) (x : List CalPoint) : (s.setCal i x).view = s.view := rfl
@[simp] theorem setCal_pool (s : State) (i : Source) (x : List CalPoint) : (s.setCal i x).pool = s.pool := rfl
@[simp] theorem setCal_streams (s : State) (i : Source) (x : List CalPoint) : (s.setCal i x).streams = s.streams := rfl
@[simp] theorem setCal_triggers (s : State) (i : Source) (x : List CalPoint) : (s.setCal i x).triggers = s.triggers := rfl
@[simp] theorem setCal_notices (s : State) (i : Source) (x : List CalPoint) : (s.setCal i x).notices = s.notices := rfl
@[simp] theorem setCal_links (s : State) (i : Source) (x : List CalPoint) : (s.setCal i x).links = s.links := rfl
@[simp] theorem setCal_selected (s : State) (i : Source) (x : List CalPoint) : (s.setCal i x).selected = s.selected := rfl

@[simp] theorem setPort_pending (s : State) (i : Source) (x : Port) : (s.setPort i x).pending = s.pending := rfl
@[simp] theorem setPort_free (s : State) (i : Source) (x : Port) : (s.setPort i x).free = s.free := rfl
@[simp] theorem setPort_resetLow (s : State) (i : Source) (x : Port) : (s.setPort i x).resetLow = s.resetLow := rfl
@[simp] theorem setPort_initialising (s : State) (i : Source) (x : Port) : (s.setPort i x).initialising = s.initialising := rfl
@[simp] theorem setPort_timebase (s : State) (i : Source) (x : Port) : (s.setPort i x).timebase = s.timebase := rfl
@[simp] theorem setPort_params (s : State) (i : Source) (x : Port) : (s.setPort i x).params = s.params := rfl
@[simp] theorem setPort_sources (s : State) (i : Source) (x : Port) : (s.setPort i x).sources = s.sources := rfl
@[simp] theorem setPort_reports (s : State) (i : Source) (x : Port) : (s.setPort i x).reports = s.reports := rfl
@[simp] theorem setPort_cal (s : State) (i : Source) (x : Port) : (s.setPort i x).cal = s.cal := rfl
@[simp] theorem setPort_sync (s : State) (i : Source) (x : Port) : (s.setPort i x).sync = s.sync := rfl
@[simp] theorem setPort_planner (s : State) (i : Source) (x : Port) : (s.setPort i x).planner = s.planner := rfl
@[simp] theorem setPort_handoff (s : State) (i : Source) (x : Port) : (s.setPort i x).handoff = s.handoff := rfl
@[simp] theorem setPort_view (s : State) (i : Source) (x : Port) : (s.setPort i x).view = s.view := rfl
@[simp] theorem setPort_pool (s : State) (i : Source) (x : Port) : (s.setPort i x).pool = s.pool := rfl
@[simp] theorem setPort_streams (s : State) (i : Source) (x : Port) : (s.setPort i x).streams = s.streams := rfl
@[simp] theorem setPort_triggers (s : State) (i : Source) (x : Port) : (s.setPort i x).triggers = s.triggers := rfl
@[simp] theorem setPort_notices (s : State) (i : Source) (x : Port) : (s.setPort i x).notices = s.notices := rfl
@[simp] theorem setPort_links (s : State) (i : Source) (x : Port) : (s.setPort i x).links = s.links := rfl
@[simp] theorem setPort_selected (s : State) (i : Source) (x : Port) : (s.setPort i x).selected = s.selected := rfl

@[simp] theorem setSync_pending (s : State) (i : Source) (x : SyncLine) : (s.setSync i x).pending = s.pending := rfl
@[simp] theorem setSync_free (s : State) (i : Source) (x : SyncLine) : (s.setSync i x).free = s.free := rfl
@[simp] theorem setSync_resetLow (s : State) (i : Source) (x : SyncLine) : (s.setSync i x).resetLow = s.resetLow := rfl
@[simp] theorem setSync_initialising (s : State) (i : Source) (x : SyncLine) : (s.setSync i x).initialising = s.initialising := rfl
@[simp] theorem setSync_timebase (s : State) (i : Source) (x : SyncLine) : (s.setSync i x).timebase = s.timebase := rfl
@[simp] theorem setSync_params (s : State) (i : Source) (x : SyncLine) : (s.setSync i x).params = s.params := rfl
@[simp] theorem setSync_sources (s : State) (i : Source) (x : SyncLine) : (s.setSync i x).sources = s.sources := rfl
@[simp] theorem setSync_reports (s : State) (i : Source) (x : SyncLine) : (s.setSync i x).reports = s.reports := rfl
@[simp] theorem setSync_cal (s : State) (i : Source) (x : SyncLine) : (s.setSync i x).cal = s.cal := rfl
@[simp] theorem setSync_ports (s : State) (i : Source) (x : SyncLine) : (s.setSync i x).ports = s.ports := rfl
@[simp] theorem setSync_planner (s : State) (i : Source) (x : SyncLine) : (s.setSync i x).planner = s.planner := rfl
@[simp] theorem setSync_handoff (s : State) (i : Source) (x : SyncLine) : (s.setSync i x).handoff = s.handoff := rfl
@[simp] theorem setSync_view (s : State) (i : Source) (x : SyncLine) : (s.setSync i x).view = s.view := rfl
@[simp] theorem setSync_pool (s : State) (i : Source) (x : SyncLine) : (s.setSync i x).pool = s.pool := rfl
@[simp] theorem setSync_streams (s : State) (i : Source) (x : SyncLine) : (s.setSync i x).streams = s.streams := rfl
@[simp] theorem setSync_triggers (s : State) (i : Source) (x : SyncLine) : (s.setSync i x).triggers = s.triggers := rfl
@[simp] theorem setSync_notices (s : State) (i : Source) (x : SyncLine) : (s.setSync i x).notices = s.notices := rfl
@[simp] theorem setSync_links (s : State) (i : Source) (x : SyncLine) : (s.setSync i x).links = s.links := rfl
@[simp] theorem setSync_selected (s : State) (i : Source) (x : SyncLine) : (s.setSync i x).selected = s.selected := rfl

@[simp] theorem setStream_pending (s : State) (i : StreamId) (x : Stream) : (s.setStream i x).pending = s.pending := rfl
@[simp] theorem setStream_free (s : State) (i : StreamId) (x : Stream) : (s.setStream i x).free = s.free := rfl
@[simp] theorem setStream_resetLow (s : State) (i : StreamId) (x : Stream) : (s.setStream i x).resetLow = s.resetLow := rfl
@[simp] theorem setStream_initialising (s : State) (i : StreamId) (x : Stream) : (s.setStream i x).initialising = s.initialising := rfl
@[simp] theorem setStream_timebase (s : State) (i : StreamId) (x : Stream) : (s.setStream i x).timebase = s.timebase := rfl
@[simp] theorem setStream_params (s : State) (i : StreamId) (x : Stream) : (s.setStream i x).params = s.params := rfl
@[simp] theorem setStream_sources (s : State) (i : StreamId) (x : Stream) : (s.setStream i x).sources = s.sources := rfl
@[simp] theorem setStream_reports (s : State) (i : StreamId) (x : Stream) : (s.setStream i x).reports = s.reports := rfl
@[simp] theorem setStream_cal (s : State) (i : StreamId) (x : Stream) : (s.setStream i x).cal = s.cal := rfl
@[simp] theorem setStream_ports (s : State) (i : StreamId) (x : Stream) : (s.setStream i x).ports = s.ports := rfl
@[simp] theorem setStream_sync (s : State) (i : StreamId) (x : Stream) : (s.setStream i x).sync = s.sync := rfl
@[simp] theorem setStream_planner (s : State) (i : StreamId) (x : Stream) : (s.setStream i x).planner = s.planner := rfl
@[simp] theorem setStream_handoff (s : State) (i : StreamId) (x : Stream) : (s.setStream i x).handoff = s.handoff := rfl
@[simp] theorem setStream_view (s : State) (i : StreamId) (x : Stream) : (s.setStream i x).view = s.view := rfl
@[simp] theorem setStream_pool (s : State) (i : StreamId) (x : Stream) : (s.setStream i x).pool = s.pool := rfl
@[simp] theorem setStream_triggers (s : State) (i : StreamId) (x : Stream) : (s.setStream i x).triggers = s.triggers := rfl
@[simp] theorem setStream_notices (s : State) (i : StreamId) (x : Stream) : (s.setStream i x).notices = s.notices := rfl
@[simp] theorem setStream_links (s : State) (i : StreamId) (x : Stream) : (s.setStream i x).links = s.links := rfl
@[simp] theorem setStream_selected (s : State) (i : StreamId) (x : Stream) : (s.setStream i x).selected = s.selected := rfl

@[simp] theorem modStream_pending (s : State) (i : StreamId) (f : Stream → Stream) : (s.modStream i f).pending = s.pending := rfl
@[simp] theorem modStream_free (s : State) (i : StreamId) (f : Stream → Stream) : (s.modStream i f).free = s.free := rfl
@[simp] theorem modStream_resetLow (s : State) (i : StreamId) (f : Stream → Stream) : (s.modStream i f).resetLow = s.resetLow := rfl
@[simp] theorem modStream_initialising (s : State) (i : StreamId) (f : Stream → Stream) : (s.modStream i f).initialising = s.initialising := rfl
@[simp] theorem modStream_timebase (s : State) (i : StreamId) (f : Stream → Stream) : (s.modStream i f).timebase = s.timebase := rfl
@[simp] theorem modStream_params (s : State) (i : StreamId) (f : Stream → Stream) : (s.modStream i f).params = s.params := rfl
@[simp] theorem modStream_sources (s : State) (i : StreamId) (f : Stream → Stream) : (s.modStream i f).sources = s.sources := rfl
@[simp] theorem modStream_reports (s : State) (i : StreamId) (f : Stream → Stream) : (s.modStream i f).reports = s.reports := rfl
@[simp] theorem modStream_cal (s : State) (i : StreamId) (f : Stream → Stream) : (s.modStream i f).cal = s.cal := rfl
@[simp] theorem modStream_ports (s : State) (i : StreamId) (f : Stream → Stream) : (s.modStream i f).ports = s.ports := rfl
@[simp] theorem modStream_sync (s : State) (i : StreamId) (f : Stream → Stream) : (s.modStream i f).sync = s.sync := rfl
@[simp] theorem modStream_planner (s : State) (i : StreamId) (f : Stream → Stream) : (s.modStream i f).planner = s.planner := rfl
@[simp] theorem modStream_handoff (s : State) (i : StreamId) (f : Stream → Stream) : (s.modStream i f).handoff = s.handoff := rfl
@[simp] theorem modStream_view (s : State) (i : StreamId) (f : Stream → Stream) : (s.modStream i f).view = s.view := rfl
@[simp] theorem modStream_pool (s : State) (i : StreamId) (f : Stream → Stream) : (s.modStream i f).pool = s.pool := rfl
@[simp] theorem modStream_triggers (s : State) (i : StreamId) (f : Stream → Stream) : (s.modStream i f).triggers = s.triggers := rfl
@[simp] theorem modStream_notices (s : State) (i : StreamId) (f : Stream → Stream) : (s.modStream i f).notices = s.notices := rfl
@[simp] theorem modStream_links (s : State) (i : StreamId) (f : Stream → Stream) : (s.modStream i f).links = s.links := rfl
@[simp] theorem modStream_selected (s : State) (i : StreamId) (f : Stream → Stream) : (s.modStream i f).selected = s.selected := rfl

@[simp] theorem setTrigger_pending (s : State) (i : TriggerLine) (x : TriggerInput) : (s.setTrigger i x).pending = s.pending := rfl
@[simp] theorem setTrigger_free (s : State) (i : TriggerLine) (x : TriggerInput) : (s.setTrigger i x).free = s.free := rfl
@[simp] theorem setTrigger_resetLow (s : State) (i : TriggerLine) (x : TriggerInput) : (s.setTrigger i x).resetLow = s.resetLow := rfl
@[simp] theorem setTrigger_initialising (s : State) (i : TriggerLine) (x : TriggerInput) : (s.setTrigger i x).initialising = s.initialising := rfl
@[simp] theorem setTrigger_timebase (s : State) (i : TriggerLine) (x : TriggerInput) : (s.setTrigger i x).timebase = s.timebase := rfl
@[simp] theorem setTrigger_params (s : State) (i : TriggerLine) (x : TriggerInput) : (s.setTrigger i x).params = s.params := rfl
@[simp] theorem setTrigger_sources (s : State) (i : TriggerLine) (x : TriggerInput) : (s.setTrigger i x).sources = s.sources := rfl
@[simp] theorem setTrigger_reports (s : State) (i : TriggerLine) (x : TriggerInput) : (s.setTrigger i x).reports = s.reports := rfl
@[simp] theorem setTrigger_cal (s : State) (i : TriggerLine) (x : TriggerInput) : (s.setTrigger i x).cal = s.cal := rfl
@[simp] theorem setTrigger_ports (s : State) (i : TriggerLine) (x : TriggerInput) : (s.setTrigger i x).ports = s.ports := rfl
@[simp] theorem setTrigger_sync (s : State) (i : TriggerLine) (x : TriggerInput) : (s.setTrigger i x).sync = s.sync := rfl
@[simp] theorem setTrigger_planner (s : State) (i : TriggerLine) (x : TriggerInput) : (s.setTrigger i x).planner = s.planner := rfl
@[simp] theorem setTrigger_handoff (s : State) (i : TriggerLine) (x : TriggerInput) : (s.setTrigger i x).handoff = s.handoff := rfl
@[simp] theorem setTrigger_view (s : State) (i : TriggerLine) (x : TriggerInput) : (s.setTrigger i x).view = s.view := rfl
@[simp] theorem setTrigger_pool (s : State) (i : TriggerLine) (x : TriggerInput) : (s.setTrigger i x).pool = s.pool := rfl
@[simp] theorem setTrigger_streams (s : State) (i : TriggerLine) (x : TriggerInput) : (s.setTrigger i x).streams = s.streams := rfl
@[simp] theorem setTrigger_notices (s : State) (i : TriggerLine) (x : TriggerInput) : (s.setTrigger i x).notices = s.notices := rfl
@[simp] theorem setTrigger_links (s : State) (i : TriggerLine) (x : TriggerInput) : (s.setTrigger i x).links = s.links := rfl
@[simp] theorem setTrigger_selected (s : State) (i : TriggerLine) (x : TriggerInput) : (s.setTrigger i x).selected = s.selected := rfl

@[simp] theorem setNotice_pending (s : State) (i : Link) (x : Notices) : (s.setNotice i x).pending = s.pending := rfl
@[simp] theorem setNotice_free (s : State) (i : Link) (x : Notices) : (s.setNotice i x).free = s.free := rfl
@[simp] theorem setNotice_resetLow (s : State) (i : Link) (x : Notices) : (s.setNotice i x).resetLow = s.resetLow := rfl
@[simp] theorem setNotice_initialising (s : State) (i : Link) (x : Notices) : (s.setNotice i x).initialising = s.initialising := rfl
@[simp] theorem setNotice_timebase (s : State) (i : Link) (x : Notices) : (s.setNotice i x).timebase = s.timebase := rfl
@[simp] theorem setNotice_params (s : State) (i : Link) (x : Notices) : (s.setNotice i x).params = s.params := rfl
@[simp] theorem setNotice_sources (s : State) (i : Link) (x : Notices) : (s.setNotice i x).sources = s.sources := rfl
@[simp] theorem setNotice_reports (s : State) (i : Link) (x : Notices) : (s.setNotice i x).reports = s.reports := rfl
@[simp] theorem setNotice_cal (s : State) (i : Link) (x : Notices) : (s.setNotice i x).cal = s.cal := rfl
@[simp] theorem setNotice_ports (s : State) (i : Link) (x : Notices) : (s.setNotice i x).ports = s.ports := rfl
@[simp] theorem setNotice_sync (s : State) (i : Link) (x : Notices) : (s.setNotice i x).sync = s.sync := rfl
@[simp] theorem setNotice_planner (s : State) (i : Link) (x : Notices) : (s.setNotice i x).planner = s.planner := rfl
@[simp] theorem setNotice_handoff (s : State) (i : Link) (x : Notices) : (s.setNotice i x).handoff = s.handoff := rfl
@[simp] theorem setNotice_view (s : State) (i : Link) (x : Notices) : (s.setNotice i x).view = s.view := rfl
@[simp] theorem setNotice_pool (s : State) (i : Link) (x : Notices) : (s.setNotice i x).pool = s.pool := rfl
@[simp] theorem setNotice_streams (s : State) (i : Link) (x : Notices) : (s.setNotice i x).streams = s.streams := rfl
@[simp] theorem setNotice_triggers (s : State) (i : Link) (x : Notices) : (s.setNotice i x).triggers = s.triggers := rfl
@[simp] theorem setNotice_links (s : State) (i : Link) (x : Notices) : (s.setNotice i x).links = s.links := rfl
@[simp] theorem setNotice_selected (s : State) (i : Link) (x : Notices) : (s.setNotice i x).selected = s.selected := rfl

@[simp] theorem setLink_pending (s : State) (i : Link) (x : LinkState) : (s.setLink i x).pending = s.pending := rfl
@[simp] theorem setLink_free (s : State) (i : Link) (x : LinkState) : (s.setLink i x).free = s.free := rfl
@[simp] theorem setLink_resetLow (s : State) (i : Link) (x : LinkState) : (s.setLink i x).resetLow = s.resetLow := rfl
@[simp] theorem setLink_initialising (s : State) (i : Link) (x : LinkState) : (s.setLink i x).initialising = s.initialising := rfl
@[simp] theorem setLink_timebase (s : State) (i : Link) (x : LinkState) : (s.setLink i x).timebase = s.timebase := rfl
@[simp] theorem setLink_params (s : State) (i : Link) (x : LinkState) : (s.setLink i x).params = s.params := rfl
@[simp] theorem setLink_sources (s : State) (i : Link) (x : LinkState) : (s.setLink i x).sources = s.sources := rfl
@[simp] theorem setLink_reports (s : State) (i : Link) (x : LinkState) : (s.setLink i x).reports = s.reports := rfl
@[simp] theorem setLink_cal (s : State) (i : Link) (x : LinkState) : (s.setLink i x).cal = s.cal := rfl
@[simp] theorem setLink_ports (s : State) (i : Link) (x : LinkState) : (s.setLink i x).ports = s.ports := rfl
@[simp] theorem setLink_sync (s : State) (i : Link) (x : LinkState) : (s.setLink i x).sync = s.sync := rfl
@[simp] theorem setLink_planner (s : State) (i : Link) (x : LinkState) : (s.setLink i x).planner = s.planner := rfl
@[simp] theorem setLink_handoff (s : State) (i : Link) (x : LinkState) : (s.setLink i x).handoff = s.handoff := rfl
@[simp] theorem setLink_view (s : State) (i : Link) (x : LinkState) : (s.setLink i x).view = s.view := rfl
@[simp] theorem setLink_pool (s : State) (i : Link) (x : LinkState) : (s.setLink i x).pool = s.pool := rfl
@[simp] theorem setLink_streams (s : State) (i : Link) (x : LinkState) : (s.setLink i x).streams = s.streams := rfl
@[simp] theorem setLink_triggers (s : State) (i : Link) (x : LinkState) : (s.setLink i x).triggers = s.triggers := rfl
@[simp] theorem setLink_notices (s : State) (i : Link) (x : LinkState) : (s.setLink i x).notices = s.notices := rfl
@[simp] theorem setLink_selected (s : State) (i : Link) (x : LinkState) : (s.setLink i x).selected = s.selected := rfl

@[simp] theorem setBank_pending (s : State) (i : Bank) (x : BankRecord) : (s.setBank i x).pending = s.pending := rfl
@[simp] theorem setBank_free (s : State) (i : Bank) (x : BankRecord) : (s.setBank i x).free = s.free := rfl
@[simp] theorem setBank_resetLow (s : State) (i : Bank) (x : BankRecord) : (s.setBank i x).resetLow = s.resetLow := rfl
@[simp] theorem setBank_initialising (s : State) (i : Bank) (x : BankRecord) : (s.setBank i x).initialising = s.initialising := rfl
@[simp] theorem setBank_timebase (s : State) (i : Bank) (x : BankRecord) : (s.setBank i x).timebase = s.timebase := rfl
@[simp] theorem setBank_params (s : State) (i : Bank) (x : BankRecord) : (s.setBank i x).params = s.params := rfl
@[simp] theorem setBank_sources (s : State) (i : Bank) (x : BankRecord) : (s.setBank i x).sources = s.sources := rfl
@[simp] theorem setBank_reports (s : State) (i : Bank) (x : BankRecord) : (s.setBank i x).reports = s.reports := rfl
@[simp] theorem setBank_cal (s : State) (i : Bank) (x : BankRecord) : (s.setBank i x).cal = s.cal := rfl
@[simp] theorem setBank_ports (s : State) (i : Bank) (x : BankRecord) : (s.setBank i x).ports = s.ports := rfl
@[simp] theorem setBank_sync (s : State) (i : Bank) (x : BankRecord) : (s.setBank i x).sync = s.sync := rfl
@[simp] theorem setBank_planner (s : State) (i : Bank) (x : BankRecord) : (s.setBank i x).planner = s.planner := rfl
@[simp] theorem setBank_handoff (s : State) (i : Bank) (x : BankRecord) : (s.setBank i x).handoff = s.handoff := rfl
@[simp] theorem setBank_view (s : State) (i : Bank) (x : BankRecord) : (s.setBank i x).view = s.view := rfl
@[simp] theorem setBank_streams (s : State) (i : Bank) (x : BankRecord) : (s.setBank i x).streams = s.streams := rfl
@[simp] theorem setBank_triggers (s : State) (i : Bank) (x : BankRecord) : (s.setBank i x).triggers = s.triggers := rfl
@[simp] theorem setBank_notices (s : State) (i : Bank) (x : BankRecord) : (s.setBank i x).notices = s.notices := rfl
@[simp] theorem setBank_links (s : State) (i : Bank) (x : BankRecord) : (s.setBank i x).links = s.links := rfl
@[simp] theorem setBank_selected (s : State) (i : Bank) (x : BankRecord) : (s.setBank i x).selected = s.selected := rfl

@[simp] theorem mapBuffers_pending (s : State) (f : BufferId → Buffer → Buffer) : (s.mapBuffers f).pending = s.pending := rfl
@[simp] theorem mapBuffers_free (s : State) (f : BufferId → Buffer → Buffer) : (s.mapBuffers f).free = s.free := rfl
@[simp] theorem mapBuffers_resetLow (s : State) (f : BufferId → Buffer → Buffer) : (s.mapBuffers f).resetLow = s.resetLow := rfl
@[simp] theorem mapBuffers_initialising (s : State) (f : BufferId → Buffer → Buffer) : (s.mapBuffers f).initialising = s.initialising := rfl
@[simp] theorem mapBuffers_timebase (s : State) (f : BufferId → Buffer → Buffer) : (s.mapBuffers f).timebase = s.timebase := rfl
@[simp] theorem mapBuffers_params (s : State) (f : BufferId → Buffer → Buffer) : (s.mapBuffers f).params = s.params := rfl
@[simp] theorem mapBuffers_sources (s : State) (f : BufferId → Buffer → Buffer) : (s.mapBuffers f).sources = s.sources := rfl
@[simp] theorem mapBuffers_reports (s : State) (f : BufferId → Buffer → Buffer) : (s.mapBuffers f).reports = s.reports := rfl
@[simp] theorem mapBuffers_cal (s : State) (f : BufferId → Buffer → Buffer) : (s.mapBuffers f).cal = s.cal := rfl
@[simp] theorem mapBuffers_ports (s : State) (f : BufferId → Buffer → Buffer) : (s.mapBuffers f).ports = s.ports := rfl
@[simp] theorem mapBuffers_sync (s : State) (f : BufferId → Buffer → Buffer) : (s.mapBuffers f).sync = s.sync := rfl
@[simp] theorem mapBuffers_planner (s : State) (f : BufferId → Buffer → Buffer) : (s.mapBuffers f).planner = s.planner := rfl
@[simp] theorem mapBuffers_handoff (s : State) (f : BufferId → Buffer → Buffer) : (s.mapBuffers f).handoff = s.handoff := rfl
@[simp] theorem mapBuffers_view (s : State) (f : BufferId → Buffer → Buffer) : (s.mapBuffers f).view = s.view := rfl
@[simp] theorem mapBuffers_streams (s : State) (f : BufferId → Buffer → Buffer) : (s.mapBuffers f).streams = s.streams := rfl
@[simp] theorem mapBuffers_triggers (s : State) (f : BufferId → Buffer → Buffer) : (s.mapBuffers f).triggers = s.triggers := rfl
@[simp] theorem mapBuffers_notices (s : State) (f : BufferId → Buffer → Buffer) : (s.mapBuffers f).notices = s.notices := rfl
@[simp] theorem mapBuffers_links (s : State) (f : BufferId → Buffer → Buffer) : (s.mapBuffers f).links = s.links := rfl
@[simp] theorem mapBuffers_selected (s : State) (f : BufferId → Buffer → Buffer) : (s.mapBuffers f).selected = s.selected := rfl

@[simp] theorem modBuffer_pending (s : State) (i : BufferId) (f : Buffer → Buffer) : (s.modBuffer i f).pending = s.pending := rfl
@[simp] theorem modBuffer_free (s : State) (i : BufferId) (f : Buffer → Buffer) : (s.modBuffer i f).free = s.free := rfl
@[simp] theorem modBuffer_resetLow (s : State) (i : BufferId) (f : Buffer → Buffer) : (s.modBuffer i f).resetLow = s.resetLow := rfl
@[simp] theorem modBuffer_initialising (s : State) (i : BufferId) (f : Buffer → Buffer) : (s.modBuffer i f).initialising = s.initialising := rfl
@[simp] theorem modBuffer_timebase (s : State) (i : BufferId) (f : Buffer → Buffer) : (s.modBuffer i f).timebase = s.timebase := rfl
@[simp] theorem modBuffer_params (s : State) (i : BufferId) (f : Buffer → Buffer) : (s.modBuffer i f).params = s.params := rfl
@[simp] theorem modBuffer_sources (s : State) (i : BufferId) (f : Buffer → Buffer) : (s.modBuffer i f).sources = s.sources := rfl
@[simp] theorem modBuffer_reports (s : State) (i : BufferId) (f : Buffer → Buffer) : (s.modBuffer i f).reports = s.reports := rfl
@[simp] theorem modBuffer_cal (s : State) (i : BufferId) (f : Buffer → Buffer) : (s.modBuffer i f).cal = s.cal := rfl
@[simp] theorem modBuffer_ports (s : State) (i : BufferId) (f : Buffer → Buffer) : (s.modBuffer i f).ports = s.ports := rfl
@[simp] theorem modBuffer_sync (s : State) (i : BufferId) (f : Buffer → Buffer) : (s.modBuffer i f).sync = s.sync := rfl
@[simp] theorem modBuffer_planner (s : State) (i : BufferId) (f : Buffer → Buffer) : (s.modBuffer i f).planner = s.planner := rfl
@[simp] theorem modBuffer_handoff (s : State) (i : BufferId) (f : Buffer → Buffer) : (s.modBuffer i f).handoff = s.handoff := rfl
@[simp] theorem modBuffer_view (s : State) (i : BufferId) (f : Buffer → Buffer) : (s.modBuffer i f).view = s.view := rfl
@[simp] theorem modBuffer_streams (s : State) (i : BufferId) (f : Buffer → Buffer) : (s.modBuffer i f).streams = s.streams := rfl
@[simp] theorem modBuffer_triggers (s : State) (i : BufferId) (f : Buffer → Buffer) : (s.modBuffer i f).triggers = s.triggers := rfl
@[simp] theorem modBuffer_notices (s : State) (i : BufferId) (f : Buffer → Buffer) : (s.modBuffer i f).notices = s.notices := rfl
@[simp] theorem modBuffer_links (s : State) (i : BufferId) (f : Buffer → Buffer) : (s.modBuffer i f).links = s.links := rfl
@[simp] theorem modBuffer_selected (s : State) (i : BufferId) (f : Buffer → Buffer) : (s.modBuffer i f).selected = s.selected := rfl

@[simp] theorem setClaimQueue_pending (s : State) (x : List Source) : (s.setClaimQueue x).pending = s.pending := rfl
@[simp] theorem setClaimQueue_free (s : State) (x : List Source) : (s.setClaimQueue x).free = s.free := rfl
@[simp] theorem setClaimQueue_resetLow (s : State) (x : List Source) : (s.setClaimQueue x).resetLow = s.resetLow := rfl
@[simp] theorem setClaimQueue_initialising (s : State) (x : List Source) : (s.setClaimQueue x).initialising = s.initialising := rfl
@[simp] theorem setClaimQueue_timebase (s : State) (x : List Source) : (s.setClaimQueue x).timebase = s.timebase := rfl
@[simp] theorem setClaimQueue_params (s : State) (x : List Source) : (s.setClaimQueue x).params = s.params := rfl
@[simp] theorem setClaimQueue_sources (s : State) (x : List Source) : (s.setClaimQueue x).sources = s.sources := rfl
@[simp] theorem setClaimQueue_reports (s : State) (x : List Source) : (s.setClaimQueue x).reports = s.reports := rfl
@[simp] theorem setClaimQueue_cal (s : State) (x : List Source) : (s.setClaimQueue x).cal = s.cal := rfl
@[simp] theorem setClaimQueue_ports (s : State) (x : List Source) : (s.setClaimQueue x).ports = s.ports := rfl
@[simp] theorem setClaimQueue_sync (s : State) (x : List Source) : (s.setClaimQueue x).sync = s.sync := rfl
@[simp] theorem setClaimQueue_planner (s : State) (x : List Source) : (s.setClaimQueue x).planner = s.planner := rfl
@[simp] theorem setClaimQueue_handoff (s : State) (x : List Source) : (s.setClaimQueue x).handoff = s.handoff := rfl
@[simp] theorem setClaimQueue_view (s : State) (x : List Source) : (s.setClaimQueue x).view = s.view := rfl
@[simp] theorem setClaimQueue_streams (s : State) (x : List Source) : (s.setClaimQueue x).streams = s.streams := rfl
@[simp] theorem setClaimQueue_triggers (s : State) (x : List Source) : (s.setClaimQueue x).triggers = s.triggers := rfl
@[simp] theorem setClaimQueue_notices (s : State) (x : List Source) : (s.setClaimQueue x).notices = s.notices := rfl
@[simp] theorem setClaimQueue_links (s : State) (x : List Source) : (s.setClaimQueue x).links = s.links := rfl
@[simp] theorem setClaimQueue_selected (s : State) (x : List Source) : (s.setClaimQueue x).selected = s.selected := rfl

@[simp] theorem setPlanner_pending (s : State) (x : Planner) : (s.setPlanner x).pending = s.pending := rfl
@[simp] theorem setPlanner_free (s : State) (x : Planner) : (s.setPlanner x).free = s.free := rfl
@[simp] theorem setPlanner_resetLow (s : State) (x : Planner) : (s.setPlanner x).resetLow = s.resetLow := rfl
@[simp] theorem setPlanner_initialising (s : State) (x : Planner) : (s.setPlanner x).initialising = s.initialising := rfl
@[simp] theorem setPlanner_timebase (s : State) (x : Planner) : (s.setPlanner x).timebase = s.timebase := rfl
@[simp] theorem setPlanner_params (s : State) (x : Planner) : (s.setPlanner x).params = s.params := rfl
@[simp] theorem setPlanner_sources (s : State) (x : Planner) : (s.setPlanner x).sources = s.sources := rfl
@[simp] theorem setPlanner_reports (s : State) (x : Planner) : (s.setPlanner x).reports = s.reports := rfl
@[simp] theorem setPlanner_cal (s : State) (x : Planner) : (s.setPlanner x).cal = s.cal := rfl
@[simp] theorem setPlanner_ports (s : State) (x : Planner) : (s.setPlanner x).ports = s.ports := rfl
@[simp] theorem setPlanner_sync (s : State) (x : Planner) : (s.setPlanner x).sync = s.sync := rfl
@[simp] theorem setPlanner_handoff (s : State) (x : Planner) : (s.setPlanner x).handoff = s.handoff := rfl
@[simp] theorem setPlanner_view (s : State) (x : Planner) : (s.setPlanner x).view = s.view := rfl
@[simp] theorem setPlanner_pool (s : State) (x : Planner) : (s.setPlanner x).pool = s.pool := rfl
@[simp] theorem setPlanner_streams (s : State) (x : Planner) : (s.setPlanner x).streams = s.streams := rfl
@[simp] theorem setPlanner_triggers (s : State) (x : Planner) : (s.setPlanner x).triggers = s.triggers := rfl
@[simp] theorem setPlanner_notices (s : State) (x : Planner) : (s.setPlanner x).notices = s.notices := rfl
@[simp] theorem setPlanner_links (s : State) (x : Planner) : (s.setPlanner x).links = s.links := rfl
@[simp] theorem setPlanner_selected (s : State) (x : Planner) : (s.setPlanner x).selected = s.selected := rfl

@[simp] theorem setHandoff_pending (s : State) (x : Handoff) : (s.setHandoff x).pending = s.pending := rfl
@[simp] theorem setHandoff_free (s : State) (x : Handoff) : (s.setHandoff x).free = s.free := rfl
@[simp] theorem setHandoff_resetLow (s : State) (x : Handoff) : (s.setHandoff x).resetLow = s.resetLow := rfl
@[simp] theorem setHandoff_initialising (s : State) (x : Handoff) : (s.setHandoff x).initialising = s.initialising := rfl
@[simp] theorem setHandoff_timebase (s : State) (x : Handoff) : (s.setHandoff x).timebase = s.timebase := rfl
@[simp] theorem setHandoff_params (s : State) (x : Handoff) : (s.setHandoff x).params = s.params := rfl
@[simp] theorem setHandoff_sources (s : State) (x : Handoff) : (s.setHandoff x).sources = s.sources := rfl
@[simp] theorem setHandoff_reports (s : State) (x : Handoff) : (s.setHandoff x).reports = s.reports := rfl
@[simp] theorem setHandoff_cal (s : State) (x : Handoff) : (s.setHandoff x).cal = s.cal := rfl
@[simp] theorem setHandoff_ports (s : State) (x : Handoff) : (s.setHandoff x).ports = s.ports := rfl
@[simp] theorem setHandoff_sync (s : State) (x : Handoff) : (s.setHandoff x).sync = s.sync := rfl
@[simp] theorem setHandoff_planner (s : State) (x : Handoff) : (s.setHandoff x).planner = s.planner := rfl
@[simp] theorem setHandoff_view (s : State) (x : Handoff) : (s.setHandoff x).view = s.view := rfl
@[simp] theorem setHandoff_pool (s : State) (x : Handoff) : (s.setHandoff x).pool = s.pool := rfl
@[simp] theorem setHandoff_streams (s : State) (x : Handoff) : (s.setHandoff x).streams = s.streams := rfl
@[simp] theorem setHandoff_triggers (s : State) (x : Handoff) : (s.setHandoff x).triggers = s.triggers := rfl
@[simp] theorem setHandoff_notices (s : State) (x : Handoff) : (s.setHandoff x).notices = s.notices := rfl
@[simp] theorem setHandoff_links (s : State) (x : Handoff) : (s.setHandoff x).links = s.links := rfl
@[simp] theorem setHandoff_selected (s : State) (x : Handoff) : (s.setHandoff x).selected = s.selected := rfl

@[simp] theorem setView_pending (s : State) (x : ViewStepper) : (s.setView x).pending = s.pending := rfl
@[simp] theorem setView_free (s : State) (x : ViewStepper) : (s.setView x).free = s.free := rfl
@[simp] theorem setView_resetLow (s : State) (x : ViewStepper) : (s.setView x).resetLow = s.resetLow := rfl
@[simp] theorem setView_initialising (s : State) (x : ViewStepper) : (s.setView x).initialising = s.initialising := rfl
@[simp] theorem setView_timebase (s : State) (x : ViewStepper) : (s.setView x).timebase = s.timebase := rfl
@[simp] theorem setView_params (s : State) (x : ViewStepper) : (s.setView x).params = s.params := rfl
@[simp] theorem setView_sources (s : State) (x : ViewStepper) : (s.setView x).sources = s.sources := rfl
@[simp] theorem setView_reports (s : State) (x : ViewStepper) : (s.setView x).reports = s.reports := rfl
@[simp] theorem setView_cal (s : State) (x : ViewStepper) : (s.setView x).cal = s.cal := rfl
@[simp] theorem setView_ports (s : State) (x : ViewStepper) : (s.setView x).ports = s.ports := rfl
@[simp] theorem setView_sync (s : State) (x : ViewStepper) : (s.setView x).sync = s.sync := rfl
@[simp] theorem setView_planner (s : State) (x : ViewStepper) : (s.setView x).planner = s.planner := rfl
@[simp] theorem setView_handoff (s : State) (x : ViewStepper) : (s.setView x).handoff = s.handoff := rfl
@[simp] theorem setView_pool (s : State) (x : ViewStepper) : (s.setView x).pool = s.pool := rfl
@[simp] theorem setView_streams (s : State) (x : ViewStepper) : (s.setView x).streams = s.streams := rfl
@[simp] theorem setView_triggers (s : State) (x : ViewStepper) : (s.setView x).triggers = s.triggers := rfl
@[simp] theorem setView_notices (s : State) (x : ViewStepper) : (s.setView x).notices = s.notices := rfl
@[simp] theorem setView_links (s : State) (x : ViewStepper) : (s.setView x).links = s.links := rfl
@[simp] theorem setView_selected (s : State) (x : ViewStepper) : (s.setView x).selected = s.selected := rfl

/-! ## Reads after updates of another home -/

@[simp] theorem setSrc_report (s : State) (i : Source) (x : SourceRecord) (j : Source) : (s.setSrc i x).report j = s.report j := rfl
@[simp] theorem setSrc_calTable (s : State) (i : Source) (x : SourceRecord) (j : Source) : (s.setSrc i x).calTable j = s.calTable j := rfl
@[simp] theorem setSrc_port (s : State) (i : Source) (x : SourceRecord) (j : Source) : (s.setSrc i x).port j = s.port j := rfl
@[simp] theorem setSrc_syncLine (s : State) (i : Source) (x : SourceRecord) (j : Source) : (s.setSrc i x).syncLine j = s.syncLine j := rfl
@[simp] theorem setSrc_stream (s : State) (i : Source) (x : SourceRecord) (j : StreamId) : (s.setSrc i x).stream j = s.stream j := rfl
@[simp] theorem setSrc_trigger (s : State) (i : Source) (x : SourceRecord) (j : TriggerLine) : (s.setSrc i x).trigger j = s.trigger j := rfl
@[simp] theorem setSrc_notice (s : State) (i : Source) (x : SourceRecord) (j : Link) : (s.setSrc i x).notice j = s.notice j := rfl
@[simp] theorem setSrc_link (s : State) (i : Source) (x : SourceRecord) (j : Link) : (s.setSrc i x).link j = s.link j := rfl
@[simp] theorem setSrc_bank (s : State) (i : Source) (x : SourceRecord) (j : Bank) : (s.setSrc i x).bank j = s.bank j := rfl
@[simp] theorem setSrc_buffer (s : State) (i : Source) (x : SourceRecord) (j : BufferId) : (s.setSrc i x).buffer j = s.buffer j := rfl

@[simp] theorem modSrc_report (s : State) (i : Source) (f : SourceRecord → SourceRecord) (j : Source) : (s.modSrc i f).report j = s.report j := rfl
@[simp] theorem modSrc_calTable (s : State) (i : Source) (f : SourceRecord → SourceRecord) (j : Source) : (s.modSrc i f).calTable j = s.calTable j := rfl
@[simp] theorem modSrc_port (s : State) (i : Source) (f : SourceRecord → SourceRecord) (j : Source) : (s.modSrc i f).port j = s.port j := rfl
@[simp] theorem modSrc_syncLine (s : State) (i : Source) (f : SourceRecord → SourceRecord) (j : Source) : (s.modSrc i f).syncLine j = s.syncLine j := rfl
@[simp] theorem modSrc_stream (s : State) (i : Source) (f : SourceRecord → SourceRecord) (j : StreamId) : (s.modSrc i f).stream j = s.stream j := rfl
@[simp] theorem modSrc_trigger (s : State) (i : Source) (f : SourceRecord → SourceRecord) (j : TriggerLine) : (s.modSrc i f).trigger j = s.trigger j := rfl
@[simp] theorem modSrc_notice (s : State) (i : Source) (f : SourceRecord → SourceRecord) (j : Link) : (s.modSrc i f).notice j = s.notice j := rfl
@[simp] theorem modSrc_link (s : State) (i : Source) (f : SourceRecord → SourceRecord) (j : Link) : (s.modSrc i f).link j = s.link j := rfl
@[simp] theorem modSrc_bank (s : State) (i : Source) (f : SourceRecord → SourceRecord) (j : Bank) : (s.modSrc i f).bank j = s.bank j := rfl
@[simp] theorem modSrc_buffer (s : State) (i : Source) (f : SourceRecord → SourceRecord) (j : BufferId) : (s.modSrc i f).buffer j = s.buffer j := rfl

@[simp] theorem setReport_src (s : State) (i : Source) (x : ReportUnit) (j : Source) : (s.setReport i x).src j = s.src j := rfl
@[simp] theorem setReport_enr (s : State) (i : Source) (x : ReportUnit) (j : Source) : (s.setReport i x).enr j = s.enr j := rfl
@[simp] theorem setReport_calTable (s : State) (i : Source) (x : ReportUnit) (j : Source) : (s.setReport i x).calTable j = s.calTable j := rfl
@[simp] theorem setReport_port (s : State) (i : Source) (x : ReportUnit) (j : Source) : (s.setReport i x).port j = s.port j := rfl
@[simp] theorem setReport_syncLine (s : State) (i : Source) (x : ReportUnit) (j : Source) : (s.setReport i x).syncLine j = s.syncLine j := rfl
@[simp] theorem setReport_stream (s : State) (i : Source) (x : ReportUnit) (j : StreamId) : (s.setReport i x).stream j = s.stream j := rfl
@[simp] theorem setReport_trigger (s : State) (i : Source) (x : ReportUnit) (j : TriggerLine) : (s.setReport i x).trigger j = s.trigger j := rfl
@[simp] theorem setReport_notice (s : State) (i : Source) (x : ReportUnit) (j : Link) : (s.setReport i x).notice j = s.notice j := rfl
@[simp] theorem setReport_link (s : State) (i : Source) (x : ReportUnit) (j : Link) : (s.setReport i x).link j = s.link j := rfl
@[simp] theorem setReport_bank (s : State) (i : Source) (x : ReportUnit) (j : Bank) : (s.setReport i x).bank j = s.bank j := rfl
@[simp] theorem setReport_buffer (s : State) (i : Source) (x : ReportUnit) (j : BufferId) : (s.setReport i x).buffer j = s.buffer j := rfl

@[simp] theorem setCal_src (s : State) (i : Source) (x : List CalPoint) (j : Source) : (s.setCal i x).src j = s.src j := rfl
@[simp] theorem setCal_enr (s : State) (i : Source) (x : List CalPoint) (j : Source) : (s.setCal i x).enr j = s.enr j := rfl
@[simp] theorem setCal_report (s : State) (i : Source) (x : List CalPoint) (j : Source) : (s.setCal i x).report j = s.report j := rfl
@[simp] theorem setCal_port (s : State) (i : Source) (x : List CalPoint) (j : Source) : (s.setCal i x).port j = s.port j := rfl
@[simp] theorem setCal_syncLine (s : State) (i : Source) (x : List CalPoint) (j : Source) : (s.setCal i x).syncLine j = s.syncLine j := rfl
@[simp] theorem setCal_stream (s : State) (i : Source) (x : List CalPoint) (j : StreamId) : (s.setCal i x).stream j = s.stream j := rfl
@[simp] theorem setCal_trigger (s : State) (i : Source) (x : List CalPoint) (j : TriggerLine) : (s.setCal i x).trigger j = s.trigger j := rfl
@[simp] theorem setCal_notice (s : State) (i : Source) (x : List CalPoint) (j : Link) : (s.setCal i x).notice j = s.notice j := rfl
@[simp] theorem setCal_link (s : State) (i : Source) (x : List CalPoint) (j : Link) : (s.setCal i x).link j = s.link j := rfl
@[simp] theorem setCal_bank (s : State) (i : Source) (x : List CalPoint) (j : Bank) : (s.setCal i x).bank j = s.bank j := rfl
@[simp] theorem setCal_buffer (s : State) (i : Source) (x : List CalPoint) (j : BufferId) : (s.setCal i x).buffer j = s.buffer j := rfl

@[simp] theorem setPort_src (s : State) (i : Source) (x : Port) (j : Source) : (s.setPort i x).src j = s.src j := rfl
@[simp] theorem setPort_enr (s : State) (i : Source) (x : Port) (j : Source) : (s.setPort i x).enr j = s.enr j := rfl
@[simp] theorem setPort_report (s : State) (i : Source) (x : Port) (j : Source) : (s.setPort i x).report j = s.report j := rfl
@[simp] theorem setPort_calTable (s : State) (i : Source) (x : Port) (j : Source) : (s.setPort i x).calTable j = s.calTable j := rfl
@[simp] theorem setPort_syncLine (s : State) (i : Source) (x : Port) (j : Source) : (s.setPort i x).syncLine j = s.syncLine j := rfl
@[simp] theorem setPort_stream (s : State) (i : Source) (x : Port) (j : StreamId) : (s.setPort i x).stream j = s.stream j := rfl
@[simp] theorem setPort_trigger (s : State) (i : Source) (x : Port) (j : TriggerLine) : (s.setPort i x).trigger j = s.trigger j := rfl
@[simp] theorem setPort_notice (s : State) (i : Source) (x : Port) (j : Link) : (s.setPort i x).notice j = s.notice j := rfl
@[simp] theorem setPort_link (s : State) (i : Source) (x : Port) (j : Link) : (s.setPort i x).link j = s.link j := rfl
@[simp] theorem setPort_bank (s : State) (i : Source) (x : Port) (j : Bank) : (s.setPort i x).bank j = s.bank j := rfl
@[simp] theorem setPort_buffer (s : State) (i : Source) (x : Port) (j : BufferId) : (s.setPort i x).buffer j = s.buffer j := rfl

@[simp] theorem setSync_src (s : State) (i : Source) (x : SyncLine) (j : Source) : (s.setSync i x).src j = s.src j := rfl
@[simp] theorem setSync_enr (s : State) (i : Source) (x : SyncLine) (j : Source) : (s.setSync i x).enr j = s.enr j := rfl
@[simp] theorem setSync_report (s : State) (i : Source) (x : SyncLine) (j : Source) : (s.setSync i x).report j = s.report j := rfl
@[simp] theorem setSync_calTable (s : State) (i : Source) (x : SyncLine) (j : Source) : (s.setSync i x).calTable j = s.calTable j := rfl
@[simp] theorem setSync_port (s : State) (i : Source) (x : SyncLine) (j : Source) : (s.setSync i x).port j = s.port j := rfl
@[simp] theorem setSync_stream (s : State) (i : Source) (x : SyncLine) (j : StreamId) : (s.setSync i x).stream j = s.stream j := rfl
@[simp] theorem setSync_trigger (s : State) (i : Source) (x : SyncLine) (j : TriggerLine) : (s.setSync i x).trigger j = s.trigger j := rfl
@[simp] theorem setSync_notice (s : State) (i : Source) (x : SyncLine) (j : Link) : (s.setSync i x).notice j = s.notice j := rfl
@[simp] theorem setSync_link (s : State) (i : Source) (x : SyncLine) (j : Link) : (s.setSync i x).link j = s.link j := rfl
@[simp] theorem setSync_bank (s : State) (i : Source) (x : SyncLine) (j : Bank) : (s.setSync i x).bank j = s.bank j := rfl
@[simp] theorem setSync_buffer (s : State) (i : Source) (x : SyncLine) (j : BufferId) : (s.setSync i x).buffer j = s.buffer j := rfl

@[simp] theorem setStream_src (s : State) (i : StreamId) (x : Stream) (j : Source) : (s.setStream i x).src j = s.src j := rfl
@[simp] theorem setStream_enr (s : State) (i : StreamId) (x : Stream) (j : Source) : (s.setStream i x).enr j = s.enr j := rfl
@[simp] theorem setStream_report (s : State) (i : StreamId) (x : Stream) (j : Source) : (s.setStream i x).report j = s.report j := rfl
@[simp] theorem setStream_calTable (s : State) (i : StreamId) (x : Stream) (j : Source) : (s.setStream i x).calTable j = s.calTable j := rfl
@[simp] theorem setStream_port (s : State) (i : StreamId) (x : Stream) (j : Source) : (s.setStream i x).port j = s.port j := rfl
@[simp] theorem setStream_syncLine (s : State) (i : StreamId) (x : Stream) (j : Source) : (s.setStream i x).syncLine j = s.syncLine j := rfl
@[simp] theorem setStream_trigger (s : State) (i : StreamId) (x : Stream) (j : TriggerLine) : (s.setStream i x).trigger j = s.trigger j := rfl
@[simp] theorem setStream_notice (s : State) (i : StreamId) (x : Stream) (j : Link) : (s.setStream i x).notice j = s.notice j := rfl
@[simp] theorem setStream_link (s : State) (i : StreamId) (x : Stream) (j : Link) : (s.setStream i x).link j = s.link j := rfl
@[simp] theorem setStream_bank (s : State) (i : StreamId) (x : Stream) (j : Bank) : (s.setStream i x).bank j = s.bank j := rfl
@[simp] theorem setStream_buffer (s : State) (i : StreamId) (x : Stream) (j : BufferId) : (s.setStream i x).buffer j = s.buffer j := rfl

@[simp] theorem modStream_src (s : State) (i : StreamId) (f : Stream → Stream) (j : Source) : (s.modStream i f).src j = s.src j := rfl
@[simp] theorem modStream_enr (s : State) (i : StreamId) (f : Stream → Stream) (j : Source) : (s.modStream i f).enr j = s.enr j := rfl
@[simp] theorem modStream_report (s : State) (i : StreamId) (f : Stream → Stream) (j : Source) : (s.modStream i f).report j = s.report j := rfl
@[simp] theorem modStream_calTable (s : State) (i : StreamId) (f : Stream → Stream) (j : Source) : (s.modStream i f).calTable j = s.calTable j := rfl
@[simp] theorem modStream_port (s : State) (i : StreamId) (f : Stream → Stream) (j : Source) : (s.modStream i f).port j = s.port j := rfl
@[simp] theorem modStream_syncLine (s : State) (i : StreamId) (f : Stream → Stream) (j : Source) : (s.modStream i f).syncLine j = s.syncLine j := rfl
@[simp] theorem modStream_trigger (s : State) (i : StreamId) (f : Stream → Stream) (j : TriggerLine) : (s.modStream i f).trigger j = s.trigger j := rfl
@[simp] theorem modStream_notice (s : State) (i : StreamId) (f : Stream → Stream) (j : Link) : (s.modStream i f).notice j = s.notice j := rfl
@[simp] theorem modStream_link (s : State) (i : StreamId) (f : Stream → Stream) (j : Link) : (s.modStream i f).link j = s.link j := rfl
@[simp] theorem modStream_bank (s : State) (i : StreamId) (f : Stream → Stream) (j : Bank) : (s.modStream i f).bank j = s.bank j := rfl
@[simp] theorem modStream_buffer (s : State) (i : StreamId) (f : Stream → Stream) (j : BufferId) : (s.modStream i f).buffer j = s.buffer j := rfl

@[simp] theorem setTrigger_src (s : State) (i : TriggerLine) (x : TriggerInput) (j : Source) : (s.setTrigger i x).src j = s.src j := rfl
@[simp] theorem setTrigger_enr (s : State) (i : TriggerLine) (x : TriggerInput) (j : Source) : (s.setTrigger i x).enr j = s.enr j := rfl
@[simp] theorem setTrigger_report (s : State) (i : TriggerLine) (x : TriggerInput) (j : Source) : (s.setTrigger i x).report j = s.report j := rfl
@[simp] theorem setTrigger_calTable (s : State) (i : TriggerLine) (x : TriggerInput) (j : Source) : (s.setTrigger i x).calTable j = s.calTable j := rfl
@[simp] theorem setTrigger_port (s : State) (i : TriggerLine) (x : TriggerInput) (j : Source) : (s.setTrigger i x).port j = s.port j := rfl
@[simp] theorem setTrigger_syncLine (s : State) (i : TriggerLine) (x : TriggerInput) (j : Source) : (s.setTrigger i x).syncLine j = s.syncLine j := rfl
@[simp] theorem setTrigger_stream (s : State) (i : TriggerLine) (x : TriggerInput) (j : StreamId) : (s.setTrigger i x).stream j = s.stream j := rfl
@[simp] theorem setTrigger_notice (s : State) (i : TriggerLine) (x : TriggerInput) (j : Link) : (s.setTrigger i x).notice j = s.notice j := rfl
@[simp] theorem setTrigger_link (s : State) (i : TriggerLine) (x : TriggerInput) (j : Link) : (s.setTrigger i x).link j = s.link j := rfl
@[simp] theorem setTrigger_bank (s : State) (i : TriggerLine) (x : TriggerInput) (j : Bank) : (s.setTrigger i x).bank j = s.bank j := rfl
@[simp] theorem setTrigger_buffer (s : State) (i : TriggerLine) (x : TriggerInput) (j : BufferId) : (s.setTrigger i x).buffer j = s.buffer j := rfl

@[simp] theorem setNotice_src (s : State) (i : Link) (x : Notices) (j : Source) : (s.setNotice i x).src j = s.src j := rfl
@[simp] theorem setNotice_enr (s : State) (i : Link) (x : Notices) (j : Source) : (s.setNotice i x).enr j = s.enr j := rfl
@[simp] theorem setNotice_report (s : State) (i : Link) (x : Notices) (j : Source) : (s.setNotice i x).report j = s.report j := rfl
@[simp] theorem setNotice_calTable (s : State) (i : Link) (x : Notices) (j : Source) : (s.setNotice i x).calTable j = s.calTable j := rfl
@[simp] theorem setNotice_port (s : State) (i : Link) (x : Notices) (j : Source) : (s.setNotice i x).port j = s.port j := rfl
@[simp] theorem setNotice_syncLine (s : State) (i : Link) (x : Notices) (j : Source) : (s.setNotice i x).syncLine j = s.syncLine j := rfl
@[simp] theorem setNotice_stream (s : State) (i : Link) (x : Notices) (j : StreamId) : (s.setNotice i x).stream j = s.stream j := rfl
@[simp] theorem setNotice_trigger (s : State) (i : Link) (x : Notices) (j : TriggerLine) : (s.setNotice i x).trigger j = s.trigger j := rfl
@[simp] theorem setNotice_link (s : State) (i : Link) (x : Notices) (j : Link) : (s.setNotice i x).link j = s.link j := rfl
@[simp] theorem setNotice_bank (s : State) (i : Link) (x : Notices) (j : Bank) : (s.setNotice i x).bank j = s.bank j := rfl
@[simp] theorem setNotice_buffer (s : State) (i : Link) (x : Notices) (j : BufferId) : (s.setNotice i x).buffer j = s.buffer j := rfl

@[simp] theorem setLink_src (s : State) (i : Link) (x : LinkState) (j : Source) : (s.setLink i x).src j = s.src j := rfl
@[simp] theorem setLink_enr (s : State) (i : Link) (x : LinkState) (j : Source) : (s.setLink i x).enr j = s.enr j := rfl
@[simp] theorem setLink_report (s : State) (i : Link) (x : LinkState) (j : Source) : (s.setLink i x).report j = s.report j := rfl
@[simp] theorem setLink_calTable (s : State) (i : Link) (x : LinkState) (j : Source) : (s.setLink i x).calTable j = s.calTable j := rfl
@[simp] theorem setLink_port (s : State) (i : Link) (x : LinkState) (j : Source) : (s.setLink i x).port j = s.port j := rfl
@[simp] theorem setLink_syncLine (s : State) (i : Link) (x : LinkState) (j : Source) : (s.setLink i x).syncLine j = s.syncLine j := rfl
@[simp] theorem setLink_stream (s : State) (i : Link) (x : LinkState) (j : StreamId) : (s.setLink i x).stream j = s.stream j := rfl
@[simp] theorem setLink_trigger (s : State) (i : Link) (x : LinkState) (j : TriggerLine) : (s.setLink i x).trigger j = s.trigger j := rfl
@[simp] theorem setLink_notice (s : State) (i : Link) (x : LinkState) (j : Link) : (s.setLink i x).notice j = s.notice j := rfl
@[simp] theorem setLink_bank (s : State) (i : Link) (x : LinkState) (j : Bank) : (s.setLink i x).bank j = s.bank j := rfl
@[simp] theorem setLink_buffer (s : State) (i : Link) (x : LinkState) (j : BufferId) : (s.setLink i x).buffer j = s.buffer j := rfl

@[simp] theorem setBank_src (s : State) (i : Bank) (x : BankRecord) (j : Source) : (s.setBank i x).src j = s.src j := rfl
@[simp] theorem setBank_enr (s : State) (i : Bank) (x : BankRecord) (j : Source) : (s.setBank i x).enr j = s.enr j := rfl
@[simp] theorem setBank_report (s : State) (i : Bank) (x : BankRecord) (j : Source) : (s.setBank i x).report j = s.report j := rfl
@[simp] theorem setBank_calTable (s : State) (i : Bank) (x : BankRecord) (j : Source) : (s.setBank i x).calTable j = s.calTable j := rfl
@[simp] theorem setBank_port (s : State) (i : Bank) (x : BankRecord) (j : Source) : (s.setBank i x).port j = s.port j := rfl
@[simp] theorem setBank_syncLine (s : State) (i : Bank) (x : BankRecord) (j : Source) : (s.setBank i x).syncLine j = s.syncLine j := rfl
@[simp] theorem setBank_stream (s : State) (i : Bank) (x : BankRecord) (j : StreamId) : (s.setBank i x).stream j = s.stream j := rfl
@[simp] theorem setBank_trigger (s : State) (i : Bank) (x : BankRecord) (j : TriggerLine) : (s.setBank i x).trigger j = s.trigger j := rfl
@[simp] theorem setBank_notice (s : State) (i : Bank) (x : BankRecord) (j : Link) : (s.setBank i x).notice j = s.notice j := rfl
@[simp] theorem setBank_link (s : State) (i : Bank) (x : BankRecord) (j : Link) : (s.setBank i x).link j = s.link j := rfl
@[simp] theorem setBank_buffer (s : State) (i : Bank) (x : BankRecord) (j : BufferId) : (s.setBank i x).buffer j = s.buffer j := rfl

@[simp] theorem mapBuffers_src (s : State) (f : BufferId → Buffer → Buffer) (j : Source) : (s.mapBuffers f).src j = s.src j := rfl
@[simp] theorem mapBuffers_enr (s : State) (f : BufferId → Buffer → Buffer) (j : Source) : (s.mapBuffers f).enr j = s.enr j := rfl
@[simp] theorem mapBuffers_report (s : State) (f : BufferId → Buffer → Buffer) (j : Source) : (s.mapBuffers f).report j = s.report j := rfl
@[simp] theorem mapBuffers_calTable (s : State) (f : BufferId → Buffer → Buffer) (j : Source) : (s.mapBuffers f).calTable j = s.calTable j := rfl
@[simp] theorem mapBuffers_port (s : State) (f : BufferId → Buffer → Buffer) (j : Source) : (s.mapBuffers f).port j = s.port j := rfl
@[simp] theorem mapBuffers_syncLine (s : State) (f : BufferId → Buffer → Buffer) (j : Source) : (s.mapBuffers f).syncLine j = s.syncLine j := rfl
@[simp] theorem mapBuffers_stream (s : State) (f : BufferId → Buffer → Buffer) (j : StreamId) : (s.mapBuffers f).stream j = s.stream j := rfl
@[simp] theorem mapBuffers_trigger (s : State) (f : BufferId → Buffer → Buffer) (j : TriggerLine) : (s.mapBuffers f).trigger j = s.trigger j := rfl
@[simp] theorem mapBuffers_notice (s : State) (f : BufferId → Buffer → Buffer) (j : Link) : (s.mapBuffers f).notice j = s.notice j := rfl
@[simp] theorem mapBuffers_link (s : State) (f : BufferId → Buffer → Buffer) (j : Link) : (s.mapBuffers f).link j = s.link j := rfl
@[simp] theorem mapBuffers_bank (s : State) (f : BufferId → Buffer → Buffer) (j : Bank) : (s.mapBuffers f).bank j = s.bank j := rfl

@[simp] theorem modBuffer_src (s : State) (i : BufferId) (f : Buffer → Buffer) (j : Source) : (s.modBuffer i f).src j = s.src j := rfl
@[simp] theorem modBuffer_enr (s : State) (i : BufferId) (f : Buffer → Buffer) (j : Source) : (s.modBuffer i f).enr j = s.enr j := rfl
@[simp] theorem modBuffer_report (s : State) (i : BufferId) (f : Buffer → Buffer) (j : Source) : (s.modBuffer i f).report j = s.report j := rfl
@[simp] theorem modBuffer_calTable (s : State) (i : BufferId) (f : Buffer → Buffer) (j : Source) : (s.modBuffer i f).calTable j = s.calTable j := rfl
@[simp] theorem modBuffer_port (s : State) (i : BufferId) (f : Buffer → Buffer) (j : Source) : (s.modBuffer i f).port j = s.port j := rfl
@[simp] theorem modBuffer_syncLine (s : State) (i : BufferId) (f : Buffer → Buffer) (j : Source) : (s.modBuffer i f).syncLine j = s.syncLine j := rfl
@[simp] theorem modBuffer_stream (s : State) (i : BufferId) (f : Buffer → Buffer) (j : StreamId) : (s.modBuffer i f).stream j = s.stream j := rfl
@[simp] theorem modBuffer_trigger (s : State) (i : BufferId) (f : Buffer → Buffer) (j : TriggerLine) : (s.modBuffer i f).trigger j = s.trigger j := rfl
@[simp] theorem modBuffer_notice (s : State) (i : BufferId) (f : Buffer → Buffer) (j : Link) : (s.modBuffer i f).notice j = s.notice j := rfl
@[simp] theorem modBuffer_link (s : State) (i : BufferId) (f : Buffer → Buffer) (j : Link) : (s.modBuffer i f).link j = s.link j := rfl
@[simp] theorem modBuffer_bank (s : State) (i : BufferId) (f : Buffer → Buffer) (j : Bank) : (s.modBuffer i f).bank j = s.bank j := rfl

@[simp] theorem setClaimQueue_src (s : State) (x : List Source) (j : Source) : (s.setClaimQueue x).src j = s.src j := rfl
@[simp] theorem setClaimQueue_enr (s : State) (x : List Source) (j : Source) : (s.setClaimQueue x).enr j = s.enr j := rfl
@[simp] theorem setClaimQueue_report (s : State) (x : List Source) (j : Source) : (s.setClaimQueue x).report j = s.report j := rfl
@[simp] theorem setClaimQueue_calTable (s : State) (x : List Source) (j : Source) : (s.setClaimQueue x).calTable j = s.calTable j := rfl
@[simp] theorem setClaimQueue_port (s : State) (x : List Source) (j : Source) : (s.setClaimQueue x).port j = s.port j := rfl
@[simp] theorem setClaimQueue_syncLine (s : State) (x : List Source) (j : Source) : (s.setClaimQueue x).syncLine j = s.syncLine j := rfl
@[simp] theorem setClaimQueue_stream (s : State) (x : List Source) (j : StreamId) : (s.setClaimQueue x).stream j = s.stream j := rfl
@[simp] theorem setClaimQueue_trigger (s : State) (x : List Source) (j : TriggerLine) : (s.setClaimQueue x).trigger j = s.trigger j := rfl
@[simp] theorem setClaimQueue_notice (s : State) (x : List Source) (j : Link) : (s.setClaimQueue x).notice j = s.notice j := rfl
@[simp] theorem setClaimQueue_link (s : State) (x : List Source) (j : Link) : (s.setClaimQueue x).link j = s.link j := rfl
@[simp] theorem setClaimQueue_bank (s : State) (x : List Source) (j : Bank) : (s.setClaimQueue x).bank j = s.bank j := rfl
@[simp] theorem setClaimQueue_buffer (s : State) (x : List Source) (j : BufferId) : (s.setClaimQueue x).buffer j = s.buffer j := rfl

@[simp] theorem setPlanner_src (s : State) (x : Planner) (j : Source) : (s.setPlanner x).src j = s.src j := rfl
@[simp] theorem setPlanner_enr (s : State) (x : Planner) (j : Source) : (s.setPlanner x).enr j = s.enr j := rfl
@[simp] theorem setPlanner_report (s : State) (x : Planner) (j : Source) : (s.setPlanner x).report j = s.report j := rfl
@[simp] theorem setPlanner_calTable (s : State) (x : Planner) (j : Source) : (s.setPlanner x).calTable j = s.calTable j := rfl
@[simp] theorem setPlanner_port (s : State) (x : Planner) (j : Source) : (s.setPlanner x).port j = s.port j := rfl
@[simp] theorem setPlanner_syncLine (s : State) (x : Planner) (j : Source) : (s.setPlanner x).syncLine j = s.syncLine j := rfl
@[simp] theorem setPlanner_stream (s : State) (x : Planner) (j : StreamId) : (s.setPlanner x).stream j = s.stream j := rfl
@[simp] theorem setPlanner_trigger (s : State) (x : Planner) (j : TriggerLine) : (s.setPlanner x).trigger j = s.trigger j := rfl
@[simp] theorem setPlanner_notice (s : State) (x : Planner) (j : Link) : (s.setPlanner x).notice j = s.notice j := rfl
@[simp] theorem setPlanner_link (s : State) (x : Planner) (j : Link) : (s.setPlanner x).link j = s.link j := rfl
@[simp] theorem setPlanner_bank (s : State) (x : Planner) (j : Bank) : (s.setPlanner x).bank j = s.bank j := rfl
@[simp] theorem setPlanner_buffer (s : State) (x : Planner) (j : BufferId) : (s.setPlanner x).buffer j = s.buffer j := rfl

@[simp] theorem setHandoff_src (s : State) (x : Handoff) (j : Source) : (s.setHandoff x).src j = s.src j := rfl
@[simp] theorem setHandoff_enr (s : State) (x : Handoff) (j : Source) : (s.setHandoff x).enr j = s.enr j := rfl
@[simp] theorem setHandoff_report (s : State) (x : Handoff) (j : Source) : (s.setHandoff x).report j = s.report j := rfl
@[simp] theorem setHandoff_calTable (s : State) (x : Handoff) (j : Source) : (s.setHandoff x).calTable j = s.calTable j := rfl
@[simp] theorem setHandoff_port (s : State) (x : Handoff) (j : Source) : (s.setHandoff x).port j = s.port j := rfl
@[simp] theorem setHandoff_syncLine (s : State) (x : Handoff) (j : Source) : (s.setHandoff x).syncLine j = s.syncLine j := rfl
@[simp] theorem setHandoff_stream (s : State) (x : Handoff) (j : StreamId) : (s.setHandoff x).stream j = s.stream j := rfl
@[simp] theorem setHandoff_trigger (s : State) (x : Handoff) (j : TriggerLine) : (s.setHandoff x).trigger j = s.trigger j := rfl
@[simp] theorem setHandoff_notice (s : State) (x : Handoff) (j : Link) : (s.setHandoff x).notice j = s.notice j := rfl
@[simp] theorem setHandoff_link (s : State) (x : Handoff) (j : Link) : (s.setHandoff x).link j = s.link j := rfl
@[simp] theorem setHandoff_bank (s : State) (x : Handoff) (j : Bank) : (s.setHandoff x).bank j = s.bank j := rfl
@[simp] theorem setHandoff_buffer (s : State) (x : Handoff) (j : BufferId) : (s.setHandoff x).buffer j = s.buffer j := rfl

@[simp] theorem setView_src (s : State) (x : ViewStepper) (j : Source) : (s.setView x).src j = s.src j := rfl
@[simp] theorem setView_enr (s : State) (x : ViewStepper) (j : Source) : (s.setView x).enr j = s.enr j := rfl
@[simp] theorem setView_report (s : State) (x : ViewStepper) (j : Source) : (s.setView x).report j = s.report j := rfl
@[simp] theorem setView_calTable (s : State) (x : ViewStepper) (j : Source) : (s.setView x).calTable j = s.calTable j := rfl
@[simp] theorem setView_port (s : State) (x : ViewStepper) (j : Source) : (s.setView x).port j = s.port j := rfl
@[simp] theorem setView_syncLine (s : State) (x : ViewStepper) (j : Source) : (s.setView x).syncLine j = s.syncLine j := rfl
@[simp] theorem setView_stream (s : State) (x : ViewStepper) (j : StreamId) : (s.setView x).stream j = s.stream j := rfl
@[simp] theorem setView_trigger (s : State) (x : ViewStepper) (j : TriggerLine) : (s.setView x).trigger j = s.trigger j := rfl
@[simp] theorem setView_notice (s : State) (x : ViewStepper) (j : Link) : (s.setView x).notice j = s.notice j := rfl
@[simp] theorem setView_link (s : State) (x : ViewStepper) (j : Link) : (s.setView x).link j = s.link j := rfl
@[simp] theorem setView_bank (s : State) (x : ViewStepper) (j : Bank) : (s.setView x).bank j = s.bank j := rfl
@[simp] theorem setView_buffer (s : State) (x : ViewStepper) (j : BufferId) : (s.setView x).buffer j = s.buffer j := rfl

/-! ## Reads after updates of their own home -/

@[simp] theorem setSrc_src (s : State) (i : Source) (x : SourceRecord) (j : Source) :
    (s.setSrc i x).src j = if j = i then x else s.src j := by
  simp [setSrc, src]

@[simp] theorem setReport_report (s : State) (i : Source) (x : ReportUnit) (j : Source) :
    (s.setReport i x).report j = if j = i then x else s.report j := by
  simp [setReport, report]

@[simp] theorem setCal_calTable (s : State) (i : Source) (x : List CalPoint) (j : Source) :
    (s.setCal i x).calTable j = if j = i then x else s.calTable j := by
  simp [setCal, calTable]

@[simp] theorem setPort_port (s : State) (i : Source) (x : Port) (j : Source) :
    (s.setPort i x).port j = if j = i then x else s.port j := by
  simp [setPort, port]

@[simp] theorem setSync_syncLine (s : State) (i : Source) (x : SyncLine) (j : Source) :
    (s.setSync i x).syncLine j = if j = i then x else s.syncLine j := by
  simp [setSync, syncLine]

@[simp] theorem setStream_stream (s : State) (i : StreamId) (x : Stream) (j : StreamId) :
    (s.setStream i x).stream j = if j = i then x else s.stream j := by
  simp [setStream, stream]

@[simp] theorem setTrigger_trigger (s : State) (i : TriggerLine) (x : TriggerInput) (j : TriggerLine) :
    (s.setTrigger i x).trigger j = if j = i then x else s.trigger j := by
  simp [setTrigger, trigger]

@[simp] theorem setNotice_notice (s : State) (i : Link) (x : Notices) (j : Link) :
    (s.setNotice i x).notice j = if j = i then x else s.notice j := by
  simp [setNotice, notice]

@[simp] theorem setLink_link (s : State) (i : Link) (x : LinkState) (j : Link) :
    (s.setLink i x).link j = if j = i then x else s.link j := by
  simp [setLink, link]

@[simp] theorem setBank_bank (s : State) (i : Bank) (x : BankRecord) (j : Bank) :
    (s.setBank i x).bank j = if j = i then x else s.bank j := by
  simp [setBank, bank]

@[simp] theorem modSrc_src (s : State) (i : Source) (f : SourceRecord → SourceRecord) (j : Source) :
    (s.modSrc i f).src j = if j = i then f (s.src i) else s.src j := by
  simp [modSrc]

@[simp] theorem modStream_stream (s : State) (i : StreamId) (f : Stream → Stream) (j : StreamId) :
    (s.modStream i f).stream j = if j = i then f (s.stream i) else s.stream j := by
  simp [modStream]

@[simp] theorem mapBuffers_buffer (s : State) (f : BufferId → Buffer → Buffer) (b : BufferId) :
    (s.mapBuffers f).buffer b = f b (s.buffer b) := by
  simp [mapBuffers, buffer]

@[simp] theorem modBuffer_buffer (s : State) (b : BufferId) (f : Buffer → Buffer) (j : BufferId) :
    (s.modBuffer b f).buffer j = if j = b then f (s.buffer j) else s.buffer j := by
  simp [modBuffer]

@[simp] theorem setClaimQueue_claimQueue (s : State) (q : List Source) : (s.setClaimQueue q).pool.claimQueue = q := rfl

@[simp] theorem setBank_claimQueue (s : State) (k : Bank) (x : BankRecord) :
    (s.setBank k x).pool.claimQueue = s.pool.claimQueue := rfl

@[simp] theorem mapBuffers_claimQueue (s : State) (f : BufferId → Buffer → Buffer) :
    (s.mapBuffers f).pool.claimQueue = s.pool.claimQueue := rfl

@[simp] theorem modBuffer_claimQueue (s : State) (b : BufferId) (f : Buffer → Buffer) :
    (s.modBuffer b f).pool.claimQueue = s.pool.claimQueue := rfl

@[simp] theorem setPlanner_planner (s : State) (p : Planner) : (s.setPlanner p).planner = p := rfl

@[simp] theorem setHandoff_handoff (s : State) (h : Handoff) : (s.setHandoff h).handoff = h := rfl

@[simp] theorem setView_view (s : State) (v : ViewStepper) : (s.setView v).view = v := rfl

end State

/-! ## Deadlines -/

/-- A deadline that runs and is reached expires. -/
theorem expired_of_reached {now d : Time} (h : reached now d = true) : expired now (some d) = some d := by
  simp [expired, Option.filter, h]

/-- A deadline that does not run or is not reached does not expire. -/
theorem expired_of_not_reached {now : Time} {o : Option Time} (h : ∀ d, o = some d → reached now d = false) :
    expired now o = none := by
  cases o with
  | none => rfl
  | some d => simp [expired, Option.filter, h d rfl]

end Sys2Proof.Machine
end

