-- ==== Sys2Proof/Laws/Notices.lean ====
section
/-! SUPPORT. Raising a notice: it joins the pending sets of its links and changes nothing else (R171). -/

namespace Sys2Proof.Machine

open Sys2Proof

@[simp] theorem PerGroup.get_set {α : Type} (v : PerGroup α) (x : α) (g h : Group) :
    (v.set x g).get h = if h = g then x else v.get h := by
  cases g <;> cases h <;> simp [PerGroup.get, PerGroup.set]

@[simp] theorem raiseOn_pending (l : Link) (k : Notice) (s : State) : (raiseOn l k s).pending = s.pending := rfl
@[simp] theorem raiseOn_free (l : Link) (k : Notice) (s : State) : (raiseOn l k s).free = s.free := rfl
@[simp] theorem raiseOn_resetLow (l : Link) (k : Notice) (s : State) : (raiseOn l k s).resetLow = s.resetLow := rfl
@[simp] theorem raiseOn_initialising (l : Link) (k : Notice) (s : State) : (raiseOn l k s).initialising = s.initialising := rfl
@[simp] theorem raiseOn_timebase (l : Link) (k : Notice) (s : State) : (raiseOn l k s).timebase = s.timebase := rfl
@[simp] theorem raiseOn_params (l : Link) (k : Notice) (s : State) : (raiseOn l k s).params = s.params := rfl
@[simp] theorem raiseOn_sources (l : Link) (k : Notice) (s : State) : (raiseOn l k s).sources = s.sources := rfl
@[simp] theorem raiseOn_reports (l : Link) (k : Notice) (s : State) : (raiseOn l k s).reports = s.reports := rfl
@[simp] theorem raiseOn_cal (l : Link) (k : Notice) (s : State) : (raiseOn l k s).cal = s.cal := rfl
@[simp] theorem raiseOn_ports (l : Link) (k : Notice) (s : State) : (raiseOn l k s).ports = s.ports := rfl
@[simp] theorem raiseOn_sync (l : Link) (k : Notice) (s : State) : (raiseOn l k s).sync = s.sync := rfl
@[simp] theorem raiseOn_planner (l : Link) (k : Notice) (s : State) : (raiseOn l k s).planner = s.planner := rfl
@[simp] theorem raiseOn_handoff (l : Link) (k : Notice) (s : State) : (raiseOn l k s).handoff = s.handoff := rfl
@[simp] theorem raiseOn_view (l : Link) (k : Notice) (s : State) : (raiseOn l k s).view = s.view := rfl
@[simp] theorem raiseOn_pool (l : Link) (k : Notice) (s : State) : (raiseOn l k s).pool = s.pool := rfl
@[simp] theorem raiseOn_streams (l : Link) (k : Notice) (s : State) : (raiseOn l k s).streams = s.streams := rfl
@[simp] theorem raiseOn_triggers (l : Link) (k : Notice) (s : State) : (raiseOn l k s).triggers = s.triggers := rfl
@[simp] theorem raiseOn_links (l : Link) (k : Notice) (s : State) : (raiseOn l k s).links = s.links := rfl
@[simp] theorem raiseOn_selected (l : Link) (k : Notice) (s : State) : (raiseOn l k s).selected = s.selected := rfl
@[simp] theorem raiseOn_src (l : Link) (k : Notice) (s : State) (j : Source) : (raiseOn l k s).src j = s.src j := rfl
@[simp] theorem raiseOn_enr (l : Link) (k : Notice) (s : State) (j : Source) : (raiseOn l k s).enr j = s.enr j := rfl
@[simp] theorem raiseOn_report (l : Link) (k : Notice) (s : State) (j : Source) : (raiseOn l k s).report j = s.report j := rfl
@[simp] theorem raiseOn_calTable (l : Link) (k : Notice) (s : State) (j : Source) : (raiseOn l k s).calTable j = s.calTable j := rfl
@[simp] theorem raiseOn_port (l : Link) (k : Notice) (s : State) (j : Source) : (raiseOn l k s).port j = s.port j := rfl
@[simp] theorem raiseOn_syncLine (l : Link) (k : Notice) (s : State) (j : Source) : (raiseOn l k s).syncLine j = s.syncLine j := rfl
@[simp] theorem raiseOn_stream (l : Link) (k : Notice) (s : State) (j : StreamId) : (raiseOn l k s).stream j = s.stream j := rfl
@[simp] theorem raiseOn_trigger (l : Link) (k : Notice) (s : State) (j : TriggerLine) : (raiseOn l k s).trigger j = s.trigger j := rfl
@[simp] theorem raiseOn_link (l : Link) (k : Notice) (s : State) (j : Link) : (raiseOn l k s).link j = s.link j := rfl
@[simp] theorem raiseOn_bank (l : Link) (k : Notice) (s : State) (j : Bank) : (raiseOn l k s).bank j = s.bank j := rfl
@[simp] theorem raiseOn_buffer (l : Link) (k : Notice) (s : State) (j : BufferId) : (raiseOn l k s).buffer j = s.buffer j := rfl

@[simp] theorem raise_pending (k : Notice) (s : State) : (raise k s).pending = s.pending := rfl
@[simp] theorem raise_free (k : Notice) (s : State) : (raise k s).free = s.free := rfl
@[simp] theorem raise_resetLow (k : Notice) (s : State) : (raise k s).resetLow = s.resetLow := rfl
@[simp] theorem raise_initialising (k : Notice) (s : State) : (raise k s).initialising = s.initialising := rfl
@[simp] theorem raise_timebase (k : Notice) (s : State) : (raise k s).timebase = s.timebase := rfl
@[simp] theorem raise_params (k : Notice) (s : State) : (raise k s).params = s.params := rfl
@[simp] theorem raise_sources (k : Notice) (s : State) : (raise k s).sources = s.sources := rfl
@[simp] theorem raise_reports (k : Notice) (s : State) : (raise k s).reports = s.reports := rfl
@[simp] theorem raise_cal (k : Notice) (s : State) : (raise k s).cal = s.cal := rfl
@[simp] theorem raise_ports (k : Notice) (s : State) : (raise k s).ports = s.ports := rfl
@[simp] theorem raise_sync (k : Notice) (s : State) : (raise k s).sync = s.sync := rfl
@[simp] theorem raise_planner (k : Notice) (s : State) : (raise k s).planner = s.planner := rfl
@[simp] theorem raise_handoff (k : Notice) (s : State) : (raise k s).handoff = s.handoff := rfl
@[simp] theorem raise_view (k : Notice) (s : State) : (raise k s).view = s.view := rfl
@[simp] theorem raise_pool (k : Notice) (s : State) : (raise k s).pool = s.pool := rfl
@[simp] theorem raise_streams (k : Notice) (s : State) : (raise k s).streams = s.streams := rfl
@[simp] theorem raise_triggers (k : Notice) (s : State) : (raise k s).triggers = s.triggers := rfl
@[simp] theorem raise_links (k : Notice) (s : State) : (raise k s).links = s.links := rfl
@[simp] theorem raise_selected (k : Notice) (s : State) : (raise k s).selected = s.selected := rfl
@[simp] theorem raise_src (k : Notice) (s : State) (j : Source) : (raise k s).src j = s.src j := rfl
@[simp] theorem raise_enr (k : Notice) (s : State) (j : Source) : (raise k s).enr j = s.enr j := rfl
@[simp] theorem raise_report (k : Notice) (s : State) (j : Source) : (raise k s).report j = s.report j := rfl
@[simp] theorem raise_calTable (k : Notice) (s : State) (j : Source) : (raise k s).calTable j = s.calTable j := rfl
@[simp] theorem raise_port (k : Notice) (s : State) (j : Source) : (raise k s).port j = s.port j := rfl
@[simp] theorem raise_syncLine (k : Notice) (s : State) (j : Source) : (raise k s).syncLine j = s.syncLine j := rfl
@[simp] theorem raise_stream (k : Notice) (s : State) (j : StreamId) : (raise k s).stream j = s.stream j := rfl
@[simp] theorem raise_trigger (k : Notice) (s : State) (j : TriggerLine) : (raise k s).trigger j = s.trigger j := rfl
@[simp] theorem raise_link (k : Notice) (s : State) (j : Link) : (raise k s).link j = s.link j := rfl
@[simp] theorem raise_bank (k : Notice) (s : State) (j : Bank) : (raise k s).bank j = s.bank j := rfl
@[simp] theorem raise_buffer (k : Notice) (s : State) (j : BufferId) : (raise k s).buffer j = s.buffer j := rfl

@[simp] theorem raiseSrc_pending (i : Source) (k : SourceNotice) (s : State) : (raiseSrc i k s).pending = s.pending := rfl
@[simp] theorem raiseSrc_free (i : Source) (k : SourceNotice) (s : State) : (raiseSrc i k s).free = s.free := rfl
@[simp] theorem raiseSrc_resetLow (i : Source) (k : SourceNotice) (s : State) : (raiseSrc i k s).resetLow = s.resetLow := rfl
@[simp] theorem raiseSrc_initialising (i : Source) (k : SourceNotice) (s : State) : (raiseSrc i k s).initialising = s.initialising := rfl
@[simp] theorem raiseSrc_timebase (i : Source) (k : SourceNotice) (s : State) : (raiseSrc i k s).timebase = s.timebase := rfl
@[simp] theorem raiseSrc_params (i : Source) (k : SourceNotice) (s : State) : (raiseSrc i k s).params = s.params := rfl
@[simp] theorem raiseSrc_sources (i : Source) (k : SourceNotice) (s : State) : (raiseSrc i k s).sources = s.sources := rfl
@[simp] theorem raiseSrc_reports (i : Source) (k : SourceNotice) (s : State) : (raiseSrc i k s).reports = s.reports := rfl
@[simp] theorem raiseSrc_cal (i : Source) (k : SourceNotice) (s : State) : (raiseSrc i k s).cal = s.cal := rfl
@[simp] theorem raiseSrc_ports (i : Source) (k : SourceNotice) (s : State) : (raiseSrc i k s).ports = s.ports := rfl
@[simp] theorem raiseSrc_sync (i : Source) (k : SourceNotice) (s : State) : (raiseSrc i k s).sync = s.sync := rfl
@[simp] theorem raiseSrc_planner (i : Source) (k : SourceNotice) (s : State) : (raiseSrc i k s).planner = s.planner := rfl
@[simp] theorem raiseSrc_handoff (i : Source) (k : SourceNotice) (s : State) : (raiseSrc i k s).handoff = s.handoff := rfl
@[simp] theorem raiseSrc_view (i : Source) (k : SourceNotice) (s : State) : (raiseSrc i k s).view = s.view := rfl
@[simp] theorem raiseSrc_pool (i : Source) (k : SourceNotice) (s : State) : (raiseSrc i k s).pool = s.pool := rfl
@[simp] theorem raiseSrc_streams (i : Source) (k : SourceNotice) (s : State) : (raiseSrc i k s).streams = s.streams := rfl
@[simp] theorem raiseSrc_triggers (i : Source) (k : SourceNotice) (s : State) : (raiseSrc i k s).triggers = s.triggers := rfl
@[simp] theorem raiseSrc_links (i : Source) (k : SourceNotice) (s : State) : (raiseSrc i k s).links = s.links := rfl
@[simp] theorem raiseSrc_selected (i : Source) (k : SourceNotice) (s : State) : (raiseSrc i k s).selected = s.selected := rfl
@[simp] theorem raiseSrc_src (i : Source) (k : SourceNotice) (s : State) (j : Source) : (raiseSrc i k s).src j = s.src j := rfl
@[simp] theorem raiseSrc_enr (i : Source) (k : SourceNotice) (s : State) (j : Source) : (raiseSrc i k s).enr j = s.enr j := rfl
@[simp] theorem raiseSrc_report (i : Source) (k : SourceNotice) (s : State) (j : Source) : (raiseSrc i k s).report j = s.report j := rfl
@[simp] theorem raiseSrc_calTable (i : Source) (k : SourceNotice) (s : State) (j : Source) : (raiseSrc i k s).calTable j = s.calTable j := rfl
@[simp] theorem raiseSrc_port (i : Source) (k : SourceNotice) (s : State) (j : Source) : (raiseSrc i k s).port j = s.port j := rfl
@[simp] theorem raiseSrc_syncLine (i : Source) (k : SourceNotice) (s : State) (j : Source) : (raiseSrc i k s).syncLine j = s.syncLine j := rfl
@[simp] theorem raiseSrc_stream (i : Source) (k : SourceNotice) (s : State) (j : StreamId) : (raiseSrc i k s).stream j = s.stream j := rfl
@[simp] theorem raiseSrc_trigger (i : Source) (k : SourceNotice) (s : State) (j : TriggerLine) : (raiseSrc i k s).trigger j = s.trigger j := rfl
@[simp] theorem raiseSrc_link (i : Source) (k : SourceNotice) (s : State) (j : Link) : (raiseSrc i k s).link j = s.link j := rfl
@[simp] theorem raiseSrc_bank (i : Source) (k : SourceNotice) (s : State) (j : Bank) : (raiseSrc i k s).bank j = s.bank j := rfl
@[simp] theorem raiseSrc_buffer (i : Source) (k : SourceNotice) (s : State) (j : BufferId) : (raiseSrc i k s).buffer j = s.buffer j := rfl

/-- Raised on one link: that link's pending set gains the kind. -/
@[simp] theorem raiseOn_notice (l : Link) (k : Notice) (s : State) (m : Link) :
    (raiseOn l k s).notice m = if m = l then (s.notice l).raise k else s.notice m := by
  simp [raiseOn]

/-- Raised on both links: every link's pending set gains the kind. -/
@[simp] theorem raise_notice (k : Notice) (s : State) (m : Link) : (raise k s).notice m = (s.notice m).raise k := by
  cases m <;> simp [raise]

@[simp] theorem raiseSrc_notice (i : Source) (k : SourceNotice) (s : State) (m : Link) :
    (raiseSrc i k s).notice m = (s.notice m).raise (.source i k) := by
  simp [raiseSrc]

@[simp] theorem Notices.raise_kinds (n : Notices) (k : Notice) : (n.raise k).kinds = n.kinds := rfl

@[simp] theorem Notices.raise_groups (n : Notices) (k : Notice) : (n.raise k).groups = n.groups := rfl

/-- A kind raised is pending. -/
@[simp] theorem Notices.isPending_raise (n : Notices) (k : Notice) : (n.raise k).isPending k = true := by
  have h : ∀ (x m : Byte), m ≠ 0 → (x ||| m) &&& m ≠ 0 := by
    intro x m hm h
    apply hm
    have : (x ||| m) &&& m = m := by
      ext i; simp; intro h1; exact Or.inr h1
    rw [this] at h; exact h
  have hm : k.mask ≠ 0 := by
    cases k with
    | source s k => cases s <;> cases k <;> decide
    | handoff k => cases k <;> decide
    | output k => cases k <;> decide
    | part k => cases k <;> decide
  have := h (n.pending.get k.group) _ hm
  simpa [Notices.isPending, Notices.raise] using this

/-- Two kinds of one group have different bits. -/
theorem Notice.mask_disjoint {k k' : Notice} (h : k ≠ k') (hg : k.group = k'.group) : k.mask &&& k'.mask = 0 := by
  have hs : ∀ x y : SourceNotice, x ≠ y → x.mask &&& y.mask = 0 := by intro x y; cases x <;> cases y <;> decide
  have hh : ∀ x y : HandoffNotice, x ≠ y → x.mask &&& y.mask = 0 := by intro x y; cases x <;> cases y <;> decide
  have ho : ∀ x y : OutputNotice, x ≠ y → x.mask &&& y.mask = 0 := by intro x y; cases x <;> cases y <;> decide
  have hp : ∀ x y : PartNotice, x ≠ y → x.mask &&& y.mask = 0 := by intro x y; cases x <;> cases y <;> decide
  cases k <;> cases k' <;> simp [Notice.group] at hg
  · subst hg; exact hs _ _ fun e => h (by rw [e])
  · exact hh _ _ fun e => h (by rw [e])
  · exact ho _ _ fun e => h (by rw [e])
  · exact hp _ _ fun e => h (by rw [e])

/-- Raising a kind leaves whether another is pending. -/
theorem Notices.isPending_raise_ne {n : Notices} {k k' : Notice} (h : k ≠ k') :
    (n.raise k).isPending k' = n.isPending k' := by
  simp only [Notices.isPending, Notices.raise, PerGroup.get_set]
  split
  · next e =>
    have hz : (n.pending.get k.group ||| k.mask) &&& k'.mask = n.pending.get k.group &&& k'.mask := by
      have hd := Notice.mask_disjoint h e.symm
      ext i hi
      have := congrArg (fun v : Byte => v[i]) hd
      simp at this ⊢
      cases hk : k.mask[i]
      · simp
      · simp [this hk]
    rw [hz, e]
  · rfl

end Sys2Proof.Machine
end

