-- ==== Sys2Proof/Laws/Closed.lean ====
section
/-! SUPPORT. What the blocks below the view step can do, said once: a property of states that survives the primitive changes
these operations are made of survives each of the operations. Cited with a property that looks at the rest of the part, it
says that an operation leaves that rest as it was. -/

namespace Sys2Proof.Machine

open Sys2Proof

/-- A property that survives the primitive changes of the Buffer Pool: the chains and claims in the source records, the pool
itself, and raised notices. -/
structure PoolClosed (P : State → Prop) : Prop where
  sources : ∀ {s : State} (v : PerSource SourceRecord),
    (∀ i, (v.get i).lastCompleted = none ∨ (v.get i).lastCompleted = (s.src i).lastCompleted) →
      P s → P { s with sources := v }
  raised : ∀ {s : State} (l : Link) (k : Notice), P s → P (raiseOn l k s)
  pool : ∀ {s : State} (p : Pool), P s → P { s with pool := p }

/-- A property that also survives the primitive changes of the Source Table, the Sync Generator, the Lock Monitor and the
Hand-off Controller. -/
structure Closed (P : State → Prop) : Prop extends PoolClosed P where
  flush : ∀ {s : State} (i : Source), P s → P (s.setReport i ⟨[], none⟩)
  port : ∀ {s : State} (i : Source) (p : Port), P s → P (s.setPort i p)
  sync : ∀ {s : State} (v : PerSource SyncLine),
    (∀ i, (v.get i).followList = [] ∨ (v.get i).followList = (s.syncLine i).followList) → P s → P { s with sync := v }
  handoff : ∀ {s : State} (h : Handoff), P s → P (s.setHandoff h)
  timer : ∀ {s : State} (t : Option Time), P s → P (s.setView { s.view with timer := t })
  free : ∀ {s : State} (n : Nat), P s → P { s with free := n }

namespace PoolClosed

variable {P : State → Prop} (c : PoolClosed P) {s : State}
include c

/-! ## Primitive writes -/

theorem modSrc (i : Source) (f : SourceRecord → SourceRecord) (h : P s)
    (hf : ∀ r : SourceRecord, (f r).lastCompleted = none ∨ (f r).lastCompleted = r.lastCompleted := by
      intro r; first | exact Or.inr rfl | exact Or.inl rfl) : P (s.modSrc i f) := by
  refine c.sources _ (fun j => ?_) h
  rw [PerSource.get_set]
  split
  · next e => subst e; exact hf _
  · exact Or.inr rfl

theorem setBank (k : Bank) (x : BankRecord) (h : P s) : P (s.setBank k x) := c.pool _ h

theorem mapBuffers (f : BufferId → Buffer → Buffer) (h : P s) : P (s.mapBuffers f) := c.pool _ h

theorem modBuffer (b : BufferId) (f : Buffer → Buffer) (h : P s) : P (s.modBuffer b f) := c.pool _ h

theorem setClaimQueue (q : List Source) (h : P s) : P (s.setClaimQueue q) := c.pool _ h

theorem raise (k : Notice) (h : P s) : P (raise k s) := c.raised _ _ (c.raised _ _ h)

theorem raiseSrc (i : Source) (k : SourceNotice) (h : P s) : P (raiseSrc i k s) := c.raise _ h

omit c in
/-- A loop over a list keeps what each of its turns keeps. -/
theorem loop {α : Type} (f : State → α → State) (hf : ∀ s a, P s → P (f s a)) (l : List α) (h : P s) :
    P (l.foldl f s) := by
  induction l generalizing s with
  | nil => exact h
  | cons a l ih => exact ih (hf _ _ h)

/-! ## The Buffer Pool -/

theorem considerDormancy (k : Bank) (h : P s) : P (considerDormancy k s) := by
  unfold Machine.considerDormancy
  dsimp only
  split
  · exact c.setBank _ _ h
  · exact h

theorem joinChain (i : Source) (b : BufferId) (h : P s) : P (joinChain i b s) := by
  unfold Machine.joinChain
  exact c.modSrc _ _ (c.setBank _ _ (c.modBuffer _ _ h))

theorem deliver (b : BufferId) (h : P s) : P (deliver s b) := by
  unfold Machine.deliver
  split
  · exact h
  · split
    · dsimp only
      split
      · exact c.setClaimQueue _ (c.modSrc _ _ (c.joinChain _ _ h))
      · exact c.modSrc _ _ (c.joinChain _ _ h)
    · exact h

theorem settleFreed (freed : List BufferId) (h : P s) : P (settleFreed freed s) := by
  unfold Machine.settleFreed
  refine loop _ (fun s k hs => ?_) _ (loop _ (fun s b hs => c.deliver _ hs) _ h)
  split
  · exact c.considerDormancy _ hs
  · exact hs

theorem releaseChain (i : Source) (h : P s) : P (releaseChain i s) :=
  c.settleFreed _ (c.modSrc _ _ (c.mapBuffers _ h))

theorem cancelClaim (i : Source) (h : P s) : P (cancelClaim i s) := c.modSrc _ _ (c.setClaimQueue _ h)

theorem wakeForDeficit (h : P s) : P (wakeForDeficit s) := by
  unfold Machine.wakeForDeficit
  refine loop _ (fun s k hs => ?_) _ h
  split
  · exact c.setBank _ _ hs
  · exact hs

theorem placeClaim (i : Source) (h : P s) : P (placeClaim i s) := by
  unfold Machine.placeClaim
  dsimp only
  have h1 : ∀ l : List BufferId, P (l.foldl (fun s b => Machine.joinChain i b s) s) := fun l =>
    loop _ (fun s b hs => c.joinChain _ _ hs) l h
  split
  · exact c.modSrc _ _ (h1 _)
  · exact c.wakeForDeficit (c.raise _ (c.setClaimQueue _ (c.modSrc _ _ (h1 _))))

theorem completeWake (k : Bank) (h : P s) : P (completeWake k s) := by
  unfold Machine.completeWake
  split
  · exact h
  · exact c.settleFreed _ (c.setBank _ _ h)

theorem goDormant (k : Bank) (h : P s) : P (goDormant k s) := by
  unfold Machine.goDormant
  split
  · exact h
  · exact c.setBank _ _ h

theorem addPins (names : List BufferId) (h : P s) : P (addPins names s) := c.mapBuffers _ h

theorem removePins (names : List BufferId) (h : P s) : P (removePins names s) :=
  c.settleFreed _ (c.mapBuffers _ (c.mapBuffers _ h))

end PoolClosed

namespace Closed

variable {P : State → Prop} (c : Closed P) {s : State}
include c

/-! ## The Sync Generator and the Lock Monitor -/

theorem setSync (i : Source) (l : SyncLine)
    (hl : l.followList = [] ∨ l.followList = (s.syncLine i).followList) (h : P s) : P (s.setSync i l) := by
  refine c.sync _ (fun j => ?_) h
  rw [PerSource.get_set]
  split
  · next e => subst e; exact hl
  · exact Or.inr rfl

theorem beginPulsing (i : Source) (h : P s) : P (beginPulsing i s) := by
  refine c.setSync _ _ (Or.inr ?_) h
  dsimp only
  split
  · rfl
  · simp only [SyncLine.pulseNow, SyncLine.pulse]
    split <;> rfl
  · split
    · simp only [SyncLine.pulseNow, SyncLine.pulse]
      split <;> rfl
    · rfl

theorem stopPulsing (i : Source) (h : P s) : P (stopPulsing i s) := c.setSync _ _ (Or.inl rfl) h

omit c in
/-- A change of primary empties a follow list or leaves it. -/
theorem retime_followList (l : SyncLine) (e : Enrolment) (i : Source) (new : Option Source) (now : Time) :
    (l.retime e i new now).followList = [] ∨ (l.retime e i new now).followList = l.followList := by
  unfold SyncLine.retime
  split
  · exact Or.inr rfl
  · split
    · exact Or.inl rfl
    · left
      dsimp only
      split
      · rfl
      · simp only [SyncLine.pulseNow, SyncLine.pulse]
        split <;> rfl
      · split
        · rfl
        · simp only [SyncLine.pulseNow, SyncLine.pulse]
          split <;> rfl

theorem changePrimary (new : Option Source) (h : P s) : P (changePrimary new s) := by
  have h1 := c.handoff { s.handoff with primary := new } h
  have h2 := c.sources (PerSource.tabulate fun i => (s.src i).unlock)
    (fun i => Or.inr (by rw [PerSource.get_tabulate]; rfl)) h1
  refine c.sync (s := { s.setHandoff { s.handoff with primary := new } with
    sources := PerSource.tabulate fun i => (s.src i).unlock }) (PerSource.tabulate fun i =>
      (s.syncLine i).retime (s.enr i) i new s.timebase) (fun i => ?_) h2
  rw [PerSource.get_tabulate]
  exact retime_followList _ _ _ _ _

omit c in
theorem judged_lastCompleted (r : SourceRecord) (w : Bool) : (r.judged w).lastCompleted = r.lastCompleted := by
  cases w <;> rfl

theorem judgeLock (i : Source) (start : Time) (h : P s) : P (judgeLock i start s) := by
  unfold Machine.judgeLock
  split
  · exact h
  · split
    · dsimp only
      split
      · exact c.raiseSrc _ _ (c.modSrc _ _ h fun r => Or.inr (judged_lastCompleted r _))
      · exact c.modSrc _ _ h fun r => Or.inr (judged_lastCompleted r _)
    · exact h

theorem endPulse (i : Source) (h : P s) : P (endPulse i s) := by
  unfold Machine.endPulse
  split
  · exact h
  · exact c.setSync _ _ (Or.inr rfl) h

theorem takeNextPulse (i : Source) (h : P s) : P (takeNextPulse i s) := by
  unfold Machine.takeNextPulse
  split
  · exact h
  · refine c.setSync _ _ (Or.inr ?_) h
    simp only [SyncLine.pulse]
    split <;> rfl

/-! ## The Source Table -/

theorem startLinger (i : Source) (h : P s) : P (startLinger i s) := by
  unfold Machine.startLinger
  split
  · exact c.modSrc _ _ h
  · exact h

theorem enterRequested (i : Source) (h : P s) : P (enterRequested i s) :=
  c.beginPulsing _ (c.raiseSrc _ _ (c.placeClaim _ (c.modSrc _ _ h)))

theorem enterAbsent (i : Source) (h : P s) : P (enterAbsent i s) := c.modSrc _ _ h

theorem enterOff (i : Source) (h : P s) : P (enterOff i s) := by
  unfold Machine.enterOff
  dsimp only
  split
  · exact c.enterAbsent _ (c.modSrc _ _ h)
  · split
    · exact c.enterRequested _ (c.modSrc _ _ h)
    · exact c.modSrc _ _ h

theorem writeWant (i : Source) (v : Bool) (h : P s) : P (writeWant i v s) := by
  have h1 : P (s.modSrc i fun r => { r with want := v }) := c.modSrc _ _ h
  unfold Machine.writeWant
  dsimp only
  split
  · exact h
  · split
    · exact c.enterRequested _ h1
    · exact h1
  iterate 3
    split
    · exact c.modSrc _ _ h1
    · split
      · exact c.startLinger _ h1
      · exact h1
  all_goals exact h1

theorem writeWants (m : SourceSet) (h : P s) : P (writeWants m s) :=
  PoolClosed.loop _ (fun _ i hs => c.writeWant i _ hs) _ h

theorem leaveStreaming (i : Source) (h : P s) : P (leaveStreaming i s) := by
  unfold Machine.leaveStreaming
  exact c.modSrc _ _ (c.port _ _ (c.flush _ h))

theorem moveToLive (i : Source) (h : P s) : P (moveToLive i s) := c.modSrc _ _ h

theorem moveToStandby (i : Source) (h : P s) : P (moveToStandby i s) := by
  unfold Machine.moveToStandby
  dsimp only
  split
  · exact c.modSrc _ _ h
  · exact c.startLinger _ (c.modSrc _ _ h)

/-! ## The Hand-off Controller -/

theorem setRecord (r : Option HandoffRecord) (h : P s) : P (setRecord r s) := c.handoff _ h

theorem settleAtOnce (h : P s) : P (settleAtOnce s) := by
  unfold Machine.settleAtOnce
  split
  · exact c.setRecord _ h
  · exact h

theorem enterSettle (r : HandoffRecord) (h : P s) : P (enterSettle r s) :=
  c.settleAtOnce (c.raise _ (c.setRecord _ (c.moveToStandby _ (c.changePrimary _ h))))

theorem advanceFade (r : HandoffRecord) (h : P s) : P (advanceFade r s) := by
  unfold Machine.advanceFade
  dsimp only
  split
  · exact c.setRecord _ h
  · exact c.enterSettle _ h

theorem createHandoff (p w : Source) (h : P s) : P (createHandoff p w s) := c.raise _ (c.setRecord _ h)

theorem prepareTest (r : HandoffRecord) (h : P s) : P (prepareTest r s) := by
  unfold Machine.prepareTest
  split <;> exact c.setRecord _ h

theorem cutOver (r : HandoffRecord) (h : P s) : P (cutOver r s) :=
  c.settleAtOnce (c.raise _ (c.handoff _ (c.setRecord _ (c.moveToStandby _ (c.changePrimary _ (c.moveToLive _ h))))))

theorem beginFade (r : HandoffRecord) (h : P s) : P (beginFade r s) := by
  have h1 : ∀ x, P (Machine.raise (.handoff .crossfadeBegun) (Machine.setRecord x (Machine.moveToLive r.dst s))) :=
    fun x => c.raise _ (c.setRecord _ (c.moveToLive _ h))
  unfold Machine.beginFade
  dsimp only
  split
  · exact h1 _
  · exact c.enterSettle _ (h1 _)

theorem endAlign (r : HandoffRecord) (h : P s) : P (endAlign r s) := by
  unfold Machine.endAlign
  dsimp only
  split
  · exact c.cutOver _ h
  · exact c.beginFade _ h

theorem alignStep (r : HandoffRecord) (b : Option BufferId) (h : P s) : P (alignStep r b s) := by
  unfold Machine.alignStep
  split
  · exact c.setRecord _ h
  · split
    · dsimp only
      split
      · exact c.endAlign _ h
      · exact c.setRecord _ h
    · exact c.setRecord _ h

theorem cancelHandoff (h : P s) : P (cancelHandoff s) := c.raise _ (c.setRecord _ h)

theorem beforeFade (r : HandoffRecord) (p : Source) (w : Option Source) (b : Option BufferId) (h : P s) :
    P (beforeFade r p w b s) := by
  unfold Machine.beforeFade
  split
  · split
    · split
      · exact c.prepareTest _ h
      · exact c.alignStep _ _ h
    · split
      · exact c.cancelHandoff h
      · exact c.prepareTest _ h
  · split
    · exact c.prepareTest _ h
    · exact c.alignStep _ _ h

theorem reverseHandoff (r : HandoffRecord) (h : P s) : P (reverseHandoff r s) :=
  c.raise _ (c.handoff _ (c.setRecord _ (c.changePrimary _ h)))

theorem fadeStep (r : HandoffRecord) (w : Option Source) (h : P s) : P (fadeStep r w s) := by
  unfold Machine.fadeStep
  split
  · dsimp only
    split
    · exact c.advanceFade _ (c.reverseHandoff _ h)
    · exact c.reverseHandoff _ h
  · exact c.advanceFade _ h

theorem settleStep (r : HandoffRecord) (h : P s) : P (settleStep r s) := by
  unfold Machine.settleStep
  split <;> exact c.setRecord _ h

theorem makeFirstPrimary (w : Source) (h : P s) : P (makeFirstPrimary w s) :=
  c.timer _ (c.handoff _ (c.handoff _ (c.changePrimary _ (c.moveToLive _ h))))

theorem noPrimaryStep (w : Option Source) (h : P s) : P (noPrimaryStep w s) := by
  unfold Machine.noPrimaryStep
  dsimp only
  split
  · split
    · exact c.makeFirstPrimary _ (c.handoff _ h)
    · exact c.handoff _ h
  · exact c.handoff _ h

/-- The controller's update at a view step. -/
theorem handoffStep (w : Option Source) (b : Option BufferId) (h : P s) : P (handoffStep w b s) := by
  unfold Machine.handoffStep
  split
  · exact c.noPrimaryStep _ h
  · split
    · split
      · exact h
      · exact c.createHandoff _ _ h
    · exact h
  · split
    · exact c.beforeFade _ _ _ _ h
    · exact c.beforeFade _ _ _ _ h
    · exact c.fadeStep _ _ h
    · exact c.settleStep _ h

theorem abortHandoff (h : P s) : P (abortHandoff s) := c.raise _ (c.handoff _ (c.setRecord _ h))

theorem forceCompletion (r : HandoffRecord) (h : P s) : P (forceCompletion r s) :=
  c.settleAtOnce (c.raise _ (c.handoff _ (c.setRecord _ (c.changePrimary _ h))))

theorem enterNoPrimary (h : P s) : P (enterNoPrimary s) := c.handoff _ (c.timer _ (c.changePrimary _ h))

theorem emergencyCut (h : P s) : P (emergencyCut s) := by
  have h1 : P (Machine.raise (.handoff .primaryLost) (Machine.setRecord none s)) := c.raise _ (c.setRecord _ h)
  unfold Machine.emergencyCut
  dsimp only
  split
  · exact c.handoff _ (c.changePrimary _ (c.moveToLive _ h1))
  · exact c.enterNoPrimary h1

/-- The controller's answer to a source that has left LIVE or STANDBY. -/
theorem departure (i : Source) (h : P s) : P (departure i s) := by
  unfold Machine.departure
  split
  · split
    · split
      · exact c.forceCompletion _ h
      · split
        · exact c.abortHandoff h
        · exact h
    · split
      · exact c.emergencyCut h
      · exact h
  · split
    · exact c.emergencyCut h
    · exact h

theorem informStandby (i : Source) (h : P s) : P (informStandby i s) := by
  unfold Machine.informStandby
  split
  · exact c.makeFirstPrimary _ h
  · exact h

/-! ## STOPPING, HELD, FAULTED, bad frames and qualification -/

theorem shutDown (i : Source) (was : SourceState) (h : P s) : P (shutDown i was s) := by
  have h1 : P (Machine.releaseChain i (Machine.cancelClaim i (s.modSrc i fun r => { r with warm := none, linger := none }))) :=
    c.releaseChain _ (c.cancelClaim _ (c.modSrc _ _ h))
  unfold Machine.shutDown
  dsimp only
  split
  · exact c.stopPulsing _ (c.leaveStreaming _ h1)
  · exact c.stopPulsing _ h1

theorem informDeparture (i : Source) (was : SourceState) (h : P s) : P (informDeparture i was s) := by
  unfold Machine.informDeparture
  split
  · exact c.departure _ h
  · exact h

theorem enterStopping (i : Source) (h : P s) : P (enterStopping i s) :=
  c.informDeparture _ _ (c.raiseSrc _ _ (c.shutDown _ _ (c.modSrc _ _ h)))

theorem absentIfPending (i : Source) (h : P s) : P (absentIfPending i s) := by
  unfold Machine.absentIfPending
  split
  · exact c.enterAbsent _ h
  · exact h

theorem enterHeld (i : Source) (h : P s) : P (enterHeld i s) :=
  c.informDeparture _ _ (c.absentIfPending _ (c.shutDown _ _ (c.modSrc _ _ h)))

theorem enterFaulted (i : Source) (cause : FaultCause) (h : P s) : P (enterFaulted i cause s) := by
  have h1 := c.raiseSrc i .faulted (c.shutDown i (s.src i).state
    (c.modSrc i (fun r => { r.unlock with state := .faulted, stop := none, faultCause := some cause })
      (c.free (s.free + 1) h)))
  unfold Machine.enterFaulted
  dsimp only
  split
  · exact c.informDeparture _ _ (c.absentIfPending _ (c.raiseSrc _ _ h1))
  · exact c.informDeparture _ _ (c.absentIfPending _ h1)

theorem countBadFrame (i : Source) (h : P s) : P (countBadFrame i s) := by
  unfold Machine.countBadFrame
  dsimp only
  split
  · exact c.enterFaulted _ _ (c.modSrc _ _ h)
  · exact c.modSrc _ _ h

theorem qualifyNow (i : Source) (h : P s) : P (qualifyNow i s) :=
  c.informStandby _ (c.raiseSrc _ _ (c.moveToStandby _ (c.modSrc _ _ h)))

theorem warmingFrame (i : Source) (reported : Bool) (h : P s) : P (warmingFrame i reported s) := by
  unfold Machine.warmingFrame
  split
  · dsimp only
    split
    · exact c.qualifyNow _ (c.modSrc _ _ h)
    · exact c.modSrc _ _ h
  · exact c.raiseSrc _ _ (c.modSrc _ _ h)

theorem expireWarm (i : Source) (h : P s) : P (expireWarm i s) := by
  unfold Machine.expireWarm
  split
  · exact h
  · exact c.enterFaulted _ _ h

theorem expireLinger (i : Source) (h : P s) : P (expireLinger i s) := by
  unfold Machine.expireLinger
  split
  · exact h
  · exact c.enterStopping _ h

theorem expireStop (i : Source) (h : P s) : P (expireStop i s) := by
  unfold Machine.expireStop
  split
  · exact h
  · exact c.enterOff _ (c.raiseSrc _ _ (c.modSrc _ _ h))

theorem expireStall (i : Source) (h : P s) : P (expireStall i s) := by
  unfold Machine.expireStall
  split
  · exact h
  · exact c.enterFaulted _ _ h

end Closed

end Sys2Proof.Machine
end

