-- ==== Sys2Proof/Laws/Pool.lean ====
section
/-! SUPPORT. What the Buffer Pool's operations write and leave: which fields of the state, which fields of a source record, the exact
effect of a claim, and the choices by end time. -/

namespace Sys2Proof.Machine

open Sys2Proof

/-! ## The pool and the source records only -/

/-- `t` differs from `s` in the source records and the pool only. -/
def OnlyPool (s t : State) : Prop := t = { s with sources := t.sources, pool := t.pool }

theorem OnlyPool.refl (s : State) : OnlyPool s s := rfl

theorem OnlyPool.trans {s t u : State} (h : OnlyPool s t) (h' : OnlyPool t u) : OnlyPool s u := by
  unfold OnlyPool at *
  rw [h'] 
  rw [h]

theorem OnlyPool.modSrc (s : State) (i : Source) (f : SourceRecord → SourceRecord) : OnlyPool s (s.modSrc i f) := rfl

theorem OnlyPool.setBank (s : State) (k : Bank) (x : BankRecord) : OnlyPool s (s.setBank k x) := rfl

theorem OnlyPool.mapBuffers (s : State) (f : BufferId → Buffer → Buffer) : OnlyPool s (s.mapBuffers f) := rfl

theorem OnlyPool.setClaimQueue (s : State) (q : List Source) : OnlyPool s (s.setClaimQueue q) := rfl

theorem OnlyPool.loop {α : Type} {f : State → α → State} (hf : ∀ s a, OnlyPool s (f s a)) (l : List α) (s : State) :
    OnlyPool s (l.foldl f s) := by
  induction l generalizing s with
  | nil => exact .refl s
  | cons a l ih => exact (hf s a).trans (ih _)

theorem OnlyPool.notice {s t : State} (h : OnlyPool s t) (l : Link) : t.notice l = s.notice l := by
  rw [h]; rfl

theorem OnlyPool.syncLine {s t : State} (h : OnlyPool s t) (i : Source) : t.syncLine i = s.syncLine i := by
  rw [h]; rfl

theorem OnlyPool.stream {s t : State} (h : OnlyPool s t) (i : StreamId) : t.stream i = s.stream i := by
  rw [h]; rfl

theorem OnlyPool.port {s t : State} (h : OnlyPool s t) (i : Source) : t.port i = s.port i := by
  rw [h]; rfl

theorem OnlyPool.report {s t : State} (h : OnlyPool s t) (i : Source) : t.report i = s.report i := by
  rw [h]; rfl

theorem OnlyPool.handoff {s t : State} (h : OnlyPool s t) : t.handoff = s.handoff := by rw [h]

theorem OnlyPool.planner {s t : State} (h : OnlyPool s t) : t.planner = s.planner := by rw [h]

theorem OnlyPool.view {s t : State} (h : OnlyPool s t) : t.view = s.view := by rw [h]

theorem OnlyPool.notices {s t : State} (h : OnlyPool s t) : t.notices = s.notices := by rw [h]

theorem OnlyPool.timebase {s t : State} (h : OnlyPool s t) : t.timebase = s.timebase := by rw [h]

theorem OnlyPool.params {s t : State} (h : OnlyPool s t) : t.params = s.params := by rw [h]

theorem considerDormancy_only (k : Bank) (s : State) : OnlyPool s (considerDormancy k s) := by
  unfold considerDormancy; dsimp only; split <;> rfl

theorem joinChain_only (i : Source) (b : BufferId) (s : State) : OnlyPool s (joinChain i b s) := by
  unfold joinChain
  exact ((OnlyPool.mapBuffers _ _).trans (.setBank _ _ _)).trans (.modSrc _ _ _)

theorem deliver_only (s : State) (b : BufferId) : OnlyPool s (deliver s b) := by
  unfold deliver
  split
  · rfl
  · next c rest e =>
    split
    · dsimp only
      have h := (joinChain_only c b s).trans (.modSrc _ c fun r => { r with claim := ((joinChain c b s).src c).claim - 1 })
      split
      · exact h.trans (.setClaimQueue _ _)
      · exact h
    · rfl

theorem settleFreed_only (freed : List BufferId) (s : State) : OnlyPool s (settleFreed freed s) := by
  refine (OnlyPool.loop deliver_only _ s).trans (OnlyPool.loop (fun s k => ?_) _ _)
  split
  · exact considerDormancy_only k s
  · rfl

theorem releaseChain_only (i : Source) (s : State) : OnlyPool s (releaseChain i s) := by
  unfold releaseChain
  exact ((OnlyPool.mapBuffers _ _).trans (.modSrc _ _ _)).trans (settleFreed_only _ _)

theorem cancelClaim_only (i : Source) (s : State) : OnlyPool s (cancelClaim i s) :=
  (OnlyPool.setClaimQueue _ _).trans (.modSrc _ _ _)

theorem wakeForDeficit_only (s : State) : OnlyPool s (wakeForDeficit s) := by
  refine OnlyPool.loop (fun s k => ?_) _ s
  split
  · exact .setBank _ _ _
  · rfl

theorem addPins_only (names : List BufferId) (s : State) : OnlyPool s (addPins names s) := rfl

theorem removePins_only (names : List BufferId) (s : State) : OnlyPool s (removePins names s) := by
  unfold removePins
  exact ((OnlyPool.mapBuffers _ _).trans (.mapBuffers _ _)).trans (settleFreed_only _ _)

theorem completeWake_only (k : Bank) (s : State) : OnlyPool s (completeWake k s) := by
  unfold completeWake
  split
  · rfl
  · exact (OnlyPool.setBank _ _ _).trans (settleFreed_only _ _)

/-! ## One event's removals (R116) -/

@[simp] theorem Releasing.nothing_state (s : State) : (Releasing.nothing s).state = s := rfl

@[simp] theorem Releasing.nothing_names (s : State) : (Releasing.nothing s).names = [] := rfl

@[simp] theorem Releasing.andThen_state (x : Releasing) (f : State → Releasing) : (x.andThen f).state = (f x.state).state := rfl

@[simp] theorem Releasing.andThen_names (x : Releasing) (f : State → Releasing) :
    (x.andThen f).names = x.names ++ (f x.state).names := rfl

theorem Releasing.settle_eq (x : Releasing) : x.settle = removePins x.names x.state := rfl

@[simp] theorem State.mapBuffers_id (s : State) (f : BufferId → Buffer → Buffer) (h : ∀ b x, f b x = x) :
    s.mapBuffers f = s := by
  have e : (s.mapBuffers f).pool.buffers = s.pool.buffers := by
    apply Vector.ext
    intro i hi
    simp [State.mapBuffers, h]
  have : s.mapBuffers f = { s with pool := { s.pool with buffers := (s.mapBuffers f).pool.buffers } } := rfl
  rw [this, e]

/-- Nothing removed changes nothing. -/
@[simp] theorem removePins_nil (s : State) : removePins [] s = s := by
  unfold removePins
  simp [settleFreed, State.mapBuffers_id]

/-- An event that removes no hold. -/
@[simp] theorem Releasing.settle_nothing (s : State) : (Releasing.nothing s).settle = s := removePins_nil s

/-! ## Source records: only a claimant's chain and claim change -/

/-- `r'` is `r` with another chain and claim. -/
def SameButChain (r r' : SourceRecord) : Prop := r' = { r with chain := r'.chain, claim := r'.claim }

/-- The claim queue of `t` names none but those of `s`; who is not named there has the same record, and who is has another
chain and claim at most. -/
structure Delivered (s t : State) : Prop where
  queue : ∀ i, i ∈ t.pool.claimQueue → i ∈ s.pool.claimQueue
  out : ∀ i, i ∉ s.pool.claimQueue → t.src i = s.src i
  only : ∀ i, SameButChain (s.src i) (t.src i)

theorem Delivered.refl (s : State) : Delivered s s := ⟨fun _ h => h, fun _ _ => rfl, fun _ => rfl⟩

theorem Delivered.trans {s t u : State} (h : Delivered s t) (h' : Delivered t u) : Delivered s u where
  queue i hi := h.queue i (h'.queue i hi)
  out i hi := (h'.out i fun ht => hi (h.queue i ht)).trans (h.out i hi)
  only i := by
    have a := h.only i
    have b := h'.only i
    unfold SameButChain at *
    rw [b, a]

theorem Delivered.loop {α : Type} {f : State → α → State} (hf : ∀ s a, Delivered s (f s a)) (l : List α) (s : State) :
    Delivered s (l.foldl f s) := by
  induction l generalizing s with
  | nil => exact .refl s
  | cons a l ih => exact (hf s a).trans (ih _)

theorem considerDormancy_delivered (k : Bank) (s : State) : Delivered s (considerDormancy k s) := by
  unfold considerDormancy
  dsimp only
  split
  · exact ⟨fun _ h => h, fun _ _ => rfl, fun _ => rfl⟩
  · exact .refl s

theorem joinChain_src (i : Source) (b : BufferId) (s : State) (j : Source) :
    (joinChain i b s).src j = if j = i then { s.src i with chain := (s.src i).chain ++ [b] } else s.src j := by
  simp [joinChain, State.modSrc]

theorem deliver_delivered (s : State) (b : BufferId) : Delivered s (deliver s b) := by
  unfold deliver
  split
  · exact .refl s
  · next h rest e =>
    split
    · dsimp only
      have hs : ∀ c j, ((joinChain h b s).modSrc h fun r => { r with claim := c }).src j =
          if j = h then { s.src h with chain := (s.src h).chain ++ [b], claim := c } else s.src j := by
        intro c j; by_cases hj : j = h <;> simp [State.modSrc, joinChain_src, hj]
      split
      · refine ⟨fun i hi => ?_, fun i hi => ?_, fun i => ?_⟩
        · rw [e]; exact List.mem_cons_of_mem _ (by simpa using hi)
        · have : i ≠ h := by rintro rfl; exact hi (by simp [e])
          simp [hs, this]
        · unfold SameButChain
          by_cases hj : i = h <;> simp [hs, hj]
      · refine ⟨fun i hi => by simpa [joinChain, State.modSrc] using hi, fun i hi => ?_, fun i => ?_⟩
        · have : i ≠ h := by rintro rfl; exact hi (by simp [e])
          simp [hs, this]
        · unfold SameButChain
          by_cases hj : i = h <;> simp [hs, hj]
    · exact .refl s

theorem settleFreed_delivered (freed : List BufferId) (s : State) : Delivered s (settleFreed freed s) := by
  refine (Delivered.loop deliver_delivered _ s).trans (Delivered.loop (fun s k => ?_) _ _)
  split
  · exact considerDormancy_delivered k s
  · exact .refl s

/-! ## A claim (R121, R122) -/

/-- Every buffer of a list joins a chain. -/
theorem joinAll_src (i : Source) (l : List BufferId) (s : State) (j : Source) :
    (l.foldl (fun s b => joinChain i b s) s).src j =
      if j = i then { s.src i with chain := (s.src i).chain ++ l } else s.src j := by
  induction l generalizing s with
  | nil => by_cases h : j = i <;> simp [h]
  | cons b l ih =>
    rw [List.foldl_cons, ih]
    by_cases h : j = i <;> simp [h, joinChain_src]

theorem joinAll_claimQueue (i : Source) (l : List BufferId) (s : State) :
    (l.foldl (fun s b => joinChain i b s) s).pool.claimQueue = s.pool.claimQueue := by
  induction l generalizing s with
  | nil => rfl
  | cons b l ih => rw [List.foldl_cons, ih]; rfl

theorem joinAll_only (i : Source) (l : List BufferId) (s : State) :
    OnlyPool s (l.foldl (fun s b => joinChain i b s) s) := OnlyPool.loop (fun s b => joinChain_only i b s) l s

/-- Waking banks leaves the source records and the claim queue. -/
theorem wakeForDeficit_src (s : State) (j : Source) :
    (wakeForDeficit s).src j = s.src j ∧ (wakeForDeficit s).pool.claimQueue = s.pool.claimQueue := by
  unfold wakeForDeficit
  generalize Bank.all = l
  induction l generalizing s with
  | nil => exact ⟨rfl, rfl⟩
  | cons k l ih =>
    rw [List.foldl_cons]
    split
    · exact ih (wakeBank k s)
    · exact ih s

/-- What a claim takes at once: FREE buffers of AWAKE banks, ascending, as many as the chain lacks. -/
def claimed (i : Source) (s : State) : List BufferId := (freeAwake s).take (3 - (s.src i).chain.length)

/-- The state of a claim before it is known whether anything is outstanding. -/
theorem placeClaim_eq (i : Source) (s : State) :
    placeClaim i s =
      let left := 3 - (s.src i).chain.length - (claimed i s).length
      let u := ((claimed i s).foldl (fun s b => joinChain i b s) s).modSrc i fun r => { r with claim := left }
      if left = 0 then u
      else wakeForDeficit (raise (.part .bufferWait) (u.setClaimQueue (u.pool.claimQueue ++ [i]))) := rfl

theorem placeClaim_src (i : Source) (s : State) (j : Source) :
    (placeClaim i s).src j =
      if j = i then { s.src i with
        chain := (s.src i).chain ++ claimed i s, claim := 3 - (s.src i).chain.length - (claimed i s).length }
      else s.src j := by
  rw [placeClaim_eq]
  dsimp only
  split
  · by_cases h : j = i <;> simp [State.modSrc, joinAll_src, h]
  · rw [(wakeForDeficit_src _ j).1]
    by_cases h : j = i <;> simp [State.modSrc, joinAll_src, h]

theorem placeClaim_claimQueue (i : Source) (s : State) :
    (placeClaim i s).pool.claimQueue =
      if 3 - (s.src i).chain.length - (claimed i s).length = 0 then s.pool.claimQueue
      else s.pool.claimQueue ++ [i] := by
  rw [placeClaim_eq]
  dsimp only
  split
  · simp [State.modSrc, joinAll_claimQueue]
  · rw [(wakeForDeficit_src _ i).2]
    simp [State.modSrc, joinAll_claimQueue]

theorem placeClaim_notice (i : Source) (s : State) (l : Link) :
    (placeClaim i s).notice l =
      if 3 - (s.src i).chain.length - (claimed i s).length = 0 then s.notice l
      else (s.notice l).raise (.part .bufferWait) := by
  rw [placeClaim_eq]
  dsimp only
  split
  · simp [State.modSrc, (joinAll_only _ _ _).notice]
  · rw [(wakeForDeficit_only _).notice]
    simp [State.modSrc, (joinAll_only _ _ _).notice]

/-- A kind that is pending stays pending when another is raised. -/
theorem Notices.isPending_raise_of {n : Notices} {k : Notice} (k' : Notice) (h : n.isPending k = true) :
    (n.raise k').isPending k = true := by
  simp only [Notices.isPending, Notices.raise, PerGroup.get_set, decide_eq_true_eq, ne_eq] at *
  split
  · next e =>
    rw [e] at h
    intro h'
    apply h
    ext b hb
    have := congrArg (fun (v : Byte) => v.getLsbD b) h'
    simp at this ⊢
    intro h1; exact this (Or.inl h1)
  · exact h

/-! ## Waking for a deficit (R122), and the choices by end time (R107, R114) -/

/-- A bank woken takes 3 off the deficit (R122). -/
theorem claimDeficit_wakeBank {k : Bank} {s : State} (h : (s.bank k).state = .dormant) :
    claimDeficit (wakeBank k s) = claimDeficit s - 3 := by
  have hb : ∀ j, ((wakeBank k s).bank j).state = if j = k then .waking else (s.bank j).state := by
    intro j
    unfold wakeBank
    rw [State.setBank_bank]
    split <;> rfl
  have hc : ((wakeBank k s).pool.claimQueue.map fun i => ((wakeBank k s).src i).claim) =
      s.pool.claimQueue.map fun i => (s.src i).claim := rfl
  unfold claimDeficit
  rw [hc]
  simp only [Bank.all, List.filter, hb]
  cases k <;> simp [h] <;> (repeat' split) <;> simp <;> omega

/-- The banks of a list, each of them once, woken in order while the deficit lasts. -/
theorem wakeLoop_bank (l : List Bank) (hn : l.Nodup) (s : State) (k : Bank) :
    (l.foldl (fun s k => if 0 < claimDeficit s && decide ((s.bank k).state = .dormant) then wakeBank k s else s) s).bank k =
      if k ∈ l ∧ (s.bank k).state = .dormant ∧
          3 * (((l.takeWhile fun x => decide (x ≠ k)).filter fun x => decide ((s.bank x).state = .dormant)).length : Int) <
            claimDeficit s then
        { state := .waking, dormancy := none, wake := some (timeAfter s.timebase wakeSpan) }
      else s.bank k := by
  induction l generalizing s with
  | nil => simp
  | cons j l ih =>
    obtain ⟨hj, hn⟩ := List.nodup_cons.mp hn
    have hb : ∀ x, (wakeBank j s).bank x = if x = j then
        { state := .waking, dormancy := none, wake := some (timeAfter s.timebase wakeSpan) } else s.bank x := fun x => by
      unfold wakeBank
      rw [State.setBank_bank]
    rw [List.foldl_cons, ih hn]
    by_cases hd : (s.bank j).state = .dormant
    · by_cases h0 : 0 < claimDeficit s
      · simp only [h0, hd, decide_true, Bool.and_self, if_true]
        by_cases hk : k = j
        · subst hk
          simp [hj, hd, hb, h0]
        · have hf : ((l.takeWhile fun x => decide (x ≠ k)).filter fun x =>
              decide (((wakeBank j s).bank x).state = .dormant)) =
              (l.takeWhile fun x => decide (x ≠ k)).filter fun x => decide ((s.bank x).state = .dormant) := by
            refine List.filter_congr fun x hx => ?_
            rw [hb, if_neg]
            intro e
            exact hj (e ▸ (List.takeWhile_sublist _).subset hx)
          have ht : (wakeBank j s).timebase = s.timebase := rfl
          rw [hf, claimDeficit_wakeBank hd, hb, if_neg hk, ht]
          have hk' : (j ≠ k) := Ne.symm hk
          simp only [List.mem_cons, hk, false_or, List.takeWhile_cons, hk', ne_eq, not_false_eq_true, decide_true,
            if_true, List.filter_cons, hd, List.length_cons]
          refine if_congr (and_congr_right fun _ => and_congr_right fun _ => ?_) rfl rfl
          push_cast
          omega
      · have h1 : ¬ (0 : Int) < claimDeficit s := h0
        simp only [h1, decide_false, Bool.false_and, Bool.false_eq_true, if_false]
        rw [if_neg (by rintro ⟨_, _, h⟩; omega), if_neg (by rintro ⟨_, _, h⟩; omega)]
    · simp only [hd, decide_false, Bool.and_false, Bool.false_eq_true, if_false]
      by_cases hk : k = j
      · subst hk
        simp [hj, hd]
      · have hk' : (j ≠ k) := Ne.symm hk
        simp [hk, hk', hd]

/-- R122: which banks a claim's entry wakes: a DORMANT one when 3 for each DORMANT bank of a lower letter leaves a deficit. -/
theorem wakeForDeficit_bank (s : State) (k : Bank) :
    (wakeForDeficit s).bank k =
      if (s.bank k).state = .dormant ∧
          3 * (((Bank.all.takeWhile fun x => decide (x ≠ k)).filter fun x =>
            decide ((s.bank x).state = .dormant)).length : Int) < claimDeficit s then
        { state := .waking, dormancy := none, wake := some (timeAfter s.timebase wakeSpan) }
      else s.bank k := by
  unfold wakeForDeficit
  rw [wakeLoop_bank _ (by decide)]
  have : k ∈ Bank.all := by cases k <;> decide
  simp only [this, true_and]

/-- The best of a list is a member that beats all before it and is beaten by none after it. -/
theorem bestOf_split {α : Type} {better : α → α → α} (hs : ∀ x y, better x y = x ∨ better x y = y)
    {before : List α} {b : α} {after : List α} (h1 : ∀ x ∈ before, better x b = b) (h2 : ∀ x ∈ after, better b x = b) :
    bestOf better (before ++ b :: after) = some b := by
  have keep : ∀ l : List α, (∀ x ∈ l, better b x = b) → l.foldl better b = b := by
    intro l
    induction l with
    | nil => exact fun _ => rfl
    | cons x l ih =>
      intro h
      rw [List.foldl_cons, h x List.mem_cons_self]
      exact ih fun y hy => h y (List.mem_cons_of_mem _ hy)
  have memb : ∀ (l : List α) (a : α), l.foldl better a = a ∨ l.foldl better a ∈ l := by
    intro l
    induction l with
    | nil => exact fun a => .inl rfl
    | cons x l ih =>
      intro a
      rw [List.foldl_cons]
      rcases ih (better a x) with h | h
      · rcases hs a x with e | e
        · exact .inl (h.trans e)
        · exact .inr (List.mem_cons.mpr (.inl (h.trans e)))
      · exact .inr (List.mem_cons_of_mem _ h)
  cases before with
  | nil => exact congrArg some (keep _ h2)
  | cons a l =>
    show some ((l ++ b :: after).foldl better a) = some b
    rw [List.foldl_append, List.foldl_cons]
    have : l.foldl better a ∈ a :: l := by
      rcases memb l a with h | h
      · exact List.mem_cons.mpr (.inl h)
      · exact List.mem_cons_of_mem _ h
    rw [h1 _ this, keep _ h2]

theorem bestOf_none {α : Type} {better : α → α → α} {l : List α} : bestOf better l = none ↔ l = [] := by
  cases l <;> simp [bestOf]

/-- `laterEnd` answers one of its two buffers. -/
theorem laterEnd_or (s : State) (a b : BufferId) : laterEnd s a b = a ∨ laterEnd s a b = b := by
  unfold laterEnd
  split
  · split <;> simp
  · exact .inl rfl

/-- `earlierEnd` answers one of its two buffers. -/
theorem earlierEnd_or (s : State) (a b : BufferId) : earlierEnd s a b = a ∨ earlierEnd s a b = b := by
  unfold earlierEnd
  split
  · split <;> simp
  · exact .inl rfl

end Sys2Proof.Machine
end

