-- ==== Sys2Proof/Laws/StreamClosed.lean ====
section
/-! SUPPORT. What the Stream Engines and the view step can do, said once, in the way of Laws/Closed.lean. -/

namespace Sys2Proof.Machine

open Sys2Proof

/-- A property of the pool's kind that also survives every change of a stream but one of its configuration. -/
structure StreamClosed (P : State → Prop) : Prop extends PoolClosed P where
  stream : ∀ {s : State} (st : StreamId) (x : Stream), x.config = (s.stream st).config → P s → P (s.setStream st x)

namespace StreamClosed

variable {P : State → Prop} (c : StreamClosed P) {s : State}
include c

theorem clearSkip (st : StreamId) (h : P s) : P (clearSkip st s) := by
  unfold Machine.clearSkip
  split
  · exact c.raise _ (c.stream _ _ rfl h)
  · exact h

theorem settle {x : Releasing} (h : P x.state) : P x.settle := c.removePins _ h

omit c in
theorem andThen {x : Releasing} {f : State → Releasing} (hf : ∀ s, P s → P (f s).state) (h : P x.state) :
    P (x.andThen f).state := hf _ h

theorem takeInto (st : StreamId) (r : ViewRecord) (h : P s) : P (takeInto st r s).state := by
  unfold Machine.takeInto
  exact c.stream _ _ rfl (c.addPins _ h)

theorem launch (st : StreamId) (taken skipped : Bool) (h : P s) : P (launch st taken skipped s) :=
  c.stream _ _ rfl h

/-- An emission begins with its take. -/
theorem startEmission (st : StreamId) (h : P s) : P (startEmission st s).state := by
  unfold Machine.startEmission
  dsimp only
  refine c.launch _ _ _ ?_
  split
  · exact c.takeInto _ _ (c.clearSkip _ h)
  · exact c.clearSkip _ h

/-- A trigger reaches a stream. -/
theorem triggerStream (st : StreamId) (h : P s) : P (triggerStream st s).state := by
  unfold Machine.triggerStream
  dsimp only
  split
  · exact h
  · split
    · exact c.startEmission _ h
    · split
      · exact c.raise _ h
      · exact c.stream _ _ rfl h

theorem offerTrigger (cause : Cause) (st : StreamId) (h : P s) : P (offerTrigger cause st s).state := by
  unfold Machine.offerTrigger
  split
  · exact c.triggerStream _ h
  · exact h

theorem offerBoth (cause : Cause) (h : P s) : P (offerBoth cause s).state :=
  andThen (fun _ h => c.offerTrigger _ _ h) (c.offerTrigger _ _ h)

theorem startStream (st : StreamId) (h : P s) : P (startStream st s) := c.stream _ _ rfl h

theorem restStream (st : StreamId) (next : StreamState) (h : P s) : P (restStream st next s).state := c.stream _ _ rfl h

theorem stopStream (st : StreamId) (h : P s) : P (stopStream st s).state := by
  unfold Machine.stopStream
  dsimp only
  split
  · split
    · exact c.restStream _ _ h
    · exact c.stream _ _ rfl h
  · exact c.stream _ _ rfl h
  · exact h
  · exact h

theorem continueStream (st : StreamId) (h : P s) : P (continueStream st s).state := by
  unfold Machine.continueStream
  dsimp only
  split
  · exact c.startEmission _ (c.stream _ _ rfl h)
  · exact h

theorem afterCompletion (st : StreamId) (h : P s) : P (afterCompletion st s).state := by
  unfold Machine.afterCompletion
  dsimp only
  split
  · split
    · exact c.continueStream _ h
    · split
      · exact c.raise _ (c.restStream _ _ (c.stream _ _ rfl h))
      · exact c.continueStream _ (c.stream _ _ rfl h)
  · exact c.restStream _ _ h
  · exact h
  · exact h

/-- The completion of an emission. -/
theorem completeEmission (st : StreamId) (h : P s) : P (completeEmission st s) := by
  unfold Machine.completeEmission
  dsimp only
  split
  · exact h
  · split
    · exact c.settle (andThen (fun _ h => c.afterCompletion _ h) (c.offerTrigger _ _ (c.stream _ _ rfl h)))
    · exact h

theorem expireStreamTimer (st : StreamId) (h : P s) : P (expireStreamTimer st s) := by
  unfold Machine.expireStreamTimer
  split
  · exact h
  · exact c.settle (c.triggerStream _ (c.stream _ _ rfl h))

/-! ## The append -/

theorem overrunLink (seq : Seq) (l : Link) (h : P s) : P (overrunLink seq s l) := by
  unfold Machine.overrunLink
  split
  · exact c.raised _ _ h
  · exact h

theorem loseBoth (seq : Seq) (h : P s) : P ((s.modStream .p fun x => x.lose seq).modStream .r fun x => x.lose seq) :=
  c.stream _ _ rfl (c.stream _ _ rfl h)

theorem placePending (r : ViewRecord) (st : StreamId) (h : P s) : P (placePending r s st) := by
  unfold Machine.placePending
  dsimp only
  split
  · exact c.addPins _ (c.stream _ _ rfl h)
  · exact h

end StreamClosed

/-! ## The ring while a record is overwritten -/

/-- Losing a record on both streams and the overrun of the links leave the view stepper. -/
theorem loseBoth_view (seq : Seq) (s : State) :
    ([Link.al, Link.ml].foldl (overrunLink seq)
      ((s.modStream .p fun x => x.lose seq).modStream .r fun x => x.lose seq)).view = s.view := by
  have h : ∀ (s : State) l, (overrunLink seq s l).view = s.view := by
    intro s l; unfold overrunLink; split <;> rfl
  simp only [List.foldl_cons, List.foldl_nil, h]
  rfl

theorem overwriteOldest_view (s : State) :
    (overwriteOldest s).state.view = { s.view with ring := s.view.ring.tail } := by
  unfold overwriteOldest
  split
  · next e => rw [e, List.tail_nil, ← e]; rfl
  · next o rest e =>
    simp only [State.setView_view, loseBoth_view, e, List.tail_cons]

/-- A property that also survives what a view step does to the View Stepper and the Zoom Planner. -/
structure ViewClosed (P : State → Prop) : Prop extends Closed P, StreamClosed P where
  /-- The oldest record leaves the ring. -/
  dropOldest : ∀ {s : State} (o : ViewRecord) (rest : List ViewRecord), s.view.ring = o :: rest → P s →
    P (s.setView { s.view with ring := rest })
  /-- A record numbered with the next sequence joins a ring that has room when it had at most 32 before the append. -/
  push : ∀ {s₀ s : State} (r : ViewRecord), P s₀ → P s → (s₀.view.ring.length ≤ 32 → s.view.ring.length < 32) →
    r.seq = s.view.nextSeq → P (pushRecord r s)
  /-- The ramp advances. -/
  ramp : ∀ {s : State}, P s → P (s.setPlanner s.planner.activate.advance.1)
  /-- The planned want set or the keep-warm mask is written. -/
  wantSets : ∀ {s : State} (planned keepWarm : SourceSet), P s →
    P (s.setPlanner { s.planner with planned := planned, keepWarm := keepWarm })

namespace ViewClosed

variable {P : State → Prop} (c : ViewClosed P) {s : State}
include c

theorem overwriteOldest (h : P s) : P (overwriteOldest s).state := by
  unfold Machine.overwriteOldest
  split
  · exact h
  · next o rest e =>
    refine c.dropOldest o rest ?_ (PoolClosed.loop _ (fun _ l hs => c.overrunLink _ l hs) _ (c.loseBoth _ h))
    rw [loseBoth_view, e]

theorem placeRecord (r : ViewRecord) (h : P (pushRecord r s)) : P (placeRecord r s) :=
  PoolClosed.loop _ (fun _ st hs => c.placePending _ st hs) _ h

theorem pushRecord (r : ViewRecord) (hr : r.seq = s.view.nextSeq) (h : P s) : P (pushRecord r (roomInRing s).state) := by
  unfold Machine.roomInRing
  split
  · next h1 =>
    refine c.push r h (c.overwriteOldest h) (fun h32 => ?_) ?_
    · have : ringSize = 32 := rfl
      rw [overwriteOldest_view, List.length_tail]
      omega
    · rw [overwriteOldest_view, hr]
  · next h1 => exact c.push r h h (fun _ => Nat.not_le.mp h1) hr

theorem appendRecord (r : ViewRecord) (hr : r.seq = s.view.nextSeq) (h : P s) : P (appendRecord r s) := by
  have h1 := c.offerBoth .view (c.placeRecord r (c.pushRecord r hr h))
  unfold Machine.appendRecord
  rw [Releasing.settle_eq]
  refine c.removePins _ ?_
  rw [Releasing.andThen_state]
  exact h1

theorem composeAndAppend (step : StepFrame) (t : Time) (h : P s) : P (composeAndAppend step t s) :=
  c.appendRecord _ rfl (c.handoff _ h)

theorem advanceRamp (h : P s) : P (advanceRamp s) := by
  unfold Machine.advanceRamp
  dsimp only
  split
  · exact c.raise _ (c.ramp h)
  · exact c.ramp h

theorem storeAndWrite (planned : List Source) (h : P s) : P (storeAndWrite planned s) :=
  c.writeWants _ (c.wantSets _ s.planner.keepWarm h)

theorem setKeepWarm (mask : SourceSet) (h : P s) : P (setKeepWarm mask s) :=
  c.writeWants _ (c.wantSets s.planner.planned _ h)

/-- A view step as a whole. -/
theorem viewStep (step : StepFrame) (t : Time) (h : P s) : P (viewStep step t s) := by
  unfold Machine.viewStep
  dsimp only
  exact c.composeAndAppend _ _ (c.storeAndWrite _ (c.handoff _ (c.handoffStep _ _ (c.advanceRamp h))))

theorem expireViewTimer (h : P s) : P (expireViewTimer s) := by
  unfold Machine.expireViewTimer
  split
  · exact h
  · exact c.viewStep _ _ (c.timer _ h)

end ViewClosed

end Sys2Proof.Machine
end

