-- ==== Sys2Proof/Laws/Append.lean ====
section
/-! SUPPORT. What the parts of an append do: the overrun of the links, a pending pin placed, and what a hold names while pins
and streams change. -/

namespace Sys2Proof.Machine

open Sys2Proof

@[simp] theorem addPins_buffer (names : List BufferId) (s : State) (b : BufferId) :
    (addPins names s).buffer b = { s.buffer b with pins := (s.buffer b).pins + names.count b } := by
  simp [addPins]

@[simp] theorem addPins_stream (names : List BufferId) (s : State) (st : StreamId) :
    (addPins names s).stream st = s.stream st := rfl

/-- What a hold names does not depend on the pins, nor on the streams. -/
@[simp] theorem holdNames_addPins (names : List BufferId) (s : State) (r : ViewRecord) :
    holdNames (addPins names s) r = holdNames s r := by
  unfold holdNames partIntact
  simp only [addPins_buffer]

@[simp] theorem holdNames_setStream (s : State) (st : StreamId) (x : Stream) (r : ViewRecord) :
    holdNames (s.setStream st x) r = holdNames s r := rfl

/-- R83: a pending pin is placed for a RUNNING SEQUENTIAL stream only. -/
theorem placePending_eq (r : ViewRecord) (s : State) (st : StreamId) :
    placePending r s st =
      if (s.stream st).state = .running ∧ (s.stream st).config.take = .sequential then
        addPins (holdNames s r) (s.setStream st { s.stream st with
          pendingSet := (s.stream st).pendingSet ++ [{ seq := r.seq, buffers := holdNames s r }] })
      else s := by
  unfold placePending
  by_cases h : (s.stream st).state = .running <;> by_cases h' : (s.stream st).config.take = .sequential <;> simp [h, h']

/-- R84: CURSOR_OVERRUN is raised on each link whose cursor names the overwritten record, and nothing else changes. -/
theorem overrunLinks (seq : Seq) (s : State) :
    let t := [Link.al, Link.ml].foldl (overrunLink seq) s
    (∀ l, t.notice l = if s.view.cursors.get l = seq then (s.notice l).raise (.part .cursorOverrun) else s.notice l) ∧
      { t with notices := s.notices } = s := by
  simp only [List.foldl_cons, List.foldl_nil, overrunLink]
  have hv : (raiseOn .al (.part .cursorOverrun) s).view = s.view := rfl
  by_cases h1 : s.view.cursors.get .al = seq <;> by_cases h2 : s.view.cursors.get .ml = seq
  · rw [if_pos h1, hv, if_pos h2]
    exact ⟨fun l => by cases l <;> simp [raiseOn, h1, h2], rfl⟩
  · rw [if_pos h1, hv, if_neg h2]
    exact ⟨fun l => by cases l <;> simp [raiseOn, h1, h2], rfl⟩
  · rw [if_neg h1, if_pos h2]
    exact ⟨fun l => by cases l <;> simp [raiseOn, h1, h2], rfl⟩
  · rw [if_neg h1, if_neg h2]
    exact ⟨fun l => by cases l <;> simp [h1, h2], rfl⟩

end Sys2Proof.Machine
end

