-- ==== Sys2Proof/Laws/Bytes.lean ====
section
/-! SUPPORT. Reading a field back from the bytes it was written to (10.10). A provers' proof about a table cites `fieldAt_skip`
to pass the fields before it and one of the reading lemmas to read it. -/

namespace Sys2Proof.Machine

open Sys2Proof

/-! ## The lengths of the written fields -/

@[simp] theorem natByte_length (n : Nat) : (natByte n).length = 1 := rfl
@[simp] theorem halfBytes_length (w : Half) : (halfBytes w).length = 2 := rfl
@[simp] theorem natHalf_length (n : Nat) : (natHalf n).length = 2 := rfl
@[simp] theorem intHalf_length (n : Int) : (intHalf n).length = 2 := rfl
@[simp] theorem wordBytes_length (w : BitVec 32) : (wordBytes w).length = 4 := rfl
@[simp] theorem zeros_length (n : Nat) : (zeros n).length = n := List.length_replicate
@[simp] theorem freeBytes_length (g : Nat → Byte) (k n : Nat) : (freeBytes g k n).length = n := by simp [freeBytes]
@[simp] theorem windowBytes_length (w : Window) : (windowBytes w).length = 8 := rfl

@[simp] theorem wordOr_length (g : Nat → Byte) (k : Nat) (w : Option (BitVec 32)) : (wordOr g k w).length = 4 := by
  cases w <;> simp [wordOr]

@[simp] theorem primaryBytes_length (p : Option PrimaryPart) : (primaryBytes p).length = 14 := by
  cases p <;> simp [primaryBytes]

@[simp] theorem secondaryBytes_length (q : Option SecondaryPart) : (secondaryBytes q).length = 15 := by
  cases q <;> simp [secondaryBytes]

@[simp] theorem recordBytes_length (r : ViewRecord) : (recordBytes r).length = 48 := by simp [recordBytes]

@[simp] theorem remainingMs_length (now : Time) (d : Option Time) : (remainingMs now d).length = 2 := by cases d <;> rfl

@[simp] theorem chainBytes_length (c : List BufferId) : (chainBytes c).length = 3 := by simp [chainBytes]

@[simp] theorem lastCompletedBytes_length (g : Nat → Byte) (n : Option FrameNo) : (lastCompletedBytes g n).length = 2 := by
  cases n <;> simp [lastCompletedBytes]

@[simp] theorem sourceStatus_length (g : Nat → Byte) (now : Time) (i : Source) (r : SourceRecord) :
    (sourceStatus g now i r).length = 23 := by simp [sourceStatus]

@[simp] theorem sourceByte_length (i : Option Source) : (sourceByte i).length = 1 := by cases i <;> rfl

@[simp] theorem handoffBytes_length (g : Nat → Byte) (r : Option HandoffRecord) : (handoffBytes g r).length = 5 := by
  cases r <;> rfl

@[simp] theorem weightBytes_length (g : Nat → Byte) (r : Option HandoffRecord) : (weightBytes g r).length = 2 := by
  cases r <;> rfl

@[simp] theorem claimBytes_length (s : State) : (claimBytes s).length = 4 := by simp [claimBytes]

@[simp] theorem partStatus_length (g : Nat → Byte) (s : State) : (partStatus g s).length = 48 := by simp [partStatus]

@[simp] theorem calPointBytes_length (p : CalPoint) : (calPointBytes p).length = 10 := rfl

@[simp] theorem pixelBytes_length (p : Pixel) : (pixelBytes p).length = 6 := rfl

@[simp] theorem trailerBytes_length (t : Trailer) : (trailerBytes t).length = 28 := by simp [trailerBytes]

/-- Items of one length, one after the other. -/
theorem flatMap_length_of {α : Type} (f : α → List Byte) (n : Nat) (l : List α) (h : ∀ x ∈ l, (f x).length = n) :
    (l.flatMap f).length = n * l.length := by
  induction l with
  | nil => rfl
  | cons x l ih => simp [ih fun y hy => h y (by simp [hy]), h x (by simp), Nat.mul_add, Nat.add_comm]

/-- The k-th of items of one length stands at k times the length. -/
theorem flatMap_drop_of {α : Type} (f : α → List Byte) (n : Nat) (l : List α) (h : ∀ x ∈ l, (f x).length = n) (k : Nat) (x : α)
    (hk : l[k]? = some x) : ∃ rest, (l.flatMap f).drop (n * k) = f x ++ rest := by
  induction l generalizing k with
  | nil => simp at hk
  | cons y l ih =>
    cases k with
    | zero =>
      obtain rfl : y = x := by simpa using hk
      exact ⟨l.flatMap f, by simp⟩
    | succ k =>
      obtain ⟨rest, e⟩ := ih (fun y hy => h y (by simp [hy])) k (by simpa using hk)
      refine ⟨rest, ?_⟩
      have hy := h y (by simp)
      rw [List.flatMap_cons, List.drop_append, List.drop_of_length_le (by rw [hy]; exact Nat.le_mul_of_pos_right n k.succ_pos),
        hy, Nat.mul_succ, Nat.add_sub_cancel, e, List.nil_append]

@[simp] theorem lineBytes_length (row : List Pixel) : (lineBytes row).length = 6 * row.length :=
  flatMap_length_of _ 6 _ fun p _ => pixelBytes_length p

/-! ## Passing the fields before -/

/-- A field past the first part of the bytes (the premise stands as a decision, which simp discharges from the lengths). -/
theorem fieldAt_skip (a b : List Byte) (k n : Nat) (h : decide (a.length ≤ k) = true) :
    fieldAt (a ++ b) k n = fieldAt b (k - a.length) n := by
  unfold fieldAt
  rw [List.drop_append, List.drop_of_length_le (of_decide_eq_true h), List.nil_append]

/-- A field in the first part of the bytes. -/
theorem fieldAt_left (a b : List Byte) (k n : Nat) (h : k + n ≤ a.length) : fieldAt (a ++ b) k n = fieldAt a k n := by
  unfold fieldAt
  rw [List.drop_append_of_le_length (by omega), List.take_append_of_le_length (by simp; omega)]

theorem fieldAt_skip_cons (x : Byte) (b : List Byte) (k n : Nat) (h : decide (1 ≤ k) = true) :
    fieldAt (x :: b) k n = fieldAt b (k - 1) n := fieldAt_skip [x] b k n h

theorem fieldAt_drop (a : List Byte) (j k n : Nat) : fieldAt (a.drop j) k n = fieldAt a (j + k) n := by
  simp [fieldAt, List.drop_drop]

theorem fieldAt_take (a : List Byte) (m k n : Nat) (h : k + n ≤ m) : fieldAt (a.take m) k n = fieldAt a k n := by
  unfold fieldAt
  rw [List.drop_take, List.take_take, Nat.min_eq_left (by omega)]

/-! ## Reading a field -/

theorem fieldAt_one (x : Byte) (a : List Byte) : fieldAt (x :: a) 0 1 = x.toNat := by
  simp [fieldAt]

theorem fieldAt_natByte (m : Nat) (a : List Byte) : fieldAt (natByte m ++ a) 0 1 = m % 256 := by
  simp [fieldAt, natByte]

theorem fieldAt_half (w : Half) (a : List Byte) : fieldAt (halfBytes w ++ a) 0 2 = w.toNat := by
  simp only [fieldAt, halfBytes, List.drop_zero, List.cons_append, List.nil_append, List.take_succ_cons, List.take_zero,
    List.foldl_cons, List.foldl_nil, BitVec.extractLsb'_toNat, Nat.shiftRight_eq_div_pow]
  have := w.isLt
  omega

theorem fieldAt_natHalf (m : Nat) (a : List Byte) : fieldAt (natHalf m ++ a) 0 2 = m % 65536 := by
  rw [natHalf, fieldAt_half, BitVec.toNat_ofNat]

theorem fieldAt_intHalf (m : Int) (a : List Byte) : (fieldAt (intHalf m ++ a) 0 2 : Int) = m % 65536 := by
  rw [intHalf, fieldAt_half, BitVec.toNat_ofInt]
  omega

theorem fieldAt_word (w : BitVec 32) (a : List Byte) : fieldAt (wordBytes w ++ a) 0 4 = w.toNat := by
  simp only [fieldAt, wordBytes, List.drop_zero, List.cons_append, List.nil_append, List.take_succ_cons, List.take_zero,
    List.foldl_cons, List.foldl_nil, BitVec.extractLsb'_toNat, Nat.shiftRight_eq_div_pow]
  have := w.isLt
  omega

theorem fieldAt_zeros (n : Nat) (a : List Byte) : fieldAt (zeros n ++ a) 0 n = 0 := by
  have h : ∀ m, (List.replicate m (0 : Byte)).foldl (fun n b => 256 * n + b.toNat) 0 = 0 := by
    intro m
    induction m with
    | zero => rfl
    | succ m ih => simpa [List.replicate_succ] using ih
  rw [fieldAt_left _ _ _ _ (by simp), fieldAt, List.drop_zero, List.take_of_length_le (by simp)]
  exact h n

/-- The byte at an offset within the list. -/
theorem fieldAt_byte (a : List Byte) (k : Nat) (x : Byte) (h : a[k]? = some x) : fieldAt a k 1 = x.toNat := by
  obtain ⟨hk, rfl⟩ := List.getElem?_eq_some_iff.mp h
  rw [fieldAt, List.drop_eq_getElem_cons hk]
  exact Nat.zero_add _

/-- A window among the fields. -/
theorem ShowsWindow.intro (w : Window) (before rest : List Byte) :
    ShowsWindow (before ++ (windowBytes w ++ rest)) before.length w := by
  refine ⟨?_, ?_, ?_, ?_⟩ <;> rw [fieldAt_skip _ _ _ _ (by simp)] <;>
    simp only [windowBytes, List.append_assoc, Nat.add_sub_cancel_left, Nat.sub_self, fieldAt_skip, natHalf_length,
      fieldAt_natHalf, Nat.reduceLeDiff, decide_true, Nat.reduceSub, Nat.le_refl]

/-! ## Bits -/

/-- Bits from bit 0 on as a number. -/
def bitsOf (l : List Bool) : Nat := l.foldr (fun b n => b.toNat + 2 * n) 0

/-- They stay below the power of their number. -/
theorem bitsOf_lt (l : List Bool) : bitsOf l < 2 ^ l.length := by
  induction l with
  | nil => simp [bitsOf]
  | cons b l ih =>
    have h : bitsOf (b :: l) = b.toNat + 2 * bitsOf l := rfl
    have := b.toNat_le
    rw [h, List.length_cons, Nat.pow_succ]
    omega

/-- The number's bits are those it was formed of. -/
theorem bitsAre_bitsOf (l : List Bool) : BitsAre (bitsOf l) l := by
  induction l with
  | nil => exact fun k => by simp [bitsOf]
  | cons b l ih =>
    intro k
    have h : bitsOf (b :: l) = b.toNat + 2 * bitsOf l := rfl
    cases k with
    | zero => cases b <;> simp [h, Nat.testBit_zero]
    | succ k =>
      have e : bitsOf (b :: l) / 2 = bitsOf l := by cases b <;> simp [h]; omega
      rw [Nat.testBit_succ, e]
      exact ih k

theorem bitAt_eq (n : Nat) (b : Bool) : bitAt n b = 2 ^ n * b.toNat := by cases b <;> simp [bitAt]

theorem ViewFlags.bits_eq (f : ViewFlags) : f.bits = bitsOf (flagList f) := by
  simp only [ViewFlags.bits, bitAt_eq, flagList, bitsOf, List.foldr_cons, List.foldr_nil]
  omega

/-! ## The parts of the tables with items that may be absent -/

theorem fieldAt_wordOr (g : Nat → Byte) (k : Nat) (w : BitVec 32) (a : List Byte) :
    fieldAt (wordOr g k (some w) ++ a) 0 4 = w.toNat := fieldAt_word w a

/-- R26: the remaining time of a deadline. -/
theorem fieldAt_remainingMs (now : Time) (d : Option Time) (a : List Byte) :
    fieldAt (remainingMs now d ++ a) 0 2 = remainingField now d := by
  cases d with
  | none => rfl
  | some d => rw [remainingMs, fieldAt_natHalf]; rfl

/-- The bytes of a list of fixed length, 0xFF past the items (Tables 66, 67). -/
theorem fieldAt_padded {α : Type} (f : α → Byte) (n : Nat) (l : List α) (k : Nat) (h : k < n) (a : List Byte) :
    fieldAt ((l.map f ++ List.replicate n 0xFF).take n ++ a) k 1 = ((l[k]?).map fun x => (f x).toNat).getD 0xFF := by
  rw [fieldAt_left _ _ _ _ (by simp; omega), fieldAt_take _ _ _ _ (by omega)]
  by_cases hk : k < l.length
  · rw [fieldAt_byte _ k (f l[k]) (by simp [List.getElem?_append_left, hk])]
    simp [hk]
  · rw [fieldAt_byte _ k 0xFF (by
      rw [List.getElem?_append_right (by simp; omega), List.getElem?_replicate]
      simp
      omega)]
    simp [hk]

/-- Table 66, offsets 6 to 8. -/
theorem fieldAt_chainBytes (chain : List BufferId) (k : Nat) (h : k < 3) (a : List Byte) :
    fieldAt (chainBytes chain ++ a) k 1 = ((chain[k]?).map fun (x : BufferId) => x.val).getD 0xFF := by
  rw [chainBytes, fieldAt_padded _ 3 chain k h]
  congr 2
  funext x
  simp
  omega

/-- Table 67, offsets 22 to 25. -/
theorem fieldAt_claimBytes (s : State) (k : Nat) (h : k < 4) (a : List Byte) :
    fieldAt (claimBytes s ++ a) k 1 =
      ((s.pool.claimQueue[k]?).map fun (i : Source) => (16 * i.number + (s.src i).claim) % 256).getD 0xFF := by
  rw [claimBytes, fieldAt_padded _ 4 _ k h]
  simp

/-- The flags of a trailer's byte 2 below bit 5, whatever stands in bits 5 and 6 (Table 70). -/
theorem trailerFlags_low (flags : List Bool) (h : flags.length = 5) (m : Byte) :
    (BitVec.ofNat 8 (bitsOf flags) ||| m &&& 0x60).toNat < 128 ∧
      (BitVec.ofNat 8 (bitsOf flags) ||| m &&& 0x60).toNat % 32 = bitsOf flags ∧
        (BitVec.ofNat 8 (bitsOf flags) ||| m &&& 0x60).toNat / 32 = (m &&& 0x60).toNat / 32 := by
  have lt : bitsOf flags < 32 := by simpa [h] using bitsOf_lt flags
  have all : ∀ n : Fin 32, ∀ m : Byte,
      (BitVec.ofNat 8 n.val ||| m &&& 0x60).toNat < 128 ∧ (BitVec.ofNat 8 n.val ||| m &&& 0x60).toNat % 32 = n.val ∧
        (BitVec.ofNat 8 n.val ||| m &&& 0x60).toNat / 32 = (m &&& 0x60).toNat / 32 := by decide +kernel
  exact all ⟨bitsOf flags, lt⟩ m

end Sys2Proof.Machine
end

