-- ==== Sys2Proof/Laws/Clock.lean ====
section
/-! SUPPORT. When a command stands among the expiries that are due. -/

namespace Sys2Proof.Machine

open Sys2Proof

/-- One expiry is due when its deadline runs and is reached. -/
theorem mem_dueIf {now : Time} {d : Option Time} {c c' : Instr} :
    c ∈ dueIf now d c' ↔ c = c' ∧ ∃ x, d = some x ∧ reached now x = true := by
  unfold dueIf
  cases d
  · simp
  · simp [and_comm]

end Sys2Proof.Machine
end

