-- ==== Sys2Proof/Laws/Freed.lean ====
section
/-! SUPPORT. What becomes of the buffers that one event frees: each delivery, the order, and the banks considered for dormancy
(R119, R123). -/

namespace Sys2Proof.Machine
open Sys2Proof

/-- R123: one delivery. -/
theorem deliver_head {s : State} {b : BufferId} {h : Source} {rest : List Source} (hq : s.pool.claimQueue = h :: rest)
    (hk : (s.bank (bankOf b)).state = .awake) (hb : (s.buffer b).state = .free) :
    deliver s b =
      (((s.setSrc h { s.src h with chain := (s.src h).chain ++ [b], claim := (s.src h).claim - 1 }).modBuffer b
        fun x => x.cleared .empty).setBank (bankOf b)
        { s.bank (bankOf b) with dormancy := none }).setClaimQueue (if (s.src h).claim ≤ 1 then rest else h :: rest) := by
  have e1 : (joinChain h b s).modSrc h (fun r => { r with claim := (s.src h).claim - 1 }) =
      ((s.setSrc h { s.src h with chain := (s.src h).chain ++ [b], claim := (s.src h).claim - 1 }).modBuffer b
        fun x => x.cleared .empty).setBank (bankOf b) { s.bank (bankOf b) with dormancy := none } := by
    have hset : ∀ (v : PerSource SourceRecord) (x y : SourceRecord), (v.set x h).set y h = v.set y h := by
      intro v x y
      cases h <;> rfl
    unfold joinChain
    simp [State.modSrc]
    simp [State.setSrc, State.setBank, State.modBuffer, State.mapBuffers, hset]
  have e2 : ((joinChain h b s).src h).claim = (s.src h).claim := by rw [joinChain_src, if_pos rfl]
  unfold deliver
  rw [hq]
  dsimp only
  rw [if_pos (by simp [hk, hb]), e2, e1]
  by_cases hc : (s.src h).claim ≤ 1
  · rw [if_pos (by omega), if_pos hc]
  · rw [if_neg (by omega), if_neg hc, ← hq]
    rfl

/-- A delivery with no claim waiting, or of a buffer that cannot go, changes nothing. -/
theorem deliver_none {s : State} {b : BufferId}
    (h : s.pool.claimQueue = [] ∨ (s.bank (bankOf b)).state ≠ .awake ∨ (s.buffer b).state ≠ .free) : deliver s b = s := by
  unfold deliver
  split
  · rfl
  · next e =>
    rw [e] at h
    rw [if_neg]
    rcases h with h | h | h <;> simp_all

/-- The buffers freed in one event, in the order in which they are handled (R123). -/
def freedOrder (freed : List BufferId) : List BufferId := allBuffers.filter (· ∈ freed)

theorem freedOrder_sorted (freed : List BufferId) : (freedOrder freed).Pairwise (· < ·) :=
  List.Pairwise.sublist List.filter_sublist (by decide)

theorem mem_freedOrder (freed : List BufferId) (b : BufferId) : b ∈ freedOrder freed ↔ b ∈ freed := by
  have h : ∀ b : BufferId, b ∈ allBuffers := by decide
  simp [freedOrder, h]

/-- What considering one bank leaves of the state: that bank's dormancy deadline at most (R119). -/
theorem considerDormancy_banks (k : Bank) (s : State) :
    considerDormancy k s = { s with pool := { s.pool with banks := (considerDormancy k s).pool.banks } } ∧
      ∀ j, (considerDormancy k s).bank j =
        if j = k ∧ (s.bank k).state = .awake ∧ (∀ b ∈ k.buffers, (s.buffer b).state = .free) ∧
            (s.bank k).dormancy = none ∧ s.params.dormancyDelay ≠ 0 then
          { s.bank k with dormancy := some (timeAfter s.timebase (msToUs s.params.dormancyDelay)) }
        else s.bank j := by
  unfold considerDormancy
  dsimp only
  split
  · next h =>
    simp only [Bool.and_eq_true, decide_eq_true_eq, Option.isNone_iff_eq_none, bankAllFree, List.all_eq_true] at h
    obtain ⟨⟨⟨h1, h2⟩, h3⟩, h4⟩ := h
    refine ⟨rfl, fun j => ?_⟩
    by_cases hj : j = k
    · subst hj
      rw [if_pos ⟨rfl, h1, h2, h3, h4⟩]
      simp
    · rw [if_neg (by tauto)]
      simp [hj]
  · next h =>
    refine ⟨rfl, fun j => ?_⟩
    simp only [Bool.and_eq_true, decide_eq_true_eq, Option.isNone_iff_eq_none, bankAllFree, List.all_eq_true] at h
    rw [if_neg (by tauto)]

/-- Buffers freed in one event: delivered one by one, and then their banks are considered (R119, R123). -/
theorem settleFreed_eq (freed : List BufferId) (s : State) :
    let u := (freedOrder freed).foldl deliver s
    settleFreed freed s = { u with pool := { u.pool with banks := (settleFreed freed s).pool.banks } } ∧
      ∀ k, (settleFreed freed s).bank k =
        if (∃ b ∈ freed, bankOf b = k) ∧ (u.bank k).state = .awake ∧ (∀ b ∈ k.buffers, (u.buffer b).state = .free) ∧
            (u.bank k).dormancy = none ∧ u.params.dormancyDelay ≠ 0 then
          { u.bank k with dormancy := some (timeAfter u.timebase (msToUs u.params.dormancyDelay)) }
        else u.bank k := by
  intro u
  have go : ∀ (l : List Bank), l.Nodup → ∀ s : State,
      let t := l.foldl (fun s k =>
        if (freedOrder freed).any fun b => decide (bankOf b = k) then considerDormancy k s else s) s
      t = { s with pool := { s.pool with banks := t.pool.banks } } ∧
        ∀ k, t.bank k =
          if k ∈ l ∧ (∃ b ∈ freed, bankOf b = k) ∧ (s.bank k).state = .awake ∧
              (∀ b ∈ k.buffers, (s.buffer b).state = .free) ∧ (s.bank k).dormancy = none ∧ s.params.dormancyDelay ≠ 0 then
            { s.bank k with dormancy := some (timeAfter s.timebase (msToUs s.params.dormancyDelay)) }
          else s.bank k := by
    intro l
    induction l with
    | nil => exact fun _ s => ⟨rfl, fun k => by simp⟩
    | cons j r ih =>
      intro hn s
      have hn := List.nodup_cons.mp hn
      rw [List.foldl_cons]
      by_cases hf : ((freedOrder freed).any fun b => decide (bankOf b = j)) = true
      · have hf' : ∃ b ∈ freed, bankOf b = j := by
          simpa [List.any_eq_true, mem_freedOrder] using hf
        rw [if_pos hf]
        obtain ⟨e1, e2⟩ := considerDormancy_banks j s
        generalize considerDormancy j s = v at e1 e2
        obtain ⟨h1, h2⟩ := ih hn.2 v
        dsimp only at h1 h2 ⊢
        generalize r.foldl _ v = t at h1 h2
        have eb : ∀ b, v.buffer b = s.buffer b := fun b => by rw [e1]; rfl
        have ep : v.params = s.params := by rw [e1]
        have et : v.timebase = s.timebase := by rw [e1]
        refine ⟨by rw [h1, e1], fun k => ?_⟩
        rw [h2, e2]
        by_cases hk : k = j
        · subst hk
          simp only [eb, hn.1, false_and, if_false, List.mem_cons, true_or, true_and, hf']
        · simp only [hk, eb, ep, et, List.mem_cons, false_or, false_and, if_false]
      · have hf' : ¬∃ b ∈ freed, bankOf b = j := by
          simpa [List.any_eq_true, mem_freedOrder] using hf
        rw [if_neg hf]
        obtain ⟨h1, h2⟩ := ih hn.2 s
        refine ⟨h1, fun k => ?_⟩
        rw [h2]
        by_cases hk : k = j
        · subst hk
          simp only [hn.1, hf', false_and, and_false, if_false]
        · simp only [hk, List.mem_cons, false_or]
  obtain ⟨h1, h2⟩ := go Bank.all (by decide) u
  refine ⟨h1, fun k => ?_⟩
  have hk : k ∈ Bank.all := by cases k <;> decide
  have := h2 k
  simp only [hk, true_and] at this
  exact this

/-- R118: the release of a chain, up to what becomes of the buffers it frees. -/
theorem releaseChain_eq (i : Source) (s : State) :
    releaseChain i s =
      settleFreed ((s.src i).chain.filter fun b => !(s.buffer b).staysPinned)
        ((s.mapBuffers fun b x =>
          if b ∈ (s.src i).chain then (if x.staysPinned then { x with state := .retiring } else x.cleared .free)
          else x).setSrc i { s.src i with chain := [] }) := rfl

end Sys2Proof.Machine
end

