-- ==== Sys2Proof/Laws/Kept.lean ====
section
/-! SUPPORT. What no camera packet, no expiry and no view step touches: the queue, the timebase, the parameters, the
calibration tables, the trigger lines, the links, the selected source, the notice enables and the stream configurations. -/

namespace Sys2Proof.Machine

open Sys2Proof

/-- A property that also survives what the Frame Intake does to the reports and the sync lines. -/
structure PartClosed (P : State → Prop) : Prop extends ViewClosed P where
  /-- Reports leave the queue; the current report is any. -/
  matched : ∀ {s : State} (i : Source) (u : ReportUnit), u.queue.Sublist (s.report i).queue → P s → P (s.setReport i u)
  /-- A frame number becomes the last completed, every queued report being later. -/
  completed : ∀ {s : State} (i : Source) (n : FrameNo), (∀ r ∈ (s.report i).queue, frameLater r.frame n = true) → P s →
    P (s.modSrc i fun r => { r with bad := 0, lastCompleted := some n })
  /-- A sync line changes, its follow list holding at most 4 times when it did. -/
  follow : ∀ {s : State} (i : Source) (l : SyncLine),
    ((s.syncLine i).followList.length ≤ 4 → l.followList.length ≤ 4) → P s → P (s.setSync i l)

theorem insertTime_length (t : Time) (l : List Time) : (insertTime t l).length = l.length + 1 := by
  induction l with
  | nil => rfl
  | cons x xs ih => simp only [insertTime]; split <;> simp [ih]

theorem SyncLine.makeRoom_length (l : SyncLine) (now : Time) (h : l.followList.length ≤ 4) :
    (l.makeRoom now).followList.length < 4 := by
  unfold SyncLine.makeRoom
  split
  · next e => simp [e]
  · next t rest e =>
    have hr : rest.length < 4 := by rw [e] at h; simpa using h
    split
    · assumption
    · split <;> exact hr

theorem SyncLine.addFollow_length (l : SyncLine) (now t : Time) (h : l.followList.length ≤ 4) :
    (l.addFollow now t).followList.length ≤ 4 := by
  have := l.makeRoom_length now h
  unfold SyncLine.addFollow
  rw [insertTime_length]
  omega

theorem SyncLine.follow_length (l : SyncLine) (a b : Time) (h : l.followList.length ≤ 4) :
    (l.follow a b).followList.length ≤ 4 := by
  unfold SyncLine.follow
  split
  · exact SyncLine.addFollow_length _ _ _ h
  · unfold SyncLine.pulse; split <;> exact h

namespace PartClosed

variable {P : State → Prop} (c : PartClosed P) {s : State}
include c

theorem paceFollowers (p : Source) (start : Time) (h : P s) : P (paceFollowers p start s) := by
  unfold Machine.paceFollowers
  refine PoolClosed.loop _ (fun s i hs => ?_) _ h
  split
  · exact c.follow _ _ (SyncLine.follow_length _ _ _) hs
  · exact hs

theorem takeFollowPulse (i : Source) (h : P s) : P (takeFollowPulse i s) := by
  unfold Machine.takeFollowPulse
  split
  · exact h
  · next t rest e =>
    split
    · refine c.follow _ _ (fun hl => ?_) h
      rw [e] at hl
      exact Nat.le_of_succ_le hl
    · exact h

theorem abandonFilling (i : Source) (h : P s) : P (abandonFilling i s) := by
  unfold Machine.abandonFilling
  split
  · exact h
  · exact c.port _ _ (c.modBuffer _ _ h)

theorem badFrame (i : Source) (h : P s) : P (badFrame i s) := c.countBadFrame _ (c.abandonFilling _ h)

theorem stampStart (i : Source) (h : P s) : P (stampStart i s) := by
  unfold Machine.stampStart
  dsimp only
  split
  · exact c.paceFollowers _ _ (c.judgeLock _ _ (c.modSrc _ _ h))
  · exact c.judgeLock _ _ (c.modSrc _ _ h)

theorem beginFilling (i : Source) (b : BufferId) (n : FrameNo) (h : P s) : P (beginFilling i b n s) :=
  c.port _ _ (c.modBuffer _ _ h)

theorem dropFrame (i : Source) (h : P s) : P (dropFrame i s) := by
  unfold Machine.dropFrame
  dsimp only
  split
  · exact c.raiseSrc _ _ (c.modSrc _ _ h)
  · exact c.raiseSrc _ _ h

theorem takeFrameStart (i : Source) (n w ht : Half) (h : P s) : P (takeFrameStart i n w ht s) := by
  have h1 := c.stampStart i h
  unfold Machine.takeFrameStart
  dsimp only
  split
  · exact c.badFrame _ h1
  · split
    · exact c.beginFilling _ _ _ h1
    · exact c.dropFrame _ h1

theorem intakeFrameStart (i : Source) (n w ht : Half) (h : P s) : P (intakeFrameStart i n w ht s) := by
  unfold Machine.intakeFrameStart
  split
  · exact h
  · dsimp only
    split
    · split
      · exact c.takeFrameStart _ _ _ _ h
      · exact h
    · split
      · exact c.takeFrameStart _ _ _ _ (c.badFrame _ h)
      · exact c.badFrame _ h

theorem intakeLine (i : Source) (n : Half) (d : List Byte) (h : P s) : P (intakeLine i n d s) := by
  unfold Machine.intakeLine
  split
  · exact h
  · split
    · exact h
    · split
      · exact c.port _ _ (c.modBuffer _ _ h)
      · exact c.badFrame _ h

theorem completeBuffer (i : Source) (b : BufferId) (n : FrameNo) (t : Time) (h : P s) : P (completeBuffer i b n t s) :=
  c.port _ _ (c.modBuffer _ _ h)

theorem matchReport (i : Source) (b : BufferId) (n : FrameNo) (h : P s) : P (matchReport i b n s).1 := by
  rcases hm : (s.report i).matching n with ⟨u, m⟩
  have h1 : P (s.setReport i u) := by
    refine c.matched _ _ ?_ h
    have : u.queue = (s.report i).queue.filter fun r => frameLater r.frame n := by
      rw [show u = ((s.report i).matching n).1 from by rw [hm]]; rfl
    rw [this]; exact List.filter_sublist
  cases m with
  | none =>
    have e : (Machine.matchReport i b n s).1 = s.setReport i u := by simp only [Machine.matchReport, hm]
    rw [e]; exact h1
  | some r =>
    have e : (Machine.matchReport i b n s).1 = (s.setReport i u).modBuffer b fun x =>
        { x with info := x.info.map fun m => { m with report := some r } } := by simp only [Machine.matchReport, hm]
    rw [e]; exact c.modBuffer _ _ h1

theorem recordGoodFrame (i : Source) (n : FrameNo) (b : Bool) (h : P s)
    (hq : ∀ r ∈ (s.report i).queue, frameLater r.frame n = true) : P (recordGoodFrame i n b s) := by
  unfold Machine.recordGoodFrame
  dsimp only
  split
  · exact c.warmingFrame _ _ (c.completed _ _ hq h)
  · exact c.completed _ _ hq h

omit c in
/-- After the matching of frame n every queued report is later than it (R129). -/
theorem matchReport_later (i : Source) (b : BufferId) (n : FrameNo) :
    ∀ r ∈ ((Machine.matchReport i b n s).1.report i).queue, frameLater r.frame n = true := by
  have h : ((Machine.matchReport i b n s).1.report i).queue =
      (s.report i).queue.filter fun r => frameLater r.frame n := by
    rcases hm : (s.report i).matching n with ⟨u, m⟩
    have : u.queue = (s.report i).queue.filter fun r => frameLater r.frame n := by
      rw [show u = ((s.report i).matching n).1 from by rw [hm]]; rfl
    rw [← this]
    cases m <;> simp [Machine.matchReport, hm]
  intro r hr
  rw [h] at hr
  exact (List.mem_filter.mp hr).2

theorem goodFrame (i : Source) (b : BufferId) (n : FrameNo) (t : Time) (h : P s) : P (goodFrame i b n t s) := by
  have h1 : ∀ r, P (Machine.recordGoodFrame i n r (Machine.matchReport i b n (Machine.completeBuffer i b n t s)).1) :=
    
    fun r => c.recordGoodFrame _ _ _ (c.matchReport _ _ _ (c.completeBuffer _ _ _ _ h)) (matchReport_later _ _ _)
  unfold Machine.goodFrame
  dsimp only
  split
  · exact c.viewStep _ _ (h1 _)
  · exact h1 _

theorem intakeFrameEnd (i : Source) (n k : Half) (h : P s) : P (intakeFrameEnd i n k s) := by
  unfold Machine.intakeFrameEnd
  split
  · exact h
  · split
    · exact h
    · split
      · exact c.goodFrame _ _ _ _ h
      · exact c.badFrame _ h

end PartClosed

theorem Kept.refl (s : State) : Kept s s :=
  ⟨rfl, rfl, rfl, rfl, rfl, rfl, rfl, rfl, rfl, fun _ => rfl, fun _ => rfl, fun _ => rfl⟩

theorem Kept.closed (s : State) : PartClosed (Kept s) where
  sources v _ h := { h with }
  raised l k h :=
    { h with
      kinds := fun m => by
        rw [raiseOn_notice]; split
        · next e => subst e; exact h.kinds m
        · exact h.kinds m
      groups := fun m => by
        rw [raiseOn_notice]; split
        · next e => subst e; exact h.groups m
        · exact h.groups m }
  pool p h := { h with }
  flush i h := { h with }
  port i p h := { h with }
  sync v _ h := { h with }
  handoff x h := { h with }
  timer t h := { h with }
  free n h := { h with }
  stream st x hx h :=
    { h with
      configs := fun j => by
        rw [State.setStream_stream]; split
        · next e => subst e; rw [hx]; exact h.configs j
        · exact h.configs j }
  dropOldest _ _ _ h := { h with }
  push _ _ h _ _ := { h with }
  ramp h := { h with }
  wantSets _ _ h := { h with }
  matched _ _ _ h := { h with }
  completed _ _ _ h := { h with }
  follow _ _ _ h := { h with }

/-- Every kind pending in `s` is pending in `t`. -/
def StillPending (s t : State) : Prop := ∀ l k, (s.notice l).isPending k = true → (t.notice l).isPending k = true

theorem StillPending.refl (s : State) : StillPending s s := fun _ _ h => h

/-- No packet, no expiry and no view step takes a notice away. -/
theorem StillPending.closed (s : State) : PartClosed (StillPending s) where
  sources _ _ h := h
  raised l k h m n hn := by
    rw [raiseOn_notice]; split
    · next e => subst e; exact Notices.isPending_raise_of _ (h m n hn)
    · exact h m n hn
  pool _ h := h
  flush _ h := h
  port _ _ h := h
  sync _ _ h := h
  handoff _ h := h
  timer _ h := h
  free _ h := h
  stream _ _ _ h := h
  dropOldest _ _ _ h := h
  push _ _ h _ _ := h
  ramp h := h
  wantSets _ _ h := h
  matched _ _ _ h := h
  completed _ _ _ h := h
  follow _ _ _ h := h

end Sys2Proof.Machine
end

