-- ==== Sys2Proof/Laws/Leaving.lean ====
section
/-! SUPPORT. What leaving a state does to the source itself: the controller's answer leaves its record but for the lock, and
the shutdown shared by STOPPING, HELD and FAULTED clears what those rules name. -/

namespace Sys2Proof.Machine

open Sys2Proof

/-! ## A change of primary and the answer to a departure -/

@[simp] theorem changePrimary_src (new : Option Source) (s : State) (j : Source) :
    (changePrimary new s).src j = (s.src j).unlock := by
  simp [changePrimary, State.src]

@[simp] theorem changePrimary_syncLine (new : Option Source) (s : State) (j : Source) :
    (changePrimary new s).syncLine j = (s.syncLine j).retime (s.enr j) j new s.timebase := by
  simp [changePrimary, State.syncLine]

@[simp] theorem changePrimary_handoff (new : Option Source) (s : State) :
    (changePrimary new s).handoff = { s.handoff with primary := new } := rfl

@[simp] theorem changePrimary_params (new : Option Source) (s : State) : (changePrimary new s).params = s.params := rfl
@[simp] theorem changePrimary_planner (new : Option Source) (s : State) : (changePrimary new s).planner = s.planner := rfl
@[simp] theorem changePrimary_view (new : Option Source) (s : State) : (changePrimary new s).view = s.view := rfl
@[simp] theorem changePrimary_pool (new : Option Source) (s : State) : (changePrimary new s).pool = s.pool := rfl
@[simp] theorem changePrimary_timebase (new : Option Source) (s : State) : (changePrimary new s).timebase = s.timebase := rfl
@[simp] theorem changePrimary_notices (new : Option Source) (s : State) : (changePrimary new s).notices = s.notices := rfl
@[simp] theorem changePrimary_notice (new : Option Source) (s : State) (x : Link) :
    (changePrimary new s).notice x = s.notice x := rfl
@[simp] theorem changePrimary_stream (new : Option Source) (s : State) (x : StreamId) :
    (changePrimary new s).stream x = s.stream x := rfl
@[simp] theorem changePrimary_buffer (new : Option Source) (s : State) (x : BufferId) :
    (changePrimary new s).buffer x = s.buffer x := rfl
@[simp] theorem changePrimary_bank (new : Option Source) (s : State) (x : Bank) :
    (changePrimary new s).bank x = s.bank x := rfl
@[simp] theorem changePrimary_port (new : Option Source) (s : State) (x : Source) :
    (changePrimary new s).port x = s.port x := rfl
@[simp] theorem changePrimary_report (new : Option Source) (s : State) (x : Source) :
    (changePrimary new s).report x = s.report x := rfl
@[simp] theorem changePrimary_calTable (new : Option Source) (s : State) (x : Source) :
    (changePrimary new s).calTable x = s.calTable x := rfl
@[simp] theorem changePrimary_enr (new : Option Source) (s : State) (i : Source) : (changePrimary new s).enr i = s.enr i := by
  simp [State.enr, SourceRecord.unlock]

/-- Only the sources, the sync lines, the controller, the view timer and the notices of `t` differ from those of `s`. -/
def OnlyControl (s t : State) : Prop :=
  t = { s with sources := t.sources, sync := t.sync, handoff := t.handoff, view := { s.view with timer := t.view.timer },
               notices := t.notices }

theorem OnlyControl.refl (s : State) : OnlyControl s s := rfl

theorem OnlyControl.trans {s t u : State} (h : OnlyControl s t) (h' : OnlyControl t u) : OnlyControl s u := by
  unfold OnlyControl at *
  rw [h', h]

theorem raise_only (k : Notice) (s : State) : OnlyControl s (raise k s) := rfl

theorem changePrimary_only (new : Option Source) (s : State) : OnlyControl s (changePrimary new s) := rfl

theorem setHandoff_only (h : Handoff) (s : State) : OnlyControl s (s.setHandoff h) := rfl

theorem settleAtOnce_only (s : State) : OnlyControl s (settleAtOnce s) := by
  unfold settleAtOnce; split <;> rfl

theorem moveToLive_only (i : Source) (s : State) : OnlyControl s (moveToLive i s) := rfl

theorem settleAtOnce_src (s : State) (j : Source) : (settleAtOnce s).src j = s.src j := by
  unfold settleAtOnce; split <;> rfl

theorem settleAtOnce_syncLine (s : State) (j : Source) : (settleAtOnce s).syncLine j = s.syncLine j := by
  unfold settleAtOnce; split <;> rfl

theorem settleAtOnce_notice (s : State) (l : Link) : (settleAtOnce s).notice l = s.notice l := by
  unfold settleAtOnce; split <;> rfl

theorem forceCompletion_only (r : HandoffRecord) (s : State) : OnlyControl s (forceCompletion r s) :=
  (((changePrimary_only _ _).trans (setHandoff_only _ _)).trans (setHandoff_only _ _)).trans
    ((raise_only _ _).trans (settleAtOnce_only _))

theorem abortHandoff_only (s : State) : OnlyControl s (abortHandoff s) :=
  ((setHandoff_only _ _).trans (setHandoff_only _ _)).trans (raise_only _ _)

theorem enterNoPrimary_only (s : State) : OnlyControl s (enterNoPrimary s) := rfl

theorem emergencyCut_only (s : State) : OnlyControl s (emergencyCut s) := by
  have h1 : OnlyControl s (raise (.handoff .primaryLost) (setRecord none s)) := (setHandoff_only _ _).trans (raise_only _ _)
  unfold emergencyCut
  dsimp only
  split
  · exact ((h1.trans (moveToLive_only _ _)).trans (changePrimary_only _ _)).trans (setHandoff_only _ _)
  · exact h1.trans (enterNoPrimary_only _)

theorem departure_only (i : Source) (s : State) : OnlyControl s (departure i s) := by
  unfold departure
  split
  · split
    · split
      · exact forceCompletion_only _ _
      · split
        · exact abortHandoff_only _
        · exact .refl s
    · split
      · exact emergencyCut_only _
      · exact .refl s
  · split
    · exact emergencyCut_only _
    · exact .refl s

theorem bestOf_mem {α : Type} {f : α → α → α} (hf : ∀ a b, f a b = a ∨ f a b = b) {l : List α} {x : α}
    (h : bestOf f l = some x) : x ∈ l := by
  cases l with
  | nil => cases h
  | cons a l =>
    simp only [bestOf, Option.some.injEq] at h
    subst h
    have : ∀ (l : List α) (a : α), l.foldl f a ∈ a :: l := by
      intro l
      induction l with
      | nil => intro a; simp
      | cons b l ih =>
        intro a
        rw [List.foldl_cons]
        have := ih (f a b)
        rcases hf a b with e | e <;> rw [e] at this ⊢ <;> simp only [List.mem_cons] at this ⊢ <;> tauto
    exact this l a

theorem largestBase_mem {s : State} {l : List Source} {i : Source} (h : largestBase s l = some i) : i ∈ l :=
  bestOf_mem (fun a b => by split <;> simp) h

theorem smallestBase_mem {s : State} {l : List Source} {i : Source} (h : smallestBase s l = some i) : i ∈ l :=
  bestOf_mem (fun a b => by split <;> simp) h

theorem nearestBelow_mem {s : State} {l : List Source} {c : Nat} {i : Source} (h : nearestBelow s l c = some i) : i ∈ l := by
  unfold nearestBelow at h
  split at h
  · next j e => cases h; exact List.mem_of_mem_filter (largestBase_mem e)
  · exact smallestBase_mem h

/-- A successor is in STANDBY (R62). -/
theorem successor_standby {s : State} {i : Source} (h : successor s = some i) : (s.src i).state = .standby := by
  unfold successor at h
  dsimp only at h
  split at h
  · next j e =>
    cases h
    have := Option.eq_some_of_isSome (o := (wantedWithoutReference s s.planner.commanded).filter
      fun i => decide ((s.src i).state = .standby)) (by simp [e])
    have h2 := (Option.filter_eq_some_iff.mp e).2
    simpa using h2
  · have := nearestBelow_mem h
    simpa using (List.mem_filter.mp this).2

/-- The controller's answer leaves the record of a source that is not in STANDBY, but for its lock. -/
theorem departure_src {i j : Source} {s : State} (hj : (s.src j).state ≠ .standby) :
    (departure i s).src j = s.src j ∨ (departure i s).src j = (s.src j).unlock := by
  have cut : (emergencyCut s).src j = s.src j ∨ (emergencyCut s).src j = (s.src j).unlock := by
    unfold emergencyCut
    dsimp only
    split
    · next k e =>
      have hk : (s.src k).state = .standby := successor_standby e
      have : j ≠ k := by rintro rfl; exact hj hk
      right
      simp [markCut, moveToLive, State.modSrc, this, setRecord]
    · right; simp [enterNoPrimary, setRecord]
  unfold departure
  split
  · split
    · split
      · right; simp [forceCompletion, settleAtOnce_src, markForced, setRecord]
      · split
        · left; simp [abortHandoff, markAborted, setRecord]
        · left; rfl
    · split
      · exact cut
      · left; rfl
  · split
    · exact cut
    · left; rfl

/-- A line that is not pulsing stays as it is. -/
theorem departure_syncLine {i j : Source} {s : State} (hj : (s.syncLine j).pulsing = false) :
    (departure i s).syncLine j = s.syncLine j := by
  have re : ∀ e new now, (s.syncLine j).retime e j new now = s.syncLine j := by
    intro e new now; simp [SyncLine.retime, hj]
  have cut : (emergencyCut s).syncLine j = s.syncLine j := by
    unfold emergencyCut
    dsimp only
    split
    · simp [markCut, moveToLive, State.modSrc, setRecord, re]
    · simp [enterNoPrimary, setRecord, re]
  unfold departure
  split
  · split
    · split
      · simp [forceCompletion, settleAtOnce_syncLine, markForced, setRecord, re]
      · split
        · simp [abortHandoff, markAborted, setRecord]
        · rfl
    · split
      · exact cut
      · rfl
  · split
    · exact cut
    · rfl

/-! ## The shutdown of a source -/

/-- The record a shutdown leaves. -/
def SourceRecord.shut (r : SourceRecord) (streaming : Bool) : SourceRecord :=
  let r := { r with warm := none, linger := none, chain := [], claim := 0 }
  if streaming then
    { r.unlock with lastCompleted := none, lastStart := none, qualify := 0, bad := 0, stall := none }
  else r

/-- A source out of the claim queue keeps its record at the release of its chain, but for the chain. -/
theorem releaseChain_src (i : Source) (s : State) (h : i ∉ s.pool.claimQueue) :
    (releaseChain i s).src i = { s.src i with chain := [] } ∧ i ∉ (releaseChain i s).pool.claimQueue := by
  unfold releaseChain
  dsimp only
  refine ⟨?_, fun hq => h ?_⟩
  · rw [(settleFreed_delivered _ _).out i (by simpa [State.modSrc] using h)]
    simp [State.modSrc]
  · have := (settleFreed_delivered _ _).queue i hq
    simpa [State.modSrc] using this

theorem shutDown_src (i : Source) (was : SourceState) (s : State) :
    (shutDown i was s).src i = (s.src i).shut was.streaming ∧ i ∉ (shutDown i was s).pool.claimQueue ∧
      (shutDown i was s).syncLine i = .reset ∧
      (was.streaming = true → (shutDown i was s).report i = ⟨[], none⟩ ∧ (shutDown i was s).port i = .idle) := by
  have hq : i ∉ (cancelClaim i (s.modSrc i fun r => { r with warm := none, linger := none })).pool.claimQueue := by
    simp [cancelClaim, State.modSrc]
  have hs : (cancelClaim i (s.modSrc i fun r => { r with warm := none, linger := none })).src i =
      { s.src i with warm := none, linger := none, claim := 0 } := by
    simp [cancelClaim, State.modSrc]
  obtain ⟨h1, h2⟩ := releaseChain_src i _ hq
  rw [hs] at h1
  unfold shutDown
  dsimp only
  generalize releaseChain i (cancelClaim i (s.modSrc i fun r => { r with warm := none, linger := none })) = u at *
  cases hw : was.streaming
  · simp [stopPulsing, h1, h2, SourceRecord.shut]
  · simp [stopPulsing, leaveStreaming, State.modSrc, h1, h2, SourceRecord.shut]

/-! ## What the shutdown leaves as it is (R11) -/

/-- What the controller's answer reads besides the source's own state: the controller, the planner, the view, the parameters, the
timebase, and the states, enrolments and lines of the other sources. -/
structure SameForControl (i : Source) (s u : State) : Prop where
  handoff : u.handoff = s.handoff
  planner : u.planner = s.planner
  view : u.view = s.view
  params : u.params = s.params
  timebase : u.timebase = s.timebase
  others : ∀ j, j ≠ i → (u.src j).state = (s.src j).state ∧ (u.src j).enrolment = (s.src j).enrolment ∧
    u.syncLine j = s.syncLine j

theorem SameForControl.trans {i : Source} {s t u : State} (h : SameForControl i s t) (h' : SameForControl i t u) :
    SameForControl i s u :=
  ⟨h'.handoff.trans h.handoff, h'.planner.trans h.planner, h'.view.trans h.view, h'.params.trans h.params,
    h'.timebase.trans h.timebase, fun j hj =>
      ⟨(h'.others j hj).1.trans (h.others j hj).1, (h'.others j hj).2.1.trans (h.others j hj).2.1,
        (h'.others j hj).2.2.trans (h.others j hj).2.2⟩⟩

theorem modSrc_sameForControl (i : Source) (f : SourceRecord → SourceRecord) (s : State) : SameForControl i s (s.modSrc i f) :=
  ⟨rfl, rfl, rfl, rfl, rfl, fun j hj => by simp [State.modSrc, hj]⟩

theorem raise_sameForControl (i : Source) (k : Notice) (s : State) : SameForControl i s (raise k s) :=
  ⟨rfl, rfl, rfl, rfl, rfl, fun _ _ => ⟨rfl, rfl, rfl⟩⟩

theorem releaseChain_sameForControl (i : Source) (s : State) : SameForControl i s (releaseChain i s) := by
  have o := releaseChain_only i s
  refine ⟨o.handoff, o.planner, o.view, o.params, o.timebase, fun j hj => ?_⟩
  have h : SameButChain (s.src j) ((releaseChain i s).src j) := by
    have h := (settleFreed_delivered ((s.src i).chain.filter fun b => !(s.buffer b).staysPinned)
      ((s.mapBuffers fun b x =>
        if b ∈ (s.src i).chain then (if x.staysPinned then { x with state := .retiring } else x.cleared .free)
        else x).modSrc i fun r => { r with chain := [] })).only j
    simp only [State.modSrc, State.setSrc_src, if_neg hj, State.mapBuffers_src] at h
    exact h
  unfold SameButChain at h
  exact ⟨by rw [h], by rw [h], o.syncLine j⟩

theorem shutDown_sameForControl (i : Source) (was : SourceState) (s : State) : SameForControl i s (shutDown i was s) := by
  unfold shutDown
  dsimp only
  have h0 : ∀ u, SameForControl i u (cancelClaim i u) := fun u =>
    ⟨rfl, rfl, rfl, rfl, rfl, fun j hj => by simp [cancelClaim, State.modSrc, hj]⟩
  have h1 := ((modSrc_sameForControl i (fun r => { r with warm := none, linger := none }) s).trans (h0 _)).trans
    (releaseChain_sameForControl i _)
  generalize releaseChain i _ = u at h1
  refine h1.trans ?_
  cases was.streaming
  · exact ⟨rfl, rfl, rfl, rfl, rfl, fun j hj => by simp [stopPulsing, hj]⟩
  · exact ⟨rfl, rfl, rfl, rfl, rfl, fun j hj => by simp [stopPulsing, leaveStreaming, State.modSrc, hj]⟩

/-- R11, R59: the answer of the controller to a state that looks the same to it, when the source itself is not in STANDBY. -/
theorem departs_of {i : Source} {s u : State} (h : SameForControl i s u) (hl : u.syncLine i = .reset)
    (hs : (u.src i).state ≠ .standby) : DepartsFrom i s (departure i u) := by
  refine ⟨u, rfl, h.handoff, h.planner, h.view, h.params, h.timebase, ?_, hl, h.others⟩
  rcases departure_src (i := i) hs with e | e <;> rw [e]
  rfl

theorem absentIfPending_sameForControl (i : Source) (s : State) : SameForControl i s (absentIfPending i s) := by
  unfold absentIfPending
  split
  · exact modSrc_sameForControl i _ s
  · exact ⟨rfl, rfl, rfl, rfl, rfl, fun _ _ => ⟨rfl, rfl, rfl⟩⟩

theorem absentIfPending_line (i j : Source) (s : State) : (absentIfPending i s).syncLine j = s.syncLine j := by
  unfold absentIfPending
  split <;> rfl

theorem absentIfPending_state (i : Source) (s : State) :
    ((absentIfPending i s).src i).state = if (s.src i).withdrawPending then .absent else (s.src i).state := by
  unfold absentIfPending
  split <;> simp [enterAbsent, State.modSrc]

end Sys2Proof.Machine
end

