-- ==== Sys2Proof/Laws/Handoff.lean ====
section
/-! SUPPORT. What the moves between STANDBY and LIVE and an entry to SETTLE do, field by field, and that every change of primary
has its effects on the locks and the sync lines. -/

namespace Sys2Proof.Machine

open Sys2Proof

/-- R5, R11: the record of a source after its move to STANDBY. -/
theorem moveToStandby_src (i j : Source) (s : State) :
    (moveToStandby i s).src j =
      if j = i then
        { s.src i with
          state := .standby
          linger := if (s.src i).want = true ∨ (s.src i).linger ≠ none then (s.src i).linger
            else some (timeAfter s.timebase (msToUs s.params.lingerTime)) }
      else s.src j := by
  unfold moveToStandby startLinger
  by_cases hj : j = i
  · subst hj
    cases hw : (s.src j).want <;> cases hl : (s.src j).linger <;> simp [State.modSrc, hw, hl]
  · cases hw : (s.src i).want <;> cases hl : (s.src i).linger <;> simp [State.modSrc, hw, hl, hj]

/-- A move to STANDBY changes that source's record only. -/
theorem moveToStandby_only (i : Source) (s : State) :
    moveToStandby i s = { s with sources := (moveToStandby i s).sources } := by
  unfold moveToStandby startLinger
  dsimp only
  split
  · rfl
  · split <;> rfl

@[simp] theorem moveToStandby_handoff (i : Source) (s : State) : (moveToStandby i s).handoff = s.handoff := by
  rw [moveToStandby_only]

@[simp] theorem moveToStandby_params (i : Source) (s : State) : (moveToStandby i s).params = s.params := by
  rw [moveToStandby_only]

@[simp] theorem moveToStandby_notice (i : Source) (s : State) (l : Link) : (moveToStandby i s).notice l = s.notice l := by
  rw [moveToStandby_only]
  rfl

/-- R58: what an entry to SETTLE leaves of the record. -/
theorem settleAtOnce_handoff (s : State) :
    (settleAtOnce s).handoff =
      { s.handoff with record := if s.params.settleSteps = 0 then none else s.handoff.record } := by
  unfold settleAtOnce
  split <;> simp [setRecord, *]

/-- R57: the controller after an entry to SETTLE. -/
theorem enterSettle_handoff (r : HandoffRecord) (s : State) :
    (enterSettle r s).handoff =
      { s.handoff with
        primary := some r.dst
        record := if s.params.settleSteps = 0 then none
          else some { r with phase := .settle, weight := 256, count := 0 } } := by
  unfold enterSettle
  dsimp only
  rw [settleAtOnce_handoff]
  simp [setRecord]

/-- R57, R47: the sources after an entry to SETTLE. -/
theorem enterSettle_src (r : HandoffRecord) (s : State) (j : Source) :
    (enterSettle r s).src j = (moveToStandby r.src (changePrimary (some r.dst) s)).src j := by
  unfold enterSettle
  rw [settleAtOnce_src]
  simp [setRecord]

/-- R57: HANDOFF_DONE. -/
theorem enterSettle_notice (r : HandoffRecord) (s : State) (l : Link) :
    (enterSettle r s).notice l = (s.notice l).raise (.handoff .done) := by
  unfold enterSettle
  rw [settleAtOnce_notice]
  simp [setRecord]

/-! ## The effects of a change of primary (R47, R144) -/

/-- A change of primary has them. -/
theorem changePrimary_changes (new : Option Source) (s : State) :
    PrimaryChanged (changePrimary new s) (changePrimary new s) := fun i => ⟨rfl, by simp [SourceRecord.unlock]⟩

/-- What keeps the lines and the locks keeps the effects. -/
theorem PrimaryChanged.kept {u t t' : State} (h : PrimaryChanged u t)
    (hk : ∀ i, t'.syncLine i = t.syncLine i ∧ (t'.src i).locked = (t.src i).locked ∧
      (t'.src i).matchCount = (t.src i).matchCount) : PrimaryChanged u t' := by
  intro i
  rw [(hk i).1, (hk i).2.1, (hk i).2.2]
  exact h i

/-- A move to LIVE leaves what the change of primary reads. -/
theorem changePrimary_moveToLive (new : Option Source) (i j : Source) (s : State) :
    (changePrimary new (moveToLive i s)).syncLine j = (changePrimary new s).syncLine j := by
  have e : (moveToLive i s).enr j = s.enr j := by
    by_cases h : j = i <;> simp [State.enr, moveToLive, State.modSrc, h]
  rw [changePrimary_syncLine, changePrimary_syncLine, e]
  rfl

/-- A move to STANDBY leaves the lines and the locks. -/
theorem moveToStandby_keeps (i j : Source) (s : State) :
    (moveToStandby i s).syncLine j = s.syncLine j ∧ ((moveToStandby i s).src j).locked = (s.src j).locked ∧
      ((moveToStandby i s).src j).matchCount = (s.src j).matchCount := by
  refine ⟨by rw [moveToStandby_only]; rfl, ?_⟩
  rw [moveToStandby_src]
  split
  · next h => subst h; exact ⟨rfl, rfl⟩
  · exact ⟨rfl, rfl⟩

theorem enterSettle_changes (r : HandoffRecord) (s : State) :
    PrimaryChanged (changePrimary (some r.dst) s) (enterSettle r s) := by
  refine (changePrimary_changes _ _).kept fun i => ?_
  have h := moveToStandby_keeps r.src i (changePrimary (some r.dst) s)
  unfold enterSettle
  rw [settleAtOnce_src, settleAtOnce_syncLine]
  exact h

theorem cutOver_changes (r : HandoffRecord) (s : State) :
    PrimaryChanged (changePrimary (some r.dst) s) (cutOver r s) := by
  intro i
  have h := moveToStandby_keeps r.src i (changePrimary (some r.dst) (moveToLive r.dst s))
  rw [changePrimary_moveToLive] at h
  unfold cutOver
  rw [settleAtOnce_src, settleAtOnce_syncLine]
  generalize hu : moveToStandby r.src (changePrimary (some r.dst) (moveToLive r.dst s)) = u at h ⊢
  rw [changePrimary_src] at h
  simpa [setRecord, markCut, SourceRecord.unlock] using h

theorem makeFirstPrimary_changes (w : Source) (s : State) :
    PrimaryChanged (changePrimary (some w) s) (makeFirstPrimary w s) := by
  intro i
  rw [← changePrimary_moveToLive (some w) w i s]
  unfold makeFirstPrimary markCut
  exact ⟨rfl, by simp [SourceRecord.unlock]⟩

theorem reverseHandoff_changes (r : HandoffRecord) (s : State) :
    PrimaryChanged (changePrimary (some r.dst) s) (reverseHandoff r s) := fun i =>
  ⟨rfl, by simp [reverseHandoff, markReversed, setRecord, SourceRecord.unlock]⟩

theorem forceCompletion_changes (r : HandoffRecord) (s : State) :
    PrimaryChanged (changePrimary (some r.dst) s) (forceCompletion r s) := by
  refine (changePrimary_changes _ _).kept fun i => ?_
  unfold forceCompletion
  rw [settleAtOnce_src, settleAtOnce_syncLine]
  exact ⟨rfl, rfl, rfl⟩

/-- The emergency cut changes to the successor, or to none. -/
theorem emergencyCut_changes (s : State) : PrimaryChanged (changePrimary (successor s) s) (emergencyCut s) := by
  have e : successor (raise (.handoff .primaryLost) (setRecord none s)) = successor s := rfl
  unfold emergencyCut
  dsimp only
  rw [e]
  split
  · next i h =>
    rw [h]
    intro j
    have h := changePrimary_moveToLive (some i) i j (raise (.handoff .primaryLost) (setRecord none s))
    unfold markCut
    exact ⟨h, by simp [SourceRecord.unlock]⟩
  · next h =>
    rw [h]
    exact fun j => by simp [enterNoPrimary, setRecord, SourceRecord.unlock]

end Sys2Proof.Machine
end

