-- ==== Sys2Proof/Laws/PoolSound.lean ====
section
/-! SUPPORT. The Buffer Pool's own part of ChainsOk, BanksOk and PinsOk, and that each operation of the pool keeps it. What
the operations need of the rest of State stands in their hypotheses. -/

namespace Sys2Proof.Machine

open Sys2Proof

/-- R113, R115, R117, R119, R121: the chains are disjoint and hold the EMPTY, FILLING and READY buffers, the claim queue names
who has something outstanding, a bank at rest is all FREE, and the pins suit the buffers' states. -/
structure PoolSound (s : State) : Prop where
  nodup : ∀ i, (s.src i).chain.Nodup
  disjoint : ∀ i j b, b ∈ (s.src i).chain → b ∈ (s.src j).chain → i = j
  placed : ∀ b, (∃ i, b ∈ (s.src i).chain) ↔ (s.buffer b).state ∈ [.empty, .filling, .ready]
  queueNodup : s.pool.claimQueue.Nodup
  queue : ∀ i, i ∈ s.pool.claimQueue ↔ (s.src i).claim ≠ 0
  banks : BanksOk s
  noPins : ∀ b, (s.buffer b).state ∈ [.free, .empty, .filling] → (s.buffer b).pins = 0
  pinned : ∀ b, (s.buffer b).state = .retiring → (s.buffer b).pins ≠ 0

/-- The invariants of State hold the pool's own part. -/
theorem PoolSound.of_ok {s : State} (hc : ChainsOk s) (hb : BanksOk s) (hp : PinsOk s) : PoolSound s :=
  ⟨hc.1, hc.2.1, hc.2.2.1, hc.2.2.2.2.2.1, hc.2.2.2.2.2.2.1, hb, hp.2.1, hp.2.2.1⟩

theorem mem_bankOf (b : BufferId) : b ∈ (bankOf b).buffers := by
  revert b
  decide

theorem bankOf_of_mem {b : BufferId} {k : Bank} (h : b ∈ k.buffers) : bankOf b = k := by
  revert h b
  cases k <;> decide

theorem mem_allBuffers (b : BufferId) : b ∈ allBuffers := by
  revert b
  decide

/-- `t` is `s` with FREE buffers added to the tails of chains, each paid from its source's claim; every other buffer is as it
was. -/
structure Served (s t : State) : Prop where
  chain : ∀ i, (s.src i).chain <+: (t.src i).chain
  share : ∀ i, (t.src i).chain.length + (t.src i).claim = (s.src i).chain.length + (s.src i).claim
  kept : ∀ b, (s.buffer b).state ≠ .free → t.buffer b = s.buffer b
  pins : ∀ b, (t.buffer b).pins = (s.buffer b).pins

theorem Served.refl (s : State) : Served s s := ⟨fun _ => List.prefix_refl _, fun _ => rfl, fun _ _ => rfl, fun _ => rfl⟩

theorem Served.trans {s t u : State} (h : Served s t) (h' : Served t u) : Served s u where
  chain i := (h.chain i).trans (h'.chain i)
  share i := (h'.share i).trans (h.share i)
  kept b hb := by
    have e := h.kept b hb
    rw [h'.kept b (by rw [e]; exact hb), e]
  pins b := (h'.pins b).trans (h.pins b)

/-! ## Small steps -/

/-- A claim and the queue rewritten together. -/
theorem PoolSound.claims {s t : State} (h : PoolSound s) (hc : ∀ i, (t.src i).chain = (s.src i).chain)
    (hb : ∀ b, t.buffer b = s.buffer b) (hk : ∀ k, t.bank k = s.bank k) (hn : t.pool.claimQueue.Nodup)
    (hq : ∀ i, i ∈ t.pool.claimQueue ↔ (t.src i).claim ≠ 0) : PoolSound t where
  nodup i := by rw [hc]; exact h.nodup i
  disjoint i j b := by rw [hc, hc]; exact h.disjoint i j b
  placed b := by simp only [hc, hb]; exact h.placed b
  queueNodup := hn
  queue := hq
  banks k := by rw [hk]; simp only [hb]; exact h.banks k
  noPins b := by rw [hb]; exact h.noPins b
  pinned b := by rw [hb]; exact h.pinned b

/-- What the pool's part does not read may change. -/
theorem PoolSound.congr {s t : State} (h : PoolSound s) (hc : ∀ i, (t.src i).chain = (s.src i).chain)
    (hl : ∀ i, (t.src i).claim = (s.src i).claim) (hp : t.pool = s.pool) : PoolSound t := by
  refine h.claims hc (fun b => ?_) (fun k => ?_) ?_ (fun i => ?_)
  · simp only [State.buffer, hp]
  · simp only [State.bank, hp]
  · rw [hp]; exact h.queueNodup
  · rw [hp, hl]; exact h.queue i

theorem joinChain_buffer (i : Source) (b : BufferId) (s : State) (b' : BufferId) :
    (joinChain i b s).buffer b' = if b' = b then (s.buffer b).cleared .empty else s.buffer b' := by
  by_cases e : b' = b <;> simp [joinChain, State.modSrc, e]

theorem joinChain_bank (i : Source) (b : BufferId) (s : State) (k : Bank) :
    (joinChain i b s).bank k = if k = bankOf b then { s.bank k with dormancy := none } else s.bank k := by
  by_cases e : k = bankOf b <;> simp [joinChain, State.modSrc, e]

/-- R117: a FREE buffer of an AWAKE bank joins a chain. -/
theorem joinChain_sound {i : Source} {b : BufferId} {s : State} (h : PoolSound s) (hf : (s.buffer b).state = .free)
    (ha : (s.bank (bankOf b)).state = .awake) : PoolSound (joinChain i b s) := by
  have hs : ∀ j, (joinChain i b s).src j = if j = i then { s.src i with chain := (s.src i).chain ++ [b] } else s.src j :=
    joinChain_src i b s
  have hb : ∀ b', (joinChain i b s).buffer b' = if b' = b then (s.buffer b).cleared .empty else s.buffer b' := by
    intro b'
    by_cases e : b' = b <;> simp [joinChain, State.modSrc, e]
  have hk : ∀ k, (joinChain i b s).bank k = if k = bankOf b then { s.bank k with dormancy := none } else s.bank k := by
    intro k
    by_cases e : k = bankOf b <;> simp [joinChain, State.modSrc, e]
  have hout : ∀ j, b ∉ (s.src j).chain := fun j hj => by
    have := (h.placed b).mp ⟨j, hj⟩
    simp [hf] at this
  have hm : ∀ j b', b' ∈ ((joinChain i b s).src j).chain ↔ b' ∈ (s.src j).chain ∨ (j = i ∧ b' = b) := by
    intro j b'
    rw [hs]
    by_cases e : j = i <;> simp [e]
  refine ⟨fun j => ?_, fun j k b' hj hk' => ?_, fun b' => ?_, ?_, fun j => ?_, fun k hk' b' hb' => ?_, fun b' hb' => ?_,
    fun b' hb' => ?_⟩
  · rw [hs]
    split
    · exact List.nodup_append.mpr ⟨h.nodup i, List.nodup_singleton b, fun x hx y hy => by
        rintro rfl
        obtain rfl := List.mem_singleton.mp hy
        exact hout i hx⟩
    · exact h.nodup j
  · rw [hm] at hj hk'
    rcases hj with hj | ⟨rfl, rfl⟩ <;> rcases hk' with hk' | ⟨rfl, e⟩
    · exact h.disjoint j k b' hj hk'
    · subst e; exact absurd hj (hout j)
    · exact absurd hk' (hout k)
    · rfl
  · simp only [hm, hb]
    by_cases e : b' = b
    · subst e
      simp [Buffer.cleared]
    · simpa [e] using h.placed b'
  · have : (joinChain i b s).pool.claimQueue = s.pool.claimQueue := rfl
    rw [this]; exact h.queueNodup
  · have : (joinChain i b s).pool.claimQueue = s.pool.claimQueue := rfl
    rw [this, h.queue, hs]
    by_cases e : j = i <;> simp [e]
  · rw [hk] at hk'
    rw [hb]
    by_cases ek : k = bankOf b
    · subst ek
      simp [ha] at hk'
    · simp only [ek, if_false] at hk'
      have : b' ≠ b := by
        rintro rfl
        exact ek (bankOf_of_mem hb').symm
      rw [if_neg this]
      exact h.banks k hk' b' hb'
  · rw [hb] at hb' ⊢
    split at hb'
    · next e => rw [if_pos e]; exact h.noPins b (by simp [hf])
    · next e => rw [if_neg e]; exact h.noPins b' hb'
  · rw [hb] at hb' ⊢
    split at hb'
    · simp [Buffer.cleared] at hb'
    · next e => rw [if_neg e]; exact h.pinned b' hb'

/-! ## Delivery (R116, R119, R123) -/

/-- R123: a delivery. -/
theorem deliver_sound {s : State} (h : PoolSound s) (b : BufferId) : PoolSound (deliver s b) ∧ Served s (deliver s b) := by
  unfold deliver
  split
  · exact ⟨h, .refl s⟩
  · next i rest e =>
    split
    · next hd =>
      simp only [Bool.and_eq_true, decide_eq_true_eq] at hd
      have hj := joinChain_sound (i := i) h hd.2 hd.1
      have hq : (s.src i).claim ≠ 0 := (h.queue i).mp (by simp [e])
      have hi : i ∉ rest := (List.nodup_cons.mp (e ▸ h.queueNodup)).1
      have hr : rest.Nodup := (List.nodup_cons.mp (e ▸ h.queueNodup)).2
      have hu := joinChain_src i b s
      have hub := joinChain_buffer i b s
      have huq : (joinChain i b s).pool.claimQueue = s.pool.claimQueue := rfl
      generalize joinChain i b s = u at hj hu hub huq
      have hsrc : ∀ c j, (u.modSrc i fun r => { r with claim := c }).src j =
          if j = i then { s.src i with chain := (s.src i).chain ++ [b], claim := c } else s.src j := by
        intro c j
        by_cases ej : j = i <;> simp [State.modSrc, hu, ej]
      have hlen : (u.src i).claim = (s.src i).claim := by simp [hu]
      have hchain : ∀ c j, ((u.modSrc i fun r => { r with claim := c }).src j).chain = (u.src j).chain := by
        intro c j
        by_cases ej : j = i <;> simp [State.modSrc, ej]
      have served : ∀ t : State,
          (∀ j, t.src j = (u.modSrc i fun r => { r with claim := (s.src i).claim - 1 }).src j) →
          (∀ b', t.buffer b' = u.buffer b') → Served s t := by
        intro t ht hb
        refine ⟨fun j => ?_, fun j => ?_, fun b' hb' => ?_, fun b' => ?_⟩
        · rw [ht, hsrc]
          by_cases ej : j = i <;> simp [ej]
        · rw [ht, hsrc]
          by_cases ej : j = i
          · subst ej
            simp only [if_true, List.length_append, List.length_singleton]
            omega
          · simp [ej]
        · rw [hb, hub, if_neg]
          rintro rfl
          exact hb' hd.2
        · rw [hb, hub]
          split
          · next eb => subst eb; rfl
          · rfl
      dsimp only
      rw [hlen]
      split
      · next hz =>
        refine ⟨hj.claims (fun j => hchain _ j) (fun _ => rfl) (fun _ => rfl) hr (fun j => ?_),
          served _ (fun _ => rfl) fun _ => rfl⟩
        have := h.queue j
        rw [e, List.mem_cons] at this
        rw [State.setClaimQueue_src, hsrc]
        by_cases ej : j = i
        · subst ej
          simp [hi, hz]
        · simpa [ej] using this
      · next hz =>
        refine ⟨hj.claims (fun j => hchain _ j) (fun _ => rfl) (fun _ => rfl) ?_ (fun j => ?_),
          served _ (fun _ => rfl) fun _ => rfl⟩
        · exact huq ▸ h.queueNodup
        · have := h.queue j
          rw [hsrc]
          change j ∈ u.pool.claimQueue ↔ _
          rw [huq]
          by_cases ej : j = i
          · subst ej
            simp only [if_true]
            exact ⟨fun _ => hz, fun _ => this.mpr hq⟩
          · simpa [ej] using this
    · exact ⟨h, .refl s⟩

/-- R119: a bank of FREE buffers may start its deadline. -/
theorem considerDormancy_sound {s : State} (h : PoolSound s) (k : Bank) :
    PoolSound (considerDormancy k s) ∧ Served s (considerDormancy k s) := by
  unfold considerDormancy
  dsimp only
  split
  · next hd =>
    simp only [Bool.and_eq_true, decide_eq_true_eq, bankAllFree, List.all_eq_true] at hd
    refine ⟨⟨h.nodup, h.disjoint, h.placed, h.queueNodup, h.queue, fun k' hk b hb => ?_, h.noPins, h.pinned⟩,
      ⟨fun _ => List.prefix_refl _, fun _ => rfl, fun _ _ => rfl, fun _ => rfl⟩⟩
    by_cases e : k' = k
    · subst e
      exact hd.1.1.2 b hb
    · exact h.banks k' (by simpa [e] using hk) b hb
  · exact ⟨h, .refl s⟩

/-- What keeps the pool and serves claims, applied over a list. -/
theorem soundLoop {α : Type} {f : State → α → State} (hf : ∀ s a, PoolSound s → PoolSound (f s a) ∧ Served s (f s a))
    (l : List α) {s : State} (h : PoolSound s) : PoolSound (l.foldl f s) ∧ Served s (l.foldl f s) := by
  induction l generalizing s with
  | nil => exact ⟨h, .refl s⟩
  | cons a l ih =>
    have ha := hf s a h
    have hl := ih ha.1
    exact ⟨hl.1, ha.2.trans hl.2⟩

/-- Buffers that became FREE are settled. -/
theorem settleFreed_sound (freed : List BufferId) {s : State} (h : PoolSound s) :
    PoolSound (settleFreed freed s) ∧ Served s (settleFreed freed s) := by
  unfold settleFreed
  have h1 := soundLoop (fun s b h => deliver_sound h b) (allBuffers.filter (· ∈ freed)) h
  have h2 := soundLoop
    (f := fun s k => if (allBuffers.filter (· ∈ freed)).any fun b => decide (bankOf b = k) then considerDormancy k s else s)
    (fun s k h => by
      split
      · exact considerDormancy_sound h k
      · exact ⟨h, .refl s⟩) Bank.all h1.1
  exact ⟨h2.1, h1.2.trans h2.2⟩

/-! ## Claims (R120 to R124) -/

/-- R124: a cancelled claim. -/
theorem cancelClaim_sound {s : State} (h : PoolSound s) (i : Source) : PoolSound (cancelClaim i s) := by
  refine h.claims (fun j => ?_) (fun _ => rfl) (fun _ => rfl) (h.queueNodup.filter _) (fun j => ?_)
  · by_cases e : j = i <;> simp [cancelClaim, State.modSrc, e]
  · have := h.queue j
    change j ∈ s.pool.claimQueue.filter (· ≠ i) ↔ _
    by_cases e : j = i
    · subst e
      simp [cancelClaim, State.modSrc]
    · simp [cancelClaim, State.modSrc, e, this]

/-- A bank that is all FREE may take any state. -/
theorem PoolSound.setBank {s : State} (h : PoolSound s) (k : Bank) (x : BankRecord)
    (hx : (x.state ≠ .awake ∨ x.dormancy ≠ none) → ∀ b ∈ k.buffers, (s.buffer b).state = .free) :
    PoolSound (s.setBank k x) := by
  refine ⟨h.nodup, h.disjoint, h.placed, h.queueNodup, h.queue, fun k' hk b hb => ?_, h.noPins, h.pinned⟩
  by_cases e : k' = k
  · subst e
    exact hx (by simpa using hk) b hb
  · exact h.banks k' (by simpa [e] using hk) b hb

/-- R122: waking DORMANT banks. -/
theorem wakeForDeficit_sound {s : State} (h : PoolSound s) : PoolSound (wakeForDeficit s) := by
  have go : ∀ (l : List Bank) (s : State), PoolSound s → PoolSound (l.foldl
      (fun s k => if 0 < claimDeficit s && decide ((s.bank k).state = .dormant) then wakeBank k s else s) s) := by
    intro l
    induction l with
    | nil => exact fun _ h => h
    | cons k l ih =>
      intro s h
      rw [List.foldl_cons]
      refine ih _ ?_
      split
      · next hd =>
        simp only [Bool.and_eq_true, decide_eq_true_eq] at hd
        exact h.setBank k _ fun _ => h.banks k (Or.inl (by simp [hd.2]))
      · exact h
  exact go Bank.all s h

/-- FREE buffers of AWAKE banks join one chain. -/
theorem joinAll_sound (i : Source) {l : List BufferId} {s : State} (h : PoolSound s) (hn : l.Nodup)
    (hl : ∀ b ∈ l, b ∈ freeAwake s) :
    PoolSound (l.foldl (fun s b => joinChain i b s) s) := by
  induction l generalizing s with
  | nil => exact h
  | cons b l ih =>
    have hn := List.nodup_cons.mp hn
    have hb := hl b (by simp)
    simp only [freeAwake, List.mem_filter, Bool.and_eq_true, decide_eq_true_eq] at hb
    rw [List.foldl_cons]
    refine ih (joinChain_sound h hb.2.1 hb.2.2) hn.2 fun b' hb' => ?_
    have := hl b' (by simp [hb'])
    simp only [freeAwake, List.mem_filter, Bool.and_eq_true, decide_eq_true_eq] at this ⊢
    have e : b' ≠ b := by
      rintro rfl
      exact hn.1 hb'
    rw [joinChain_buffer, if_neg e, joinChain_bank]
    refine ⟨this.1, this.2.1, ?_⟩
    split
    · next ek => simpa [ek] using hb.2.2
    · exact this.2.2

/-- R121: a claim placed by a source that has none. -/
theorem placeClaim_sound {s : State} (h : PoolSound s) (i : Source) (hc : (s.src i).claim = 0) :
    PoolSound (placeClaim i s) := by
  have hn : (claimed i s).Nodup :=
    (List.Nodup.filter _ (by decide : allBuffers.Nodup)).sublist (List.take_sublist _ _)
  have hj := joinAll_sound i h hn fun b hb => (List.take_sublist _ _).subset hb
  have hsrc := joinAll_src i (claimed i s) s
  have hq := joinAll_claimQueue i (claimed i s) s
  rw [placeClaim_eq]
  dsimp only
  generalize (claimed i s).foldl (fun s b => joinChain i b s) s = u at hj hsrc hq
  generalize hleft : 3 - (s.src i).chain.length - (claimed i s).length = left
  have hu : ∀ j, (u.modSrc i fun r => { r with claim := left }).src j = if j = i then { u.src i with claim := left } else u.src j := by
    intro j
    by_cases e : j = i <;> simp [State.modSrc, e]
  have hni : i ∉ s.pool.claimQueue := fun hi => (h.queue i).mp hi hc
  have hcl : ∀ j, j ≠ i → (u.src j).claim = (s.src j).claim := fun j e => by rw [hsrc, if_neg e]
  split
  · next hz =>
    refine hj.claims (fun j => ?_) (fun _ => rfl) (fun _ => rfl) ?_ (fun j => ?_)
    · rw [hu]
      by_cases e : j = i <;> simp [e]
    · change u.pool.claimQueue.Nodup
      rw [hq]
      exact h.queueNodup
    · change j ∈ u.pool.claimQueue ↔ _
      rw [hq, hu, h.queue]
      by_cases e : j = i
      · subst e
        simp [hc, hz]
      · simp [e, hcl j e]
  · next hz =>
    refine wakeForDeficit_sound (PoolSound.congr
      (s := (u.modSrc i fun r => { r with claim := left }).setClaimQueue (u.pool.claimQueue ++ [i]))
      (hj.claims (fun j => ?_) (fun _ => rfl) (fun _ => rfl) ?_ (fun j => ?_)) (fun _ => rfl) (fun _ => rfl) rfl)
    · rw [State.setClaimQueue_src, hu]
      by_cases e : j = i <;> simp [e]
    · change (u.pool.claimQueue ++ [i]).Nodup
      rw [hq]
      exact List.nodup_append.mpr ⟨h.queueNodup, List.nodup_singleton i, fun x hx y hy => by
        rintro rfl
        obtain rfl := List.mem_singleton.mp hy
        exact hni hx⟩
    · rw [State.setClaimQueue_src, hu]
      change j ∈ u.pool.claimQueue ++ [i] ↔ _
      rw [hq, List.mem_append, List.mem_singleton, h.queue]
      by_cases e : j = i
      · subst e
        simp [hz]
      · simp [e, hcl j e]

/-- R120: a woken bank's FREE buffers. -/
theorem completeWake_sound {s : State} (h : PoolSound s) (k : Bank) : PoolSound (completeWake k s) := by
  unfold completeWake
  split
  · exact h
  · exact (settleFreed_sound _ (h.setBank k _ fun hx => by simp at hx)).1

/-- R119: a bank whose deadline ends. -/
theorem goDormant_sound {s : State} (h : PoolSound s) (k : Bank) : PoolSound (goDormant k s) := by
  unfold goDormant
  split
  · exact h
  · next e =>
    refine h.setBank k _ fun _ => h.banks k (Or.inr fun hn => ?_)
    simp [expired, hn] at e

/-! ## Chains and pins (R115, R116, R118) -/

/-- R118: a chain released; the buffers that are still pinned become RETIRING, the others FREE. -/
theorem releaseChain_sound {s : State} (h : PoolSound s) (i : Source) : PoolSound (releaseChain i s) := by
  refine (settleFreed_sound _ ?_).1
  generalize hv : (s.mapBuffers fun b x =>
    if b ∈ (s.src i).chain then (if x.staysPinned then { x with state := .retiring } else x.cleared .free) else x) = v
  have hb : ∀ b, v.buffer b =
      if b ∈ (s.src i).chain then
        (if (s.buffer b).staysPinned then { s.buffer b with state := .retiring } else (s.buffer b).cleared .free)
      else s.buffer b := by
    subst hv
    intro b
    simp
  have hvs : ∀ j, v.src j = s.src j := by subst hv; exact fun _ => rfl
  have hvb : ∀ k, v.bank k = s.bank k := by subst hv; exact fun _ => rfl
  have hvq : v.pool.claimQueue = s.pool.claimQueue := by subst hv; rfl
  clear hv
  have hs : ∀ j, (v.modSrc i fun r => { r with chain := [] }).src j =
      if j = i then { s.src i with chain := [] } else s.src j := by
    intro j
    by_cases e : j = i <;> simp [State.modSrc, hvs, e]
  have hm : ∀ j b, b ∈ ((v.modSrc i fun r => { r with chain := [] }).src j).chain ↔ j ≠ i ∧ b ∈ (s.src j).chain := by
    intro j b
    rw [hs]
    by_cases e : j = i <;> simp [e]
  have hb' : ∀ b, (v.modSrc i fun r => { r with chain := [] }).buffer b = v.buffer b := fun _ => rfl
  have hin : ∀ b, b ∈ (s.src i).chain → (s.buffer b).state ∈ [.empty, .filling, .ready] := fun b hb => (h.placed b).mp ⟨i, hb⟩
  refine ⟨fun j => ?_, fun j k b hj hk => ?_, fun b => ?_, ?_, fun j => ?_, fun k hk b hbk => ?_, fun b hst => ?_,
    fun b hst => ?_⟩
  · rw [hs]
    split
    · exact List.nodup_nil
    · exact h.nodup j
  · rw [hm] at hj hk
    exact h.disjoint j k b hj.2 hk.2
  · simp only [hm]
    rw [hb', hb]
    by_cases hc : b ∈ (s.src i).chain
    · have hno : ¬ ∃ j, j ≠ i ∧ b ∈ (s.src j).chain := fun ⟨j, hj, hbj⟩ => hj (h.disjoint j i b hbj hc)
      rw [if_pos hc]
      simp only [hno, false_iff]
      split <;> simp [Buffer.cleared]
    · rw [if_neg hc, ← h.placed b]
      exact ⟨fun ⟨j, _, hbj⟩ => ⟨j, hbj⟩, fun ⟨j, hbj⟩ => ⟨j, by rintro rfl; exact hc hbj, hbj⟩⟩
  · change v.pool.claimQueue.Nodup
    rw [hvq]
    exact h.queueNodup
  · change j ∈ v.pool.claimQueue ↔ _
    rw [hvq, hs, h.queue]
    by_cases e : j = i <;> simp [e]
  · have hf := h.banks k (by rw [← hvb k]; exact hk) b hbk
    rw [hb', hb, if_neg]
    · exact hf
    · intro hc
      have := hin b hc
      simp [hf] at this
  · rw [hb', hb] at hst ⊢
    by_cases hc : b ∈ (s.src i).chain
    · rw [if_pos hc] at hst ⊢
      split at hst
      · simp at hst
      · next hp =>
        rw [if_neg hp]
        have := hin b hc
        simp only [Buffer.staysPinned, Bool.and_eq_true, decide_eq_true_eq, not_and] at hp
        by_cases hr : (s.buffer b).state = .ready
        · have := hp hr
          simp [Buffer.cleared]
          omega
        · refine h.noPins b ?_
          simp [hr] at this
          rcases this with e | e <;> simp [e]
    · rw [if_neg hc] at hst ⊢
      exact h.noPins b hst
  · rw [hb', hb] at hst ⊢
    by_cases hc : b ∈ (s.src i).chain
    · rw [if_pos hc] at hst ⊢
      split at hst
      · next hp =>
        rw [if_pos hp]
        simp only [Buffer.staysPinned, Bool.and_eq_true, decide_eq_true_eq] at hp
        exact Nat.pos_iff_ne_zero.mp hp.2
      · simp [Buffer.cleared] at hst
    · rw [if_neg hc] at hst ⊢
      exact h.pinned b hst

/-- The buffers a hold names are READY or RETIRING (R115). -/
theorem holdNames_state {s : State} {r : ViewRecord} {b : BufferId} (h : b ∈ holdNames s r) :
    (s.buffer b).state ∈ [.ready, .retiring] := by
  simp only [holdNames, List.mem_map, List.mem_filter] at h
  obtain ⟨⟨b', i, n⟩, ⟨-, hi⟩, rfl⟩ := h
  simp only [partIntact, Bool.and_eq_true, Bool.or_eq_true, decide_eq_true_eq] at hi
  rcases hi.1 with e | e <;> simp [e]

/-- R115: holds placed on READY or RETIRING buffers. -/
theorem addPins_sound {s : State} (h : PoolSound s) (names : List BufferId)
    (hn : ∀ b ∈ names, (s.buffer b).state ∈ [.ready, .retiring]) : PoolSound (addPins names s) := by
  have hb := addPins_buffer names s
  refine ⟨h.nodup, h.disjoint, fun b => ?_, h.queueNodup, h.queue, fun k hk b hbk => ?_, fun b hst => ?_, fun b hst => ?_⟩
  · rw [hb]
    exact h.placed b
  · rw [hb]
    exact h.banks k hk b hbk
  · rw [hb] at hst ⊢
    have : b ∉ names := by
      intro hm
      have := hn b hm
      simp only [List.mem_cons, List.not_mem_nil, or_false] at hst this
      rcases hst with e | e | e <;> rw [e] at this <;> simp at this
    simpa [List.count_eq_zero_of_not_mem this] using h.noPins b hst
  · rw [hb] at hst ⊢
    have := h.pinned b hst
    change (s.buffer b).pins + _ ≠ 0
    omega

/-- R116: holds removed together; every other pin count is as it was. -/
theorem removePins_sound {s : State} (h : PoolSound s) (names : List BufferId) :
    PoolSound (removePins names s) ∧
      ∀ b, ((removePins names s).buffer b).pins = (s.buffer b).pins - names.count b := by
  unfold removePins
  dsimp only
  generalize hv : (s.mapBuffers fun b x => { x with pins := x.pins - names.count b }) = v
  have hvb : ∀ b, v.buffer b = { s.buffer b with pins := (s.buffer b).pins - names.count b } := by
    subst hv
    intro b
    simp
  have hvs : ∀ j, v.src j = s.src j := by subst hv; exact fun _ => rfl
  have hvk : ∀ k, v.bank k = s.bank k := by subst hv; exact fun _ => rfl
  have hvq : v.pool.claimQueue = s.pool.claimQueue := by subst hv; rfl
  clear hv
  generalize hfr : (allBuffers.filter fun b =>
    decide (b ∈ names) && decide ((v.buffer b).state = .retiring) && decide ((v.buffer b).pins = 0)) = freed
  have hf : ∀ b, b ∈ freed ↔ b ∈ names ∧ (s.buffer b).state = .retiring ∧ (s.buffer b).pins - names.count b = 0 := by
    subst hfr
    intro b
    simp [mem_allBuffers, hvb, and_assoc]
  clear hfr
  generalize hw : (v.mapBuffers fun b x => if b ∈ freed then x.cleared .free else x) = w
  have hwb : ∀ b, w.buffer b = if b ∈ freed then (v.buffer b).cleared .free else v.buffer b := by
    subst hw
    intro b
    simp
  have hws : ∀ j, w.src j = s.src j := by subst hw; exact hvs
  have hwk : ∀ k, w.bank k = s.bank k := by subst hw; exact hvk
  have hwq : w.pool.claimQueue = s.pool.claimQueue := by subst hw; exact hvq
  clear hw
  have hpins : ∀ b, (w.buffer b).pins = (s.buffer b).pins - names.count b := by
    intro b
    rw [hwb, hvb]
    split <;> rfl
  have hw : PoolSound w := by
    refine ⟨fun j => by rw [hws]; exact h.nodup j, fun j k b => by rw [hws, hws]; exact h.disjoint j k b, fun b => ?_,
      by rw [hwq]; exact h.queueNodup, fun j => by rw [hwq, hws]; exact h.queue j, fun k hk b hbk => ?_, fun b hst => ?_,
      fun b hst => ?_⟩
    · simp only [hws]
      rw [h.placed b, hwb, hvb]
      split
      · next hb => simp [Buffer.cleared, ((hf b).mp hb).2.1]
      · rfl
    · rw [hwk] at hk
      have := h.banks k hk b hbk
      rw [hwb, hvb]
      split
      · rfl
      · exact this
    · rw [hpins]
      rw [hwb, hvb] at hst
      split at hst
      · next hb => exact ((hf b).mp hb).2.2
      · have := h.noPins b hst
        omega
    · rw [hpins]
      rw [hwb, hvb] at hst
      split at hst
      · simp [Buffer.cleared] at hst
      · next hb =>
        have h0 := h.pinned b hst
        by_cases hn : b ∈ names
        · intro hz
          exact hb ((hf b).mpr ⟨hn, hst, hz⟩)
        · rwa [List.count_eq_zero_of_not_mem hn, Nat.sub_zero]
  have hs := settleFreed_sound freed hw
  exact ⟨hs.1, fun b => by rw [hs.2.pins, hpins]⟩

end Sys2Proof.Machine
end

