-- ==== Sys2Proof/Laws/PinsOwed.lean ====
section
/-! SUPPORT. The pin counts within one event: every pin is a hold of a stream or one that the event has still to remove, and
what a trigger, a take, a completion and an append do to that. -/

namespace Sys2Proof.Machine

open Sys2Proof

/-- R115, R116, R146: the pool is sound, each pin is a hold of a stream or is owed, named in `l`, and a stream at rest holds
nothing. -/
structure PinsOwed (l : List BufferId) (s : State) : Prop where
  sound : PoolSound s
  count : ∀ b, (s.buffer b).pins = ((s.stream .p).allNames.count b + (s.stream .r).allNames.count b) + l.count b
  rest : ∀ st, (s.stream st).state ∈ [.stopped, .done] →
    (s.stream st).pendingSet = [] ∧ (s.stream st).current = none ∧ (s.stream st).holdRecord = .none

/-- Nothing is owed between events. -/
theorem PinsOwed.of_ok {s : State} (hc : ChainsOk s) (hb : BanksOk s) (hp : PinsOk s) : PinsOwed [] s :=
  ⟨.of_ok hc hb hp, fun b => by rw [hp.1, List.count_append]; rfl, hp.2.2.2⟩

/-- At the end of an event the owed pins go, and what PinsOk says holds again. -/
theorem PinsOwed.settle {x : Releasing} (h : PinsOwed x.names x.state) : PoolSound x.settle ∧ PinsOk x.settle := by
  have hr := removePins_sound h.sound x.names
  have hs : ∀ st, x.settle.stream st = x.state.stream st := (removePins_only _ _).stream
  refine ⟨hr.1, fun b => ?_, hr.1.noPins, hr.1.pinned, fun st => ?_⟩
  · rw [Releasing.settle_eq, hr.2, h.count]
    rw [← Releasing.settle_eq, hs, hs, List.count_append]
    omega
  · rw [hs]
    exact h.rest st

/-- A stream rewritten: what it no longer holds is owed, and what it holds anew was owed. -/
theorem PinsOwed.setStream {l l' : List BufferId} {s : State} (h : PinsOwed l s) (st : StreamId) (x : Stream)
    (hn : ∀ b, x.allNames.count b + l'.count b = (s.stream st).allNames.count b + l.count b)
    (hr : x.state ∈ [.stopped, .done] → x.pendingSet = [] ∧ x.current = none ∧ x.holdRecord = .none) :
    PinsOwed l' (s.setStream st x) := by
  refine ⟨h.sound.congr (fun _ => rfl) (fun _ => rfl) rfl, fun b => ?_, fun st' => ?_⟩
  · have := h.count b
    have hb := hn b
    change (s.buffer b).pins = _
    cases st
    · simp only [State.setStream_stream, if_true, reduceCtorEq, if_false]
      omega
    · simp only [State.setStream_stream, if_true, reduceCtorEq, if_false]
      omega
  · rw [State.setStream_stream]
    split
    · exact hr
    · exact h.rest st'

/-- What neither the pool nor the streams' holds read may change. -/
theorem PinsOwed.congr {l : List BufferId} {s t : State} (h : PinsOwed l s) (hc : ∀ i, (t.src i).chain = (s.src i).chain)
    (hl : ∀ i, (t.src i).claim = (s.src i).claim) (hp : t.pool = s.pool) (hs : ∀ st, t.stream st = s.stream st) :
    PinsOwed l t := by
  refine ⟨h.sound.congr hc hl hp, fun b => ?_, fun st => ?_⟩
  · rw [hs, hs, ← h.count]
    simp only [State.buffer, hp]
  · rw [hs]
    exact h.rest st

/-- Holds placed are owed until a stream has them. -/
theorem PinsOwed.addPins {l : List BufferId} {s : State} (h : PinsOwed l s) (r : ViewRecord) :
    PinsOwed (l ++ holdNames s r) (addPins (holdNames s r) s) := by
  refine ⟨addPins_sound h.sound _ fun b hb => holdNames_state hb, fun b => ?_, h.rest⟩
  have := h.count b
  simp only [addPins_buffer, addPins_stream, List.count_append]
  omega

/-! ## The take (R155, R156) -/

/-- R156: the holds of the current record and the hold record are what stays and what is released. -/
theorem settleHolds_count (x : Stream) (h : HeldRecord) (b : BufferId) :
    (({ x with holdRecord := (settleHolds x h).1 } : Stream).ownHoldNames ++ (settleHolds x h).2).count b =
      (x.currentNames ++ x.ownHoldNames).count b := by
  unfold settleHolds
  split
  · simp [Stream.ownHoldNames]
  · split <;> rename_i e <;> simp_all [Stream.ownHoldNames, Stream.currentNames, Nat.add_comm]

/-- The pending pins on a record and the others. -/
theorem pendingNames_split (p : PendingPin → Bool) (l : List PendingPin) (b : BufferId) :
    ((l.filter p).flatMap fun q => q.buffers).count b + ((l.filter fun q => !p q).flatMap fun q => q.buffers).count b =
      (l.flatMap fun q => q.buffers).count b := by
  induction l with
  | nil => rfl
  | cons q l ih =>
    cases h : p q <;> simp only [List.filter_cons, h, Bool.not_true, Bool.not_false, if_true, if_false, Bool.false_eq_true,
      List.flatMap_cons, List.count_append] <;> omega

theorem takeInto_owed {l : List BufferId} {s : State} (h : PinsOwed l s) (st : StreamId) (r : ViewRecord)
    (hr : (s.stream st).state = .running) :
    PinsOwed (l ++ (takeInto st r s).names) (takeInto st r s).state := by
  have ha := h.addPins r
  refine ha.setStream st _ (fun b => ?_) (fun hs => ?_)
  · rw [addPins_stream]
    have h1 := settleHolds_count (s.stream st) { record := r, buffers := holdNames s r, intact := recordIntact s r } b
    have h2 := pendingNames_split (fun p => decide (p.seq = r.seq)) (s.stream st).pendingSet b
    have e : ∀ p : PendingPin, (!decide (p.seq = r.seq)) = decide (p.seq ≠ r.seq) := fun p => by simp
    simp only [e] at h2
    simp only [takeInto, Stream.allNames, Stream.pendingNames, Stream.currentNames, List.count_append] at h1 h2 ⊢
    simp only [Stream.ownHoldNames] at h1 ⊢
    omega
  · simp [hr] at hs

/-! ## Triggers and completions (R148, R149, R153, R155, R159) -/

theorem startEmission_owed {l : List BufferId} {s : State} (h : PinsOwed l s) (st : StreamId)
    (hr : (s.stream st).state = .running) :
    PinsOwed (l ++ (startEmission st s).names) (startEmission st s).state := by
  have hc : PinsOwed l (clearSkip st s) ∧ ((clearSkip st s).stream st).state = .running := by
    unfold clearSkip
    split
    · refine ⟨PinsOwed.congr (s := s.modStream st fun x => { x with skip := false })
        (h.setStream st _ (fun _ => rfl) (h.rest st)) (fun _ => rfl) (fun _ => rfl) rfl (fun st' => by simp), ?_⟩
      simp [State.modStream, hr]
    · exact ⟨h, hr⟩
  have hl : ∀ (l' : List BufferId) (taken skipped : Bool) (u : State), PinsOwed l' u →
      PinsOwed l' (launch st taken skipped u) := fun l' taken skipped u hu =>
    hu.setStream st _ (fun _ => rfl) (hu.rest st)
  unfold startEmission
  dsimp only
  refine hl _ _ _ _ ?_
  split
  · exact takeInto_owed hc.1 st _ hc.2
  · simpa using hc.1

theorem triggerStream_owed {l : List BufferId} {s : State} (h : PinsOwed l s) (st : StreamId) :
    PinsOwed (l ++ (triggerStream st s).names) (triggerStream st s).state := by
  unfold triggerStream
  dsimp only
  split
  · simpa using h
  · next hr =>
    split
    · exact startEmission_owed h st (by simpa using hr)
    · split
      · simpa using h.congr (t := raise (overlapNotice st) s) (fun _ => rfl) (fun _ => rfl) rfl (fun st' => by simp)
      · simpa using h.setStream st { s.stream st with pendingTrigger := true } (fun _ => rfl) (h.rest st)

theorem offerTrigger_owed {l : List BufferId} {s : State} (h : PinsOwed l s) (cause : Cause) (st : StreamId) :
    PinsOwed (l ++ (offerTrigger cause st s).names) (offerTrigger cause st s).state := by
  unfold offerTrigger
  split
  · exact triggerStream_owed h st
  · simpa using h

/-- Parts of one event, one after the other. -/
theorem andThen_owed {l : List BufferId} {x : Releasing} {f : State → Releasing}
    (hf : ∀ l s, PinsOwed l s → PinsOwed (l ++ (f s).names) (f s).state) (h : PinsOwed (l ++ x.names) x.state) :
    PinsOwed (l ++ (x.andThen f).names) (x.andThen f).state := by
  rw [Releasing.andThen_names, Releasing.andThen_state, ← List.append_assoc]
  exact hf _ _ h

theorem offerBoth_owed {l : List BufferId} {s : State} (h : PinsOwed l s) (cause : Cause) :
    PinsOwed (l ++ (offerBoth cause s).names) (offerBoth cause s).state :=
  andThen_owed (fun _ _ h => offerTrigger_owed h cause .r) (offerTrigger_owed h cause .p)

theorem restStream_owed {l : List BufferId} {s : State} (h : PinsOwed l s) (st : StreamId) (next : StreamState) :
    PinsOwed (l ++ (restStream st next s).names) (restStream st next s).state := by
  refine h.setStream st _ (fun b => ?_) (fun _ => ⟨rfl, rfl, rfl⟩)
  have : ((s.stream st).rest next).allNames = [] := rfl
  rw [this, List.count_append]
  simp only [restStream, List.count_nil]
  omega

/-- R148: a start of a stream at rest. -/
theorem startStream_owed {s : State} (h : PinsOwed [] s) (st : StreamId) (hr : (s.stream st).state ∈ [.stopped, .done]) :
    PinsOwed [] (startStream st s) := by
  obtain ⟨h1, h2, h3⟩ := h.rest st hr
  refine h.setStream st _ (fun b => ?_) (fun hs => by simp at hs)
  have : (s.stream st).allNames = [] := by
    simp [Stream.allNames, Stream.pendingNames, Stream.currentNames, Stream.ownHoldNames, h1, h2, h3]
  rw [this]
  rfl

theorem stopStream_owed {l : List BufferId} {s : State} (h : PinsOwed l s) (st : StreamId) :
    PinsOwed (l ++ (stopStream st s).names) (stopStream st s).state := by
  unfold stopStream
  dsimp only
  split
  · split
    · exact restStream_owed h st .stopped
    · refine h.setStream st _ (fun b => ?_) (fun hs => by simp at hs)
      simp only [Stream.leaveRunning, Stream.allNames, Stream.pendingNames, List.flatMap_nil, List.count_append,
        List.count_nil]
      simp only [Stream.currentNames, Stream.ownHoldNames]
      omega
  · next e =>
    have hr := h.rest st (by simp [e])
    simpa using h.setStream st { s.stream st with state := .stopped } (fun _ => rfl) (fun _ => hr)
  all_goals simpa using h

theorem continueStream_owed {l : List BufferId} {s : State} (h : PinsOwed l s) (st : StreamId)
    (hr : (s.stream st).state = .running) :
    PinsOwed (l ++ (continueStream st s).names) (continueStream st s).state := by
  unfold continueStream
  dsimp only
  split
  · refine startEmission_owed (h.setStream st { s.stream st with pendingTrigger := false } (fun _ => rfl) (h.rest st)) st ?_
    simp [hr]
  · simpa using h

theorem afterCompletion_owed {l : List BufferId} {s : State} (h : PinsOwed l s) (st : StreamId) :
    PinsOwed (l ++ (afterCompletion st s).names) (afterCompletion st s).state := by
  unfold afterCompletion
  dsimp only
  split
  · next e =>
    split
    · exact continueStream_owed h st e
    · have hs := h.setStream (l' := l) st { s.stream st with remaining := (s.stream st).remaining - 1 } (fun _ => rfl)
        (h.rest st)
      split
      · have hr := restStream_owed hs st .done
        exact hr.congr (t := raise (doneNotice st) _) (fun _ => rfl) (fun _ => rfl) rfl (fun st' => by simp)
      · exact continueStream_owed hs st (by simp [e])
  · exact restStream_owed h st .stopped
  all_goals simpa using h

/-- R159: a completion keeps what PinsOk says. -/
theorem completeEmission_pins {s : State} (h : PinsOwed [] s) (hp : PinsOk s) (st : StreamId) :
    PoolSound (completeEmission st s) ∧ PinsOk (completeEmission st s) := by
  unfold completeEmission
  dsimp only
  split
  · exact ⟨h.sound, hp⟩
  · split
    · refine PinsOwed.settle (andThen_owed (l := []) (fun _ _ h => afterCompletion_owed h st) (offerTrigger_owed ?_ _ _))
      exact h.setStream st _ (fun _ => rfl) (h.rest st)
    · exact ⟨h.sound, hp⟩

/-! ## The append (R83, R84) -/

theorem roomInRing_owed {l : List BufferId} {s : State} (h : PinsOwed l s) :
    PinsOwed (l ++ (roomInRing s).names) (roomInRing s).state := by
  unfold roomInRing
  split
  · unfold overwriteOldest
    split
    · simpa using h
    · next o rest e =>
      have hx : ∀ (l : List BufferId) (s : State) (st : StreamId), PinsOwed l s →
          PinsOwed (l ++ (s.stream st).pinsOn o.seq) (s.modStream st fun x => x.lose o.seq) := by
        intro l s st h
        refine h.setStream st _ (fun b => ?_) (fun hs => ?_)
        · have h2 := pendingNames_split (fun p => decide (p.seq = o.seq)) (s.stream st).pendingSet b
          have e : ∀ p : PendingPin, (!decide (p.seq = o.seq)) = decide (p.seq ≠ o.seq) := fun p => by simp
          simp only [e] at h2
          simp only [Stream.lose, Stream.pinsOn, Stream.allNames, Stream.pendingNames, List.count_append]
          simp only [Stream.currentNames, Stream.ownHoldNames]
          omega
        · obtain ⟨h1, h2, h3⟩ := h.rest st hs
          exact ⟨by simp [Stream.lose, h1], h2, h3⟩
      dsimp only
      have h1 := hx _ _ .r (hx l s .p h)
      have hr : ((s.modStream .p fun x => x.lose o.seq).stream .r).pinsOn o.seq = (s.stream .r).pinsOn o.seq := rfl
      rw [hr, List.append_assoc] at h1
      generalize (s.modStream .p fun x => x.lose o.seq).modStream .r (fun x => x.lose o.seq) = u at h1
      have ho := (overrunLinks o.seq u).2
      generalize [Link.al, Link.ml].foldl (overrunLink o.seq) u = v at ho
      have h2 : PinsOwed (l ++ ((s.stream .p).pinsOn o.seq ++ (s.stream .r).pinsOn o.seq)) v := by
        refine h1.congr (fun i => ?_) (fun i => ?_) ?_ (fun st => ?_) <;> rw [← ho] <;> rfl
      exact h2.congr (fun _ => rfl) (fun _ => rfl) rfl (fun _ => rfl)
  · simpa using h

theorem placeRecord_owed {l : List BufferId} {s : State} (h : PinsOwed l s) (r : ViewRecord) :
    PinsOwed l (placeRecord r s) := by
  have hx : ∀ (s : State) (st : StreamId), PinsOwed l s → PinsOwed l (placePending r s st) := by
    intro s st h
    rw [placePending_eq]
    split
    · next hc =>
      have ha := h.addPins r
      refine (ha.setStream (l' := l) st { s.stream st with
        pendingSet := (s.stream st).pendingSet ++ [{ seq := r.seq, buffers := holdNames s r }] } (fun b => ?_) (fun hs => ?_))
      · simp only [addPins_stream, Stream.allNames, Stream.pendingNames, List.flatMap_append, List.flatMap_cons,
          List.flatMap_nil, List.append_nil, List.count_append]
        simp only [Stream.currentNames, Stream.ownHoldNames]
        omega
      · simp [hc.1] at hs
    · exact h
  exact hx _ .r (hx _ .p (h.congr (fun _ => rfl) (fun _ => rfl) rfl (fun _ => rfl)))

/-- R83, R84: an append keeps what PinsOk says. -/
theorem appendRecord_pins {s : State} (h : PinsOwed [] s) (r : ViewRecord) :
    PoolSound (appendRecord r s) ∧ PinsOk (appendRecord r s) := by
  unfold appendRecord
  exact PinsOwed.settle (andThen_owed (l := []) (f := fun s => offerBoth .view (placeRecord r s))
    (fun _ _ h => offerBoth_owed (placeRecord_owed h r) .view) (roomInRing_owed h))

end Sys2Proof.Machine
end

