-- ==== Sys2Proof/Laws/Requests.lean ====
section
/-! SUPPORT. What the end of a request frame does, said once: ignored, discarded, or taken with its answer pending. -/

namespace Sys2Proof.Machine

open Sys2Proof

/-! ## Numbers in fields -/

theorem Source.ofNumber_lt {n : Nat} {i : Source} (h : Source.ofNumber n = some i) : n ≤ 3 := by
  match n with
  | 0 | 1 | 2 | 3 => decide
  | n + 4 => simp [Source.ofNumber] at h

theorem Source.ofNumber_none {n : Nat} (h : 3 < n) : Source.ofNumber n = none := by
  match n with
  | 0 | 1 | 2 | 3 => omega
  | n + 4 => rfl

theorem Source.ofNumber_number (i : Source) : Source.ofNumber i.number = some i := by cases i <;> rfl

theorem Group.ofNumber_none {n : Nat} (h : 6 < n) : Group.ofNumber n = none := by
  match n with
  | 0 | 1 | 2 | 3 | 4 | 5 | 6 => omega
  | n + 7 => rfl

theorem streamOf_none {n : Nat} (h : 1 < n) : streamOf n = none := by
  match n with
  | 0 | 1 => omega
  | n + 2 => rfl

theorem triggerLineOf_none {n : Nat} (h : 1 < n) : triggerLineOf n = none := by
  match n with
  | 0 | 1 => omega
  | n + 2 => rfl

theorem edgeSelectionOf_none {n : Nat} (h : 3 < n) : edgeSelectionOf n = none := by
  match n with
  | 0 | 1 | 2 | 3 => omega
  | n + 4 => rfl

theorem groupEnableOf_none {n : Nat} (h : 2 < n) : groupEnableOf n = none := by
  match n with
  | 0 | 1 | 2 => omega
  | n + 3 => rfl

theorem paramOf_none {n : Nat} (h : 11 < n) : paramOf n = none := by
  match n with
  | 0 | 1 | 2 | 3 | 4 | 5 | 6 | 7 | 8 | 9 | 10 | 11 => omega
  | n + 12 => rfl

theorem paramOf_le {n : Nat} {p : Param} (h : paramOf n = some p) : n ≤ 11 := by
  by_contra hn
  rw [paramOf_none (by omega)] at h
  cases h

/-! ## The link's part of a request -/

theorem LinkOpen.notIgnored {l : Link} {s : State} (h : LinkOpen l s) : frameIgnored l s = false := by
  simp [frameIgnored, h.1, h.2.1]

/-- On an open link a frame of at most 60 field bytes is taken. -/
theorem receiveRequest_open {l : Link} {code : Byte} {rule : Option RequestRule} {f : List Byte} {s : State}
    (h : LinkOpen l s) (hf : f.length ≤ 60) :
    receiveRequest l code rule f s = takeRequest l code rule f s := by
  have : ¬ 60 < f.length := by omega
  simp [receiveRequest, h.notIgnored, h.2.2, maxFields, this]

/-- The taken request: judged, with the answer pending on its link; the judgement leaves the timebase. -/
theorem takeRequest_answered {l : Link} {code : Byte} {rule : Option RequestRule} {f : List Byte} {s : State}
    {j : Judged} (hj : judgeRequest rule f s = j) (ht : j.state.timebase = s.timebase) :
    takeRequest l code rule f s = answered l code j.answer.status j.answer.fields j.answer.deferred f.length j.state := by
  subst hj
  simp [takeRequest, answered, ht, readyWithin, zeros]

/-- Past initialisation, on an open link, a request of the right length is the owning block's to judge. -/
theorem receiveRequest_free {l : Link} {code : Byte} {r : RequestRule} {f : List Byte} {s : State} {j : Judged}
    (h : LinkFree l s) (hf : f.length ≤ 60) (hl : r.lengthOk f.length = true) (hj : r.judge f s = j)
    (ht : j.state.timebase = s.timebase) :
    receiveRequest l code (some r) f s =
      answered l code j.answer.status j.answer.fields j.answer.deferred f.length j.state := by
  rw [receiveRequest_open h.1 hf]
  refine takeRequest_answered ?_ ht
  simp [judgeRequest, hl, h.2, hj]

/-- The same as an equation to rewrite with: the rule and the fields are read off the goal. -/
theorem receiveRequest_judge {l : Link} {code : Byte} {r : RequestRule} {f : List Byte} {s : State} (h : LinkFree l s)
    (hf : f.length ≤ 60) (hl : r.lengthOk f.length = true) (ht : (r.judge f s).state.timebase = s.timebase) :
    receiveRequest l code (some r) f s =
      answered l code (r.judge f s).answer.status (r.judge f s).answer.fields (r.judge f s).answer.deferred f.length
        (r.judge f s).state :=
  receiveRequest_free h hf hl rfl ht

/-- The checks against the link: no rule is UNKNOWN, another length MALFORMED, initialisation BUSY (R165). -/
theorem receiveRequest_checks {l : Link} {code : Byte} {f : List Byte} {s : State} (h : LinkOpen l s)
    (hf : f.length ≤ 60) :
    receiveRequest l code none f s = refused l code .unknown f.length s ∧
    (∀ r : RequestRule, r.lengthOk f.length = false →
      receiveRequest l code (some r) f s = refused l code .malformed f.length s) ∧
    (∀ r : RequestRule, r.lengthOk f.length = true → r.early = false → s.initialising = true →
      receiveRequest l code (some r) f s = refused l code .busy f.length s) := by
  refine ⟨?_, fun r hr => ?_, fun r hr he hi => ?_⟩ <;> rw [receiveRequest_open h hf]
  · exact takeRequest_answered (j := refuse .unknown s) rfl rfl
  · exact takeRequest_answered (j := refuse .malformed s) (by simp [judgeRequest, hr]) rfl
  · exact takeRequest_answered (j := refuse .busy s) (by simp [judgeRequest, hr, he, hi]) rfl

/-- An ignored request frame. -/
theorem receiveRequest_ignored {l : Link} {code : Byte} {rule : Option RequestRule} {f : List Byte} {s : State}
    (h : s.resetLow = true ∨ (s.link l).abandoned ≠ none) :
    receiveRequest l code rule f s = endIgnored l (zeros (2 + f.length)) s := by
  have : frameIgnored l s = true := by simpa [frameIgnored, Option.isSome_iff_ne_none] using h
  simp [receiveRequest, this]

theorem fetchShifted_length (r : ResponseState) (n : Nat) : (fetchShifted r n).length = n := by
  simp [fetchShifted, zeros]
  omega

/-- What a frame found in progress by a reset has shifted out: as many bytes as without the reset, the first k + 1 of them the
same, and with RESET_N low since the reset 0x00 after those. -/
theorem AbandonedFrame.shiftedOut_spec (a : AbandonedFrame) (lowNow : Bool) (k : Nat) {before free : List Byte}
    (h : free.length = before.length) :
    (a.shiftedOut lowNow k before free).length = before.length ∧
      (a.shiftedOut lowNow k before free).take (k + 1) = before.take (k + 1) ∧
      (a.low = true → lowNow = true → ∀ x ∈ (a.shiftedOut lowNow k before free).drop (k + 1), x = 0) := by
  have hz : ((if a.low && lowNow then zeros before.length else free) : List Byte).length = before.length := by
    split <;> simp [zeros, h]
  refine ⟨?_, ?_, fun h1 h2 => ?_⟩
  · simp only [shiftedOut, List.length_append, List.length_take, List.length_drop, hz]
    omega
  · unfold shiftedOut
    by_cases hk : k + 1 ≤ before.length
    · rw [List.take_append_of_le_length (by simp; omega)]
      simp
    · rw [List.drop_eq_nil_of_le (by omega)]
      simp
  · simp only [shiftedOut, h1, h2, Bool.and_self, if_true, List.drop_append]
    intro x hx
    rcases List.mem_append.mp hx with hx | hx
    · simp at hx
    · exact List.eq_of_mem_replicate (List.mem_of_mem_drop (List.mem_of_mem_drop hx))

/-- A request frame on a link that is PENDING. -/
theorem receiveRequest_pending {l : Link} {code : Byte} {rule : Option RequestRule} {f : List Byte} {s : State}
    (h1 : s.resetLow = false) (h2 : (s.link l).abandoned = none) (h3 : (s.link l).response.isPending = true) :
    receiveRequest l code rule f s = discardFrame l (2 + f.length) s := by
  simp [receiveRequest, frameIgnored, h1, h2, h3]

/-- The codes that name a request of a link are those that have a rule on it. -/
theorem ruleFor_isNone (l : Link) (code : Byte) : (ruleFor l code).isNone = (requestOf l code []).isNone := by
  have h : ∀ n : Fin 256, (ruleFor l (BitVec.ofFin n)).isNone = (requestOf l (BitVec.ofFin n) []).isNone := by
    cases l <;> decide +kernel
  exact h code.toFin

/-- Every request command is the end of its frame, judged by the rule of its code on its link. -/
theorem exec_request {i : Instr} {l : Link} {code : Byte} {f : List Byte} {s : State}
    (hp : requestParts i = some (l, code, f)) (hc : code ≠ 0) (hh : code.toNat < 0x80) :
    exec i s = .next (receiveRequest l code (ruleFor l code) f s) := by
  cases i <;> simp only [requestParts, Option.some.injEq, Prod.mk.injEq, reduceCtorEq] at hp <;>
    obtain ⟨rfl, rfl, rfl⟩ := hp
  case unknownRequest => exact congrArg _ ((if_neg hc).trans (if_neg (Nat.not_le.mpr hh)))
  all_goals rfl

end Sys2Proof.Machine
end

