-- ==== Sys2Proof/Laws/Rotation.lean ====
section
/-! SUPPORT. The sine and cosine of rendering are the true ones to the nearest 1/65536, at every relative roll (R102). -/

namespace Sys2Proof.Machine

open Sys2Proof

/-! ## The true values by their Taylor sums -/

/-- The Taylor sums up to the seventh power, for an angle of at most 0.175. -/
theorem taylor_sums_near (x : ℝ) (hx : |x| ≤ 7 / 40) :
    |Real.cos x - (1 - x ^ 2 / 2 + x ^ 4 / 24 - x ^ 6 / 720)| ≤ 25 / 10 ^ 12 ∧
      |Real.sin x - (x - x ^ 3 / 6 + x ^ 5 / 120 - x ^ 7 / 5040)| ≤ 25 / 10 ^ 12 := by
  have hn : ‖(x : ℂ) * Complex.I‖ = |x| := by simp
  have h := Complex.exp_bound (x := (x : ℂ) * Complex.I) (by rw [hn]; linarith) (n := 8) (by norm_num)
  rw [hn] at h
  have e : Complex.exp ((x : ℂ) * Complex.I) - ∑ m ∈ Finset.range 8, ((x : ℂ) * Complex.I) ^ m / (m.factorial : ℂ) =
      ((Real.cos x - (1 - x ^ 2 / 2 + x ^ 4 / 24 - x ^ 6 / 720) : ℝ) : ℂ) +
        ((Real.sin x - (x - x ^ 3 / 6 + x ^ 5 / 120 - x ^ 7 / 5040) : ℝ) : ℂ) * Complex.I := by
    rw [Complex.exp_mul_I]
    have i4 : Complex.I ^ 4 = 1 := Complex.I_pow_four
    have i5 : Complex.I ^ 5 = Complex.I := by rw [pow_succ, i4, one_mul]
    have i6 : Complex.I ^ 6 = -1 := by rw [show 6 = 4 + 2 from rfl, pow_add, i4, Complex.I_sq, one_mul]
    have i7 : Complex.I ^ 7 = -Complex.I := by rw [show 7 = 4 + 3 from rfl, pow_add, i4, Complex.I_pow_three, one_mul]
    simp only [Finset.sum_range_succ, Finset.sum_range_zero, Nat.factorial, mul_pow, Complex.I_sq, Complex.I_pow_three, i4,
      i5, i6, i7]
    push_cast
    ring
  rw [e] at h
  have hb : |x| ^ 8 * ((Nat.succ 8 : ℝ) * ((Nat.factorial 8 : ℝ) * (8 : ℕ))⁻¹) ≤ 25 / 10 ^ 12 := by
    have hp : |x| ^ 8 ≤ (7 / 40 : ℝ) ^ 8 := pow_le_pow_left₀ (abs_nonneg x) hx 8
    have hf : (Nat.factorial 8 : ℝ) = 40320 := by norm_num [Nat.factorial]
    rw [hf]
    refine (mul_le_mul_of_nonneg_right hp (by positivity)).trans ?_
    norm_num
  constructor
  · refine le_trans ?_ (h.trans hb)
    refine le_trans ?_ (Complex.abs_re_le_norm _)
    simp [-Complex.ofReal_sub, -Complex.ofReal_add]
  · refine le_trans ?_ (h.trans hb)
    refine le_trans ?_ (Complex.abs_im_le_norm _)
    simp [-Complex.ofReal_sub, -Complex.ofReal_add]

/-! ## The sums' quotients checked, angle by angle -/

/-- `v` is within 0.499995 of 65536 times (a − b) / q. -/
def nearQuotient (v a b q : Nat) : Bool :=
  Nat.ble (200000 * (65536 * a)) (200000 * (65536 * b + v * q) + 99999 * q)
    && Nat.ble (200000 * (65536 * b + v * q)) (200000 * (65536 * a) + 99999 * q)

theorem nearQuotient_real {v a b q : Nat} (hq : 0 < q) (h : nearQuotient v a b q = true) :
    |65536 * (((a : ℝ) - b) / q) - v| ≤ 99999 / 200000 := by
  have hq' : (0 : ℝ) < q := by exact_mod_cast hq
  have ⟨h1, h2⟩ := (Bool.and_eq_true _ _).mp h
  have h1 : 200000 * (65536 * a) ≤ 200000 * (65536 * b + v * q) + 99999 * q := Nat.le_of_ble_eq_true h1
  have h2 : 200000 * (65536 * b + v * q) ≤ 200000 * (65536 * a) + 99999 * q := Nat.le_of_ble_eq_true h2
  have h1 : (200000 : ℝ) * (65536 * a) ≤ 200000 * (65536 * b + v * q) + 99999 * q := by exact_mod_cast h1
  have h2 : (200000 : ℝ) * (65536 * b + v * q) ≤ 200000 * (65536 * a) + 99999 * q := by exact_mod_cast h2
  have e : 65536 * (((a : ℝ) - b) / q) - v = (65536 * (a - b) - v * q) / q := by field_simp
  rw [e, abs_le]
  constructor
  · rw [le_div_iff₀ hq']; linarith
  · rw [div_le_iff₀ hq']; linarith

/-- An angle of k hundredths of a degree is nearly this over `angleDen` in radians. -/
def angleNum (k : Nat) : Nat := k * 314159265358979

def angleDen : Nat := 1800000000000000000

/-- The rounded sine and cosine of an angle against the quotients of the Taylor sums. -/
def angleChecked (k : Nat) : Bool :=
  let y := angleNum k
  (match sin16 k with
    | .ofNat v =>
      nearQuotient v (y * (5040 * angleDen ^ 6 + 42 * (y ^ 4 * angleDen ^ 2))) (y * (840 * (y ^ 2 * angleDen ^ 4) + y ^ 6))
        (5040 * angleDen ^ 7)
    | .negSucc _ => false)
    && (match cos16 k with
      | .ofNat v =>
        nearQuotient v (720 * angleDen ^ 6 + 30 * (y ^ 4 * angleDen ^ 2)) (360 * (y ^ 2 * angleDen ^ 4) + y ^ 6)
          (720 * angleDen ^ 6)
      | .negSucc _ => false)

theorem angles_checked : (List.range 1001).all angleChecked = true := by decide +kernel

/-- The angle is at most 0.175, and nearly its quotient. -/
theorem angle_near {k : Nat} (hk : k ≤ 1000) :
    |(k : ℝ) * Real.pi / 18000 - (angleNum k : ℝ) / angleDen| ≤ 1 / 10 ^ 15 ∧
      |(angleNum k : ℝ) / angleDen| ≤ 7 / 40 := by
  have h1 := Real.pi_gt_d20
  have h2 := Real.pi_lt_d20
  have hk' : (k : ℝ) ≤ 1000 := by exact_mod_cast hk
  have h0 : (0 : ℝ) ≤ k := Nat.cast_nonneg k
  have e : (angleNum k : ℝ) / angleDen = k * (314159265358979 / 1800000000000000000) := by
    simp only [angleNum, angleDen]
    push_cast
    ring
  rw [e]
  constructor
  · have e' : (k : ℝ) * Real.pi / 18000 - k * (314159265358979 / 1800000000000000000) =
        k * (Real.pi / 18000 - 314159265358979 / 1800000000000000000) := by ring
    rw [e', abs_of_nonneg (mul_nonneg h0 (by linarith))]
    calc _ ≤ (1000 : ℝ) * (Real.pi / 18000 - 314159265358979 / 1800000000000000000) :=
          mul_le_mul_of_nonneg_right hk' (by linarith)
      _ ≤ _ := by linarith
  · rw [abs_of_nonneg (by positivity)]
    calc _ ≤ (1000 : ℝ) * (314159265358979 / 1800000000000000000) := mul_le_mul_of_nonneg_right hk' (by norm_num)
      _ ≤ _ := by norm_num

/-- Three errors together stay below a half. -/
theorem rounded_near {f p v x y : ℝ} {g : ℝ → ℝ} (h1 : |g x - g y| ≤ |x - y|) (h2 : |x - y| ≤ 1 / 10 ^ 15)
    (h3 : |g y - p| ≤ 25 / 10 ^ 12) (h4 : |65536 * p - v| ≤ 99999 / 200000) (hf : f = g x) :
    |65536 * f - v| < 1 / 2 := by
  subst hf
  rw [abs_lt]
  have a := abs_le.mp (h1.trans h2)
  have b := abs_le.mp h3
  have c := abs_le.mp h4
  constructor <;> linarith [a.1, a.2, b.1, b.2, c.1, c.2]

theorem trig16_of_nat {k : Nat} (hk : k ≤ 1000) :
    |65536 * Real.sin (k * Real.pi / 18000) - sin16 k| < 1 / 2 ∧
      |65536 * Real.cos (k * Real.pi / 18000) - cos16 k| < 1 / 2 := by
  have h := List.all_eq_true.mp angles_checked k (List.mem_range.mpr (by omega))
  obtain ⟨hs, hc⟩ := (Bool.and_eq_true _ _).mp h
  obtain ⟨ha, hy⟩ := angle_near hk
  obtain ⟨tc, ts⟩ := taylor_sums_near _ hy
  constructor
  · cases hv : sin16 k with
    | negSucc v => rw [hv] at hs; cases hs
    | ofNat v =>
      rw [hv] at hs
      have hq := nearQuotient_real (by decide) hs
      refine rounded_near (g := Real.sin) (Real.abs_sin_sub_sin_le _ _) ha ts ?_ rfl
      simp only [Int.ofNat_eq_natCast, Int.cast_natCast]
      convert hq using 3
      simp only [angleDen]
      push_cast
      ring
  · cases hv : cos16 k with
    | negSucc v => rw [hv] at hc; cases hc
    | ofNat v =>
      rw [hv] at hc
      have hq := nearQuotient_real (by decide) hc
      refine rounded_near (g := Real.cos) (Real.abs_cos_sub_cos_le _ _) ha tc ?_ rfl
      simp only [Int.ofNat_eq_natCast, Int.cast_natCast]
      convert hq using 3
      simp only [angleDen]
      push_cast
      ring

/-! ## Angles the other way -/

theorem fixedAngle_neg (k : Int) : fixedAngle (-k) = -fixedAngle k := by simp [fixedAngle, Int.neg_tdiv]

theorem fixedMul_neg_neg (t x : Int) : fixedMul (fixedMul t (-x)) (-x) = fixedMul (fixedMul t x) x := by
  simp [fixedMul, Int.neg_tdiv]

theorem taylor_even (x : Int) (k n : Nat) (t : Int) : taylor (-x) k n t = taylor x k n t := by
  induction k generalizing n t with
  | zero => rfl
  | succ k ih => simp only [taylor, fixedMul_neg_neg, ih]

theorem taylor_odd (x : Int) (k n : Nat) (t : Int) : taylor x k n (-t) = -taylor x k n t := by
  induction k generalizing n t with
  | zero => rfl
  | succ k ih =>
    have e : ∀ m : Int, -(Int.tdiv (fixedMul (fixedMul (-t) x) x) m) = -(-(Int.tdiv (fixedMul (fixedMul t x) x) m)) := by
      intro m
      simp [fixedMul, Int.neg_tdiv]
    simp only [taylor, e, ih]
    ring

theorem roundTo16_neg (v : Int) : roundTo16 (-v) = -roundTo16 v := by
  unfold roundTo16
  rcases lt_trichotomy v 0 with h | h | h
  · rw [if_pos (by omega), if_neg (by omega)]
    simp only [neg_neg]
    congr 1
    ring
  · subst h
    decide
  · rw [if_neg (by omega), if_pos (by omega)]
    congr 2
    ring

theorem sin16_neg (k : Int) : sin16 (-k) = -sin16 k := by
  simp only [sin16, fixedAngle_neg, taylor_even, taylor_odd, ← neg_add, roundTo16_neg]

theorem cos16_neg (k : Int) : cos16 (-k) = cos16 k := by
  simp only [cos16, fixedAngle_neg, taylor_even]

/-- R102: the sine and cosine of every relative roll are the true values to the nearest 1/65536, with no half among them. -/
theorem trig16_near (k : Int) (h1 : -1000 ≤ k) (h2 : k ≤ 1000) :
    |65536 * Real.sin (k * Real.pi / 18000) - sin16 k| < 1 / 2 ∧
      |65536 * Real.cos (k * Real.pi / 18000) - cos16 k| < 1 / 2 := by
  obtain ⟨n, rfl | rfl⟩ := Int.eq_nat_or_neg k
  · simpa using trig16_of_nat (k := n) (by omega)
  · obtain ⟨hs, hc⟩ := trig16_of_nat (k := n) (by omega)
    have e : ((-(n : Int) : Int) : ℝ) * Real.pi / 18000 = -((n : ℝ) * Real.pi / 18000) := by
      push_cast
      ring
    rw [e, Real.sin_neg, Real.cos_neg, sin16_neg, cos16_neg]
    refine ⟨?_, hc⟩
    rw [← abs_neg]
    push_cast
    convert hs using 2
    ring

/-! ## Rounding and the frame's edge -/

/-- R102: a quotient to the nearest whole number, halves away from zero. -/
theorem roundDiv_eq (a : Int) (b : Nat) (hb : 0 < b) : roundDiv a b = roundAway ((a : ℚ) / b) := by
  have hb' : (0 : ℚ) < b := by exact_mod_cast hb
  unfold roundDiv roundAway
  by_cases h : 0 ≤ a
  · rw [if_pos h, if_pos (div_nonneg (by exact_mod_cast h) hb'.le), Int.tdiv_eq_ediv_of_nonneg (by omega),
      show (a : ℚ) / b + 1 / 2 = ((2 * a + b : Int) : ℚ) / ((2 * b : Nat) : ℚ) by push_cast; field_simp,
      Rat.floor_intCast_div_natCast]
    push_cast
    rfl
  · have hn : ¬(0 : ℚ) ≤ (a : ℚ) / b := by
      have : (a : ℚ) < 0 := by exact_mod_cast not_le.mp h
      exact not_le.mpr (div_neg_of_neg_of_pos this hb')
    rw [if_neg h, if_neg hn, Int.tdiv_eq_ediv_of_nonneg (by omega),
      show (a : ℚ) / b - 1 / 2 = -(((b - 2 * a : Int) : ℚ) / ((2 * b : Nat) : ℚ)) by push_cast; field_simp; ring,
      Int.ceil_neg, Rat.floor_intCast_div_natCast]
    push_cast
    rfl

/-- The place `sampleAt` reads on an axis of n samples. -/
theorem nearestIn_toNat (n : Nat) (x : Int) (hn : 0 < n) : (nearestIn n x).toNat = min x.toNat (n - 1) := by
  unfold nearestIn
  split
  · omega
  · split <;> omega

end Sys2Proof.Machine
end

