-- ==== Sys2Proof/Laws/Steps.lean ====
section
/-! SUPPORT. What a step can do, said once: a property that survives the primitive changes named here survives every
command, and so every step. -/

namespace Sys2Proof.Machine

open Sys2Proof

/-- A property that survives everything a command changes. -/
structure StepClosed (P : State → Prop) : Prop extends PartClosed P where
  pending : ∀ {s : State} (q : List Instr), P s → P { s with pending := q }
  timebase : ∀ {s : State} (t : Time), P s → P { s with timebase := t }
  reset : ∀ {s : State} (o : OpenFrames) (low : Bool), P s → P (resetBlocks o low s)
  phase : ∀ {s : State} (low init : Bool), P s → P { s with resetLow := low, initialising := init }
  /-- A link's state changes; the effect it lets wait is in range, or waited before. -/
  link : ∀ {s : State} (l : Link) (x : LinkState),
    (DeferredInRange x.response.deferred ∨ x.response.deferred = (s.link l).response.deferred) → P s → P (s.setLink l x)
  /-- A parameter takes the value that waited on a link. -/
  param : ∀ {s : State} (l : Link) (r : Response) (p : Param) (v : Nat),
    (s.link l).response.deferred = .setParameter p v → P s →
      P { s.setLink l { s.link l with response := .ready r } with params := s.params.set v p }
  trigger : ∀ {s : State} (line : TriggerLine) (x : TriggerInput), P s → P (s.setTrigger line x)
  enables : ∀ {s : State} (l : Link) (g : Group) (a b : Byte) (e : GroupEnable), P s →
    P (s.setNotice l ((s.notice l).setEnables g a b e))
  take : ∀ {s : State} (l : Link) (g : Group) (a : Byte), P s → P (s.setNotice l ((s.notice l).take g a))
  clearNotices : ∀ {s : State} (l : Link), P s → P (s.setNotice l .reset)
  selected : ∀ {s : State} (i : Source), P s → P { s with selected := i }
  cursors : ∀ {s : State} (c : PerLink Seq), P s → P (s.setView { s.view with cursors := c })
  cal : ∀ {s : State} (i : Source) (t : List CalPoint), (CalTableOk (s.calTable i) → CalTableOk t) → P s → P (s.setCal i t)
  zoom : ∀ {s : State} (p : Planner), (ZoomQueueOk s → ZoomQueueOk (s.setPlanner p)) → P s → P (s.setPlanner p)
  config : ∀ {s : State} (st : StreamId) (c : StreamConfig), c.inRange = true →
    ¬(c.cause = .chain ∧ (s.stream st.partner).config.cause = .chain) → P s →
      P (s.modStream st fun x => { x with config := c })
  /-- R128: a report that is not late is accepted. -/
  report : ∀ {s : State} (i : Source) (r : Report), isLate (s.src i).lastCompleted r.frame = false → P s →
    P (s.setReport i ((s.report i).accept r).1)

/-! ## Calibration tables -/

theorem insertPoint_mem {p q : CalPoint} {t : List CalPoint} (h : q ∈ insertPoint p t) : q = p ∨ q ∈ t := by
  induction t with
  | nil => exact Or.inl (List.mem_singleton.mp h)
  | cons a t ih =>
    simp only [insertPoint] at h
    split at h
    · simpa using h
    · split at h
      · rcases List.mem_cons.mp h with h | h
        · exact Or.inl h
        · exact Or.inr (List.mem_cons_of_mem _ h)
      · rcases List.mem_cons.mp h with h | h
        · exact Or.inr (h ▸ List.mem_cons_self)
        · exact (ih h).imp id (List.mem_cons_of_mem _)

theorem insertPoint_sorted (p : CalPoint) (t : List CalPoint) (h : t.Pairwise fun a b => a.focus < b.focus) :
    (insertPoint p t).Pairwise fun a b => a.focus < b.focus := by
  induction t with
  | nil => exact List.pairwise_singleton ..
  | cons a t ih =>
    have ha := List.pairwise_cons.mp h
    simp only [insertPoint]
    split
    · next hlt =>
      refine List.pairwise_cons.mpr ⟨fun b hb => ?_, h⟩
      rcases List.mem_cons.mp hb with rfl | hb
      · exact hlt
      · exact Nat.lt_trans hlt (ha.1 b hb)
    · split
      · next heq => exact List.pairwise_cons.mpr ⟨fun b hb => heq ▸ ha.1 b hb, ha.2⟩
      · next h1 h2 =>
        refine List.pairwise_cons.mpr ⟨fun b hb => ?_, ih ha.2⟩
        rcases insertPoint_mem hb with rfl | hb
        · omega
        · exact ha.1 b hb

theorem insertPoint_length (p : CalPoint) (t : List CalPoint) (h : t.Pairwise fun a b => a.focus < b.focus) :
    (insertPoint p t).length = if hasPoint p.focus t then t.length else t.length + 1 := by
  induction t with
  | nil => rfl
  | cons a t ih =>
    have ha := List.pairwise_cons.mp h
    have hh : hasPoint p.focus (a :: t) = (decide (a.focus = p.focus) || hasPoint p.focus t) := rfl
    rw [hh]
    simp only [insertPoint]
    split
    · next hlt =>
      have : hasPoint p.focus t = false := by
        rw [hasPoint, List.any_eq_false]
        intro b hb
        have := ha.1 b hb
        simp; omega
      have h2 : ¬ a.focus = p.focus := by omega
      simp [this, h2]
    · split
      · next heq => simp [heq]
      · next h1 h2 =>
        have h3 : ¬ a.focus = p.focus := fun e => h2 e.symm
        rw [List.length_cons, ih ha.2]
        simp only [h3, decide_false, Bool.false_or]
        split <;> rfl

theorem CalTableOk.insert {p : CalPoint} {t : List CalPoint} (h : CalTableOk t) (hp : p.inRange = true)
    (hl : (hasPoint p.focus t || decide (t.length < calTableSize)) = true) : CalTableOk (insertPoint p t) := by
  refine ⟨?_, insertPoint_sorted _ _ h.2.1, fun q hq => ?_⟩
  · rw [insertPoint_length _ _ h.2.1]
    split
    · exact h.1
    · next hn =>
      rcases Bool.or_eq_true_iff.mp hl with hl | hl
      · exact absurd hl hn
      · exact of_decide_eq_true hl
  · rcases insertPoint_mem hq with rfl | hq
    · exact hp
    · exact h.2.2 q hq

theorem CalTableOk.filter {t : List CalPoint} (h : CalTableOk t) (f : CalPoint → Bool) : CalTableOk (t.filter f) :=
  ⟨Nat.le_trans (List.length_filter_le ..) h.1, h.2.1.sublist List.filter_sublist,
    fun _ hp => h.2.2 _ (List.mem_filter.mp hp).1⟩

theorem CalTableOk.empty : CalTableOk [] := ⟨Nat.zero_le _, List.Pairwise.nil, fun _ h => absurd h List.not_mem_nil⟩

namespace StepClosed

variable {P : State → Prop} (c : StepClosed P) {s : State}
include c

/-! ## Requests -/

theorem endIgnored (l : Link) (shifted : List Byte) (h : P s) : P (endIgnored l shifted s) :=
  c.link _ _ (Or.inr rfl) h

theorem ignoreFrame (l : Link) (before : ResponseState → List Byte) (h : P s) : P (ignoreFrame l before s) := by
  unfold Machine.ignoreFrame
  split
  · exact c.endIgnored _ _ h
  · exact c.endIgnored (s := spendFree s) _ _ (c.free _ h)

theorem discardFrame (l : Link) (n : Nat) (h : P s) : P (discardFrame l n s) := c.raised _ _ (c.link _ _ (Or.inr rfl) h)

theorem discardBytes (l : Link) (bytes : List Byte) (h : P s) : P (discardBytes l bytes s) := by
  unfold Machine.discardBytes
  split
  · split
    · exact c.endIgnored _ _ h
    · exact c.discardFrame _ _ h
  split
  · exact c.ignoreFrame _ _ h
  · exact c.raised _ _ (c.link (s := spendFree s) _ _ (Or.inr rfl) (c.free _ h))

/-- A judgement that keeps the property and lets only values in range wait. -/
def Keeps (P : State → Prop) (j : Judged) : Prop := P j.state ∧ DeferredInRange j.answer.deferred

omit c in
theorem keeps_refuse (x : Status) (h : P s) : Keeps P (refuse x s) := ⟨h, trivial⟩

omit c in
theorem keeps_accept (x : Status) (h : P s) : Keeps P (accept x s) := ⟨h, trivial⟩

omit c in
theorem keeps_with (f : List Byte) (h : P s) : Keeps P (acceptWith f s) := ⟨h, trivial⟩

omit c in
theorem keeps_onSource (n : Nat) (rule : Source → Judged) (h : P s) (hr : ∀ i, Keeps P (rule i)) :
    Keeps P (onSource n rule s) := by
  unfold onSource
  split
  · exact hr _
  · exact keeps_refuse _ h

omit c in
theorem keeps_onSelected (rule : Source → Judged) (h : P s) (hr : ∀ i, Keeps P (rule i)) :
    Keeps P (onSelected rule s) := by
  unfold onSelected
  split
  · exact keeps_refuse _ h
  · exact hr _

omit c in
theorem keeps_onStream (n : Nat) (rule : StreamId → Judged) (h : P s) (hr : ∀ i, Keeps P (rule i)) :
    Keeps P (onStream n rule s) := by
  unfold onStream
  split
  · exact hr _
  · exact keeps_refuse _ h

omit c in
theorem keeps_onDirected (l : Link) (rule : Source → Judged) (f : List Byte) (h : P s) (hr : ∀ i, Keeps P (rule i)) :
    Keeps P (onDirected l rule f s) := by
  unfold onDirected
  split
  · split
    · exact keeps_onSource _ _ h hr
    · exact keeps_refuse _ h
  · exact keeps_onSelected _ h hr

/-- A request's rule keeps the property. -/
def RuleKeeps (P : State → Prop) (r : RequestRule) : Prop := ∀ f s, P s → Keeps P (r.judge f s)

theorem receiveRequest (l : Link) (code : Byte) (rule : Option RequestRule) (f : List Byte)
    (hr : ∀ r, rule = some r → RuleKeeps P r) (h : P s) : P (receiveRequest l code rule f s) := by
  unfold Machine.receiveRequest
  split
  · exact c.endIgnored _ _ h
  · split
    · exact c.discardFrame _ _ h
    · have hj : Keeps P (judgeRequest rule f s) := by
        unfold judgeRequest
        split
        · exact keeps_refuse _ h
        · next r =>
          split
          · exact keeps_refuse _ h
          · split
            · exact keeps_refuse _ h
            · exact hr r rfl f s h
      unfold takeRequest
      exact c.link _ _ (Or.inl hj.2) hj.1

theorem receiveFetch (l : Link) (n : Nat) (h : P s) : P (receiveFetch l n s) := by
  unfold Machine.receiveFetch
  split
  · exact c.ignoreFrame _ _ h
  · exact c.link _ _ (Or.inr rfl) h

/-! ### The rules -/

omit c in
theorem readIdentityRule : RuleKeeps P readIdentityRule := fun _ _ h => keeps_with _ h

theorem setNoticeEnablesRule (l : Link) : RuleKeeps P (setNoticeEnablesRule l) := by
  intro f s h
  change Keeps P (judgeSetNoticeEnables l f s)
  unfold judgeSetNoticeEnables
  split
  · exact keeps_refuse _ h
  · split
    · exact keeps_accept _ (c.enables _ _ _ _ _ h)
    · exact keeps_refuse _ h

theorem takeNoticesRule (l : Link) : RuleKeeps P (takeNoticesRule l) := by
  intro f s h
  change Keeps P (judgeTakeNotices l f s)
  unfold judgeTakeNotices
  split
  · exact keeps_refuse _ h
  · split
    · exact keeps_with _ (c.take _ _ _ h)
    · exact keeps_refuse _ h

theorem readViewRecordsRule (l : Link) : RuleKeeps P (readViewRecordsRule l) := by
  intro f s h
  change Keeps P (judgeReadViewRecords l f s)
  unfold judgeReadViewRecords
  split
  · exact keeps_refuse _ h
  · split
    · exact ⟨c.cursors _ h, trivial⟩
    · exact keeps_refuse _ h

theorem readSourceStatusRule (l : Link) : RuleKeeps P (readSourceStatusRule l) := fun _ _ h =>
  keeps_onDirected _ _ _ h fun _ => keeps_with _ (c.free _ h)

theorem clearFaultRule (l : Link) : RuleKeeps P (clearFaultRule l) := by
  intro f s h
  refine keeps_onDirected _ _ _ h fun i => ?_
  split
  · exact keeps_accept _ (c.enterOff _ (c.modSrc _ _ h))
  · exact keeps_refuse _ h

omit c in
theorem setParameterRule : RuleKeeps P setParameterRule := by
  intro f s h
  change Keeps P (judgeSetParameter f s)
  unfold judgeSetParameter
  split
  · exact keeps_refuse _ h
  · split
    · split
      · next hw => exact ⟨h, hw⟩
      · exact keeps_refuse _ h
    · exact keeps_refuse _ h

theorem enrollSourceRule : RuleKeeps P enrollSourceRule := by
  intro f s h
  change Keeps P (judgeEnrollSource f s)
  unfold judgeEnrollSource
  split
  · exact keeps_refuse _ h
  · refine keeps_onSource _ _ h fun i => ?_
    split
    · exact keeps_refuse _ h
    · split
      · split
        · exact keeps_refuse _ h
        · split
          · exact keeps_refuse _ h
          · refine keeps_accept _ (c.enterOff _ (c.modSrc _ _ h fun r => Or.inr ?_))
            simp only [SourceRecord.enroll]
            split <;> rfl
      · exact keeps_refuse _ h

theorem withdrawSourceRule : RuleKeeps P withdrawSourceRule := by
  intro f s h
  change Keeps P (judgeWithdrawSource f s)
  unfold judgeWithdrawSource
  split
  · exact keeps_refuse _ h
  · refine keeps_onSource _ _ h fun i => ?_
    unfold judgeWithdraw
    have h1 : P (markWithdraw i s) := c.modSrc _ _ h
    split
    iterate 3 exact keeps_accept _ (c.enterAbsent _ h)
    iterate 3 exact keeps_accept _ (c.enterStopping _ h1)
    · exact keeps_accept _ h1
    · exact keeps_refuse _ h
    · exact keeps_refuse _ h

theorem setKeepWarmRule : RuleKeeps P setKeepWarmRule := by
  intro f s h
  change Keeps P (judgeSetKeepWarm f s)
  unfold judgeSetKeepWarm
  split
  · exact keeps_refuse _ h
  · split
    · exact keeps_accept _ (c.setKeepWarm _ h)
    · exact keeps_refuse _ h

theorem postZoomRule : RuleKeeps P postZoomRule := by
  intro f s h
  change Keeps P (judgePostZoom f s)
  unfold judgePostZoom
  split
  · exact keeps_refuse _ h
  · split
    · split
      · exact keeps_refuse _ h
      · next hs =>
        have hs := Nat.not_lt.mp hs
        unfold judgeZoom
        dsimp only
        split
        · refine keeps_accept _ ?_
          unfold replaceZoom
          dsimp only
          split
          · exact c.raise _ (c.zoom _ (fun _ => ⟨by simp, by simpa using hs⟩) h)
          · exact c.zoom _ (fun _ => ⟨by simp, by simpa using hs⟩) h
        · split
          · next hq =>
            refine keeps_accept _ (c.zoom _ (fun hz => ⟨?_, fun z hm => ?_⟩) h)
            · simp only [State.setPlanner_planner, List.length_append, List.length_singleton]
              exact hq
            · rcases List.mem_append.mp hm with hm | hm
              · exact hz.2 z hm
              · rw [List.mem_singleton.mp hm]; exact hs
          · exact keeps_refuse _ h
    · exact keeps_refuse _ h

theorem flushZoomRule : RuleKeeps P flushZoomRule := fun _ _ h =>
  keeps_accept _ (c.zoom _ (fun _ => ⟨Nat.zero_le _, fun _ hm => absurd hm List.not_mem_nil⟩) h)

theorem putCalPointRule : RuleKeeps P putCalPointRule := by
  intro f s h
  change Keeps P (judgePutCalPoint f s)
  unfold judgePutCalPoint
  split
  · exact keeps_refuse _ h
  · refine keeps_onSource _ _ h fun i => ?_
    dsimp only
    split
    · exact keeps_refuse _ h
    · next hr =>
      split
      · next hl => exact keeps_accept _ (c.cal _ _ (fun ht => ht.insert (by simpa using hr) hl) h)
      · exact keeps_refuse _ h

theorem dropCalPointRule : RuleKeeps P dropCalPointRule := by
  intro f s h
  change Keeps P (judgeDropCalPoint f s)
  unfold judgeDropCalPoint
  split
  · exact keeps_refuse _ h
  · refine keeps_onSource _ _ h fun i => ?_
    dsimp only
    split
    · exact keeps_refuse _ h
    · split
      · exact keeps_accept _ (c.cal _ _ (fun ht => ht.filter _) h)
      · exact keeps_refuse _ h

theorem clearCalRule : RuleKeeps P clearCalRule := by
  intro f s h
  change Keeps P (judgeClearCal f s)
  unfold judgeClearCal
  split
  · exact keeps_refuse _ h
  · exact keeps_onSource _ _ h fun i => keeps_accept _ (c.cal _ _ (fun _ => CalTableOk.empty) h)

omit c in
theorem readCalRule : RuleKeeps P readCalRule := by
  intro f s h
  change Keeps P (judgeReadCal f s)
  unfold judgeReadCal
  split
  · exact keeps_refuse _ h
  · exact keeps_onSource _ _ h fun i => keeps_with _ h

theorem configureStreamRule : RuleKeeps P configureStreamRule := by
  intro f s h
  change Keeps P (judgeConfigureStream f s)
  unfold judgeConfigureStream
  split
  · exact keeps_refuse _ h
  · refine keeps_onStream _ _ h fun st => ?_
    unfold judgeConfigure
    split
    · exact keeps_refuse _ h
    · split
      · exact keeps_refuse _ h
      · split
        · exact keeps_refuse _ h
        · next hr =>
          split
          · exact keeps_refuse _ h
          · next hc => exact keeps_accept _ (c.config _ _ (by simpa using hr) (by simpa using hc) h)

theorem startStreamRule : RuleKeeps P startStreamRule := by
  intro f s h
  change Keeps P (judgeStartStream f s)
  unfold judgeStartStream
  split
  · exact keeps_refuse _ h
  · refine keeps_onStream _ _ h fun st => ?_
    split
    · exact keeps_refuse _ h
    · exact keeps_accept _ (c.startStream _ h)

theorem stopStreamRule : RuleKeeps P stopStreamRule := by
  intro f s h
  change Keeps P (judgeStopStream f s)
  unfold judgeStopStream
  split
  · exact keeps_refuse _ h
  · exact keeps_onStream _ _ h fun st => keeps_accept _ (c.settle (c.stopStream _ h))

theorem triggerStreamRule : RuleKeeps P triggerStreamRule := by
  intro f s h
  change Keeps P (judgeTriggerStream f s)
  unfold judgeTriggerStream
  split
  · exact keeps_refuse _ h
  · refine keeps_onStream _ _ h fun st => ?_
    dsimp only
    split
    · exact keeps_accept _ (c.settle (c.triggerStream _ h))
    · exact keeps_refuse _ h

omit c in
theorem setTriggerEdgeRule : RuleKeeps P setTriggerEdgeRule := by
  intro f s h
  change Keeps P (judgeSetTriggerEdge f s)
  unfold judgeSetTriggerEdge
  split
  · exact keeps_refuse _ h
  · split
    · exact ⟨h, trivial⟩
    · exact keeps_refuse _ h

theorem selectSourceRule : RuleKeeps P selectSourceRule := by
  intro f s h
  change Keeps P (judgeSelectSource f s)
  unfold judgeSelectSource
  split
  · exact keeps_refuse _ h
  · exact keeps_onSource _ _ h fun i => keeps_accept _ (c.selected _ h)

theorem resetLinkRule : RuleKeeps P resetLinkRule := fun _ _ h =>
  keeps_accept _ (c.cursors _ (c.clearNotices _ (c.selected _ h)))

theorem confirmStartRule : RuleKeeps P confirmStartRule := by
  intro f s h
  refine keeps_onSelected _ h fun i => ?_
  split
  · unfold enterWarming
    exact keeps_accept _ (c.modSrc _ _ h)
  · exact keeps_refuse _ h

theorem refuseStartRule : RuleKeeps P refuseStartRule := by
  intro f s h
  change Keeps P (judgeRefuseStart f s)
  unfold judgeRefuseStart
  split
  · exact keeps_refuse _ h
  · refine keeps_onSelected _ h fun i => ?_
    split
    · exact keeps_accept _ (c.enterFaulted _ _ (c.modSrc _ _ h))
    · exact keeps_refuse _ h

theorem confirmStopRule : RuleKeeps P confirmStopRule := by
  intro f s h
  refine keeps_onSelected _ h fun i => ?_
  split
  · exact keeps_accept _ (c.enterOff _ (c.raiseSrc _ _ (c.modSrc _ _ h)))
  · exact keeps_accept _ h
  all_goals exact keeps_refuse _ h

theorem holdRule : RuleKeeps P holdRule := by
  intro f s h
  refine keeps_onSelected _ h fun i => ?_
  split
  · exact keeps_accept _ h
  · exact keeps_accept _ (c.enterHeld _ h)

theorem releaseHoldRule : RuleKeeps P releaseHoldRule := by
  intro f s h
  refine keeps_onSelected _ h fun i => ?_
  split
  · exact keeps_accept _ (c.enterOff _ h)
  · exact keeps_refuse _ h

theorem declareFaultRule : RuleKeeps P declareFaultRule := by
  intro f s h
  refine keeps_onSelected _ h fun i => ?_
  split
  · exact keeps_accept _ h
  · exact keeps_accept _ (c.enterFaulted _ _ h)

theorem postReportRule : RuleKeeps P postReportRule := by
  intro f s h
  change Keeps P (judgePostReport f s)
  unfold judgePostReport
  split
  · exact keeps_refuse _ h
  · refine keeps_onSelected _ h fun i => ?_
    unfold judgeReport
    split
    · exact keeps_refuse _ h
    · split
      · exact keeps_refuse _ h
      · split
        · exact keeps_refuse _ h
        · next hl => exact keeps_accept _ (c.report _ _ (by simpa using hl) h)

theorem ruleFor (l : Link) (code : Byte) (r : RequestRule) (hr : ruleFor l code = some r) : RuleKeeps P r := by
  unfold Machine.ruleFor at hr
  split at hr <;> cases hr
  · exact readIdentityRule
  · exact c.setNoticeEnablesRule _
  · exact c.takeNoticesRule _
  · exact c.readViewRecordsRule _
  · exact c.readSourceStatusRule _
  · exact c.clearFaultRule _
  · exact fun _ _ h => keeps_with _ (c.free _ h)
  · exact fun _ _ h => ⟨h, trivial⟩
  · exact setParameterRule
  · exact c.enrollSourceRule
  · exact c.withdrawSourceRule
  · exact c.setKeepWarmRule
  · exact c.postZoomRule
  · exact c.flushZoomRule
  · exact c.putCalPointRule
  · exact c.dropCalPointRule
  · exact c.clearCalRule
  · exact readCalRule
  · exact c.configureStreamRule
  · exact c.startStreamRule
  · exact c.stopStreamRule
  · exact c.triggerStreamRule
  · exact setTriggerEdgeRule
  · exact c.selectSourceRule
  · exact c.resetLinkRule
  · exact c.confirmStartRule
  · exact c.refuseStartRule
  · exact c.confirmStopRule
  · exact c.holdRule
  · exact c.releaseHoldRule
  · exact c.declareFaultRule
  · exact c.postReportRule

/-! ## Links and resets -/

theorem request (l : Link) (code : Byte) (f : List Byte) (h : P s) :
    P (Machine.receiveRequest l code (Machine.ruleFor l code) f s) :=
  c.receiveRequest _ _ _ _ (fun r hr => c.ruleFor _ _ r hr) h

theorem receiveEmpty (l : Link) (h : P s) : P (receiveEmpty l s) := by
  unfold Machine.receiveEmpty
  split
  · exact c.endIgnored _ _ h
  · exact h

theorem receiveFrame (l : Link) (bytes : List Byte) (h : P s) : P (receiveFrame l bytes s) := by
  unfold Machine.receiveFrame
  split
  · exact c.receiveEmpty _ h
  · exact c.receiveFetch _ _ h
  · exact c.discardBytes _ _ h
  · exact c.request _ _ _ h

theorem makeReady (l : Link) (o : OpenFrames) (h : P s) : P (makeReady l o s) := by
  unfold Machine.makeReady
  split
  · next r t d e =>
    have h1 : P (s.setLink l { s.link l with response := .ready r }) := c.link _ _ (Or.inl trivial) h
    unfold applyDeferred
    dsimp only
    split
    · exact h1
    · next p v => exact c.param l r p v (by rw [e]; rfl) h
    · exact c.trigger _ _ h1
    · exact c.reset _ _ h
  · exact h
  · exact h

theorem resetLow (o : OpenFrames) (h : P s) : P (resetLow o s) := c.phase true false (c.reset o true h)

theorem resetRelease (h : P s) : P (resetRelease s) := by
  unfold Machine.resetRelease
  split
  · exact c.phase false true h
  · exact h

theorem endInitialisation (h : P s) : P (endInitialisation s) := by
  unfold Machine.endInitialisation
  split
  · exact c.timer _ (c.raise _ (c.phase s.resetLow false h))
  · exact h

theorem triggerEdge (line : TriggerLine) (p : Polarity) (h : P s) :
    P (if (s.trigger line).selection.takes p then recordEdge line s else s) := by
  split
  · exact c.settle (c.offerBoth _ (c.raise _ (c.trigger _ _ h)))
  · exact h

/-! ## Commands and steps -/

/-- Every command keeps the property. -/
theorem exec {i : Instr} {t : State} (h : P s) (e : exec i s = .next t) : P t := by
  have hr := fun l code f => c.request (s := s) l code f h
  cases i
  case invalidPacket =>
    change execInvalidPacket _ _ s = _ at e
    unfold execInvalidPacket at e
    split at e <;> cases e
    · exact c.intakeFrameStart _ _ _ _ h
    · exact c.intakeLine _ _ _ h
    · exact c.intakeFrameEnd _ _ _ h
    · exact h
  all_goals cases e
  case fetchFrame l n =>
    split
    · exact c.receiveEmpty _ h
    · exact c.receiveFetch _ _ h
  case discardedFrame => exact c.receiveFrame _ _ h
  case responseReady => exact c.makeReady _ _ h
  case resetNLow => exact c.resetLow _ h
  case resetNRelease => exact c.resetRelease h
  case endOfInitialisation => exact c.endInitialisation h
  case frameStart => exact c.intakeFrameStart _ _ _ _ h
  case line => exact c.intakeLine _ _ _ h
  case frameEnd => exact c.intakeFrameEnd _ _ _ h
  case triggerEdge => exact c.triggerEdge _ _ h
  case warmDeadlineExpiry => exact c.expireWarm _ h
  case lingerDeadlineExpiry => exact c.expireLinger _ h
  case stopDeadlineExpiry => exact c.expireStop _ h
  case stallDeadlineExpiry => exact c.expireStall _ h
  case dormancyDeadlineExpiry => exact c.goDormant _ h
  case wakeCompletion => exact c.completeWake _ h
  case viewTimerExpiry => exact c.expireViewTimer h
  case syncPulseEnd => exact c.endPulse _ h
  case nextSyncPulse => exact c.takeNextPulse _ h
  case followListPulse => exact c.takeFollowPulse _ h
  case streamTimerExpiry => exact c.expireStreamTimer _ h
  case emissionCompletion => exact c.completeEmission _ h
  case unknownRequest l code f =>
    split
    · exact c.receiveFetch _ _ h
    · split
      · exact c.receiveFrame _ _ h
      · exact hr _ _ _
  all_goals first | exact hr .al _ _ | exact hr .ml _ _ | exact hr _ _ _

theorem tick (h : P s) : P (tick s) := by
  unfold Machine.tick
  split
  · exact h
  · split
    · exact c.timebase _ h
    · exact c.pending _ h

/-- Every step keeps the property. -/
theorem step {t : State} (h : P s) (e : step s = .next t) : P t := by
  unfold Machine.step at e
  split at e
  · cases e; exact c.tick h
  · exact c.exec (c.pending _ h) e

end StepClosed

end Sys2Proof.Machine
end

