-- ==== Sys2Proof/Laws/Wanted.lean ====
section
/-! SUPPORT. What the choices by base zoom answer: the largest, the smallest and the nearest base of a list, and membership of
V. -/

namespace Sys2Proof.Machine

open Sys2Proof

/-- The choice of a list is none exactly for an empty list. -/
theorem bestOf_eq_none {α : Type} {f : α → α → α} {l : List α} : bestOf f l = none ↔ l = [] := by
  cases l <;> simp [bestOf]

/-- A choice that never falls behind in an order is ahead of all it was made from. -/
theorem bestOf_ge {α : Type} {f : α → α → α} {rel : α → α → Prop} (hrefl : ∀ a, rel a a)
    (htrans : ∀ a b c, rel a b → rel b c → rel a c) (hl : ∀ a b, rel a (f a b)) (hr : ∀ a b, rel b (f a b)) {l : List α}
    {x : α} (h : bestOf f l = some x) : ∀ y ∈ l, rel y x := by
  have go : ∀ (l : List α) (a : α), rel a (l.foldl f a) ∧ ∀ y ∈ l, rel y (l.foldl f a) := by
    intro l
    induction l with
    | nil => exact fun a => ⟨hrefl a, fun y hy => absurd hy List.not_mem_nil⟩
    | cons b rest ih =>
      intro a
      have hb := ih (f a b)
      refine ⟨htrans _ _ _ (hl a b) hb.1, fun y hy => ?_⟩
      rcases List.mem_cons.mp hy with rfl | hy
      · exact htrans _ _ _ (hr a y) hb.1
      · exact hb.2 y hy
  cases l with
  | nil => simp [bestOf] at h
  | cons a rest =>
    have hg := go rest a
    obtain rfl : rest.foldl f a = x := Option.some.inj h
    intro y hy
    rcases List.mem_cons.mp hy with rfl | hy
    · exact hg.1
    · exact hg.2 y hy

theorem largestBase_le {s : State} {l : List Source} {i : Source} (h : largestBase s l = some i) :
    ∀ k ∈ l, (s.enr k).base ≤ (s.enr i).base :=
  bestOf_ge (rel := fun a b => (s.enr a).base ≤ (s.enr b).base) (fun _ => Nat.le_refl _) (fun _ _ _ => Nat.le_trans)
    (fun a b => by split <;> omega) (fun a b => by split <;> omega) h

theorem smallestBase_le {s : State} {l : List Source} {i : Source} (h : smallestBase s l = some i) :
    ∀ k ∈ l, (s.enr i).base ≤ (s.enr k).base :=
  bestOf_ge (rel := fun a b => (s.enr b).base ≤ (s.enr a).base) (fun _ => Nat.le_refl _)
    (fun _ _ _ h h' => Nat.le_trans h' h) (fun a b => by split <;> omega)
    (fun a b => by split <;> omega) h

theorem largestBase_eq_none {s : State} {l : List Source} : largestBase s l = none ↔ l = [] := bestOf_eq_none

theorem smallestBase_eq_none {s : State} {l : List Source} : smallestBase s l = none ↔ l = [] := bestOf_eq_none

theorem nearestBelow_eq_none {s : State} {l : List Source} {c : Nat} : nearestBelow s l c = none ↔ l = [] := by
  unfold nearestBelow
  split
  · rename_i i h
    refine ⟨fun h' => by simp at h', ?_⟩
    rintro rfl
    simp [largestBase, bestOf] at h
  · exact smallestBase_eq_none

/-- What the model chooses is what R39 and R62 ask for. -/
theorem nearestBelow_spec {s : State} {l : List Source} {c : Nat} {i : Source} (h : nearestBelow s l c = some i) :
    NearestBelow s l c i := by
  unfold nearestBelow at h
  split at h
  · rename_i j hj
    obtain rfl : j = i := Option.some.inj h
    have hm := largestBase_mem hj
    simp only [List.mem_filter, decide_eq_true_eq] at hm
    exact ⟨hm.1, Or.inl ⟨hm.2, fun k hk hc => largestBase_le hj k (by simp [hk, hc])⟩⟩
  · rename_i hn
    refine ⟨smallestBase_mem h, Or.inr ⟨fun k hk => ?_, smallestBase_le h⟩⟩
    have hn := largestBase_eq_none.mp hn
    simp only [List.filter_eq_nil_iff, decide_eq_true_eq] at hn
    have := hn k hk
    omega

/-- With distinct base zooms there is one such source. -/
theorem NearestBelow.unique {s : State} {l : List Source} {c : Nat} {i j : Source}
    (hd : ∀ a ∈ l, ∀ b ∈ l, (s.enr a).base = (s.enr b).base → a = b) (hi : NearestBelow s l c i)
    (hj : NearestBelow s l c j) : i = j := by
  obtain ⟨mi, hi⟩ := hi
  obtain ⟨mj, hj⟩ := hj
  apply hd i mi j mj
  rcases hi with ⟨h1, h2⟩ | ⟨h1, h2⟩ <;> rcases hj with ⟨h3, h4⟩ | ⟨h3, h4⟩
  · have := h2 j mj h3
    have := h4 i mi h1
    omega
  · have := h3 i mi
    omega
  · have := h1 j mj
    omega
  · have := h2 j mj
    have := h4 i mi
    omega

theorem mem_sourceAll (i : Source) : i ∈ Source.all := by cases i <;> simp [Source.all]

/-- R37: V. -/
theorem mem_availableSources {s : State} {i : Source} : i ∈ availableSources s ↔ (s.src i).state.available = true := by
  simp [availableSources, mem_sourceAll]

theorem SourceState.available_ne_absent {st : SourceState} (h : st.available = true) : st ≠ .absent := by
  rintro rfl
  simp [SourceState.available] at h

end Sys2Proof.Machine
end

