-- ==== Sys2Proof/Laws/Sync.lean ====
section
/-! SUPPORT. What a pulse does to a sync line, where a follow time takes its place, and what a frame start of the primary does
to every line. -/

namespace Sys2Proof.Machine

open Sys2Proof

/-- R137: a pulse, with the pulse end of a line already high kept. -/
theorem SyncLine.pulse_eq (l : SyncLine) (t : Time) :
    l.pulse t =
      { l with lastPulse := some t, pulseEnd := if l.pulseEnd = none then some (t + 10) else l.pulseEnd } := by
  unfold SyncLine.pulse
  cases h : l.pulseEnd <;> simp [timeAfter, pulseLength]

/-- R139: a follow time stands before the first later one. -/
theorem insertTime_place (t : Time) (l : List Time) :
    ∃ before after, l = before ++ after ∧ insertTime t l = before ++ t :: after ∧
      (∀ x ∈ before, timeLater x t = false) ∧ ∀ x, after.head? = some x → timeLater x t = true := by
  induction l with
  | nil => exact ⟨[], [], rfl, rfl, fun x h => absurd h List.not_mem_nil, fun x h => by simp at h⟩
  | cons x xs ih =>
    by_cases h : timeLater x t = true
    · exact ⟨[], x :: xs, rfl, by simp [insertTime, h], fun y hy => absurd hy List.not_mem_nil, by simp [h]⟩
    · obtain ⟨b, a, h1, h2, h3, h4⟩ := ih
      refine ⟨x :: b, a, by simp [h1], by simp [insertTime, h, h2], fun y hy => ?_, h4⟩
      rcases List.mem_cons.mp hy with rfl | hy
      · simpa using h
      · exact h3 y hy

/-- A list with room makes none. -/
theorem SyncLine.makeRoom_of_lt {l : SyncLine} {now : Time} (h : l.followList.length < 4) : l.makeRoom now = l := by
  unfold SyncLine.makeRoom
  split
  · rfl
  · rw [if_pos h]

/-- R139: each line after a frame start of the primary `p`, and nothing else changed. -/
theorem paceFollowers_lines (p : Source) (start : Time) (s : State) :
    { paceFollowers p start s with sync := s.sync } = s ∧
      ∀ i, (paceFollowers p start s).syncLine i =
        if followsPrimary s p i then
          (s.syncLine i).follow start (timeShift (timeAfter start (s.enr p).interval) (s.enr i).syncOffset)
        else s.syncLine i := by
  have go : ∀ (l : List Source), l.Nodup → ∀ s : State,
      let t := l.foldl (fun s i =>
        if followsPrimary s p i then
          s.setSync i
            ((s.syncLine i).follow start (timeShift (timeAfter start (s.enr p).interval) (s.enr i).syncOffset))
        else s) s
      { t with sync := s.sync } = s ∧
        ∀ i, t.syncLine i =
          if i ∈ l ∧ followsPrimary s p i = true then
            (s.syncLine i).follow start (timeShift (timeAfter start (s.enr p).interval) (s.enr i).syncOffset)
          else s.syncLine i := by
    intro l
    induction l with
    | nil => exact fun _ s => ⟨rfl, fun i => by simp⟩
    | cons a r ih =>
      intro hn s
      have hn := List.nodup_cons.mp hn
      by_cases hf : followsPrimary s p a = true
      · simp only [List.foldl_cons, hf, if_true]
        generalize hu : s.setSync a
          ((s.syncLine a).follow start (timeShift (timeAfter start (s.enr p).interval) (s.enr a).syncOffset)) = u
        obtain ⟨h1, h2⟩ := ih hn.2 u
        have e : { u with sync := s.sync } = s := by subst hu; rfl
        have ee : ∀ j, u.enr j = s.enr j := by subst hu; exact fun _ => rfl
        have es : ∀ j, j ≠ a → u.syncLine j = s.syncLine j := by
          subst hu
          intro j hj
          simp [hj]
        have ea : u.syncLine a =
            (s.syncLine a).follow start (timeShift (timeAfter start (s.enr p).interval) (s.enr a).syncOffset) := by
          subst hu
          simp
        refine ⟨by rw [← h1] at e; exact e, fun i => ?_⟩
        rw [h2]
        by_cases hi : i = a
        · subst hi
          simp [hn.1, ea, hf]
        · have : followsPrimary u p i = followsPrimary s p i := by simp [followsPrimary, es i hi, ee]
          simp [hi, this, es i hi, ee]
      · obtain ⟨h1, h2⟩ := ih hn.2 s
        simp only [List.foldl_cons, hf]
        refine ⟨h1, fun i => ?_⟩
        by_cases hi : i = a
        · subst hi
          simpa [hn.1, hf] using h2 i
        · simpa [hi] using h2 i
  obtain ⟨h1, h2⟩ := go Source.all (by decide) s
  refine ⟨h1, fun i => ?_⟩
  unfold paceFollowers
  simpa [mem_sourceAll] using h2 i

end Sys2Proof.Machine
end

