-- ==== Sys2Proof/Tests/Slice0.lean ====
section
/-! SUPPORT. The author's own tests: the check of WellFormed, frames and packets written out from Tables 62, 64 and 69, one
small step of the commands, and for every statement a state and operands that meet its hypotheses. -/

namespace Sys2Proof.Tests

open Sys2Proof Sys2Proof.Machine

/-! ## Small states -/

/-- Past initialisation, nothing enrolled. -/
def idle : State := { State.reset with initialising := false }

/-- The reference configuration's S1 (00_scope.md 5), FOLLOW, with a small frame. -/
def enr (base limit : Nat) : Enrolment :=
  { base := base, limit := limit, switchUp := base, switchDown := base, approach := 0, width := 64, height := 64,
    interval := 33333, syncMode := .follow, syncOffset := 0, freePeriod := 33333 }

/-- S0 enrolled in a state, with a further change. -/
def put (st : SourceState) (f : SourceRecord → SourceRecord := id) : State :=
  idle.modSrc .s0 fun r => f { r with state := st, enrolment := some (enr 256 600) }

/-- S0 the primary in LIVE, S1 enrolled in a state, S0 with a record or without. -/
def pair (st : SourceState) (r : Option HandoffRecord) : State :=
  let s := (put .live).modSrc .s1 fun r => { r with state := st, enrolment := some (enr 512 1200) }
  s.setHandoff { s.handoff with primary := some .s0, record := r }

def handoff (ph : Phase) (w : Nat) : HandoffRecord :=
  { src := .s0, dst := .s1, direction := .up, phase := ph, weight := w, count := 0, startSeq := 0, reversed := false,
    forced := false, cut := false }

def report (n : FrameNo) : Report :=
  { frame := n, focus := 10, exposure := 5, shiftX := 0, shiftY := 0, focusMoving := false, exposureChanging := false }

def viewRecord (n : Seq) : ViewRecord :=
  { seq := n, timestamp := 0, commanded := 256, view := 256, phase := none, primary := none, secondary := none, tag := 0,
    flags := .clear }

/-- The state after a command. -/
def after (c : Instr) (s : State) : State :=
  match exec c s with
  | .next t => t
  | .fault _ => s
  | .refused _ => s

/-- The status of the pending answer on a link after a command. -/
def status (l : Link) (c : Instr) (s : State) : Option Status :=
  match ((after c s).link l).response with
  | .pending r _ _ => some r.status
  | .none => none
  | .ready _ => none

/-- The field bytes of the pending answer on a link after a command. -/
def fields (l : Link) (c : Instr) (s : State) : List Byte :=
  match ((after c s).link l).response with
  | .pending r _ _ => r.fields
  | .none => []
  | .ready _ => []

/-! ## WellFormed -/

theorem test_wellFormed_refuses :
    [WellFormed (.hold (List.replicate 61 0)), WellFormed (.fetchFrame .al 0), WellFormed (.discardedFrame .al [0x45, 0]),
      WellFormed (.discardedFrame .ml [0]), WellFormed (.invalidPacket .s0 [0x02, 0, 1]),
      WellFormed (.unknownRequest .al 0x10 []), WellFormed (.unknownRequest .al 0x00 []),
      WellFormed (.unknownRequest .ml 0x80 []), WellFormed (.unknownRequest .al 0x7F (List.replicate 61 0))] =
    List.replicate 9 false := by decide

/-- A field list of 61 bytes is refused for every request. -/
theorem test_wellFormed_refuses_long :
    ∀ c ∈ [Instr.readIdentity .al, .setNoticeEnables .al, .takeNotices .ml, .readViewRecords .ml, .readSourceStatus .al,
      .clearFault .ml, .readPartStatus, .resetPart, .setParameter, .enrollSource, .withdrawSource, .setKeepWarm, .postZoom,
      .flushZoom, .putCalPoint, .dropCalPoint, .clearCal, .readCal, .configureStream, .startStream, .stopStream,
      .triggerStream, .setTriggerEdge, .selectSource, .resetLink, .confirmStart, .refuseStart, .confirmStop, .hold,
      .releaseHold, .declareFault, .postReport],
      WellFormed (c (List.replicate 61 0)) = false ∧ WellFormed (c (List.replicate 60 0)) = true := by
  intro c hc
  simp only [List.mem_cons, List.not_mem_nil, or_false] at hc
  rcases hc with h | h | h | h | h | h | h | h | h | h | h | h | h | h | h | h | h | h | h | h | h | h | h | h | h | h | h | h |
    h | h | h | h <;> subst h <;> decide

theorem test_wellFormed_accepts :
    [WellFormed (.fetchFrame .al 1), WellFormed (.discardedFrame .al [0x80]), WellFormed (.discardedFrame .ml [0x45, 1]),
      WellFormed (.discardedFrame .ml []), WellFormed (.invalidPacket .s0 [0x01, 0, 1, 0, 64, 0]), WellFormed (.unknownRequest .al 0x45 []),
      WellFormed (.unknownRequest .ml 0x10 (List.replicate 60 0))] = List.replicate 7 true := by decide

/-! ## Frames and packets written out (Tables 62, 64, 69) -/

theorem test_frames :
    decodeLinkFrame .al [0x12, 5, 7, 0, 0, 0x01, 0xF4] = some (.setParameter [7, 0, 0, 0x01, 0xF4]) ∧
    decodeLinkFrame .ml [0x45, 0] = some (.hold []) ∧ decodeLinkFrame .al [0x45, 0] = some (.unknownRequest .al 0x45 []) ∧
    decodeLinkFrame .al [0x33, 2, 1, 9, 77] = some (.triggerStream [1, 9]) ∧
    decodeLinkFrame .ml [0, 0, 0] = some (.fetchFrame .ml 3) ∧
    decodeLinkFrame .al [0x10, 1] = some (.discardedFrame .al [0x10, 1]) ∧
    decodeLinkFrame .al [0x10, 61] = some (.discardedFrame .al [0x10, 61]) ∧ decodeLinkFrame .al [] = none := by decide

theorem test_packets :
    decodePacket .s2 [0x01, 0x12, 0x34, 0x0F, 0xA0, 0x0B, 0xB8] = .frameStart .s2 0x1234 4000 3000 ∧
    decodePacket .s0 [0x02, 0, 3, 9, 8] = .line .s0 3 [9, 8] ∧
    decodePacket .s1 [0x03, 0, 64, 0xAB, 0xCD, 7] = .frameEnd .s1 64 0xABCD ∧
    decodePacket .s1 [0x04, 0, 64] = .invalidPacket .s1 [0x04, 0, 64] := by decide

theorem test_noWord : decodeTableWord 8 5 = none ∧ State.withFetchWord idle 8 5 = idle := ⟨rfl, rfl⟩

/-! ## Arithmetic -/

/-- Sines and cosines of 90, 30, 60 and 0.01 degrees (R102). -/
theorem test_sines :
    (sin16 9000, cos16 9000, sin16 3000, cos16 6000, sin16 (-3000), sin16 1, cos16 0) =
      (65536, 0, 32768, 32768, -32768, 11, 65536) := by decide

theorem test_rounding : (roundDiv 3 2, roundDiv (-3) 2, roundDiv 5 4, ceilDiv 256 8, ceilDiv 256 3) = (2, -2, 1, 32, 86) := by
  decide

/-- The upper right sample of a four by four output, turned clockwise by 10 degrees about the window's centre (R102). -/
theorem test_secondaryPosition :
    secondaryPosition ⟨16, 16, 32, 32⟩ 1000 4 4 3 0 = (46, 22) ∧ secondaryPosition ⟨16, 16, 32, 32⟩ 0 4 4 3 0 = (44, 20) := by
  decide

theorem test_blend : (blendValue 1 0 1023, blendValue 255 0 1023, blendValue 128 512 512) = (3, 1019, 512) := by decide

theorem test_modular :
    (frameLater 0 65535, frameLater 32767 0, frameLater 32768 0, frameLater 5 5, reached 5 5, reached 4 5,
      reached 2 4294967295) = (true, true, false, false, true, false, true) := by decide

/-! ## Steps of the commands -/

theorem test_identity :
    fields .ml (.readIdentity .ml []) State.reset = [0x4D, 0x34, 0x12, 4, 12, 32, 8, 8, 2, 1] ∧
    status .al (.readPartStatus []) State.reset = some .busy ∧ status .al (.readPartStatus [0]) State.reset = some .malformed ∧
    status .al (.unknownRequest .al 0x45 []) State.reset = some .unknown := by decide

theorem test_fetch :
    ((after (.fetchFrame .al 8) (after (.responseReady .al ⟨false, false⟩) (after (.setParameter [12, 0, 0, 0, 1]) idle))).link
      .al).shifted = [0x00, 0x82, 0x12, Status.range.value, 0, 0, 0, 0] := by decide

theorem test_zoom_bounds :
    (status .al (.postZoom [1, 0, 0x03, 0xFF, 0, 0]) idle, status .al (.postZoom [1, 0, 0x04, 0x00, 0, 0]) idle,
      status .al (.postZoom [1, 0, 0, 1, 0, 2]) idle, status .al (.postZoom [0, 63, 0, 1, 0, 1]) idle,
      status .al (.postZoom [0, 64, 0, 1, 0, 1]) idle, status .al (.postZoom [0x32, 0x01, 0, 1, 0, 1]) idle) =
    (some .ok, some .range, some .range, some .clamped, some .ok, some .clamped) := by decide

theorem test_ramp :
    ((advanceRamp (idle.setPlanner { idle.planner with queue := [⟨266, 3, 7, false⟩] })).planner.commanded,
      (advanceRamp (idle.setPlanner { idle.planner with ramp := some ⟨266, 256, 3, 1, 7⟩ })).planner.commanded,
      (advanceRamp (idle.setPlanner { idle.planner with ramp := some ⟨256, 266, 3, 2, 7⟩ })).planner.lastReachedTag) =
    (259, 260, 7) := by decide

theorem test_parameter_bounds :
    (status .al (.setParameter [0, 0, 0, 0, 32]) idle, status .al (.setParameter [0, 0, 0, 0, 33]) idle,
      status .al (.setParameter [11, 0, 0, 0, 0]) idle, status .al (.setParameter [6, 0, 0, 0, 99]) idle) =
    (some .ok, some .range, some .ok, some .range) := by decide

/-- A full follow list whose earliest time is due pulses for it as the new time joins (R139; log 30). -/
theorem test_follow_list_full :
    let l := ({ SyncLine.reset with followList := [100, 200, 300, 400] } : SyncLine).follow 100 500
    l.followList = [200, 300, 400, 500] ∧ l.lastPulse = some 100 ∧ l.pulseEnd = some 110 := by decide

theorem test_tick_initialises :
    step { State.reset with timebase := 1999 } = .next { State.reset with timebase := 2000 } ∧
    step { State.reset with timebase := 2000 } = .next { State.reset with timebase := 2000, pending := [.endOfInitialisation] } ∧
    (after .endOfInitialisation { State.reset with timebase := 2000 }).view.timer = some 35333 := ⟨rfl, rfl, rfl⟩

theorem test_start_and_fill :
    ((after (.confirmStart []) (put .requested)).src .s0).state = .warming ∧
    ((after (.frameStart .s0 1 64 64) (put .warming)).notice .ml).isPending (.source .s0 .drop) = true ∧
    (after (.frameStart .s0 1 64 64)
      ((put .warming fun r => { r with chain := [0] }).modBuffer 0 fun x => { x with state := .empty })).port .s0 =
        .filling 0 1 0 0 0 := by decide

/-- A frame in progress at a reset stays so over a second reset, and a frame of no whole byte ends it (R175; log 5). -/
theorem test_abandoned_ends :
    let s := after (.resetNLow ⟨false, false⟩) (after (.resetNLow ⟨true, false⟩) idle)
    ((s.link .al).abandoned, (s.link .ml).abandoned, ((after (.discardedFrame .al []) s).link .al).abandoned,
      ((after (.fetchFrame .al 0) s).link .al).abandoned) = (some ⟨.none, true⟩, none, none, none) := by decide

/-- In a frame found in progress by a reset a request frame shifts out 0x00 throughout (R162), and every frame 0x00 from the
reset on while RESET_N is low (R175). -/
theorem test_shifted_in_reset (free : List Byte) :
    let s := after (.resetNLow ⟨true, true⟩) (after (.hold []) idle)
    (s.link .ml).abandoned = some ⟨.pending ⟨0x45, .wrongState, []⟩ 10 .nothing, true⟩ ∧
    ((after (.hold []) (after .resetNRelease s)).link .ml).shifted = [0, 0] ∧
    ((after (.discardedFrame .al [0x10, 1]) s).link .al).shifted = [0, 0] ∧
    (AbandonedFrame.shiftedOut ⟨.none, true⟩ true 1 (fetchShifted .none 4) free) = [0, 0x80, 0, 0] ∧
    (AbandonedFrame.shiftedOut ⟨.none, true⟩ true 0 (fetchShifted .none 4) free) = [0, 0, 0, 0] := by
  refine ⟨by decide, by decide, by decide, rfl, rfl⟩

/-- With no record READ_PART_STATUS keeps bits 4 to 7 of its flags at 0, its count at most 8 and its weight at most 256,
whatever the free bytes (R71, Table 67; log 18). -/
theorem test_status_without_record (g : Nat → Byte) :
    (g 3 &&& 0x0F).toNat < 16 ∧ freeUpTo g 6 8 ≤ 8 ∧ freeUpTo g 8 256 ≤ 256 := by
  refine ⟨?_, by unfold freeUpTo; omega, by unfold freeUpTo; omega⟩
  rw [BitVec.toNat_and]
  exact Nat.lt_of_le_of_lt Nat.and_le_right (by decide)

/-- Buffers 2 and 0 RETIRING, each pinned by one of the streams, S0 waiting for two: a trigger edge to both streams, whose
takes remove both pins, delivers 0 before 2 (R116, R123). -/
theorem test_removed_together :
    let h (b : BufferId) : HeldRecord := { record := viewRecord 0, buffers := [b], intact := true }
    let s := idle.setView { idle.view with ring := [viewRecord 1], nextSeq := 2 }
    let s := (s.modBuffer 0 fun x => { x with state := .retiring, pins := 1 }).modBuffer 2 fun x =>
      { x with state := .retiring, pins := 1 }
    let go (b : BufferId) (x : Machine.Stream) : Machine.Stream := { x with
      state := .running, current := some (h b), config := { x.config with cause := .trg0 } }
    let s := (s.modStream .p (go 2)).modStream .r (go 0)
    let s := ((s.setBank .a { (s.bank .a) with state := .awake }).setClaimQueue [.s0]).modSrc .s0 fun r => { r with claim := 2 }
    let t := after (.triggerEdge .trg0 .rising) (s.setTrigger .trg0 { selection := .both, lastEdge := none })
    ((t.src .s0).chain, (t.src .s0).claim, t.pool.claimQueue) = ([0, 2], 0, []) := by decide

/-! ## States that meet the hypotheses of the statements, clause by clause -/

theorem put_free (l : Link) (st : SourceState) (f : SourceRecord → SourceRecord) : LinkFree l (put st f) := by
  cases l <;> exact ⟨⟨rfl, rfl, rfl⟩, rfl⟩

theorem idle_free (l : Link) : LinkFree l idle := by cases l <;> exact ⟨⟨rfl, rfl, rfl⟩, rfl⟩

theorem reset_open (l : Link) : LinkOpen l State.reset := by cases l <;> exact ⟨rfl, rfl, rfl⟩

/-- Nothing due, the end of initialisation due, RESET_N low, and a deadline that runs and is not due. -/
theorem witness_EmptyQueueTicks :
    deadlineOf { State.reset with timebase := 2000 } .endOfInitialisation = some 2000 ∧
    (let s := put .warming fun r => { r with warm := some 1 }
     deadlineOf s (.warmDeadlineExpiry .s0) = some 1 ∧ reached s.timebase 1 = false) ∧
    (idle.pending = [] ∧ dueEvents idle = [] ∧ idle.resetLow = false) ∧
    (let s := { State.reset with timebase := 2000 }; s.pending = [] ∧ dueEvents s ≠ [] ∧ s.resetLow = false) ∧
    (let s := resetLow ⟨true, false⟩ idle; s.pending = [] ∧ s.resetLow = true) := by decide

/-- A ring of one record. -/
def ringed : State := idle.setView { idle.view with ring := [viewRecord 0], nextSeq := 1 }

theorem ringed_ok : RingOk ringed := by
  refine ⟨by decide, fun k hk => ?_⟩
  have h0 : k < 1 := hk
  have : k = 0 := by omega
  subst this
  rfl

theorem witness_invariants :
    (∃ t, step ringed = .next t) ∧ RingOk ringed ∧ ParamsOk ringed ∧ ReportsOk ringed ∧ StreamsOk ringed ∧ CalOk ringed ∧
      ZoomQueueOk ringed ∧ FollowOk ringed ∧ NoticesOk ringed := by
  refine ⟨⟨_, rfl⟩, ringed_ok, ⟨fun p => by cases p <;> rfl, fun l => by cases l <;> trivial⟩, fun i => ?_,
    ⟨fun st => by cases st <;> rfl, by decide⟩, fun i => by cases i <;> exact CalTableOk.empty, ⟨by decide, fun z h => ?_⟩,
    fun i => by cases i <;> decide, fun l g => ?_⟩
  · cases i <;> exact ⟨by decide, fun n h => by cases h⟩
  · cases h
  · cases l <;> cases g <;> (try (rename_i x; cases x)) <;> decide

/-- S0 the primary in LIVE with a filled, a filling and an empty buffer, S1 retired from view with one pinned buffer left, S2
waiting for three; P RUNNING with a hold on each pinned buffer. -/
def whole : State :=
  let s := ((put .live fun r => { r with chain := [0, 1, 2] }).modSrc .s2 fun r => { r with
    state := .requested, claim := 3, warm := some 9, enrolment := some (enr 512 1200) }).modSrc .s1 fun r => { r with
    state := .stopping, stop := some 9, enrolment := some (enr 900 1200) }
  let s := (s.setClaimQueue [.s2]).setBank .a { state := .awake, dormancy := none, wake := none }
  let s := s.setBank .b { state := .awake, dormancy := none, wake := none }
  let s := (s.modBuffer 0 fun x => { x with state := .ready, pins := 1, info := some ⟨.s0, 1, 100, 200, none⟩ }).modBuffer 1
    fun x => { x with state := .filling }
  let s := (s.modBuffer 2 fun x => { x with state := .empty }).modBuffer 3 fun x => { x with
    state := .retiring, pins := 2, info := some ⟨.s1, 1, 100, 200, none⟩ }
  let s := (s.setPort .s0 (.filling 1 7 0 3 5)).modStream .p fun x => { x with
    state := .running, pendingSet := [{ seq := 0, buffers := [0, 3] }]
    current := some { record := viewRecord 0, buffers := [3], intact := true } }
  s.setHandoff { s.handoff with primary := some .s0 }

theorem whole_live : LiveOk whole := by
  have hr : whole.handoff.record = none := rfl
  refine ⟨fun i => ?_, fun r h => ?_⟩
  · simp only [hr, reduceCtorEq, false_and, exists_false, or_false]
    cases i <;> decide
  · rw [hr] at h
    cases h

theorem whole_chains : ChainsOk whole := by
  refine ⟨fun i => by cases i <;> decide, fun i j => by cases i <;> cases j <;> decide +kernel, fun b => ?_,
    fun i => by cases i <;> decide, fun i => by cases i <;> decide +kernel, by decide +kernel,
    fun i => by cases i <;> decide, fun i b f t k c h => ?_⟩
  · have h : (∃ i, b ∈ (whole.src i).chain) ↔ b ∈ ([0, 1, 2] : List BufferId) := by
      refine ⟨fun ⟨i, hi⟩ => ?_, fun hb => ⟨.s0, hb⟩⟩
      cases i
      · exact hi
      all_goals cases hi
    rw [h]
    clear h
    revert b
    decide
  · cases i
    · obtain ⟨rfl, -⟩ := Port.filling.inj h
      decide
    all_goals cases h

theorem whole_ok : (LiveOk whole ∧ DeadlinesOk whole ∧ ChainsOk whole ∧ BanksOk whole ∧ PinsOk whole) ∧ BasesOk whole :=
  ⟨⟨whole_live, fun i => by cases i <;> decide, whole_chains, fun k => by cases k <;> decide +kernel,
    by decide, by decide +kernel, by decide +kernel, fun st => by cases st <;> decide +kernel⟩,
    fun i j => by cases i <;> cases j <;> decide⟩

theorem whole_frames : FramesOk whole := by
  refine ⟨fun i h => ?_, fun b => ?_, fun i b hb => ?_, fun i b hb => ?_⟩
  · cases i
    · exact ⟨0, by decide, by decide⟩
    all_goals exact absurd h (by decide)
  · revert b
    decide
  · cases i
    · have hb : b ∈ ([0, 1, 2] : List BufferId) := hb
      intro _ m hm
      fin_cases hb
      · exact (Option.some.inj hm) ▸ rfl
      all_goals cases hm
    all_goals cases hb
  · cases i
    · have hb : b ∈ ([0, 1, 2] : List BufferId) := hb
      intro h
      have : b = 1 := by
        revert h
        fin_cases hb <;> decide
      exact ⟨7, 0, 3, 5, this ▸ rfl⟩
    all_goals cases hb

/-- S0 and S1 in CROSSFADE at weight 32, a zoom waiting and a ramp between others: the controller's record and the zooms. -/
theorem witness_LiveSourcesFollowTheController :
    let s := pair .live (some (handoff .crossfade 32))
    let s := s.setPlanner { s.planner with
      queue := [⟨12800, 3, 1, false⟩], ramp := some { origin := 64, target := 600, steps := 4, index := 3, tag := 2 } }
    (LiveOk s ∧ DeadlinesOk s ∧ BasesOk s ∧ EnrolledOk s ∧ ZoomOk s ∧ ParamsOk s ∧ RecordOk s) ∧ ∃ t, step s = .next t := by
  refine ⟨⟨⟨fun i => ?_, fun r h => ?_⟩, fun i => by cases i <;> decide, fun i j => by cases i <;> cases j <;> decide,
    fun i h => ?_, ⟨by decide, by decide, fun r h => ?_⟩, ⟨fun p => by cases p <;> rfl, fun l => by cases l <;> trivial⟩,
    fun r h => ?_⟩, _, rfl⟩
  · cases i <;> simp [pair, handoff, put, idle, State.modSrc, State.setSrc, State.src, PerSource.get, PerSource.set] <;> decide
  · obtain rfl := Option.some.inj h
    decide
  · cases i
    · exact ⟨_, rfl, by decide⟩
    · exact ⟨_, rfl, by decide⟩
    all_goals exact absurd rfl h
  · obtain rfl := Option.some.inj h
    decide
  · obtain rfl := Option.some.inj h
    exact ⟨by decide, by decide, by decide, rfl⟩

/-- The pool of `whole` and what its controller follows are kept by steps that answer next. -/
theorem witness_wholeSteps :
    (∃ t, step whole = .next t) ∧ ∃ t, step { whole with pending := [.dormancyDeadlineExpiry .c] } = .next t :=
  ⟨⟨_, rfl⟩, ⟨_, rfl⟩⟩

theorem witness_FramesAndPacketsRoundTrip :
    WellFormed (.takeNotices .ml [4, 255]) = true ∧
      encodeLinkFrame (.takeNotices .ml [4, 255]) = some (.ml, [3, 2, 4, 255]) ∧
    WellFormed (.frameStart .s1 258 64 64) = true ∧
      encodePacket (.frameStart .s1 258 64 64) = some (.s1, [1, 1, 2, 0, 64, 0, 64]) := by decide

theorem witness_LinkChecksInOrder :
    LinkOpen .al State.reset ∧ unknownOn .al 0x7F = true ∧ (List.replicate 60 (0 : Byte)).length ≤ 60 ∧
      requestParts (.triggerStream []) = some (.al, 0x33, []) ∧
      takesLength (.triggerStream []) (List.length ([] : List Byte)) = some false ∧
      takesLength (.triggerStream (List.replicate 60 0)) 60 = some true ∧ State.reset.initialising = true ∧
      requestParts (.hold []) = some (.ml, 0x45, []) ∧ takesLength (.hold []) 0 = some true :=
  ⟨reset_open .al, by decide, by decide, rfl, rfl, rfl, rfl, rfl, rfl⟩

theorem witness_DiscardedFramesRaiseLinkError :
    let s := after (.hold []) idle
    s.resetLow = false ∧ (s.link .ml).abandoned = none ∧ (s.link .ml).response.isPending = true ∧
      WellFormed (.discardedFrame .ml [0x80]) = true ∧ requestParts (.hold []) = some (.ml, 0x45, []) ∧
      WellFormed (.hold []) = true := by decide

theorem witness_FramesIgnoredInReset :
    (resetLow ⟨true, false⟩ idle).resetLow = true ∧
      ((resetLow ⟨true, false⟩ idle).link .ml).abandoned = none ∧
      ((resetRelease (resetLow ⟨true, false⟩ idle)).link .al).abandoned = some ⟨.none, true⟩ ∧
      (resetRelease (resetLow ⟨true, false⟩ idle)).resetLow = false ∧ requestParts (.resetPart []) = some (.al, 0x11, []) ∧
      WellFormed (.resetPart []) = true ∧ WellFormed (.discardedFrame .al [0x80]) = true ∧
      WellFormed (.discardedFrame .al [0x10]) = true ∧ WellFormed (.discardedFrame .al []) = true := by decide

/-- Every form of a pending response. -/
theorem witness_FetchAndReadiness :
    idle.resetLow = false ∧ (idle.link .al).abandoned = none ∧ (idle.link .al).response = .none ∧
    ((after (.readIdentity .al []) idle).link .al).response.isPending = true ∧
    ((after (.setParameter [2, 0, 0, 0, 0]) idle).link .al).response =
      .pending ⟨0x12, .ok, []⟩ 10 (.setParameter .settleSteps 0) ∧
    ((after (.setTriggerEdge [1, 3]) idle).link .al).response = .pending ⟨0x34, .ok, []⟩ 10 (.setEdge .trg1 .both) ∧
    ((after (.resetPart []) idle).link .al).response = .pending ⟨0x11, .ok, []⟩ 10 .resetPart ∧
    ((after (.hold []) idle).link .ml).response = .pending ⟨0x45, .wrongState, []⟩ 10 .nothing ∧
    ((after (.responseReady .ml ⟨false, false⟩) (after (.hold []) idle)).link .ml).response =
      .ready ⟨0x45, .wrongState, []⟩ := by decide

theorem witness_ResetsAndInitialisation :
    (let s := { State.reset with timebase := 2000 }; s.resetLow = false ∧ s.initialising = true ∧ s.timebase = 2000) ∧
      (resetLow ⟨false, false⟩ idle).resetLow = true ∧ idle.resetLow = false := by decide

/-- RESET_N low, with a frame that the reset found, and a command that comes while it is low. -/
theorem witness_ResetsAndInitialisation_held :
    let s := { resetLow ⟨true, false⟩ (put .live) with pending := [.takeNotices .ml [6, 1]] }
    HeldInReset s ∧ (s.link .al).abandoned ≠ none ∧ s.pending.head? ≠ some .resetNRelease ∧ s.resetLow = true ∧
      ∃ t, step s = .next t := ⟨⟨rfl, fun l => by cases l <;> rfl⟩, by decide, by decide, rfl, _, rfl⟩

theorem witness_NoticeLineRule :
    (idle.setNotice .al ((idle.notice .al).raise (.part .linkError))).notice .al |>.isPending (.part .linkError) := by
  decide

/-- Groups 6 and 7, enables 2 and 3. -/
theorem witness_NoticeRequestsAct :
    LinkFree .ml idle ∧ Group.ofNumber (6 : Byte).toNat = some .part ∧ groupEnableOf (2 : Byte).toNat = some .unchanged ∧
      6 < (7 : Byte).toNat ∧ 2 < (3 : Byte).toNat := ⟨idle_free .ml, rfl, rfl, by decide, by decide⟩

theorem witness_StatusReadsChangeNothing :
    LinkOpen .ml State.reset ∧ LinkFree .al (put .off) ∧ LinkFree .ml (put .off) ∧
      ((put .off).src (put .off).selected).state ≠ .absent ∧ Source.ofNumber (3 : Byte).toNat = some .s3 ∧
      3 < (4 : Byte).toNat ∧ ringed.view.ring = [viewRecord 0] :=
  ⟨reset_open .ml, put_free .al .off id, put_free .ml .off id, by decide, rfl, by decide, rfl⟩

/-- Identifiers 11 and 12, the ends of a range, lines 1 and 2, selections 3 and 4. -/
theorem witness_DeferredRequestsWait :
    LinkFree .al idle ∧ paramOf (11 : Byte).toNat = some .dormancyDelay ∧
      within Param.dormancyDelay.range (word 0 0 3 0xE8).toNat = true ∧
      within Param.dormancyDelay.range (word 0 0 3 0xE9).toNat = false ∧ 11 < (12 : Byte).toNat ∧
      triggerLineOf (1 : Byte).toNat = some .trg1 ∧ edgeSelectionOf (3 : Byte).toNat = some .both ∧ 1 < (2 : Byte).toNat ∧
      3 < (4 : Byte).toNat :=
  ⟨idle_free .al, rfl, by decide, by decide, by decide, rfl, rfl, by decide, by decide⟩

theorem witness_SelectedSourceRequests :
    LinkFree .ml idle ∧ Source.ofNumber (3 : Byte).toNat = some .s3 ∧ 3 < (4 : Byte).toNat ∧
      (idle.src idle.selected).state = .absent ∧ requestParts (.hold []) = some (.ml, 0x45, []) ∧
      takesLength (.hold []) (List.length ([] : List Byte)) = some true ∧
      takesLength (.postReport (List.replicate 13 0)) 13 = some true :=
  ⟨idle_free .ml, rfl, by decide, rfl, rfl, rfl, rfl⟩

theorem witness_EntryToOffAndRequested :
    ((put .stopping fun r => { r with withdrawPending := true }).src .s0).withdrawPending = true ∧
      ((put .stopping fun r => { r with want := true }).src .s0).want = true ∧
      ((put .stopping fun r => { r with want := true }).src .s0).withdrawPending = false ∧
      ((put .stopping).src .s0).want = false ∧ ((put .off).src .s0).chain = [] := by decide

/-- Every state a source can be in, on a free link, for the statements that go by state. -/
theorem witness_byState (l : Link) (st : SourceState) :
    LinkFree l (put st) ∧ ((put st).src (put st).selected).state = st ∧ Source.ofNumber (0 : Byte).toNat = some .s0 ∧
      LinkFree l (put st fun r => { r with withdrawPending := true }) ∧ 3 < (4 : Byte).toNat :=
  ⟨put_free l st id, by cases st <;> rfl, rfl, put_free l st _, by decide⟩

/-- Entry to REQUESTED with banks asleep, waking and awake: three buffers, and only some. -/
theorem witness_EntryToOffAndRequested_banks :
    let s := (put .off).setBank .b { state := .awake, dormancy := some 7, wake := none }
    ((put .off).src .s0).chain = [] ∧ ((enterRequested .s0 (put .off)).src .s0).claim = 3 ∧
      ((enterRequested .s0 (put .off)).bank .a).wake = some 300 ∧ ((enterRequested .s0 (put .off)).bank .b).wake = none ∧
      ((enterRequested .s0 s).src .s0).chain = [3, 4, 5] ∧ ((enterRequested .s0 s).src .s0).claim = 0 ∧
      ((enterRequested .s0 s).bank .b).dormancy = none ∧ ((put .off).enr .s0).syncMode = .follow ∧
      ((enterRequested .s0 s).syncLine .s0).nextPulse = some 33333 := by decide

/-- A source in STREAMING and out of it, and the three states entered. -/
theorem witness_LeavingReleasesEverything :
    ((put .live).src .s0).state.streaming = true ∧ ((put .requested).src .s0).state.streaming = false ∧
      ((put .standby fun r => { r with withdrawPending := true }).src .s0).withdrawPending = true := by decide

/-- States from which the controller is informed, and one from which it is not. -/
theorem witness_LeavingReleasesEverything_departs :
    ((put .live).src .s0).state ∈ [SourceState.standby, .live] ∧ ((put .standby).src .s0).state ∈ [SourceState.standby, .live] ∧
      ((put .requested).src .s0).state ∉ [SourceState.standby, .live] := by decide

def enrolBytes (mode : Byte) : List Byte :=
  [0, 1, 0, 2, 0, 1, 0, 1, 0, 0, 0, 0, 64, 0, 64, 0, 0, 0x20, 0, mode, 0, 0, 0, 0, 0x20, 0]

/-- A source number of 3 and of 4, each state of enrolment, a field in and out of range, a base taken and not taken. -/
theorem witness_EnrollSourceChecksInOrder :
    LinkFree .al (put .live) ∧ (parseEnrolment (enrolBytes 1)).isSome = true ∧
      (parseEnrolment (enrolBytes 3)) = some (0, none) ∧
      (parseEnrolment (enrolBytes 1)).any (fun x => decide (x.1 = 0) && x.2.any Enrolment.inRange) = true ∧
      (parseEnrolment ((4 : Byte) :: (enrolBytes 1).tail)).any (fun x => decide (3 < x.1)) = true ∧
      ((put .live).src .s0).state ∉ [SourceState.absent, .off, .faulted] ∧
      ((put .live).src .s1).state ∈ [SourceState.absent, .off, .faulted] ∧
      (((put .live).src .s0).state ≠ .absent ∧ ((put .live).enr .s0).base = 256) ∧ (idle.src .s0).state = .absent :=
  ⟨put_free .al .live id, by decide, by decide, by decide, by decide, by decide, by decide, by decide, rfl⟩

/-- Masks 15 and 16, and a want that is set or not, in each of the states (see `witness_byState`). -/
theorem witness_SetKeepWarmWrites (st : SourceState) (v : Bool) (d : Option Time) :
    LinkFree .al (put .off) ∧ sourceMask 15 = some ⟨true, true, true, true⟩ ∧ 15 < (16 : Byte).toNat ∧
      (let s := put st fun r => { r with want := v, linger := d }
       (s.src .s0).state = st ∧ (s.src .s0).want = v ∧ (s.src .s0).linger = d) :=
  ⟨put_free .al .off id, by decide, by decide, rfl, rfl, rfl⟩

/-- A deadline reached and one not reached, for each of the four. -/
theorem witness_SourceDeadlinesExpire :
    let s := put .warming fun r => { r with warm := some 0, linger := some 0, stop := some 0, stall := some 0 }
    let u := put .warming fun r => { r with warm := some 1, linger := some 1, stop := some 1, stall := some 1 }
    ((s.src .s0).warm = some 0 ∧ (s.src .s0).linger = some 0 ∧ (s.src .s0).stop = some 0 ∧ (s.src .s0).stall = some 0 ∧
      reached s.timebase 0 = true) ∧
    ((u.src .s0).warm = some 1 ∧ (u.src .s0).linger = some 1 ∧ (u.src .s0).stop = some 1 ∧ (u.src .s0).stall = some 1 ∧
      reached u.timebase 1 = false) := by decide

def reportBytes (n flags : Byte) : List Byte := [0, n, 0, 5, 0, 0, 0, 1, 0, 0, 0, 0, flags]

/-- Flags 3 and 4, a number later and not later, three and four queued reports. -/
theorem witness_ReportsQueueAndMatch :
    LinkFree .ml (put .live) ∧ LinkFree .ml (put .off) ∧ (parseReport (reportBytes 6 3)).any (fun x => x.1.inRange && x.2) = true ∧
      (parseReport (reportBytes 6 4)).any (fun x => !(x.1.inRange && x.2)) = true ∧ frameLater 6 5 = true ∧
      frameLater 5 5 = false ∧
      (let s := put .live fun r => { r with lastCompleted := some 5 }
       (s.src s.selected).lastCompleted = some 5 ∧ LinkFree .ml s) ∧
      (let s := (put .live).setReport .s0 ⟨[report 6, report 7, report 8], none⟩
       (s.report s.selected).queue.length < 4 ∧ LinkFree .ml s) ∧
      (let s := (put .live).setReport .s0 ⟨[report 6, report 7, report 8, report 9], none⟩
       4 ≤ (s.report s.selected).queue.length ∧ LinkFree .ml s) :=
  ⟨put_free .ml .live id, put_free .ml .off id, by decide, by decide, by decide, by decide,
    ⟨rfl, put_free .ml .live _⟩, ⟨by decide, ⟨⟨rfl, rfl, rfl⟩, rfl⟩⟩, ⟨by decide, ⟨⟨rfl, rfl, rfl⟩, rfl⟩⟩⟩

theorem witness_ReportsQueueAndMatch_matching :
    [report 6, report 6, report 7] = [report 6] ++ report 6 :: [report 7] ∧ (report 6).frame = 6 ∧
      (∀ x ∈ [report 7], x.frame ≠ 6) ∧ ∀ x ∈ [report 7], x.frame ≠ 5 := by decide

/-- Nothing enrolled; and two sources enrolled, from 256 to 1,200. -/
theorem witness_clampInterval :
    (∀ i, (idle.src i).state = .absent) ∧
      (let s := pair .off none
       (∃ i, (s.src i).state ≠ .absent ∧ (s.enr i).base = 256) ∧ (∀ i, (s.src i).state ≠ .absent → 256 ≤ (s.enr i).base) ∧
         (∃ i, (s.src i).state ≠ .absent ∧ (s.enr i).limit = 1200) ∧
         ∀ i, (s.src i).state ≠ .absent → (s.enr i).limit ≤ 1200) :=
  ⟨fun i => by cases i <;> rfl, ⟨.s0, by decide, rfl⟩, fun i => by cases i <;> decide, ⟨.s1, by decide, rfl⟩,
    fun i => by cases i <;> decide⟩

/-- Seven and eight queued requests, steps 1023 and 1024, replace 0, 1 and 2. -/
theorem witness_ZoomRequestsQueue :
    let q (n : Nat) (r : Option Ramp) := idle.setPlanner { idle.planner with
      queue := List.replicate n ⟨256, 1, 0, false⟩, ramp := r }
    LinkFree .al (q 7 none) ∧ LinkFree .al (q 8 none) ∧ 8 ≤ (q 8 none).planner.queue.length ∧
      (q 7 none).planner.queue.length < 8 ∧ (q 0 none).planner.queue = [] ∧ (q 0 none).planner.ramp = none ∧
      (q 0 (some ⟨256, 300, 2, 0, 0⟩)).planner.ramp ≠ none ∧ (half 3 0xFF).toNat ≤ 1023 ∧ 1023 < (half 4 0).toNat ∧
      1 < (2 : Byte).toNat :=
  ⟨⟨⟨rfl, rfl, rfl⟩, rfl⟩, ⟨⟨rfl, rfl, rfl⟩, rfl⟩, by decide, by decide, rfl, rfl, by decide, by decide, by decide, by decide⟩

/-- V empty; Q absent, in V and (HELD) not in V; zooms at and about the switch thresholds 256 and 512. -/
theorem witness_WantedAndApproachSources :
    let s := pair .standby none
    let u := pair .standby (some (handoff .crossfade 32))
    availableSources idle = [] ∧ availableSources s = [.s0, .s1] ∧ BasesOk s ∧
      (s.handoff.primary = some .s0 ∧ s.handoff.record = none) ∧ idle.handoff.primary = none ∧
      u.handoff.record = some (handoff .crossfade 32) ∧ Source.s0 ∈ availableSources s ∧
      Source.s1 ∉ availableSources (pair .held none) ∧
      ((s.enr .s0).base < (s.enr .s1).base ∧ (s.enr .s1).switchUp ≤ 512 ∧ 511 < (s.enr .s1).switchUp) ∧
      (511 < (s.enr .s1).switchDown ∧ (s.enr .s1).switchDown ≤ 512 ∧ 255 < (s.enr .s0).switchDown) ∧
      (∀ d ∈ availableSources s, (s.enr .s0).base ≤ (s.enr d).base) := by
  refine ⟨by decide, by decide, fun i j => ?_, by decide, by decide, by decide, by decide, by decide, by decide, by decide,
    by decide⟩
  cases i <;> cases j <;> decide

theorem witness_RampAdvances :
    let q (n : Nat) (r : Option Ramp) := idle.setPlanner { idle.planner with
      queue := List.replicate n ⟨256, 1, 0, false⟩, ramp := r }
    ((q 0 none).planner.ramp = none ∧ (q 0 none).planner.queue = []) ∧
      (q 2 none).planner.queue = ⟨256, 1, 0, false⟩ :: [⟨256, 1, 0, false⟩] ∧
      (q 0 (some ⟨256, 300, 2, 0, 0⟩)).planner.ramp = some ⟨256, 300, 2, 0, 0⟩ ∧ 0 + 1 < 2 ∧ 1 + 1 = 2 := by decide

def point (f : Nat) : CalPoint := ⟨f, 4096, 0, 0, 0⟩

/-- A table of n points. -/
def table (n : Nat) : List CalPoint := (List.range n).map fun k => point (100 * k)

theorem table_ok (n : Fin 9) : CalTableOk (table n) := by
  revert n
  unfold CalTableOk
  decide

/-- Tables of seven and of eight points, a focus code present and absent, focus codes 1023 and 1024. -/
theorem witness_CalibrationEdits :
    Source.ofNumber (3 : Byte).toNat = some .s3 ∧ 3 < (4 : Byte).toNat ∧
    let s7 := idle.setCal .s0 (table 7)
    let s8 := idle.setCal .s0 (table 8)
    LinkFree .al s7 ∧ LinkFree .al s8 ∧ CalTableOk (s7.calTable .s0) ∧ CalTableOk (s8.calTable .s0) ∧
      (s8.calTable .s0).length = 8 ∧ (s7.calTable .s0).length < 8 ∧ (∀ q ∈ s8.calTable .s0, q.focus ≠ 1023) ∧
      (∃ q ∈ s8.calTable .s0, q.focus = 700) ∧
      parseCalPoint [0, 3, 0xFF, 0x10, 0, 0, 0, 0, 0, 0, 0] = some (0, point 1023) ∧ (point 1023).inRange = true ∧
      (parseCalPoint [4, 0, 0, 0x10, 0, 0, 0, 0, 0, 0, 0]).map (fun x => x.1) = some 4 ∧
      (parseCalKey [4, 0, 0]).map (fun x => x.1) = some 4 ∧ (point 1024).inRange = false ∧ parseCalKey [0, 4, 0] = some (0, 1024) ∧ 1023 < 1024 ∧
      Source.ofNumber 0 = some .s0 :=
  ⟨rfl, by decide, ⟨⟨rfl, rfl, rfl⟩, rfl⟩, ⟨⟨rfl, rfl, rfl⟩, rfl⟩, table_ok 7, table_ok 8, rfl, by decide, by decide,
    ⟨point 700, by decide, rfl⟩, by decide, by decide, by decide, by decide, by decide, by decide, by decide, rfl⟩

theorem witness_InterpolationByFocus :
    CalTableOk (table 3) ∧ point 100 ∈ table 3 ∧ table 3 = point 0 :: [point 100, point 200] ∧
      table 3 = [point 0, point 100] ++ [point 200] ∧
      table 3 = [point 0] ++ point 100 :: point 200 :: [] ∧ (point 100).focus < 150 ∧ 150 < (point 200).focus :=
  ⟨table_ok 3, by decide, by decide, by decide, by decide, by decide, by decide⟩

/-- A window above the frame's width, one at it, and positions at both ends. -/
theorem witness_CropWindowAndBlend :
    (enr 256 600).width < (enr 256 600).width * (enr 256 600).base * 4096 / (252 * 4096) ∧
      (enr 256 600).width * (enr 256 600).base * 4096 / (256 * 4096) ≤ (enr 256 600).width ∧ 0 < 64 ∧ 63 < 64 ∧ 0 < 1 := by
  decide

/-- A window moved against the right edge by a shift, and one in its place; weights 1 and 255. -/
theorem witness_CropWindowAndBlend_places :
    (cropWindow (enr 256 600) .identity 512 ⟨0, 0, 0, true⟩ = (⟨16, 16, 32, 32⟩, false) ∧
      cropWindow (enr 256 600) .identity 512 ⟨0, -500, 0, true⟩ = (⟨32, 16, 32, 32⟩, true)) ∧
      (1 ≤ 1 ∧ 1 ≤ 255) ∧ (1 ≤ 255 ∧ 255 ≤ 255) := by decide

/-- Rolls at both ends of the range, a frame with a place to read, records with one part and with two, and a first output
sample. -/
theorem witness_CropWindowAndBlend_secondary :
    let main : PrimaryPart := { source := .s0, frame := 0, buffer := 0, window := ⟨0, 0, 1, 1⟩, focus := 0 }
    let other : SecondaryPart := { source := .s1, frame := 0, buffer := 1, window := ⟨0, 0, 1, 1⟩, roll := -1000, weight := 32 }
    let r := { viewRecord 0 with primary := some main }
    ((-1000 : Int) ≤ -1000 ∧ (-1000 : Int) ≤ 1000 ∧ (1000 : Int) ≤ 1000) ∧ (0 < 1 ∧ 0 < 1) ∧
      (([[Pixel.grey]] : List (List Pixel)).length = 1 ∧ ∀ samples ∈ [[Pixel.grey]], samples.length = 1) ∧
      (r.primary = some main ∧ r.secondary = none) ∧ { r with secondary := some other }.secondary = some other ∧
      (0 < 1 ∧ nearestIn 4 (-1) = 0 ∧ nearestIn 4 0 = 0 ∧ nearestIn 4 3 = 3 ∧ nearestIn 4 4 = 3) := by decide

/-- The newest end, a present record, a cursor outside; counts 0, 1, 4 and 5. -/
theorem witness_ReadViewRecordsByCursor :
    LinkFree .al ringed ∧ RingOk ringed ∧ 4 < (5 : Byte).toNat ∧ 1 ≤ (4 : Byte).toNat ∧ (4 : Byte).toNat ≤ 4 ∧
      (0 < ringed.view.ring.length ∧ ringed.view.cursors.get .al = (ringed.view.ring[0]).seq) ∧
      (let s := ringed.setView { ringed.view with cursors := ⟨1, 7⟩ }
       LinkFree .al s ∧ RingOk s ∧ s.view.cursors.get .al = s.view.nextSeq ∧ s.view.cursors.get .ml ≠ s.view.nextSeq ∧
         ∀ r ∈ s.view.ring, r.seq ≠ s.view.cursors.get .ml) :=
  ⟨⟨⟨rfl, rfl, rfl⟩, rfl⟩, ringed_ok, by decide, by decide, by decide, ⟨by decide, rfl⟩,
    ⟨⟨rfl, rfl, rfl⟩, rfl⟩, ringed_ok, rfl, by decide, by decide⟩

/-- A ring of 31 and of 32 records, its oldest pinned by a RUNNING SEQUENTIAL stream, the AL cursor on it. -/
theorem witness_AppendHandlesPinsAndCursors :
    let ring (n : Nat) := (List.range n).map fun k => viewRecord (BitVec.ofNat 32 k)
    let s (n : Nat) := (idle.setView { idle.view with ring := ring n, nextSeq := BitVec.ofNat 32 n }).modStream .p fun x => { x with
      state := .running, config := { x.config with take := .sequential }, pendingSet := [{ seq := 0, buffers := [4] }] }
    (s 31).view.ring.length < 32 ∧ (s 32).view.ring = viewRecord 0 :: (ring 32).tail ∧ 32 ≤ (s 32).view.ring.length ∧
      (s 32).view.cursors.get .al = (viewRecord 0).seq ∧ (roomInRing (s 32)).names = [4] ∧
      ((roomInRing (s 32)).state.stream .p).skip = true ∧ ((roomInRing (s 32)).state.stream .p).pendingSet = [] := by
  decide

theorem witness_ViewStepAppendsOneRecord :
    (idle.setHandoff { idle.handoff with marks := ⟨true, true, true, true⟩ }).handoff.marks.forced = true ∧
    ringed.view.ring.length ≤ 32 ∧ ((viewStep none 5 (put .off)).src .s0).state ≠ .absent ∧
      (let s := idle.setView { idle.view with timer := some 0 }
       s.view.timer = some 0 ∧ reached s.timebase 0 = true ∧ reached s.timebase 1 = false) := by decide

/-- The parts of LiveOk and FramesOk and a step's frame, at an S0 that is shown; and a record in CROSSFADE and none. -/
theorem witness_ViewStepAppendsOneRecord_named :
    (LiveOk whole ∧ FramesOk whole ∧ (whole.buffer 0).state = .ready ∧
        (viewStep (some (.s0, 0)) 5 whole).view.ring.any (fun r => decide (r.flags.noSource = false))) ∧
      (handoff .crossfade 32).phase = .crossfade ∧ (handoff .settle 256).phase ≠ .crossfade :=
  ⟨⟨whole_live, whole_frames, by decide, by decide⟩, rfl, by decide⟩

theorem witness_HandoffBegins :
    ((put .off).handoff.primary = none ∧ ((put .off).src .s0).state ≠ .standby ∧ ((put .standby).src .s0).state = .standby ∧
      (put .standby).handoff.primary = none) ∧
      ((pair .off none).handoff.primary = some .s0 ∧ (pair .off none).handoff.record = none ∧ Source.s1 ≠ .s0) := by
  decide

/-- PREPARE and ALIGN, the to source in STANDBY or not, the count below and at ALIGN_STEPS. -/
theorem witness_PrepareAndAlign :
    let a := pair .standby (some (handoff .align 0))
    let b := pair .warming (some (handoff .prepare 0))
    (a.handoff.primary = some (handoff .align 0).src ∧ a.handoff.record = some (handoff .align 0) ∧
        (handoff .align 0).src ≠ (handoff .align 0).dst ∧ (handoff .align 0).phase ∈ [Phase.prepare, .align] ∧
        (a.src .s1).state = .standby ∧ alignQualifies (handoff .align 0) none a = false ∧ 0 + 1 < a.params.alignSteps ∧
        a.params.alignSteps ≤ 1 + 1) ∧
      (b.handoff.record = some (handoff .prepare 0) ∧ (b.src .s1).state ≠ .standby ∧ Source.s2 ≠ .s0 ∧ Source.s2 ≠ .s1) := by
  decide

/-- A pair of frames that makes a step of ALIGN qualify. -/
def aligned : State :=
  let m (i : Source) : Buffer :=
    { state := .ready, info := some ⟨i, 1, 100, 200, some (report 1)⟩, content := [], pins := 0 }
  let s := ((pair .standby (some (handoff .align 0))).modBuffer 0 fun _ => m .s0).modBuffer 3 fun _ => m .s1
  let s := (s.modSrc .s0 fun r => { r with chain := [0] }).modSrc .s1 fun r => { r with chain := [3], locked := true }
  (s.setCal .s0 (table 1)).setCal .s1 (table 1)

theorem witness_PrepareAndAlign_qualifies :
    alignQualifies (handoff .align 0) (some 0) aligned = true ∧ (aligned.src .s1).state = .standby ∧
      aligned.handoff.record = some (handoff .align 0) := by decide

/-- No primary; a primary with and without a frame to name; a hand-off in ALIGN and in CROSSFADE; the three reports used. -/
theorem witness_RecordsNameTheirFrames :
    let u := aligned.setHandoff { aligned.handoff with record := some (handoff .crossfade 32) }
    let m : FrameMeta := ⟨.s0, 1, 100, 200, some (report 1)⟩
    idle.handoff.primary = none ∧ ((pair .off none).handoff.primary = some .s0 ∧ newestReady (pair .off none) .s0 = none) ∧
      (aligned.handoff.primary = some .s0 ∧ newestReady aligned .s0 = some 0 ∧ (aligned.buffer 0).info = some m ∧
        (handoff .align 0).phase ≠ .crossfade) ∧
      (u.handoff.record = some (handoff .crossfade 32) ∧ newestReady u .s1 = some 3 ∧
        ((composeRecord u none 5).secondary.map fun q => (q.source, q.weight)) = some (.s1, 32)) ∧
      m.report = some (report 1) ∧ { m with report := none }.report = none ∧ (aligned.report .s0).current = none ∧
      ((aligned.setReport .s0 ⟨[], some (report 2)⟩).report .s0).current = some (report 2) := by decide

/-- Of two READY buffers the one that ended later, and of two that ended together the first. -/
theorem witness_PrepareAndAlign_newest :
    let b (t : Time) : Buffer := { state := .ready, info := some ⟨.s0, 1, 0, t, none⟩, content := [], pins := 0 }
    let s (t u : Time) := ((put .live fun r => { r with chain := [0, 1] }).modBuffer 0 fun _ => b t).modBuffer 1 fun _ => b u
    ((s 5 6).src .s0).chain = [0] ++ 1 :: [] ∧ newestReady (s 5 6) .s0 = some 1 ∧ newestReady (s 5 5) .s0 = some 0 ∧
      fillChoice (s 5 6) .s0 = some 0 ∧ fillChoice (s 6 5) .s0 = some 1 ∧ fillChoice (s 5 5) .s0 = some 0 ∧
      timeLater 6 5 = true ∧ timeLater 5 5 = false ∧ newestReady (put .live) .s0 = none := by decide

theorem witness_AlignEnds :
    (let s := pair .standby none
     max (s.enr .s0).base (s.enr .s1).base ≤ min (s.enr .s0).limit (s.enr .s1).limit ∧
       ceilDiv 256 s.params.crossfadeSteps < 256 ∧ Source.s0 ≠ .s1) ∧
      (let s := { pair .standby none with params := { Params.reset with crossfadeSteps := 1, settleSteps := 0 } }
       max (s.enr .s0).base (s.enr .s1).base ≤ min (s.enr .s0).limit (s.enr .s1).limit ∧
         256 ≤ ceilDiv 256 s.params.crossfadeSteps ∧ s.params.settleSteps = 0) ∧
      (let s := (pair .standby none).modSrc .s1 fun r => { r with enrolment := some (enr 601 1200) }
       min (s.enr .s0).limit (s.enr .s1).limit < max (s.enr .s0).base (s.enr .s1).base) := by decide

/-- Weights 32, 33, 223 and 224 with an increment of 32. -/
theorem witness_CrossfadeAndSettle :
    (let s := pair .live (some (handoff .crossfade 223))
     s.handoff.primary = some (handoff .crossfade 223).src ∧ s.handoff.primary ≠ none ∧
       s.handoff.record = some (handoff .crossfade 223) ∧ 223 + ceilDiv 256 s.params.crossfadeSteps < 256 ∧
       256 ≤ 224 + ceilDiv 256 s.params.crossfadeSteps ∧ 256 - 223 + ceilDiv 256 s.params.crossfadeSteps < 256 ∧
       256 - 33 + ceilDiv 256 s.params.crossfadeSteps < 256 ∧ 256 ≤ 256 - 32 + ceilDiv 256 s.params.crossfadeSteps ∧
       (none : Option Source) ≠ some .s0) ∧
      (pair .live (some (handoff .settle 256))).handoff.record = some (handoff .settle 256) ∧
      (handoff .settle 256).phase = .settle := by decide

theorem witness_Departures :
    ((pair .live (some (handoff .crossfade 32))).handoff.primary = some .s0 ∧
      (pair .live (some (handoff .crossfade 32))).handoff.primary ≠ some .s1 ∧ (handoff .crossfade 32).dst = .s1) ∧
      ((pair .standby none).handoff.record = none ∧ successor (pair .standby none) = some .s1 ∧
        successor (pair .held none) = none ∧ (pair .held none).handoff.primary = some .s0) ∧
      (pair .held none).handoff.primary ≠ some .s2 := by decide

/-- The wanted source in STANDBY; and one in LIVE, with another in STANDBY. -/
theorem witness_Departures_successor :
    let s := (pair .standby none).setPlanner { idle.planner with commanded := 600 }
    (NearestBelow s (availableSources s) s.planner.commanded .s1 ∧ (s.src .s1).state = .standby ∧ BasesOk s) ∧
      let u := s.setPlanner { s.planner with commanded := 300 }
      NearestBelow u (availableSources u) u.planner.commanded .s0 ∧ (u.src .s0).state ≠ .standby ∧ BasesOk u ∧
        NearestBelow u ([Source.s0, .s1, .s2, .s3].filter fun k => (u.src k).state = .standby) u.planner.commanded .s1 := by
  refine ⟨⟨⟨by decide, .inl ⟨by decide, by decide⟩⟩, by decide, fun i j => ?_⟩, ⟨by decide, .inl ⟨by decide, by decide⟩⟩,
    by decide, fun i j => ?_, ⟨by decide, .inr ⟨by decide, by decide⟩⟩⟩
  all_goals cases i <;> cases j <;> decide

/-- A difference at the pairing window and one past it. -/
theorem witness_LockFollowsThePrimary :
    let s := ((pair .standby none).modSrc .s0 fun r => { r with lastStart := some 1000 }).setSync .s1
      { SyncLine.reset with pulsing := true }
    s.handoff.primary = some .s0 ∧ Source.s0 ≠ .s1 ∧ (s.src .s0).lastStart = some 1000 ∧
      (s.src .s1).state.streaming = true ∧ (s.enr .s1).syncMode = .follow ∧
      (lockDifference 1500 1000 (s.enr .s0).interval).natAbs ≤ s.params.pairingWindow ∧
      s.params.pairingWindow < (lockDifference 1501 1000 (s.enr .s0).interval).natAbs ∧
      (s.syncLine .s1).pulsing = true ∧ (s.syncLine .s2).pulsing = false := by decide

/-- Self-paced with a next pulse; a last pulse whose interval ends later than now or not; none. A pulse time later than the
start or not, and lists of three and four times with the earliest due or not. -/
theorem witness_LockFollowsThePrimary_pacing :
    let l (n p : Option Time) (f : List Time) : SyncLine := { pulsing := true, pulseEnd := none, lastPulse := p, nextPulse := n,
                                                              followList := f }
    let s (n p : Option Time) := ((put .standby).setSync .s0 (l n p [])).syncLine .s0
    (s (some 5) none).nextPulse ≠ none ∧ ((s none (some 0)).nextPulse = none ∧ (s none (some 0)).lastPulse = some 0) ∧
      timeLater (0 + BitVec.ofNat 32 (enr 256 600).interval) idle.timebase = true ∧
      timeLater (4294900000 + BitVec.ofNat 32 (enr 256 600).interval) idle.timebase = false ∧ (s none none).lastPulse = none ∧
      (timeLater 5 5 = false ∧ timeLater 6 5 = true) ∧ (l none none [7, 8, 9]).followList.length < 4 ∧
      (l none none [5, 8, 9, 10]).followList = 5 :: [8, 9, 10] ∧ ([8, 9, 10] : List Time).length = 3 ∧ reached 5 5 = true ∧
      reached 5 6 = false := by decide

theorem witness_SyncLinesPulse :
    let s := idle.setSync .s0 { SyncLine.reset with pulseEnd := some 0, nextPulse := some 0, followList := [0, 5] }
    let u := idle.setSync .s0 { SyncLine.reset with pulseEnd := some 1, nextPulse := some 1, followList := [1] }
    (s.syncLine .s0).pulseEnd = some 0 ∧ (s.syncLine .s0).nextPulse = some 0 ∧ (s.syncLine .s0).followList = 0 :: [5] ∧
      reached s.timebase 0 = true ∧ (u.syncLine .s0).pulseEnd = some 1 ∧ (u.syncLine .s0).nextPulse = some 1 ∧
      (u.syncLine .s0).followList = 1 :: [] ∧ reached u.timebase 1 = false := by decide

/-- S0 streaming with one empty buffer, and the same with a frame of two bytes' sum in assembly. -/
def bare : State := (put .live fun r => { r with chain := [0] }).modBuffer 0 fun x => { x with state := .empty }

def filling (lines : Nat) (sum : Half) : State := bare.setPort .s0 (.filling 0 7 100 lines sum)

theorem witness_FrameStartTakesABuffer :
    ((put .off).src .s0).state.streaming = false ∧
      ((bare.src .s0).state.streaming = true ∧ bare.port .s0 = .idle ∧ fillChoice bare .s0 = some 0 ∧
        fillChoice (put .live) .s0 = none ∧ (64 : Half).toNat = (bare.enr .s0).width ∧
        (64 : Half).toNat = (bare.enr .s0).height ∧ (65 : Half).toNat ≠ (bare.enr .s0).width) ∧
      (filling 0 0).port .s0 = .filling 0 7 100 0 0 := by decide

/-- A FOLLOW source with a primary whose last start lies 500 and 501 µs back; and the three ways in which a start is not judged. -/
theorem witness_FrameStartTakesABuffer_lock :
    let s (ref : Option Time) := (pair .standby none).modSrc .s0 fun r => { r with lastStart := ref }
    (((s none).src .s1).state.streaming = true ∧ (s none).port .s1 = .idle ∧ (s none).handoff.primary = some .s0 ∧
        Source.s0 ≠ .s1 ∧ ((s none).enr .s1).syncMode = .follow) ∧
      (((s (some 4294966796)).src .s0).lastStart = some 4294966796 ∧
        (lockDifference (s none).timebase 4294966796 ((s none).enr .s0).interval).natAbs ≤ (s none).params.pairingWindow) ∧
      (((s (some 4294966795)).src .s0).lastStart = some 4294966795 ∧
        (s none).params.pairingWindow < (lockDifference (s none).timebase 4294966795 ((s none).enr .s0).interval).natAbs) ∧
      ((s none).src .s0).lastStart = none ∧ (bare.handoff.primary = none) ∧
      (((put .live).modSrc .s0 fun r => { r with enrolment := some { enr 256 600 with syncMode := .free } }).enr .s0).syncMode ≠
        .follow := by decide

/-- Line numbers 63 and 64 of 64, data of one byte too few. -/
theorem witness_LinesFillTheBuffer :
    let s := filling 63 5
    ((s.src .s0).state.streaming = true ∧ s.port .s0 = .filling 0 7 100 63 5 ∧ (63 : Half).toNat = 63 ∧
        63 < (s.enr .s0).height ∧ (List.replicate 384 (0 : Byte)).length = 6 * (s.enr .s0).width) ∧
      ¬(64 < (s.enr .s0).height) ∧ ¬((List.replicate 383 (0 : Byte)).length = 6 * (s.enr .s0).width) ∧
      (parsePixels [0xFC, 5, 0, 6, 4, 7, 0, 0, 0, 0, 3, 0xFF])[1]? = some ⟨0, 0, 1023⟩ ∧
      ¬(63 = (s.enr .s0).height) ∧ bare.port .s0 = .idle ∧ WellFormed (.invalidPacket .s0 [1]) = true := by decide +kernel

theorem witness_BadFramesCount :
    (bare.src .s0).bad + 1 < bare.params.badFrameLimit ∧
      (let s := bare.modSrc .s0 fun r => { r with bad := 2 }
       s.params.badFrameLimit ≤ (s.src .s0).bad + 1 ∧ (s.src .s0).withdrawPending = false) ∧
      (filling 3 0).port .s0 = .filling 0 7 100 3 0 ∧ bare.port .s0 = .idle := by decide

/-- Good frame ends of a primary, of a source in WARMING with and without a report, qualifying and not. -/
theorem witness_GoodFrameEnds :
    let s := filling 64 9
    let w (q : Nat) := ((s.modSrc .s0 fun r => { r with state := .warming, qualify := q, chain := [0, 1, 2] }).setReport .s0
      ⟨[report 7], none⟩).setCal .s0 (table 1)
    ((s.src .s0).state.streaming = true ∧ s.port .s0 = .filling 0 7 100 (s.enr .s0).height 9 ∧
        (64 : Half).toNat = (s.enr .s0).height ∧ (s.src .s0).state ≠ .warming ∧ ((s.report .s0).matching 7).2 = none) ∧
      (((w 2).src .s0).state = .warming ∧ (((w 2).report .s0).matching 7).2 ≠ none ∧
        (w 2).params.qualifyFrames ≤ min 8 (((w 2).src .s0).qualify + 1) ∧ ((w 2).src .s0).chain.length = 3 ∧
        (w 2).calTable .s0 ≠ [] ∧ (w 2).handoff.primary = none ∧ (w 2).handoff.candidate ≠ some .s0) ∧
      (let c := (w 2).setHandoff { (w 2).handoff with candidate := some .s0 }
       c.handoff.primary = none ∧ c.handoff.candidate = some .s0 ∧ (c.src .s0).state = .warming ∧
         ((after (.frameEnd .s0 64 9) c).src .s0).state = .live) ∧
      ((after (.frameEnd .s0 64 9) (w 2)).src .s0).state = .standby ∧
      ((((w 2).setReport .s0 ⟨[], none⟩).report .s0).matching 7).2 = none ∧
      ¬((w 1).params.qualifyFrames ≤ min 8 (((w 1).src .s0).qualify + 1)) := by decide

theorem witness_BanksSleepAndWake :
    let s (q : List Source) (n : Nat) := ((idle.setBank .a ⟨.waking, none, some 0⟩).setClaimQueue q).modSrc .s0
      fun r => { r with claim := n }
    let u := idle.setBank .a ⟨.awake, some 0, none⟩
    ((u.bank .a).dormancy = some 0 ∧ reached u.timebase 0 = true) ∧
      (((s [] 0).bank .a).wake = some 0 ∧ (s [] 0).pool.claimQueue = [] ∧
        ∀ b ∈ Bank.a.buffers, ((s [] 0).buffer b).state = .free) ∧
      ((s [.s0] 3).pool.claimQueue = .s0 :: [] ∧ 3 ≤ ((s [.s0] 3).src .s0).claim) ∧
      (idle.bank .b).dormancy = none ∧ (idle.bank .b).wake = none := by decide

/-- A delivery to a claim of 1 and of 2, and the three ways in which there is none; a wake that completes a claim of 1 or 2 alone
and with another behind it. -/
theorem witness_BanksSleepAndWake_claims :
    let s (st : BankState) (q : List Source) (n m : Nat) := (((idle.setBank .a ⟨st, none, some 0⟩).setClaimQueue q).modSrc .s0
      fun r => { r with claim := n }).modSrc .s1 fun r => { r with claim := m }
    ((s .awake [.s0] 1 0).pool.claimQueue = .s0 :: [] ∧ ((s .awake [.s0] 1 0).bank (bankOf 0)).state = .awake ∧
        ((s .awake [.s0] 1 0).buffer 0).state = .free ∧ ((s .awake [.s0] 2 0).src .s0).claim = 2) ∧
      ((s .awake [] 0 0).pool.claimQueue = [] ∧ ((s .dormant [.s0] 1 0).bank (bankOf 0)).state ≠ .awake ∧
        (((s .awake [.s0] 1 0).modBuffer 0 fun x => { x with state := .ready }).buffer 0).state ≠ .free) ∧
      (((s .waking [.s0] 1 0).bank .a).wake = some 0 ∧ reached (s .waking [.s0] 1 0).timebase 0 = true ∧
        (∀ b ∈ Bank.a.buffers, ((s .waking [.s0] 1 0).buffer b).state = .free) ∧
        ((s .waking [.s0] 1 0).src .s0).claim ∈ [1, 2] ∧ ((s .waking [.s0] 2 0).src .s0).claim ∈ [1, 2]) ∧
      ((s .waking [.s0, .s1] 1 2).pool.claimQueue = .s0 :: .s1 :: [] ∧ Source.s0 ≠ .s1 ∧
        3 ≤ ((s .waking [.s0, .s1] 1 2).src .s0).claim + ((s .waking [.s0, .s1] 1 2).src .s1).claim ∧
        ((s .waking [.s0, .s1] 2 1).src .s0).claim + ((s .waking [.s0, .s1] 2 1).src .s1).claim = 3) := by decide

theorem witness_HoldsCountPins :
    let s (st : BufferState) (n : Nat) := idle.modBuffer 0 fun x => { x with state := st, pins := n }
    (((s .ready 1).buffer 0).state ≠ .retiring ∧ [(0 : BufferId)].count 0 < ((s .retiring 2).buffer 0).pins) ∧
      (((s .retiring 1).buffer 0).state = .retiring ∧ (0 : BufferId) ∈ [(0 : BufferId)] ∧
        ((s .retiring 1).buffer 0).pins ≤ [(0 : BufferId)].count 0 ∧ (s .retiring 1).pool.claimQueue = []) := by
  decide

/-- One RETIRING buffer loses its last pin while a claim waits. -/
theorem witness_HoldsCountPins_claim :
    let s := ((idle.modBuffer 0 fun x => { x with state := .retiring, pins := 1 }).setBank .a ⟨.awake, none, none⟩).setClaimQueue [.s0]
    (∀ c ∈ [(0 : BufferId)], (s.buffer c).state = .retiring → (s.buffer c).pins ≤ [(0 : BufferId)].count c → c = 0) ∧
      (0 : BufferId) ∈ [(0 : BufferId)] ∧ (s.buffer 0).state = .retiring ∧ (s.buffer 0).pins ≤ [(0 : BufferId)].count 0 ∧
      (s.bank (bankOf 0)).state = .awake ∧ s.pool.claimQueue = .s0 :: [] := by decide

def streamBytes (st cause : Byte) : List Byte := [st, cause, 0, 0, 0, 1, 0, 0, 0x20, 0, 0, 64, 0, 64, 0, 1, 0]

/-- P with a changed stream. -/
def streamed (f : Stream → Stream) : State := idle.modStream .p f

theorem streamed_free (l : Link) (f : Stream → Stream) : LinkFree l (streamed f) := by
  cases l <;> exact ⟨⟨rfl, rfl, rfl⟩, rfl⟩

/-- Streams 1 and 2, causes CHAIN and beyond the list, the partner of cause CHAIN or not. -/
theorem witness_ConfigureStreamChecksInOrder :
    let chained := idle.modStream .r fun x => { x with config := { x.config with cause := .chain } }
    LinkFree .al idle ∧ LinkFree .al chained ∧
      (parseStreamConfig (streamBytes 2 0)).any (fun x => decide (1 < x.1)) = true ∧
      parseStreamConfig (streamBytes 1 6) = some (1, none) ∧ streamOf 1 = some .r ∧ streamOf 0 = some .p ∧
      (parseStreamConfig (streamBytes 0 2)).any (fun x => x.2.any fun c => c.inRange && decide (c.cause = .chain)) = true ∧
      (chained.stream StreamId.p.partner).config.cause = .chain ∧ (idle.stream StreamId.p.partner).config.cause ≠ .chain ∧
      (idle.stream .p).state ∈ [StreamState.stopped, .done] ∧
      ((streamed fun x => { x with state := .running }).stream .p).state ∈ [StreamState.running, .stopping] :=
  ⟨idle_free .al, ⟨⟨rfl, rfl, rfl⟩, rfl⟩, by decide, by decide, rfl, rfl, by decide, by decide, by decide, by decide,
    by decide⟩

def emission : Emission :=
  { start := 0, deadline := 0, kind := .pattern, number := 0,
    trailer := ⟨.p, 0, 0, .pattern, false, false, none, none, .clear, 0, none⟩ }

theorem witness_StartAndStopStream (st : StreamState) (e : Option Emission) :
    LinkFree .al (streamed fun x => { x with state := st, inFlight := e }) ∧
      ((streamed fun x => { x with state := st, inFlight := e }).stream .p).state = st ∧
      ((streamed fun x => { x with state := st, inFlight := e }).stream .p).inFlight = e ∧ streamOf (0 : Byte).toNat = some .p ∧
      1 < (2 : Byte).toNat := ⟨streamed_free _ _, rfl, rfl, rfl, by decide⟩

theorem witness_TriggersReachTheirStream :
    let s (e : Option Emission) (p : Bool) := streamed fun x => { x with
      state := .running, inFlight := e, pendingTrigger := p, timer := some 0, config := { x.config with cause := .request } }
    ((idle.stream .p).state ≠ .running ∧ ((s none false).stream .p).inFlight = none ∧
        ((s (some emission) false).stream .p).inFlight ≠ none ∧ ((s (some emission) false).stream .p).pendingTrigger = false ∧
        ((s (some emission) true).stream .p).pendingTrigger = true) ∧
      (((s none false).stream .p).timer = some 0 ∧ reached (s none false).timebase 0 = true ∧ (idle.stream .p).timer = none) ∧
      (List.replicate 59 (0 : Byte)).length ≤ 59 ∧ streamOf (0 : Byte).toNat = some .p ∧ 1 < (2 : Byte).toNat ∧
      LinkFree .al (s none false) :=
  ⟨by decide, by decide, by decide, rfl, by decide, streamed_free _ _⟩

theorem witness_EmissionBegins :
    let s (take : TakeMode) (pos : Option Seq) (skip : Bool) := ringed.modStream .p fun x => { x with
      state := .running, position := pos, skip := skip, config := { x.config with take := take } }
    takeRecord (s .latest none false).view.ring ((s .latest none false).stream .p) = some (viewRecord 0) ∧
      takeRecord (s .latest (some 0) false).view.ring ((s .latest (some 0) false).stream .p) = none ∧
      takeRecord (s .sequential (some 4294967295) false).view.ring ((s .sequential (some 4294967295) false).stream .p) =
        some (viewRecord 0) ∧
      takeRecord (s .sequential (some 9) true).view.ring ((s .sequential (some 9) true).stream .p) = some (viewRecord 0) := by
  decide

def shown : ViewRecord := { viewRecord 0 with primary := some ⟨.s0, 1, 0, ⟨0, 0, 64, 64⟩, 10⟩ }

/-- P RUNNING with a ring of one record and buffer 0 READY with the frame that `shown` names. -/
def showing (r : ViewRecord) (h : HoldMode) (pos : Option Seq) (cur : Option HeldRecord) (held : HoldRecord) : State :=
  ((idle.setView { idle.view with ring := [r], nextSeq := 1 }).modBuffer 0 fun x => { x with
    state := .ready, info := some ⟨.s0, 1, 0, 0, some (report 1)⟩ }).modStream .p fun x => { x with
    state := .running, position := pos, current := cur, holdRecord := held, config := { x.config with holdMode := h } }

/-- A record that can be shown and one that cannot, under both hold modes; no new record, with the current one shown or not,
and with a hold record or without. -/
theorem witness_EmissionBegins_kinds :
    let kind (s : State) := ((startEmission .p s).state.stream .p).inFlight.map fun e => e.kind
    (shown.primary.isSome = true ∧ recordIntact (showing shown .repeat none none .none) shown = true) ∧
      (viewRecord 0).primary.isSome = false ∧
      [kind (showing shown .repeat none none .none), kind (showing (viewRecord 0) .pattern none none .none),
        kind (showing (viewRecord 0) .repeat none none .none),
        kind (showing (viewRecord 0) .repeat none (some ⟨shown, [0], true⟩) .current),
        kind (showing shown .repeat (some 0) (some ⟨shown, [0], true⟩) .current),
        kind (showing shown .repeat (some 0) (some ⟨viewRecord 0, [], true⟩) (.own ⟨shown, [0], true⟩)),
        kind (showing shown .pattern (some 0) (some ⟨shown, [], false⟩) .none)] =
      [some .new, some .pattern, some .pattern, some .hold, some .repeat, some .hold, some .pattern] := by decide

/-- Two rows of one pixel, and the bytes of the frame. -/
theorem witness_EmissionCompletes_bytes :
    let f : OutputFrame := { rows := [[⟨1, 2, 3⟩], [⟨4, 5, 1023⟩]], trailer := emission.trailer }
    (∀ row ∈ f.rows, row.length = 1) ∧ f.rows[1]? = some [⟨4, 5, 1023⟩] ∧ f.bytes.length = 40 ∧
      fieldAt f.bytes 10 2 = 1023 := by decide

/-- One emission and two remaining, an emission not at its deadline. -/
theorem witness_EmissionCompletes :
    let s (st : StreamState) (m : CountMode) (n : Nat) := streamed fun x => { x with
      state := st, remaining := n, inFlight := some emission, config := { x.config with countMode := m } }
    ((s .stopping .counted 1).stream .p).inFlight = some emission ∧ reached idle.timebase emission.deadline = true ∧
      ((s .running .counted 1).stream .p).remaining = 1 ∧ 2 ≤ ((s .running .counted 2).stream .p).remaining ∧
      ((s .running .continuous 0).stream .p).config.countMode = .continuous ∧ (idle.stream .p).inFlight = none ∧
      reached idle.timebase 1 = false := by decide

end Sys2Proof.Tests
end

section
/-! RELEASE_HOLD (R17) and DECLARE_FAULT (R18): what a request without fields on the selected source answers, and the record
that entry to OFF and entry to FAULTED leave. -/

namespace Sys2Proof.Machine

open Sys2Proof

/-! ## Requests on the selected source -/

/-- R2: a selected source in ABSENT is WRONG_STATE, whatever the request. -/
theorem onSelected_absent {rule : Source → Judged} {s : State} (h : (s.src s.selected).state = .absent) :
    onSelected rule s = refuse .wrongState s := if_pos h

theorem onSelected_present {rule : Source → Judged} {s : State} (h : (s.src s.selected).state ≠ .absent) :
    onSelected rule s = rule s.selected := if_neg h

/-- A request without fields that its block accepts, leaving the timebase. -/
theorem receiveRequest_accepted {l : Link} {code : Byte} {judge : List Byte → State → Judged} {s t : State}
    (h : LinkFree l s) (hj : judge [] s = accept .ok t) (ht : t.timebase = s.timebase) :
    receiveRequest l code (some (.fixed 0 judge)) [] s = answeredOk l code 0 t :=
  receiveRequest_free (j := accept .ok t) h (Nat.zero_le _) rfl hj ht

/-- A request without fields that its block refuses. -/
theorem receiveRequest_refused {l : Link} {code : Byte} {judge : List Byte → State → Judged} {st : Status} {s : State}
    (h : LinkFree l s) (hj : judge [] s = refuse st s) :
    receiveRequest l code (some (.fixed 0 judge)) [] s = refused l code st 0 s :=
  receiveRequest_free (j := refuse st s) h (Nat.zero_le _) rfl hj rfl

/-! ## Entry to OFF and on (R15) -/

theorem enterAbsent_state (i : Source) (s : State) : ((enterAbsent i s).src i).state = .absent := by
  simp [enterAbsent, State.modSrc]

/-- The claim and the pulses that follow leave the state REQUESTED (R6). -/
theorem enterRequested_state (i : Source) (s : State) : ((enterRequested i s).src i).state = .requested := by
  simp [enterRequested, beginPulsing, placeClaim_src, State.modSrc]

/-- R15: where an entry to OFF ends. A pending withdrawal goes before want. -/
theorem enterOff_state (i : Source) (s : State) :
    ((enterOff i s).src i).state =
      if (s.src i).withdrawPending then .absent else if (s.src i).want then .requested else .off := by
  have off : (s.modSrc i fun r => { r with state := .off }).src i = { s.src i with state := .off } := by
    simp [State.modSrc]
  simp only [enterOff, off]
  split
  · exact enterAbsent_state i _
  · split
    · exact enterRequested_state i _
    · rw [off]

theorem enterOff_timebase (i : Source) (s : State) : (enterOff i s).timebase = s.timebase :=
  ((Kept.closed s).enterOff i (.refl s)).timebase

/-! ## Entry to FAULTED (R19) -/

/-- The record at the fault, before the shutdown. -/
def SourceRecord.faultedBy (r : SourceRecord) (cause : FaultCause) : SourceRecord :=
  { r.unlock with state := .faulted, stop := none, faultCause := some cause }

/-- The record that R23 leaves at an entry to ABSENT. -/
def SourceRecord.absented (r : SourceRecord) : SourceRecord :=
  { r with state := .absent, enrolment := none, want := false, withdrawPending := false, lastStopUnconfirmed := false,
           faultCause := none, refusalCode := none }

theorem absentIfPending_src (i : Source) (s : State) :
    (absentIfPending i s).src i = if (s.src i).withdrawPending then (s.src i).absented else s.src i := by
  unfold absentIfPending
  split <;> simp [enterAbsent, State.modSrc, SourceRecord.absented]

/-- The controller's answer leaves an unlocked record that is not in STANDBY as it is. -/
theorem informDeparture_src {i : Source} {s : State} (was : SourceState) (hs : (s.src i).state ≠ .standby)
    (hu : (s.src i).unlock = s.src i) : (informDeparture i was s).src i = s.src i := by
  unfold informDeparture
  split
  · exact (departure_src hs).elim id (·.trans hu)
  · rfl

/-- What the shutdown leaves of a record at the fault: no stop deadline, no lock, and FAULTED with its cause. -/
theorem SourceRecord.shut_faultedBy (r : SourceRecord) (cause : FaultCause) (streaming : Bool) :
    let x := (r.faultedBy cause).shut streaming
    x.state = .faulted ∧ x.stop = none ∧ x.faultCause = some cause ∧ x.withdrawPending = r.withdrawPending ∧
      x.unlock = x := by
  cases streaming <;> exact ⟨rfl, rfl, rfl, rfl, rfl⟩

/-- R19, R23: the record that entry to FAULTED leaves. -/
theorem enterFaulted_src (i : Source) (cause : FaultCause) (s : State) :
    (enterFaulted i cause s).src i =
      if (s.src i).withdrawPending then (((s.src i).faultedBy cause).shut (s.src i).state.streaming).absented
      else ((s.src i).faultedBy cause).shut (s.src i).state.streaming := by
  obtain ⟨hstate, -, -, hpending, hunlock⟩ := (s.src i).shut_faultedBy cause (s.src i).state.streaming
  -- The state in which the controller is informed of a departure.
  obtain ⟨u, hfault, hu⟩ : ∃ u, enterFaulted i cause s = informDeparture i (s.src i).state (absentIfPending i u) ∧
      u.src i = ((s.src i).faultedBy cause).shut (s.src i).state.streaming := by
    refine ⟨_, rfl, ?_⟩
    split <;> simp only [raiseSrc_src, (shutDown_src i _ _).1, State.modSrc, State.setSrc_src, if_true] <;> rfl
  have hrecord := absentIfPending_src i u
  rw [hu, hpending] at hrecord
  rw [hfault, informDeparture_src, hrecord] <;> rw [hrecord] <;> split
  · simp [SourceRecord.absented]
  · simp [hstate]
  · exact congrArg SourceRecord.absented hunlock
  · exact hunlock

theorem enterFaulted_stop (i : Source) (cause : FaultCause) (s : State) : ((enterFaulted i cause s).src i).stop = none := by
  obtain ⟨-, hstop, -⟩ := (s.src i).shut_faultedBy cause (s.src i).state.streaming
  rw [enterFaulted_src]
  split <;> exact hstop

/-- Without a withdrawal that waits the source stays in FAULTED. -/
theorem enterFaulted_faulted {i : Source} {cause : FaultCause} {s : State} (h : (s.src i).withdrawPending = false) :
    ((enterFaulted i cause s).src i).state = .faulted ∧ ((enterFaulted i cause s).src i).faultCause = some cause := by
  obtain ⟨hstate, -, hcause, -⟩ := (s.src i).shut_faultedBy cause (s.src i).state.streaming
  rw [enterFaulted_src, h]
  exact ⟨hstate, hcause⟩

theorem enterFaulted_timebase (i : Source) (cause : FaultCause) (s : State) :
    (enterFaulted i cause s).timebase = s.timebase :=
  ((Kept.closed s).enterFaulted i cause (.refl s)).timebase

/-! ## The two requests -/

theorem exec_releaseHold (f : List Byte) (s : State) :
    exec (.releaseHold f) s = .next (receiveRequest .ml 0x46 (some releaseHoldRule) f s) := rfl

theorem judgeReleaseHold_held {f : List Byte} {s : State} (h : (s.src s.selected).state = .held) :
    judgeReleaseHold f s = accept .ok (enterOff s.selected s) := by
  rw [judgeReleaseHold, onSelected_present (by simp [h]), if_pos h]

/-- ABSENT is refused by R2, and every other state but HELD by R17. -/
theorem judgeReleaseHold_not_held {f : List Byte} {s : State} (h : (s.src s.selected).state ≠ .held) :
    judgeReleaseHold f s = refuse .wrongState s := by
  by_cases ha : (s.src s.selected).state = .absent
  · exact onSelected_absent ha
  · rw [judgeReleaseHold, onSelected_present ha, if_neg h]

/-- Settles O23: HELD is the one state the judgement accepts, and an entry to OFF ends by the record. -/
theorem releaseHoldEntersOff : Obligations.ReleaseHoldEntersOff := by
  intro s hfree
  refine ⟨fun hheld => ⟨?_, enterOff_state _ s⟩, fun hheld => ?_⟩ <;> rw [exec_releaseHold]
  · exact congrArg _ (receiveRequest_accepted hfree (judgeReleaseHold_held hheld) (enterOff_timebase _ s))
  · exact congrArg _ (receiveRequest_refused hfree (judgeReleaseHold_not_held hheld))

theorem exec_declareFault (f : List Byte) (s : State) :
    exec (.declareFault f) s = .next (receiveRequest .ml 0x47 (some declareFaultRule) f s) := rfl

theorem judgeDeclareFault_absent {f : List Byte} {s : State} (h : (s.src s.selected).state = .absent) :
    judgeDeclareFault f s = refuse .wrongState s := onSelected_absent h

theorem judgeDeclareFault_faulted {f : List Byte} {s : State} (h : (s.src s.selected).state = .faulted) :
    judgeDeclareFault f s = accept .ok s := by
  rw [judgeDeclareFault, onSelected_present (by simp [h]), if_pos h]

theorem judgeDeclareFault_present {f : List Byte} {s : State} (ha : (s.src s.selected).state ≠ .absent)
    (hf : (s.src s.selected).state ≠ .faulted) :
    judgeDeclareFault f s = accept .ok (enterFaulted s.selected .moduleFault s) := by
  rw [judgeDeclareFault, onSelected_present ha, if_neg hf]

/-- Settles O26: the judgement by state, and the record that entry to FAULTED leaves. -/
theorem declareFaultTakesTheSource : Obligations.DeclareFaultTakesTheSource := by
  intro s hfree
  refine ⟨fun habsent => ?_, fun hfaulted => ?_, fun habsent hfaulted =>
    ⟨_, ?_, rfl, enterFaulted_stop _ _ s, enterFaulted_faulted⟩⟩ <;> rw [exec_declareFault]
  · exact congrArg _ (receiveRequest_refused hfree (judgeDeclareFault_absent habsent))
  · exact congrArg _ (receiveRequest_accepted hfree (judgeDeclareFault_faulted hfaulted) rfl)
  · exact congrArg _ (receiveRequest_accepted hfree (judgeDeclareFault_present habsent hfaulted)
      (enterFaulted_timebase _ _ s))

end Sys2Proof.Machine
end

section
/-! The edits of a calibration table: PUT_CAL_POINT (R91), DROP_CAL_POINT (R92) and CLEAR_CAL (R93). -/

namespace Sys2Proof.Machine

open Sys2Proof

/-! ## Requests of a fixed length on a source -/

/-- A request of the length its rule fixes that its block accepts, leaving the timebase. -/
theorem receiveFixed_accepted {l : Link} {code : Byte} {n : Nat} {judge : List Byte → State → Judged} {f : List Byte}
    {s t : State} (h : LinkFree l s) (hf : f.length = n) (hn : n ≤ 60) (hj : judge f s = accept .ok t)
    (ht : t.timebase = s.timebase) : receiveRequest l code (some (.fixed n judge)) f s = answeredOk l code n t := by
  subst hf
  exact receiveRequest_free (j := accept .ok t) h hn (decide_eq_true rfl) hj ht

/-- A request of the length its rule fixes that its block refuses. -/
theorem receiveFixed_refused {l : Link} {code : Byte} {n : Nat} {judge : List Byte → State → Judged} {f : List Byte}
    {st : Status} {s : State} (h : LinkFree l s) (hf : f.length = n) (hn : n ≤ 60) (hj : judge f s = refuse st s) :
    receiveRequest l code (some (.fixed n judge)) f s = refused l code st n s := by
  subst hf
  exact receiveRequest_free (j := refuse st s) h hn (decide_eq_true rfl) hj rfl

theorem onSource_some {n : Nat} {i : Source} {rule : Source → Judged} {s : State} (h : Source.ofNumber n = some i) :
    onSource n rule s = rule i := by rw [onSource, h]

/-- R2: a source number above 3 is RANGE, whatever the request. -/
theorem onSource_range {n : Nat} {rule : Source → Judged} {s : State} (h : 3 < n) :
    onSource n rule s = refuse .range s := by rw [onSource, Source.ofNumber_none h]

/-! ## The table -/

theorem hasPoint_iff {focus : Nat} {t : List CalPoint} : hasPoint focus t = true ↔ ∃ q ∈ t, q.focus = focus := by
  simp [hasPoint]

theorem hasPoint_eq_false_iff {focus : Nat} {t : List CalPoint} :
    hasPoint focus t = false ↔ ∀ q ∈ t, q.focus ≠ focus := by
  simp [hasPoint]

/-- R91: in an ascending table the inserted point takes the place of the one of its focus code, and no other is lost. -/
theorem mem_insertPoint {p q : CalPoint} {t : List CalPoint} (h : t.Pairwise fun a b => a.focus < b.focus) :
    q ∈ insertPoint p t ↔ q = p ∨ (q ∈ t ∧ q.focus ≠ p.focus) := by
  induction t with
  | nil => simp [insertPoint]
  | cons a t ih =>
    obtain ⟨ha, ht⟩ := List.pairwise_cons.mp h
    -- Past the point's place every focus code is above its own.
    have others {u : List CalPoint} (hu : ∀ b ∈ u, p.focus < b.focus) : q ∈ u ↔ q ∈ u ∧ q.focus ≠ p.focus :=
      (and_iff_left_of_imp fun hq => (hu q hq).ne').symm
    rcases lt_trichotomy p.focus a.focus with hlt | heq | hgt
    · rw [insertPoint, if_pos hlt, List.mem_cons,
        ← others (List.forall_mem_cons.mpr ⟨hlt, fun b hb => hlt.trans (ha b hb)⟩)]
    · rw [insertPoint, if_neg heq.not_lt, if_pos heq, List.mem_cons, others fun b hb => heq ▸ ha b hb, List.mem_cons]
      grind
    · rw [insertPoint, if_neg hgt.asymm, if_neg hgt.ne', List.mem_cons, ih ht, List.mem_cons]
      grind

/-! ## PUT_CAL_POINT (R91) -/

section
variable {f : List Byte} {n : Nat} {s : State}

theorem parseCalPoint_length {x : Nat × CalPoint} (h : parseCalPoint f = some x) : f.length = 11 := by
  unfold parseCalPoint at h
  split at h
  · rfl
  · cases h

theorem exec_putCalPoint_accepted {x : Nat × CalPoint} {i : Source} {t : List CalPoint} (h : LinkFree .al s)
    (hf : parseCalPoint f = some x) (hj : judgePutCalPoint f s = accept .ok (s.setCal i t)) :
    exec (.putCalPoint f) s = .next (answeredOk .al 0x28 11 (s.setCal i t)) :=
  congrArg _ (receiveFixed_accepted h (parseCalPoint_length hf) (by decide) hj rfl)

theorem exec_putCalPoint_refused {x : Nat × CalPoint} {st : Status} (h : LinkFree .al s) (hf : parseCalPoint f = some x)
    (hj : judgePutCalPoint f s = refuse st s) : exec (.putCalPoint f) s = .next (refused .al 0x28 st 11 s) :=
  congrArg _ (receiveFixed_refused h (parseCalPoint_length hf) (by decide) hj)

theorem judgePutCalPoint_parsed {p : CalPoint} (hf : parseCalPoint f = some (n, p)) :
    judgePutCalPoint f s = onSource n (fun i =>
      if !p.inRange then refuse .range s
      else if hasPoint p.focus (s.calTable i) || decide ((s.calTable i).length < calTableSize) then
        accept .ok (s.setCal i (insertPoint p (s.calTable i)))
      else refuse .full s) s := by
  rw [judgePutCalPoint, hf]

/-! ## DROP_CAL_POINT (R92) -/

theorem parseCalKey_length {x : Nat × Nat} (h : parseCalKey f = some x) : f.length = 3 := by
  unfold parseCalKey at h
  split at h
  · rfl
  · cases h

theorem exec_dropCalPoint_accepted {x : Nat × Nat} {i : Source} {t : List CalPoint} (h : LinkFree .al s)
    (hf : parseCalKey f = some x) (hj : judgeDropCalPoint f s = accept .ok (s.setCal i t)) :
    exec (.dropCalPoint f) s = .next (answeredOk .al 0x29 3 (s.setCal i t)) :=
  congrArg _ (receiveFixed_accepted h (parseCalKey_length hf) (by decide) hj rfl)

theorem exec_dropCalPoint_refused {x : Nat × Nat} {st : Status} (h : LinkFree .al s) (hf : parseCalKey f = some x)
    (hj : judgeDropCalPoint f s = refuse st s) : exec (.dropCalPoint f) s = .next (refused .al 0x29 st 3 s) :=
  congrArg _ (receiveFixed_refused h (parseCalKey_length hf) (by decide) hj)

theorem judgeDropCalPoint_parsed {focus : Nat} (hf : parseCalKey f = some (n, focus)) :
    judgeDropCalPoint f s = onSource n (fun i =>
      if 1023 < focus then refuse .range s
      else if hasPoint focus (s.calTable i) then
        accept .ok (s.setCal i ((s.calTable i).filter fun p => decide (p.focus ≠ focus)))
      else refuse .notFound s) s := by
  rw [judgeDropCalPoint, hf]

end

/-! ## The three requests -/

/-- R93, and R2 for the source number. -/
theorem exec_clearCal {b : Byte} {s : State} (h : LinkFree .al s) :
    (∀ i, Source.ofNumber b.toNat = some i →
      exec (.clearCal [b]) s = .next (answeredOk .al 0x2A 1 (s.setCal i []))) ∧
    (3 < b.toNat → exec (.clearCal [b]) s = .next (refused .al 0x2A .range 1 s)) := by
  have judged : judgeClearCal [b] s = onSource b.toNat (fun i => accept .ok (s.setCal i [])) s := rfl
  exact ⟨fun i hi => congrArg _ (receiveFixed_accepted (n := 1) h rfl (by decide) (judged.trans (onSource_some hi)) rfl),
    fun hb => congrArg _ (receiveFixed_refused (n := 1) h rfl (by decide) (judged.trans (onSource_range hb)))⟩

/-- R91, in the order of its checks. -/
theorem exec_putCalPoint {i : Source} {f : List Byte} {n : Nat} {p : CalPoint} {s : State} (h : LinkFree .al s)
    (hf : parseCalPoint f = some (n, p)) (hn : Source.ofNumber n = some i) :
    (p.inRange = false → exec (.putCalPoint f) s = .next (refused .al 0x28 .range 11 s)) ∧
    (p.inRange = true → (∀ q ∈ s.calTable i, q.focus ≠ p.focus) → (s.calTable i).length = 8 →
      exec (.putCalPoint f) s = .next (refused .al 0x28 .full 11 s)) ∧
    (p.inRange = true → (hasPoint p.focus (s.calTable i) || decide ((s.calTable i).length < calTableSize)) = true →
      exec (.putCalPoint f) s = .next (answeredOk .al 0x28 11 (s.setCal i (insertPoint p (s.calTable i))))) := by
  have judged := (judgePutCalPoint_parsed (s := s) hf).trans (onSource_some hn)
  refine ⟨fun hp => exec_putCalPoint_refused h hf ?_, fun hp hnew hfull => exec_putCalPoint_refused h hf ?_,
    fun hp hroom => exec_putCalPoint_accepted h hf ?_⟩ <;> rw [judged]
  · simp [hp]
  · simp [hp, hasPoint_eq_false_iff.mpr hnew, hfull, calTableSize]
  · simp only [hp, hroom, Bool.not_true, Bool.false_eq_true, if_false, if_true]

/-- R92, in the order of its checks. -/
theorem exec_dropCalPoint {i : Source} {f : List Byte} {n focus : Nat} {s : State} (h : LinkFree .al s)
    (hf : parseCalKey f = some (n, focus)) (hn : Source.ofNumber n = some i) :
    (1023 < focus → exec (.dropCalPoint f) s = .next (refused .al 0x29 .range 3 s)) ∧
    (focus ≤ 1023 → (∀ q ∈ s.calTable i, q.focus ≠ focus) →
      exec (.dropCalPoint f) s = .next (refused .al 0x29 .notFound 3 s)) ∧
    (focus ≤ 1023 → (∃ q ∈ s.calTable i, q.focus = focus) →
      exec (.dropCalPoint f) s =
        .next (answeredOk .al 0x29 3 (s.setCal i ((s.calTable i).filter fun q => decide (q.focus ≠ focus))))) := by
  have judged := (judgeDropCalPoint_parsed (s := s) hf).trans (onSource_some hn)
  refine ⟨fun hr => exec_dropCalPoint_refused h hf ?_, fun hr hno => exec_dropCalPoint_refused h hf ?_,
    fun hr hsome => exec_dropCalPoint_accepted h hf ?_⟩ <;> rw [judged]
  · rw [if_pos hr]
  · rw [if_neg hr.not_gt, hasPoint_eq_false_iff.mpr hno]; rfl
  · rw [if_neg hr.not_gt, if_pos (hasPoint_iff.mpr hsome)]

/-- Settles O37: the three requests check by check, and what `insertPoint` makes of a table that is well formed. -/
theorem calibrationEdits : Obligations.CalibrationEdits := by
  refine ⟨fun b s hfree => ?_, fun f s hfree => ⟨fun n p hf hn => ?_, fun n focus hf hn => ?_⟩,
    fun i s hfree hok => ⟨fun f n p hf hn => ?_, fun f n focus => exec_dropCalPoint hfree⟩⟩
  · obtain ⟨hclear, hrange⟩ := exec_clearCal (b := b) hfree
    exact ⟨fun i hi => ⟨hclear i hi, by simp⟩, hrange⟩
  · exact exec_putCalPoint_refused hfree hf ((judgePutCalPoint_parsed hf).trans (onSource_range hn))
  · exact exec_dropCalPoint_refused hfree hf ((judgeDropCalPoint_parsed hf).trans (onSource_range hn))
  · obtain ⟨hrange, hfull, hput⟩ := exec_putCalPoint hfree hf hn
    refine ⟨hrange, hfull, fun hp hroom => ?_⟩
    have ⟨_, hsorted, _⟩ := hok
    have room : (hasPoint p.focus (s.calTable i) || decide ((s.calTable i).length < calTableSize)) = true :=
      Bool.or_eq_true_iff.mpr (hroom.imp hasPoint_iff.mpr decide_eq_true)
    exact ⟨_, hput hp room, hok.insert hp room, fun _ => mem_insertPoint hsorted⟩

end Sys2Proof.Machine
end

section
/-! CONFIGURE_STREAM (R147): the checks in their order, and the ranges of Table 54. -/

namespace Sys2Proof.Machine

open Sys2Proof

/-! ## The ranges of Table 54 -/

theorem within_iff {r : Nat × Nat} {v : Nat} : within r v = true ↔ r.1 ≤ v ∧ v ≤ r.2 := by
  simp [within]

/-- Table 54: of the count mode only COUNTED makes the count matter; the timer period is checked whatever the cause. -/
theorem StreamConfig.inRange_iff {c : StreamConfig} : c.inRange = true ↔
    (c.countMode = .counted → 1 ≤ c.count ∧ c.count ≤ 65535) ∧ 1000 ≤ c.period ∧ c.period ≤ 1000000 ∧ 64 ≤ c.width ∧
      c.width ≤ 4096 ∧ 64 ≤ c.height ∧ c.height ≤ 3072 ∧ 1 ≤ c.linePeriod ∧ c.linePeriod ≤ 1024 := by
  cases hm : c.countMode <;> simp [StreamConfig.inRange, hm, within_iff, and_assoc]

/-! ## A stream's number and its state -/

theorem onStream_some {n : Nat} {st : StreamId} {rule : StreamId → Judged} {s : State} (h : streamOf n = some st) :
    onStream n rule s = rule st := by rw [onStream, h]

/-- A stream number above 1 is RANGE, whatever the request. -/
theorem onStream_range {n : Nat} {rule : StreamId → Judged} {s : State} (h : 1 < n) :
    onStream n rule s = refuse .range s := by rw [onStream, streamOf_none h]

theorem StreamState.busy_of_mem {x : StreamState} (h : x ∈ [.running, .stopping]) : x.busy = true := by
  revert h; cases x <;> decide

theorem StreamState.not_busy_of_mem {x : StreamState} (h : x ∈ [.stopped, .done]) : x.busy = false := by
  revert h; cases x <;> decide

/-! ## The judgement, check by check -/

section
variable {st : StreamId} {c : StreamConfig} {s : State}

theorem judgeConfigure_busy {config : Option StreamConfig} (h : (s.stream st).state.busy = true) :
    judgeConfigure st config s = refuse .busy s := if_pos h

/-- A value outside its list and one outside its interval are refused alike. -/
theorem judgeConfigure_range {config : Option StreamConfig} (h : (s.stream st).state.busy = false)
    (hr : ∀ c, config = some c → c.inRange = false) : judgeConfigure st config s = refuse .range s := by
  cases config with
  | none => simp [judgeConfigure, h]
  | some c => simp [judgeConfigure, h, hr c rfl]

theorem judgeConfigure_loop (h : (s.stream st).state.busy = false) (hr : c.inRange = true) (hc : c.cause = .chain)
    (hp : (s.stream st.partner).config.cause = .chain) : judgeConfigure st (some c) s = refuse .loop s := by
  simp [judgeConfigure, h, hr, hc, hp]

theorem judgeConfigure_accepted (h : (s.stream st).state.busy = false) (hr : c.inRange = true)
    (hc : c.cause ≠ .chain ∨ (s.stream st.partner).config.cause ≠ .chain) :
    judgeConfigure st (some c) s = accept .ok (s.setStream st { s.stream st with config := c }) := by
  have unchained : (decide (c.cause = .chain) && decide ((s.stream st.partner).config.cause = .chain)) = false := by
    simpa [imp_iff_not_or] using hc
  simp [judgeConfigure, h, hr, unchained, State.modStream]

end

/-! ## The request -/

section
variable {f : List Byte} {n : Nat} {c : Option StreamConfig} {s : State}

theorem parseStreamConfig_length {x : Nat × Option StreamConfig} (h : parseStreamConfig f = some x) : f.length = 17 := by
  unfold parseStreamConfig at h
  split at h
  · rfl
  · cases h

theorem judgeConfigureStream_parsed (hf : parseStreamConfig f = some (n, c)) :
    judgeConfigureStream f s = onStream n (fun st => judgeConfigure st c s) s := by
  rw [judgeConfigureStream, hf]

theorem exec_configureStream_refused {e : Status} (h : LinkFree .al s) (hf : parseStreamConfig f = some (n, c))
    (hj : onStream n (fun st => judgeConfigure st c s) s = refuse e s) :
    exec (.configureStream f) s = .next (refused .al 0x30 e 17 s) :=
  congrArg _ (receiveFixed_refused h (parseStreamConfig_length hf) (by decide)
    ((judgeConfigureStream_parsed hf).trans hj))

theorem exec_configureStream_accepted {st : StreamId} {x : Stream} (h : LinkFree .al s)
    (hf : parseStreamConfig f = some (n, c))
    (hj : onStream n (fun st => judgeConfigure st c s) s = accept .ok (s.setStream st x)) :
    exec (.configureStream f) s = .next (answeredOk .al 0x30 17 (s.setStream st x)) :=
  congrArg _ (receiveFixed_accepted h (parseStreamConfig_length hf) (by decide)
    ((judgeConfigureStream_parsed hf).trans hj) rfl)

end

/-- Settles O56: each check of R147 once those before it have passed, and the ranges of Table 54. -/
theorem configureStreamChecksInOrder : Obligations.ConfigureStreamChecksInOrder := by
  refine ⟨fun f n c s hfree hf => ⟨fun hn => ?_, fun st hst => ⟨fun hbusy => ?_, fun hrest => ?_⟩⟩,
    fun c => StreamConfig.inRange_iff⟩
  · exact exec_configureStream_refused hfree hf (onStream_range hn)
  · exact exec_configureStream_refused hfree hf
      ((onStream_some hst).trans (judgeConfigure_busy (StreamState.busy_of_mem hbusy)))
  · have idle := StreamState.not_busy_of_mem hrest
    refine ⟨fun hrange => ?_, ?_⟩
    · exact exec_configureStream_refused hfree hf ((onStream_some hst).trans (judgeConfigure_range idle hrange))
    · rintro x rfl hx
      exact ⟨fun hc hp => exec_configureStream_refused hfree hf
          ((onStream_some hst).trans (judgeConfigure_loop idle hx hc hp)),
        fun hc => exec_configureStream_accepted hfree hf
          ((onStream_some hst).trans (judgeConfigure_accepted idle hx hc))⟩

end Sys2Proof.Machine
end

section
/-! The notice lines (R173), and RESET_N low: while it stays so every block keeps its reset value (R175), so that no line is
asserted. -/

namespace Sys2Proof.Machine

open Sys2Proof

/-! ## When a line is asserted -/

theorem Group.mem_all (g : Group) : g ∈ Group.all := by
  cases g with
  | src i => cases i <;> simp [Group.all]
  | handoff => simp [Group.all]
  | output => simp [Group.all]
  | part => simp [Group.all]

theorem noticeLine_iff {s : State} {l : Link} : noticeLine s l = true ↔
    ∃ g : Group, (s.notice l).groups.get g = true ∧ (s.notice l).pending.get g &&& (s.notice l).kinds.get g ≠ 0 := by
  simp [noticeLine, Group.mem_all]

/-- A line shows the notices of its own link only. -/
theorem noticeLine_congr {s t : State} {l : Link} (h : t.notice l = s.notice l) : noticeLine t l = noticeLine s l := by
  simp only [noticeLine, h]

/-- With no notice pending or enabled the line is deasserted. -/
theorem noticeLine_reset {s : State} {l : Link} (h : s.notice l = .reset) : noticeLine s l = false := by
  simp only [noticeLine, h]
  rfl

/-! ## A kind that is already pending -/

theorem PerGroup.set_get {α : Type} (v : PerGroup α) (g : Group) : v.set (v.get g) g = v := by
  cases g with
  | src i => cases i <;> rfl
  | handoff => rfl
  | output => rfl
  | part => rfl

/-- Table 59: a kind is one bit of its group's byte. -/
theorem Notice.mask_eq_twoPow (k : Notice) : ∃ n : Fin 8, k.mask = BitVec.twoPow 8 n := by
  cases k with
  | source _ k =>
    change ∃ n : Fin 8, k.mask = BitVec.twoPow 8 n
    cases k <;> decide
  | handoff k => cases k <;> decide
  | output k => cases k <;> decide
  | part k => cases k <;> decide

/-- A byte that shares a bit has it set already. -/
theorem or_twoPow_of_and_ne_zero {x : Byte} {n : Nat} (h : x &&& BitVec.twoPow 8 n ≠ 0) :
    x ||| BitVec.twoPow 8 n = x := by
  have hbit : x.getLsbD n = true := by
    by_contra hn
    exact h (by rw [BitVec.and_twoPow, if_neg hn]; rfl)
  refine BitVec.eq_of_getLsbD_eq fun i hi => ?_
  by_cases hin : n = i
  · subst hin; simp [hbit]
  · simp [BitVec.getLsbD_twoPow, hin]

/-- R171: a kind already pending stays pending, once. -/
theorem Notices.raise_of_isPending {n : Notices} {k : Notice} (h : n.isPending k = true) : n.raise k = n := by
  obtain ⟨b, hb⟩ := k.mask_eq_twoPow
  have hset : n.pending.get k.group ||| k.mask = n.pending.get k.group := by
    rw [hb]
    exact or_twoPow_of_and_ne_zero (by simpa [Notices.isPending, hb] using h)
  rw [Notices.raise, hset, PerGroup.set_get]

/-! ## Every block at reset -/

theorem resetLow_heldInReset (o : OpenFrames) (s : State) : HeldInReset (resetLow o s) :=
  ⟨rfl, fun l => by cases l <;> rfl⟩

namespace HeldInReset

section
variable {s : State} (h : HeldInReset s)
include h

/-! What the blocks hold. -/

theorem resetLow : s.resetLow = true := by rw [h.1]

theorem initialising : s.initialising = false := by rw [h.1]

theorem src (i : Source) : s.src i = .reset := by rw [h.1]; cases i <;> rfl

theorem syncLine (i : Source) : s.syncLine i = .reset := by rw [h.1]; cases i <;> rfl

theorem bank (k : Bank) : s.bank k = .reset := by rw [h.1]; cases k <;> rfl

theorem viewTimer : s.view.timer = none := by rw [h.1]; rfl

theorem streamTimer (st : StreamId) : (s.stream st).timer = none := by rw [h.1]; cases st <;> rfl

theorem inFlight (st : StreamId) : (s.stream st).inFlight = none := by rw [h.1]; cases st <;> rfl

theorem selection (line : TriggerLine) : (s.trigger line).selection = .none := by rw [h.1]; cases line <;> rfl

theorem notice (l : Link) : s.notice l = .reset := by rw [h.1]; cases l <;> rfl

theorem frameIgnored (l : Link) : frameIgnored l s = true := by simp [Machine.frameIgnored, h.resetLow]

/-! What may change: the queue, the counter of free values, and a link's frame. -/

theorem setPending (q : List Instr) : HeldInReset { s with pending := q } :=
  ⟨congrArg (fun u : State => { u with pending := q }) h.1, h.2⟩

theorem spendFree : HeldInReset (spendFree s) :=
  ⟨congrArg Machine.spendFree h.1, h.2⟩

theorem setLink (l : Link) {x : LinkState} (hx : x.response = .none) : HeldInReset (s.setLink l x) := by
  refine ⟨congrArg (fun u : State => u.setLink l x) h.1, fun m => ?_⟩
  rw [State.setLink_link]
  split
  · exact hx
  · exact h.2 m

theorem endIgnored (l : Link) (shifted : List Byte) : HeldInReset (endIgnored l shifted s) := h.setLink l (h.2 l)

/-! Frames: each is ignored (R175). -/

theorem ignoreFrame (l : Link) (before : ResponseState → List Byte) : HeldInReset (ignoreFrame l before s) := by
  unfold Machine.ignoreFrame
  split
  · exact h.endIgnored l _
  · exact h.spendFree.endIgnored l _

theorem receiveRequest (l : Link) (code : Byte) (rule : Option RequestRule) (f : List Byte) :
    HeldInReset (receiveRequest l code rule f s) := by
  rw [receiveRequest_ignored (.inl h.resetLow)]
  exact h.endIgnored l _

theorem receiveFetch (l : Link) (n : Nat) : HeldInReset (receiveFetch l n s) := by
  rw [Machine.receiveFetch, if_pos (h.frameIgnored l)]
  exact h.ignoreFrame l _

theorem receiveEmpty (l : Link) : HeldInReset (receiveEmpty l s) := by
  unfold Machine.receiveEmpty
  split
  · exact h.endIgnored l _
  · exact h

theorem discardBytes (l : Link) (bytes : List Byte) : HeldInReset (discardBytes l bytes s) := by
  simp only [Machine.discardBytes, if_pos (h.frameIgnored l)]
  split
  · exact h.endIgnored l _
  · exact h.ignoreFrame l _

theorem receiveFrame (l : Link) (bytes : List Byte) : HeldInReset (receiveFrame l bytes s) := by
  unfold Machine.receiveFrame
  split
  · exact h.receiveEmpty l
  · exact h.receiveFetch l _
  · exact h.discardBytes l _
  · exact h.receiveRequest l _ _ _

theorem execUnknownRequest {l : Link} {code : Byte} {f : List Byte} {t : State}
    (e : execUnknownRequest l code f s = .next t) : HeldInReset t := by
  cases e
  split
  · exact h.receiveFetch l _
  · split
    · exact h.receiveFrame l _
    · exact h.receiveRequest l _ _ _

/-! Every other event finds nothing to act on. -/

theorem makeReady (l : Link) (o : OpenFrames) : makeReady l o s = s := by
  simp [Machine.makeReady, h.2 l]

theorem endInitialisation : endInitialisation s = s := by
  simp [Machine.endInitialisation, h.initialising]

theorem edge_not_taken (line : TriggerLine) (p : Polarity) : (s.trigger line).selection.takes p = false := by
  rw [h.selection]
  rfl

/-- No source is in a streaming state, and a port of another takes no packet (R104). -/
theorem streaming (i : Source) : (s.src i).state.streaming = false := by
  rw [h.src]
  rfl

theorem intakeFrameStart (i : Source) (number width height : Half) : intakeFrameStart i number width height s = s := by
  simp [Machine.intakeFrameStart, h.streaming]

theorem intakeLine (i : Source) (number : Half) (data : List Byte) : intakeLine i number data s = s := by
  simp [Machine.intakeLine, h.streaming]

theorem intakeFrameEnd (i : Source) (count check : Half) : intakeFrameEnd i count check s = s := by
  simp [Machine.intakeFrameEnd, h.streaming]

theorem invalidPacket (port : Source) (bytes : List Byte) : execInvalidPacket port bytes s = .next s := by
  unfold execInvalidPacket
  split
  · rw [h.intakeFrameStart]
  · rw [h.intakeLine]
  · rw [h.intakeFrameEnd]
  · rfl

/-- No deadline of a source runs. -/
theorem sourceExpiries (i : Source) :
    expireWarm i s = s ∧ expireLinger i s = s ∧ expireStop i s = s ∧ expireStall i s = s := by
  simp [expireWarm, expireLinger, expireStop, expireStall, h.src, SourceRecord.reset, expired]

theorem bankExpiries (k : Bank) : goDormant k s = s ∧ completeWake k s = s := by
  simp [goDormant, completeWake, h.bank, BankRecord.reset, expired]

theorem syncExpiries (i : Source) : endPulse i s = s ∧ takeNextPulse i s = s ∧ takeFollowPulse i s = s := by
  simp [endPulse, takeNextPulse, takeFollowPulse, h.syncLine, SyncLine.reset, expired]

theorem expireViewTimer : expireViewTimer s = s := by
  simp [Machine.expireViewTimer, h.viewTimer, expired]

theorem streamExpiries (st : StreamId) : expireStreamTimer st s = s ∧ completeEmission st s = s := by
  simp [expireStreamTimer, completeEmission, h.streamTimer, h.inFlight, expired]

/-! ## Commands and steps -/

/-- R175: every command but the release of RESET_N leaves every block at reset. -/
theorem exec {c : Instr} {t : State} (hc : c ≠ .resetNRelease) (e : exec c s = .next t) : HeldInReset t := by
  -- An event that leaves the state as it is.
  have unchanged {u : State} (hu : u = s) : HeldInReset u := hu ▸ h
  cases c
  case invalidPacket port bytes =>
    cases (h.invalidPacket port bytes).symm.trans e
    exact h
  case unknownRequest => exact h.execUnknownRequest e
  all_goals cases e
  case resetNRelease => exact absurd rfl hc
  case resetNLow o => exact resetLow_heldInReset o s
  case fetchFrame l n =>
    split
    · exact h.receiveEmpty l
    · exact h.receiveFetch l n
  case discardedFrame l bytes => exact h.receiveFrame l bytes
  case triggerEdge line p => exact unchanged (by rw [h.edge_not_taken]; rfl)
  case responseReady => exact unchanged (h.makeReady _ _)
  case endOfInitialisation => exact unchanged h.endInitialisation
  case frameStart => exact unchanged (h.intakeFrameStart _ _ _ _)
  case line => exact unchanged (h.intakeLine _ _ _)
  case frameEnd => exact unchanged (h.intakeFrameEnd _ _ _)
  case warmDeadlineExpiry i =>
    obtain ⟨hwarm, -, -, -⟩ := h.sourceExpiries i
    exact unchanged hwarm
  case lingerDeadlineExpiry i =>
    obtain ⟨-, hlinger, -, -⟩ := h.sourceExpiries i
    exact unchanged hlinger
  case stopDeadlineExpiry i =>
    obtain ⟨-, -, hstop, -⟩ := h.sourceExpiries i
    exact unchanged hstop
  case stallDeadlineExpiry i =>
    obtain ⟨-, -, -, hstall⟩ := h.sourceExpiries i
    exact unchanged hstall
  case dormancyDeadlineExpiry k =>
    obtain ⟨hdormancy, -⟩ := h.bankExpiries k
    exact unchanged hdormancy
  case wakeCompletion k =>
    obtain ⟨-, hwake⟩ := h.bankExpiries k
    exact unchanged hwake
  case viewTimerExpiry => exact unchanged h.expireViewTimer
  case syncPulseEnd i =>
    obtain ⟨hend, -, -⟩ := h.syncExpiries i
    exact unchanged hend
  case nextSyncPulse i =>
    obtain ⟨-, hnext, -⟩ := h.syncExpiries i
    exact unchanged hnext
  case followListPulse i =>
    obtain ⟨-, -, hfollow⟩ := h.syncExpiries i
    exact unchanged hfollow
  case streamTimerExpiry st =>
    obtain ⟨htimer, -⟩ := h.streamExpiries st
    exact unchanged htimer
  case emissionCompletion st =>
    obtain ⟨-, hemission⟩ := h.streamExpiries st
    exact unchanged hemission
  -- The requests of known code.
  all_goals exact h.receiveRequest _ _ _ _

/-- An empty queue idles while RESET_N is low (log 26). -/
theorem tick : tick s = s := by simp [Machine.tick, h.resetLow]

/-- A step after which RESET_N is still low was no release, and leaves every block at reset. -/
theorem step {t : State} (e : step s = .next t) (low : t.resetLow = true) : HeldInReset t := by
  unfold Machine.step at e
  split at e
  · cases h.tick ▸ e
    exact h
  · next c rest _ =>
    have hrest := h.setPending rest
    by_cases hc : c = .resetNRelease
    · subst hc
      cases e
      simp [resetRelease, h.resetLow] at low
    · exact hrest.exec hc e

end
end HeldInReset

/-- Settles O16: the line is a function of the link's notices alone, which RESET_N low holds empty and a kind raised again
leaves as they are. -/
theorem noticeLineRule : Obligations.NoticeLineRule := by
  refine ⟨fun s l => noticeLine_iff, fun o s t l e => ?_, fun s l h => ⟨noticeLine_reset (h.notice l), fun t => h.step⟩,
    fun s l k hk => noticeLine_congr ?_⟩
  · cases e
    exact noticeLine_reset ((resetLow_heldInReset o s).notice l)
  · rw [raise_notice, Notices.raise_of_isPending hk]

end Sys2Proof.Machine
end

section
/-! SET_NOTICE_ENABLES (R172) and TAKE_NOTICES (R174). -/

namespace Sys2Proof.Machine

open Sys2Proof

/-! ## The judgements, by the group and the enable -/

theorem judgeSetNoticeEnables_known {l : Link} {g setMask clearMask e : Byte} {group : Group} {enable : GroupEnable}
    {s : State} (hg : Group.ofNumber g.toNat = some group) (he : groupEnableOf e.toNat = some enable) :
    judgeSetNoticeEnables l [g, setMask, clearMask, e] s =
      accept .ok (s.setNotice l ((s.notice l).setEnables group setMask clearMask enable)) := by
  simp only [judgeSetNoticeEnables, parseEnables, hg, he]

/-- A group above 6 and an enable above 2 are refused alike. -/
theorem judgeSetNoticeEnables_range {l : Link} {g setMask clearMask e : Byte} {s : State}
    (h : 6 < g.toNat ∨ 2 < e.toNat) : judgeSetNoticeEnables l [g, setMask, clearMask, e] s = refuse .range s := by
  rcases h with hg | he
  · simp only [judgeSetNoticeEnables, parseEnables, Group.ofNumber_none hg]
  · simp only [judgeSetNoticeEnables, parseEnables, groupEnableOf_none he]
    cases Group.ofNumber g.toNat <;> rfl

theorem judgeTakeNotices_known {l : Link} {g clearMask : Byte} {group : Group} {s : State}
    (hg : Group.ofNumber g.toNat = some group) :
    judgeTakeNotices l [g, clearMask] s =
      acceptWith [g, (s.notice l).pending.get group] (s.setNotice l ((s.notice l).take group clearMask)) := by
  have field : natByte g.toNat = [g] := by simp [natByte]
  simp only [judgeTakeNotices, parseTake, hg, field, List.singleton_append]

theorem judgeTakeNotices_range {l : Link} {g clearMask : Byte} {s : State} (h : 6 < g.toNat) :
    judgeTakeNotices l [g, clearMask] s = refuse .range s := by
  simp only [judgeTakeNotices, parseTake, Group.ofNumber_none h]

/-! ## The two requests -/

/-- A request of the length its rule fixes that its block answers OK with response fields, leaving the timebase. -/
theorem receiveFixed_acceptedWith {l : Link} {code : Byte} {n : Nat} {judge : List Byte → State → Judged}
    {f out : List Byte} {s t : State} (h : LinkFree l s) (hf : f.length = n) (hn : n ≤ 60)
    (hj : judge f s = acceptWith out t) (ht : t.timebase = s.timebase) :
    receiveRequest l code (some (.fixed n judge)) f s = answered l code .ok out .nothing n t := by
  subst hf
  exact receiveRequest_free (j := acceptWith out t) h hn (decide_eq_true rfl) hj ht

theorem exec_setNoticeEnables (l : Link) (f : List Byte) (s : State) :
    exec (.setNoticeEnables l f) s = .next (receiveRequest l 0x02 (some (setNoticeEnablesRule l)) f s) := rfl

theorem exec_takeNotices (l : Link) (f : List Byte) (s : State) :
    exec (.takeNotices l f) s = .next (receiveRequest l 0x03 (some (takeNoticesRule l)) f s) := rfl

/-- Settles O17: each request by its group and enable, on a link that takes it. -/
theorem noticeRequestsAct : Obligations.NoticeRequestsAct := by
  intro l g setMask clearMask e s hfree
  refine ⟨fun group enable hg he => ?_, fun h => ?_, fun group hg => ?_, fun hg => ?_⟩
  · rw [exec_setNoticeEnables]
    exact congrArg _ (receiveFixed_accepted hfree rfl (by decide) (judgeSetNoticeEnables_known hg he) rfl)
  · rw [exec_setNoticeEnables]
    exact congrArg _ (receiveFixed_refused hfree rfl (by decide) (judgeSetNoticeEnables_range h))
  · rw [exec_takeNotices]
    exact congrArg _ (receiveFixed_acceptedWith hfree rfl (by decide) (judgeTakeNotices_known hg) rfl)
  · rw [exec_takeNotices]
    exact congrArg _ (receiveFixed_refused hfree rfl (by decide) (judgeTakeNotices_range hg))

end Sys2Proof.Machine
end

section
/-! What every step keeps of the settings and of the stores (O4, O5, O6): each property survives the primitive changes that a
step is made of (Laws/Steps.lean), so it survives the step. -/

namespace Sys2Proof.Machine

open Sys2Proof

/-! ## The properties of a state that has just been reset -/

theorem ParamsInRange.reset : ParamsInRange .reset := by
  intro p
  cases p <;> decide

theorem CalTableOk.reset (i : Source) : CalTableOk (State.reset.calTable i) := by
  cases i <;> exact CalTableOk.empty

/-- A state whose stores are at reset has every property of the settings and of the stores. -/
theorem paramsOk_of_reset {s : State} (hp : s.params = .reset) (hl : ∀ l, (s.link l).response = .none) : ParamsOk s :=
  ⟨hp ▸ ParamsInRange.reset, fun l => by rw [hl]; trivial⟩

theorem streamsOk_of_reset {s : State} (h : s.streams = State.reset.streams) : StreamsOk s := by
  have hst (st : StreamId) : s.stream st = State.reset.stream st := congrArg (PerStream.get · st) h
  refine ⟨fun st => ?_, ?_⟩
  · rw [hst]; cases st <;> decide
  · rw [hst, hst]; decide

theorem ringOk_of_empty {s : State} (h : s.view.ring = []) : RingOk s := by simp [RingOk, h]

theorem noticesOk_reset {n : Notices} (h : n = .reset) (g : Group) :
    n.pending.get g &&& ~~~g.kindMask = 0 ∧ n.kinds.get g &&& ~~~g.kindMask = 0 := by
  subst h
  cases g with
  | src i => cases i <;> decide
  | handoff => decide
  | output => decide
  | part => decide

/-! ## What each change of a store keeps -/

/-- R168: a value of a parameter's range keeps every parameter in range. -/
theorem ParamsInRange.set {q : Params} (h : ParamsInRange q) {p : Param} {v : Nat} (hv : within p.range v = true) :
    ParamsInRange (q.set v p) := by
  intro p'
  by_cases e : p' = p
  · subst e
    cases p' <;> exact hv
  · have other : (q.set v p).get p' = q.get p' := by
      cases p <;> cases p' <;> simp [Params.set, Params.get] at e ⊢
    rw [other]
    exact h p'

/-- R147: a configuration in range that does not close a chain with the partner's keeps the two apart. -/
theorem StreamsOk.configure {s : State} (h : StreamsOk s) {st : StreamId} {c : StreamConfig} (hc : c.inRange = true)
    (hp : ¬(c.cause = .chain ∧ (s.stream st.partner).config.cause = .chain)) :
    StreamsOk (s.modStream st fun x => { x with config := c }) := by
  obtain ⟨hr, -⟩ := h
  refine ⟨fun j => ?_, ?_⟩
  · rw [State.modStream_stream]
    split
    · exact hc
    · exact hr j
  · cases st
    · simpa [StreamId.partner] using hp
    · simpa [StreamId.partner, and_comm] using hp

/-- R82: the oldest record leaves a consecutive ring consecutive. -/
theorem RingOk.dropOldest {s : State} (h : RingOk s) {o : ViewRecord} {rest : List ViewRecord}
    (e : s.view.ring = o :: rest) : RingOk (s.setView { s.view with ring := rest }) := by
  obtain ⟨hlen, hseq⟩ := h
  rw [e, List.length_cons] at hlen
  refine ⟨(Nat.le_succ _).trans hlen, fun k hk => ?_⟩
  have hk' : k + 1 < s.view.ring.length := by simpa [e] using hk
  simpa [e] using hseq (k + 1) hk'

/-- R82: a record numbered with the next sequence follows the ring's newest. -/
theorem RingOk.push {s : State} (h : RingOk s) {r : ViewRecord} (hl : s.view.ring.length < 32)
    (hr : r.seq = s.view.nextSeq) : RingOk (pushRecord r s) := by
  obtain ⟨-, hseq⟩ := h
  refine ⟨by simpa [pushRecord] using hl, fun k hk => ?_⟩
  have hk' : k < s.view.ring.length + 1 := by simpa [pushRecord] using hk
  simp only [pushRecord, State.setView_view, List.length_append, List.length_singleton]
  rcases Nat.lt_succ_iff_lt_or_eq.mp hk' with hlt | rfl
  · rw [List.getElem_append_left hlt, hseq k hlt, Nat.sub_add_comm hlt.le]
    have := hlt
    generalize s.view.ring.length - k = n
    bv_omega
  · simp [hr]

/-- R128: an accepted report joins a queue of at most four. -/
theorem ReportUnit.accept_queue (u : ReportUnit) (r : Report) (h : u.queue.length ≤ 4) :
    (u.accept r).1.queue.length ≤ 4 ∧ ∀ x ∈ (u.accept r).1.queue, x = r ∨ x ∈ u.queue := by
  unfold ReportUnit.accept
  split
  · next hlt =>
    refine ⟨by simpa [reportQueueSize] using hlt, fun x hx => ?_⟩
    simpa [or_comm] using hx
  · refine ⟨by simp; omega, fun x hx => ?_⟩
    rcases List.mem_append.mp hx with hx | hx
    · exact .inr (List.mem_of_mem_tail hx)
    · exact .inl (by simpa using hx)

theorem isLate_eq_false {last : Option FrameNo} {n : FrameNo} (h : isLate last n = false) :
    ∀ m, last = some m → frameLater n m = true := by
  rintro m rfl
  simpa [isLate] using h

/-- Table 59: a kind raised is one of its group. -/
theorem Notice.mask_kind (k : Notice) : k.mask &&& ~~~k.group.kindMask = 0 := by
  cases k with
  | source _ k =>
    change k.mask &&& ~~~(0xFF : Byte) = 0
    cases k <;> decide
  | handoff k => cases k <;> decide
  | output k => cases k <;> decide
  | part k => cases k <;> decide

/-- Where neither byte has a bit outside a mask, neither has their union. -/
theorem or_outside {x y m : Byte} (hx : x &&& ~~~m = 0) (hy : y &&& ~~~m = 0) : (x ||| y) &&& ~~~m = 0 := by
  rw [BitVec.and_or_distrib_right, hx, hy]
  rfl

/-- A byte cut down keeps within a mask. -/
theorem and_outside {x m : Byte} (y : Byte) (hx : x &&& ~~~m = 0) : x &&& y &&& ~~~m = 0 := by
  rw [BitVec.and_assoc, BitVec.and_comm y, ← BitVec.and_assoc, hx]
  simp

theorem and_self_outside (x m : Byte) : x &&& m &&& ~~~m = 0 := by simp [BitVec.and_assoc]

/-- The bits of a link's notices, pending and enabled, name kinds of their groups (Table 59). -/
def Notices.Known (n : Notices) : Prop :=
  ∀ g : Group, n.pending.get g &&& ~~~g.kindMask = 0 ∧ n.kinds.get g &&& ~~~g.kindMask = 0

theorem noticesOk_iff {s : State} : NoticesOk s ↔ ∀ l, (s.notice l).Known := Iff.rfl

theorem Notices.Known.raise {n : Notices} (h : n.Known) (k : Notice) : (n.raise k).Known := by
  refine fun g => ⟨?_, (h g).2⟩
  simp only [Notices.raise, PerGroup.get_set]
  split
  · next e => subst e; exact or_outside (h _).1 k.mask_kind
  · exact (h g).1

theorem Notices.Known.setEnables {n : Notices} (h : n.Known) (g : Group) (a b : Byte) (e : GroupEnable) :
    (n.setEnables g a b e).Known := by
  refine fun g' => ⟨(h g').1, ?_⟩
  simp only [Notices.setEnables, PerGroup.get_set]
  split
  · next e => subst e; exact or_outside (and_outside _ (h _).2) (and_self_outside _ _)
  · exact (h g').2

theorem Notices.Known.take {n : Notices} (h : n.Known) (g : Group) (a : Byte) : (n.take g a).Known := by
  refine fun g' => ⟨?_, (h g').2⟩
  simp only [Notices.take, PerGroup.get_set]
  split
  · next e => subst e; exact and_outside _ (h _).1
  · exact (h g').1

theorem NoticesOk.setNotice {s : State} (h : NoticesOk s) {l : Link} {n : Notices} (hn : n.Known) :
    NoticesOk (s.setNotice l n) := by
  refine noticesOk_iff.mpr fun m => ?_
  rw [State.setNotice_notice]
  split
  · exact hn
  · exact h m

/-! ## Every step -/

/-- `t` has each property of the settings, the stores, the ring and the report queues that `s` has. -/
structure StoresKept (s t : State) : Prop where
  params : ParamsOk s → ParamsOk t
  streams : StreamsOk s → StreamsOk t
  cal : CalOk s → CalOk t
  zoom : ZoomQueueOk s → ZoomQueueOk t
  follow : FollowOk s → FollowOk t
  notices : NoticesOk s → NoticesOk t
  ring : RingOk s → RingOk t
  reports : ReportsOk s → ReportsOk t

theorem StoresKept.refl (s : State) : StoresKept s s := ⟨id, id, id, id, id, id, id, id⟩

/-- The queue of the planner after its head became the ramp is the queue before or its tail. -/
theorem Planner.activate_advance_queue (p : Planner) : p.activate.advance.1.queue <:+ p.queue := by
  have advance (q : Planner) : q.advance.1.queue = q.queue := by
    unfold Planner.advance
    split
    · rfl
    · dsimp only
      split <;> split <;> rfl
  rw [advance]
  unfold Planner.activate
  split
  · exact List.suffix_refl _
  · exact List.suffix_refl _
  · next e => rw [e]; exact List.suffix_cons _ _

theorem ZoomQueueOk.of_suffix {s : State} {p : Planner} (h : ZoomQueueOk s) (hp : p.queue <:+ s.planner.queue) :
    ZoomQueueOk (s.setPlanner p) :=
  ⟨hp.length_le.trans h.1, fun z hz => h.2 z (hp.subset hz)⟩

theorem StoresKept.closed (s : State) : StepClosed (StoresKept s) where
  sources v hv h :=
    { h with
      reports := fun h0 i => by
        obtain ⟨hlen, hlater⟩ := h.reports h0 i
        refine ⟨hlen, fun n hn => hlater n ?_⟩
        exact (hv i).elim (fun e => nomatch e.symm.trans hn) (·.symm.trans hn) }
  raised l k h :=
    { h with notices := fun h0 => (h.notices h0).setNotice (Notices.Known.raise (h.notices h0 l) k) }
  pool _ h := { h with }
  flush i h :=
    { h with
      reports := fun h0 j => by
        rw [State.setReport_report]
        split
        · exact ⟨Nat.zero_le _, fun _ _ _ hr => nomatch hr⟩
        · exact h.reports h0 j }
  port _ _ h := { h with }
  sync v hv h :=
    { h with
      follow := fun h0 i => by
        rcases hv i with e | e
        · exact (congrArg List.length e).trans_le (Nat.zero_le _)
        · exact (congrArg List.length e).trans_le (h.follow h0 i) }
  handoff _ h := { h with }
  timer _ h := { h with }
  free _ h := { h with }
  stream st x hx h :=
    { h with
      streams := fun h0 => by
        have config (j : StreamId) : ∀ u : State, ((u.setStream st x).stream j).config =
            if j = st then x.config else (u.stream j).config := by
          intro u
          rw [State.setStream_stream]
          split <;> rfl
        have same (u : State) (hu : x.config = (u.stream st).config) (j : StreamId) :
            ((u.setStream st x).stream j).config = (u.stream j).config := by
          rw [config]
          split
          · next e => subst e; exact hu
          · rfl
        obtain ⟨hr, hc⟩ := h.streams h0
        refine ⟨fun j => ?_, ?_⟩
        · rw [same _ hx]; exact hr j
        · rw [same _ hx, same _ hx]; exact hc }
  dropOldest _ _ e h := { h with ring := fun h0 => (h.ring h0).dropOldest e }
  push r h₀ h hl hr := { h with ring := fun h0 => (h.ring h0).push (hl (h₀.ring h0).1) hr }
  ramp h := { h with zoom := fun h0 => (h.zoom h0).of_suffix (Planner.activate_advance_queue _) }
  wantSets _ _ h := { h with }
  matched i u hu h :=
    { h with
      reports := fun h0 j => by
        rw [State.setReport_report]
        split
        · next e =>
          subst e
          obtain ⟨hlen, hlater⟩ := h.reports h0 j
          exact ⟨hu.length_le.trans hlen, fun n hn r hr => hlater n hn r (hu.subset hr)⟩
        · exact h.reports h0 j }
  completed i n hn h :=
    { h with
      reports := fun h0 j => by
        refine ⟨(h.reports h0 j).1, ?_⟩
        rw [State.modSrc_src]
        split
        · next e =>
          subst e
          rintro m ⟨⟩
          exact hn
        · exact (h.reports h0 j).2 }
  follow i l hl h :=
    { h with
      follow := fun h0 j => by
        rw [State.setSync_syncLine]
        split
        · next e => subst e; exact hl (h.follow h0 j)
        · exact h.follow h0 j }
  pending _ h := { h with }
  timebase _ h := { h with }
  reset o low h :=
    { params := fun _ => paramsOk_of_reset rfl fun l => by cases l <;> rfl
      streams := fun _ => streamsOk_of_reset rfl
      cal := fun _ => CalTableOk.reset
      zoom := fun _ => ⟨Nat.zero_le _, fun _ hz => nomatch hz⟩
      follow := fun _ i => by cases i <;> exact Nat.zero_le _
      notices := fun _ l => by cases l <;> exact noticesOk_reset rfl
      ring := fun _ => ringOk_of_empty rfl
      reports := fun _ i => by cases i <;> exact ⟨Nat.zero_le _, fun _ hn => nomatch hn⟩ }
  phase _ _ h := { h with }
  link l x hx h :=
    { h with
      params := fun h0 => by
        obtain ⟨hp, hd⟩ := h.params h0
        refine ⟨hp, fun m => ?_⟩
        rw [State.setLink_link]
        split
        · exact hx.elim id fun e => e ▸ hd l
        · exact hd m }
  param l r p v hv h :=
    { h with
      params := fun h0 => by
        obtain ⟨hp, hd⟩ := h.params h0
        have waited := hd l
        rw [hv] at waited
        refine ⟨hp.set waited, fun m => ?_⟩
        change DeferredInRange ((State.setLink _ l _).link m).response.deferred
        rw [State.setLink_link]
        split
        · trivial
        · exact hd m }
  trigger _ _ h := { h with }
  enables l g a b e h :=
    { h with notices := fun h0 => (h.notices h0).setNotice (Notices.Known.setEnables (h.notices h0 l) g a b e) }
  take l g a h := { h with notices := fun h0 => (h.notices h0).setNotice (Notices.Known.take (h.notices h0 l) g a) }
  clearNotices l h := { h with notices := fun h0 => (h.notices h0).setNotice (noticesOk_reset rfl) }
  selected _ h := { h with }
  cursors _ h := { h with }
  cal i t ht h :=
    { h with
      cal := fun h0 j => by
        rw [State.setCal_calTable]
        split
        · next e => subst e; exact ht (h.cal h0 j)
        · exact h.cal h0 j }
  zoom p hp h := { h with zoom := fun h0 => hp (h.zoom h0) }
  config st c hc hp h := { h with streams := fun h0 => (h.streams h0).configure hc hp }
  report i r hr h :=
    { h with
      reports := fun h0 j => by
        rw [State.setReport_report]
        split
        · next e =>
          subst e
          obtain ⟨hlen, hlater⟩ := h.reports h0 j
          obtain ⟨hlen', hmem⟩ := ReportUnit.accept_queue _ r hlen
          refine ⟨hlen', fun n hn x hx => ?_⟩
          rcases hmem x hx with rfl | hx
          · exact isLate_eq_false hr n hn
          · exact hlater n hn x hx
        · exact h.reports h0 j }

theorem step_keeps_stores {s t : State} (e : step s = .next t) : StoresKept s t := (StoresKept.closed s).step (.refl s) e

/-- Settles O4: the parameters and the stream configurations are among what every primitive change keeps. -/
theorem settingsStayInRange : Obligations.SettingsStayInRange := fun _ _ e =>
  let kept := step_keeps_stores e
  ⟨kept.params, kept.streams⟩

/-- Settles O5: so are the calibration tables, the zoom queue, the follow lists and the notice sets. -/
theorem storesStayBounded : Obligations.StoresStayBounded := fun _ _ e =>
  let kept := step_keeps_stores e
  ⟨kept.cal, kept.zoom, kept.follow, kept.notices⟩

/-- Settles O6: so are the ring and the report queues. -/
theorem recordsAndReportsKeepOrder : Obligations.RecordsAndReportsKeepOrder := fun _ _ e =>
  let kept := step_keeps_stores e
  ⟨kept.ring, kept.reports⟩

/-! ## The state right after reset -/

theorem reset_src (i : Source) : State.reset.src i = .reset := by cases i <;> rfl

theorem reset_port (i : Source) : State.reset.port i = .idle := by cases i <;> rfl

theorem reset_buffer (b : BufferId) : State.reset.buffer b = .reset := by
  change (Vector.replicate 12 Buffer.reset)[b] = .reset
  simp

theorem chainsOk_reset : ChainsOk State.reset := by
  have noClaims : State.reset.pool.claimQueue = [] := rfl
  simp [ChainsOk, reset_src, reset_port, reset_buffer, noClaims, SourceRecord.reset, Buffer.reset, SourceState.streaming]

theorem pinsOk_reset : PinsOk State.reset := by
  refine ⟨fun b => ?_, fun b _ => ?_, fun b h => ?_, fun st _ => ?_⟩
  · rw [reset_buffer]; rfl
  · rw [reset_buffer]; rfl
  · rw [reset_buffer] at h; cases h
  · cases st <;> exact ⟨rfl, rfl, rfl⟩

theorem framesOk_reset : FramesOk State.reset := by
  simp [FramesOk, reset_src, reset_buffer, SourceRecord.reset, Buffer.reset]

theorem liveOk_reset : LiveOk State.reset := by
  have noPrimary : State.reset.handoff = .reset := rfl
  simp [LiveOk, reset_src, noPrimary, SourceRecord.reset, Handoff.reset]

/-- Settles O3: every source is ABSENT, every buffer FREE, every list empty, and the settings are those of Tables 54 and 58. -/
theorem resetIsSafe : Obligations.ResetIsSafe := by
  refine ⟨paramsOk_of_reset rfl fun l => by cases l <;> rfl, CalTableOk.reset, ⟨Nat.zero_le _, fun _ hz => nomatch hz⟩,
    ringOk_of_empty rfl, fun i => by cases i <;> exact ⟨Nat.zero_le _, fun _ hn => nomatch hn⟩, streamsOk_of_reset rfl,
    fun l => by cases l <;> exact noticesOk_reset rfl, fun i => by cases i <;> exact Nat.zero_le _, fun i _ _ hi => ?_,
    fun i => ?_, liveOk_reset, chainsOk_reset, fun k _ b _ => by rw [reset_buffer]; rfl, pinsOk_reset, framesOk_reset,
    fun i hi => ?_, ⟨rfl, fun _ hz => (nomatch hz), fun _ hr => nomatch hr⟩, fun _ hr => nomatch hr⟩
  · exact absurd (congrArg SourceRecord.state (reset_src i)) hi
  · simp [reset_src, SourceRecord.reset]
  · exact absurd (congrArg SourceRecord.state (reset_src i)) hi

end Sys2Proof.Machine
end

section
/-! What one step can do to the sources, the controller, the pool and the streams, said once: apart from changes that none of
them sees, a step is one of the moves listed here. -/

namespace Sys2Proof.Machine

open Sys2Proof

/-! ## Changes that sources, controller, planner, pool and streams do not see -/

/-- `t` differs from `s` in notices, links, parameters, reports, tables, sync lines, the ring, the clock, the queue, and in
what a stream does without its holds; and RESET_N has not gone low. -/
structure Quiet (s t : State) : Prop where
  sources : t.sources = s.sources
  handoff : t.handoff = s.handoff
  planner : t.planner = s.planner
  pool : t.pool = s.pool
  ports : t.ports = s.ports
  low : t.resetLow = true → s.resetLow = true
  holds : ∀ st, (t.stream st).state = (s.stream st).state ∧ (t.stream st).pendingSet = (s.stream st).pendingSet ∧
    (t.stream st).current = (s.stream st).current ∧ (t.stream st).holdRecord = (s.stream st).holdRecord

namespace Quiet

theorem refl (s : State) : Quiet s s := ⟨rfl, rfl, rfl, rfl, rfl, id, fun _ => ⟨rfl, rfl, rfl, rfl⟩⟩

variable {s t u : State}

theorem trans (h : Quiet s t) (h' : Quiet t u) : Quiet s u where
  sources := h'.sources.trans h.sources
  handoff := h'.handoff.trans h.handoff
  planner := h'.planner.trans h.planner
  pool := h'.pool.trans h.pool
  ports := h'.ports.trans h.ports
  low := h.low ∘ h'.low
  holds st := by
    obtain ⟨a, b, c, d⟩ := h.holds st
    obtain ⟨a', b', c', d'⟩ := h'.holds st
    exact ⟨a'.trans a, b'.trans b, c'.trans c, d'.trans d⟩

/-- A change of the other fields alone. -/
theorem of_eq (h : t = { s with
    pending := t.pending, free := t.free, resetLow := t.resetLow, initialising := t.initialising, timebase := t.timebase,
    params := t.params, reports := t.reports, cal := t.cal, sync := t.sync, view := t.view, triggers := t.triggers,
    notices := t.notices, links := t.links, selected := t.selected })
    (hl : t.resetLow = true → s.resetLow = true := by exact id) : Quiet s t := by
  rw [h]
  exact ⟨rfl, rfl, rfl, rfl, rfl, hl, fun _ => ⟨rfl, rfl, rfl, rfl⟩⟩

theorem src (h : Quiet s t) (i : Source) : t.src i = s.src i := congrArg (PerSource.get · i) h.sources

theorem port (h : Quiet s t) (i : Source) : t.port i = s.port i := congrArg (PerSource.get · i) h.ports

theorem buffer (h : Quiet s t) (b : BufferId) : t.buffer b = s.buffer b := by rw [State.buffer, h.pool]; rfl

theorem setLink (s : State) (l : Link) (x : LinkState) : Quiet s (s.setLink l x) := .of_eq rfl

theorem setNotice (s : State) (l : Link) (x : Notices) : Quiet s (s.setNotice l x) := .of_eq rfl

theorem raiseOn (s : State) (l : Link) (k : Notice) : Quiet s (raiseOn l k s) := .of_eq rfl

theorem raise (s : State) (k : Notice) : Quiet s (raise k s) := .of_eq rfl

theorem spendFree (s : State) : Quiet s (spendFree s) := .of_eq rfl

theorem setSync (s : State) (i : Source) (l : SyncLine) : Quiet s (s.setSync i l) := .of_eq rfl

theorem setView (s : State) (v : ViewStepper) : Quiet s (s.setView v) := .of_eq rfl

theorem endIgnored (s : State) (l : Link) (out : List Byte) : Quiet s (endIgnored l out s) := .of_eq rfl

theorem ignoreFrame (s : State) (l : Link) (before : ResponseState → List Byte) : Quiet s (ignoreFrame l before s) := by
  unfold Machine.ignoreFrame
  split
  · exact endIgnored s l _
  · exact (spendFree s).trans (endIgnored _ l _)

theorem discardFrame (s : State) (l : Link) (n : Nat) : Quiet s (discardFrame l n s) := .of_eq rfl

theorem discardBytes (s : State) (l : Link) (bytes : List Byte) : Quiet s (discardBytes l bytes s) := by
  unfold Machine.discardBytes
  split
  · split
    · exact endIgnored s l _
    · exact discardFrame s l _
  · split
    · exact ignoreFrame s l _
    · exact .of_eq rfl

theorem receiveFetch (s : State) (l : Link) (n : Nat) : Quiet s (receiveFetch l n s) := by
  unfold Machine.receiveFetch
  split
  · exact ignoreFrame s l _
  · exact setLink s l _

theorem receiveEmpty (s : State) (l : Link) : Quiet s (receiveEmpty l s) := by
  unfold Machine.receiveEmpty
  split
  · exact endIgnored s l _
  · exact refl s

theorem configure (s : State) (st : StreamId) (c : StreamConfig) :
    Quiet s (s.modStream st fun x => { x with config := c }) where
  sources := rfl
  handoff := rfl
  planner := rfl
  pool := rfl
  ports := rfl
  low := id
  holds j := by
    rw [State.modStream_stream]
    split
    · next e => subst e; exact ⟨rfl, rfl, rfl, rfl⟩
    · exact ⟨rfl, rfl, rfl, rfl⟩

theorem endInitialisation (s : State) : Quiet s (endInitialisation s) := by
  unfold Machine.endInitialisation
  split
  · exact .of_eq rfl
  · exact refl s

theorem resetRelease (s : State) : Quiet s (resetRelease s) := by
  unfold Machine.resetRelease
  split
  · exact .of_eq rfl nofun
  · exact refl s

theorem endPulse (s : State) (i : Source) : Quiet s (endPulse i s) := by
  unfold Machine.endPulse
  split
  · exact refl s
  · exact setSync s i _

theorem takeNextPulse (s : State) (i : Source) : Quiet s (takeNextPulse i s) := by
  unfold Machine.takeNextPulse
  split
  · exact refl s
  · exact setSync s i _

theorem takeFollowPulse (s : State) (i : Source) : Quiet s (takeFollowPulse i s) := by
  unfold Machine.takeFollowPulse
  split
  · exact refl s
  · split
    · exact setSync s i _
    · exact refl s

theorem tick (s : State) : Quiet s (tick s) := by
  unfold Machine.tick
  split
  · exact refl s
  · split <;> exact .of_eq rfl

end Quiet

/-! ## The moves -/

/-- What an event does to the sources, the controller, the planner, the pool and the streams, with what its checks have
found. -/
inductive Move (s : State) : State → Prop where
  | same : Move s s
  | reset (o : OpenFrames) : Move s (resetBlocks o false s)
  | frameStart (i : Source) (n w h : Half) : Move s (intakeFrameStart i n w h s)
  | line (i : Source) (n : Half) (data : List Byte) : Move s (intakeLine i n data s)
  | frameEnd (i : Source) (n k : Half) : Move s (intakeFrameEnd i n k s)
  | warm (i : Source) : Move s (expireWarm i s)
  | linger (i : Source) : Move s (expireLinger i s)
  | stop (i : Source) : Move s (expireStop i s)
  | stall (i : Source) : Move s (expireStall i s)
  | dormant (k : Bank) : Move s (goDormant k s)
  | woken (k : Bank) : Move s (completeWake k s)
  | view : Move s (expireViewTimer s)
  | timer (st : StreamId) : Move s (expireStreamTimer st s)
  | emitted (st : StreamId) : Move s (completeEmission st s)
  | edge (line : TriggerLine) : Move s (recordEdge line s)
  | clearFault (i : Source) (h : (s.src i).state = .faulted) : Move s (clearFault i s)
  | enroll (i : Source) (e : Enrolment) (h : (s.src i).state.enrollable = true) (he : e.inRange = true)
      (hb : baseTaken i e.base s = false) : Move s (enrollSource i e s)
  | withdraw (i : Source) (h : (s.src i).state ∈ [.off, .faulted, .held]) : Move s (enterAbsent i s)
  | withdrawStarted (i : Source) (h : (s.src i).state ∈ [.requested, .warming, .standby]) :
    Move s (enterStopping i (markWithdraw i s))
  | withdrawStopping (i : Source) (h : (s.src i).state = .stopping) : Move s (markWithdraw i s)
  | keepWarm (m : SourceSet) : Move s (setKeepWarm m s)
  | zoom (p : Planner) (h : EnrolledOk s → ZoomOk s → ZoomOk (s.setPlanner p)) : Move s (s.setPlanner p)
  | start (st : StreamId) (h : (s.stream st).state.busy = false) : Move s (startStream st s)
  | halt (st : StreamId) : Move s (stopStream st s).settle
  | trigger (st : StreamId) : Move s (triggerStream st s).settle
  | confirmStart (i : Source) (h : (s.src i).state = .requested) : Move s (enterWarming i s)
  | refuseStart (i : Source) (code : Byte) (h : (s.src i).state = .requested) : Move s (refuseStart i code s)
  | confirmStop (i : Source) (h : (s.src i).state = .stopping) : Move s (confirmStop i s)
  | hold (i : Source) (h : (s.src i).state ≠ .absent) : Move s (enterHeld i s)
  | release (i : Source) (h : (s.src i).state = .held) : Move s (enterOff i s)
  | declareFault (i : Source) (h : (s.src i).state ≠ .absent) : Move s (enterFaulted i .moduleFault s)

/-- A move, and changes that nobody sees. -/
def Acts (s t : State) : Prop := ∃ u, Move s u ∧ Quiet u t

theorem Move.acts {s t : State} (h : Move s t) : Acts s t := ⟨t, h, .refl t⟩

theorem Quiet.acts {s t : State} (h : Quiet s t) : Acts s t := ⟨s, .same, h⟩

theorem Acts.refl (s : State) : Acts s s := (Quiet.refl s).acts

theorem Acts.quiet {s t u : State} (h : Acts s t) (h' : Quiet t u) : Acts s u := by
  obtain ⟨v, hv, ht⟩ := h
  exact ⟨v, hv, ht.trans h'⟩

/-! ## Requests -/

/-- The owning block's judgement is a move. -/
def RequestRule.Acts (r : RequestRule) : Prop := ∀ f s, Machine.Acts s (r.judge f s).state

section
variable {s : State}

theorem onSource_acts {n : Nat} {rule : Source → Judged} (h : ∀ i, Acts s (rule i).state) :
    Acts s (onSource n rule s).state := by
  unfold onSource
  split
  · exact h _
  · exact .refl s

theorem onStream_acts {n : Nat} {rule : StreamId → Judged} (h : ∀ st, Acts s (rule st).state) :
    Acts s (onStream n rule s).state := by
  unfold onStream
  split
  · exact h _
  · exact .refl s

/-- The selected source is not in ABSENT when the judgement is asked. -/
theorem onSelected_acts {rule : Source → Judged} (h : ∀ i, (s.src i).state ≠ .absent → Acts s (rule i).state) :
    Acts s (onSelected rule s).state := by
  unfold onSelected
  split
  · exact .refl s
  · exact h _ ‹_›

theorem onDirected_acts {l : Link} {rule : Source → Judged} {f : List Byte} (h : ∀ i, Acts s (rule i).state) :
    Acts s (onDirected l rule f s).state := by
  unfold onDirected
  split
  · split
    · exact onSource_acts h
    · exact .refl s
  · exact onSelected_acts fun i _ => h i

/-- A judgement that accepts under a condition and refuses otherwise. -/
theorem ite_acts {p : Prop} [Decidable p] {x : Status} {t : State} (h : p → Acts s t) {y : Status} :
    Acts s (if p then accept x t else refuse y s).state := by
  split
  · exact h ‹_›
  · exact .refl s

theorem receiveRequest_acts {l : Link} {code : Byte} {rule : Option RequestRule} {f : List Byte}
    (hr : ∀ r, rule = some r → r.Acts) : Acts s (receiveRequest l code rule f s) := by
  unfold receiveRequest
  split
  · exact (Quiet.endIgnored s l _).acts
  · split
    · exact (Quiet.discardFrame s l _).acts
    · refine Acts.quiet ?_ (Quiet.setLink _ l _)
      unfold judgeRequest
      cases rule with
      | none => exact .refl s
      | some r =>
        dsimp only
        split
        · exact .refl s
        · split
          · exact .refl s
          · exact hr r rfl f s

end

theorem setNoticeEnablesRule_acts (l : Link) : (setNoticeEnablesRule l).Acts := by
  intro f s
  change Acts s (judgeSetNoticeEnables l f s).state
  unfold judgeSetNoticeEnables
  split
  · exact .refl s
  · split
    · exact (Quiet.setNotice s l _).acts
    · exact .refl s

theorem takeNoticesRule_acts (l : Link) : (takeNoticesRule l).Acts := by
  intro f s
  change Acts s (judgeTakeNotices l f s).state
  unfold judgeTakeNotices
  split
  · exact .refl s
  · split
    · exact (Quiet.setNotice s l _).acts
    · exact .refl s

theorem readViewRecordsRule_acts (l : Link) : (readViewRecordsRule l).Acts := by
  intro f s
  change Acts s (judgeReadViewRecords l f s).state
  unfold judgeReadViewRecords
  split
  · exact .refl s
  · split
    · exact (Quiet.setView s _).acts
    · exact .refl s

theorem setParameterRule_acts : setParameterRule.Acts := by
  intro f s
  change Acts s (judgeSetParameter f s).state
  unfold judgeSetParameter
  split
  · exact .refl s
  · split
    · split <;> exact .refl s
    · exact .refl s

theorem enrollSourceRule_acts : enrollSourceRule.Acts := by
  intro f s
  change Acts s (judgeEnrollSource f s).state
  unfold judgeEnrollSource
  split
  · exact .refl s
  · refine onSource_acts fun i => ?_
    split
    · exact .refl s
    · next he =>
      split
      · split
        · exact .refl s
        · next hr =>
          split
          · exact .refl s
          · next hb =>
            exact (Move.enroll i _ (by simpa using he) (by simpa using hr) (Bool.eq_false_iff.mpr hb)).acts
      · exact .refl s

theorem judgeWithdraw_acts (i : Source) (s : State) : Acts s (judgeWithdraw i s).state := by
  unfold judgeWithdraw
  split
  · next h => exact (Move.withdraw i (by simp [h])).acts
  · next h => exact (Move.withdraw i (by simp [h])).acts
  · next h => exact (Move.withdraw i (by simp [h])).acts
  · next h => exact (Move.withdrawStarted i (by simp [h])).acts
  · next h => exact (Move.withdrawStarted i (by simp [h])).acts
  · next h => exact (Move.withdrawStarted i (by simp [h])).acts
  · next h => exact (Move.withdrawStopping i h).acts
  · exact .refl s
  · exact .refl s

theorem withdrawSourceRule_acts : withdrawSourceRule.Acts := by
  intro f s
  change Acts s (judgeWithdrawSource f s).state
  unfold judgeWithdrawSource
  split
  · exact .refl s
  · exact onSource_acts fun i => judgeWithdraw_acts i s

theorem setKeepWarmRule_acts : setKeepWarmRule.Acts := by
  intro f s
  change Acts s (judgeSetKeepWarm f s).state
  unfold judgeSetKeepWarm
  split
  · exact .refl s
  · split
    · exact (Move.keepWarm _).acts
    · exact .refl s

/-- A value clamped into an interval of zooms is a zoom. -/
theorem clampTo_within {lo hi c : Nat} (h : within (64, 12800) lo = true) (h' : within (64, 12800) hi = true) :
    within (64, 12800) (clampTo lo hi c) = true := by
  rw [within_iff] at *
  unfold clampTo
  split
  · exact h
  · split
    · exact h'
    · dsimp only at *; omega

theorem EnrolledOk.enr {s : State} (h : EnrolledOk s) {i : Source} (hi : (s.src i).state ≠ .absent) :
    (s.enr i).inRange = true := by
  obtain ⟨e, he, hr⟩ := h i hi
  simpa [State.enr, he] using hr

/-- Table 7: the zooms of an enrolment in range. -/
theorem Enrolment.inRange_zooms {e : Enrolment} (h : e.inRange = true) :
    within (64, 12800) e.base = true ∧ within (64, 12800) e.limit = true := by
  simp only [Enrolment.inRange, Bool.and_eq_true] at h
  tauto

/-- R28: the interval a target is clamped into has zooms for its ends. -/
theorem zoomInterval_within {s : State} (h : EnrolledOk s) :
    within (64, 12800) (zoomInterval s).1 = true ∧ within (64, 12800) (zoomInterval s).2 = true := by
  have enrolled_zooms : ∀ i ∈ enrolled s, within (64, 12800) (s.enr i).base = true ∧ within (64, 12800) (s.enr i).limit = true := by
    intro i hi
    have := (List.mem_filter.mp hi).2
    exact Enrolment.inRange_zooms (h.enr (by simpa using this))
  have folds (f : Nat → Nat → Nat) (hf : ∀ a b, f a b = a ∨ f a b = b) (g : Source → Nat) (l : List Source) (x : Nat)
      (hx : within (64, 12800) x = true) (hl : ∀ i ∈ l, within (64, 12800) (g i) = true) :
      within (64, 12800) (l.foldl (fun m j => f m (g j)) x) = true := by
    induction l generalizing x with
    | nil => exact hx
    | cons a l ih =>
      refine ih _ ?_ fun i hi => hl i (List.mem_cons_of_mem _ hi)
      change within (64, 12800) (f x (g a)) = true
      rcases hf x (g a) with e | e <;> rw [e]
      · exact hx
      · exact hl a List.mem_cons_self
  unfold zoomInterval
  split
  · decide
  · next i rest e =>
    rw [e] at enrolled_zooms
    obtain ⟨hb, hl⟩ := enrolled_zooms i List.mem_cons_self
    have hrest := fun j hj => enrolled_zooms j (List.mem_cons_of_mem i hj)
    exact ⟨folds min (fun a b => by omega) _ rest _ hb fun j hj => (hrest j hj).1,
      folds max (fun a b => by omega) _ rest _ hl fun j hj => (hrest j hj).2⟩

/-- R28: a posted target, once clamped, is a zoom. -/
theorem clampTarget_within {s : State} (h : EnrolledOk s) (target : Nat) :
    within (64, 12800) (clampTarget s target) = true :=
  clampTo_within (zoomInterval_within h).1 (zoomInterval_within h).2

theorem judgeZoom_acts (target steps : Nat) (tag : Byte) (rep : Bool) (s : State) :
    Acts s (judgeZoom target steps tag rep s).state := by
  unfold judgeZoom
  dsimp only
  split
  · have replaced : Acts s (s.setPlanner { s.planner with
        queue := [{ target := clampTarget s target, steps := steps, tag := tag, replace := rep }], ramp := none }) := by
      refine Move.acts (Move.zoom _ fun he hz => ⟨hz.1, fun z hm => ?_, fun r hr => ?_⟩)
      · cases List.mem_singleton.mp hm
        exact clampTarget_within he target
      · cases hr
    change Acts s (replaceZoom _ s)
    unfold replaceZoom
    dsimp only
    split
    · exact replaced.quiet (.raise _ _)
    · exact replaced
  · split
    · refine Move.acts (Move.zoom _ fun he hz => ⟨hz.1, fun z hm => ?_, hz.2.2⟩)
      rcases List.mem_append.mp hm with hm | hm
      · exact hz.2.1 z hm
      · cases List.mem_singleton.mp hm
        exact clampTarget_within he target
    · exact .refl s

theorem postZoomRule_acts : postZoomRule.Acts := by
  intro f s
  change Acts s (judgePostZoom f s).state
  unfold judgePostZoom
  split
  · exact .refl s
  · split
    · split
      · exact .refl s
      · exact judgeZoom_acts _ _ _ _ s
    · exact .refl s

theorem flushZoomRule_acts : flushZoomRule.Acts := by
  intro f s
  refine Move.acts (.zoom _ fun _ hz => ⟨hz.1, fun z hm => ?_, fun r hr => ?_⟩)
  · cases hm
  · cases hr

theorem putCalPointRule_acts : putCalPointRule.Acts := by
  intro f s
  change Acts s (judgePutCalPoint f s).state
  unfold judgePutCalPoint
  split
  · exact .refl s
  · refine onSource_acts fun i => ?_
    dsimp only
    split
    · exact .refl s
    · exact ite_acts fun _ => (Quiet.of_eq rfl).acts

theorem dropCalPointRule_acts : dropCalPointRule.Acts := by
  intro f s
  change Acts s (judgeDropCalPoint f s).state
  unfold judgeDropCalPoint
  split
  · exact .refl s
  · refine onSource_acts fun i => ?_
    dsimp only
    split
    · exact .refl s
    · exact ite_acts fun _ => (Quiet.of_eq rfl).acts

theorem clearCalRule_acts : clearCalRule.Acts := by
  intro f s
  change Acts s (judgeClearCal f s).state
  unfold judgeClearCal
  split
  · exact .refl s
  · exact onSource_acts fun i => (Quiet.of_eq rfl).acts

theorem readCalRule_acts : readCalRule.Acts := by
  intro f s
  change Acts s (judgeReadCal f s).state
  unfold judgeReadCal
  split
  · exact .refl s
  · exact onSource_acts fun i => .refl s

theorem configureStreamRule_acts : configureStreamRule.Acts := by
  intro f s
  change Acts s (judgeConfigureStream f s).state
  unfold judgeConfigureStream
  split
  · exact .refl s
  · refine onStream_acts fun st => ?_
    unfold judgeConfigure
    split
    · exact .refl s
    · split
      · exact .refl s
      · split
        · exact .refl s
        · split
          · exact .refl s
          · exact (Quiet.configure s st _).acts

theorem startStreamRule_acts : startStreamRule.Acts := by
  intro f s
  change Acts s (judgeStartStream f s).state
  unfold judgeStartStream
  split
  · exact .refl s
  · refine onStream_acts fun st => ?_
    split
    · exact .refl s
    · next h => exact (Move.start st (Bool.eq_false_iff.mpr h)).acts

theorem stopStreamRule_acts : stopStreamRule.Acts := by
  intro f s
  change Acts s (judgeStopStream f s).state
  unfold judgeStopStream
  split
  · exact .refl s
  · exact onStream_acts fun st => (Move.halt st).acts

theorem triggerStreamRule_acts : triggerStreamRule.Acts := by
  intro f s
  change Acts s (judgeTriggerStream f s).state
  unfold judgeTriggerStream
  split
  · exact .refl s
  · exact onStream_acts fun st => ite_acts fun _ => (Move.trigger st).acts

theorem setTriggerEdgeRule_acts : setTriggerEdgeRule.Acts := by
  intro f s
  change Acts s (judgeSetTriggerEdge f s).state
  unfold judgeSetTriggerEdge
  split
  · exact .refl s
  · split <;> exact .refl s

theorem selectSourceRule_acts : selectSourceRule.Acts := by
  intro f s
  change Acts s (judgeSelectSource f s).state
  unfold judgeSelectSource
  split
  · exact .refl s
  · exact onSource_acts fun i => (Quiet.of_eq rfl).acts

theorem refuseStartRule_acts : refuseStartRule.Acts := by
  intro f s
  change Acts s (judgeRefuseStart f s).state
  unfold judgeRefuseStart
  split
  · exact .refl s
  · exact onSelected_acts fun i _ => ite_acts fun h => (Move.refuseStart i _ h).acts

theorem confirmStopRule_acts : confirmStopRule.Acts := by
  intro f s
  refine onSelected_acts fun i _ => ?_
  split
  · next h => exact (Move.confirmStop i h).acts
  all_goals exact .refl s

theorem holdRule_acts : holdRule.Acts := by
  intro f s
  refine onSelected_acts fun i h => ?_
  split
  · exact .refl s
  · exact (Move.hold i h).acts

theorem declareFaultRule_acts : declareFaultRule.Acts := by
  intro f s
  refine onSelected_acts fun i h => ?_
  split
  · exact .refl s
  · exact (Move.declareFault i h).acts

theorem postReportRule_acts : postReportRule.Acts := by
  intro f s
  change Acts s (judgePostReport f s).state
  unfold judgePostReport
  split
  · exact .refl s
  · refine onSelected_acts fun i _ => ?_
    unfold judgeReport
    split
    · exact .refl s
    · split
      · exact .refl s
      · split
        · exact .refl s
        · exact (Quiet.of_eq rfl).acts

/-- Every request of known code is judged with a move. -/
theorem ruleFor_acts {l : Link} {code : Byte} {r : RequestRule} (h : ruleFor l code = some r) : r.Acts := by
  unfold ruleFor at h
  split at h <;> cases h
  · exact fun _ s => .refl s
  · exact setNoticeEnablesRule_acts _
  · exact takeNoticesRule_acts _
  · exact readViewRecordsRule_acts _
  · exact fun _ s => onDirected_acts fun _ => (Quiet.spendFree s).acts
  · exact fun _ s => onDirected_acts fun i => ite_acts fun h => (Move.clearFault i h).acts
  · exact fun _ s => (Quiet.spendFree s).acts
  · exact fun _ s => .refl s
  · exact setParameterRule_acts
  · exact enrollSourceRule_acts
  · exact withdrawSourceRule_acts
  · exact setKeepWarmRule_acts
  · exact postZoomRule_acts
  · exact flushZoomRule_acts
  · exact putCalPointRule_acts
  · exact dropCalPointRule_acts
  · exact clearCalRule_acts
  · exact readCalRule_acts
  · exact configureStreamRule_acts
  · exact startStreamRule_acts
  · exact stopStreamRule_acts
  · exact triggerStreamRule_acts
  · exact setTriggerEdgeRule_acts
  · exact selectSourceRule_acts
  · exact fun _ s => (Quiet.of_eq rfl).acts
  · exact fun _ s => onSelected_acts fun i _ => ite_acts fun h => (Move.confirmStart i h).acts
  · exact refuseStartRule_acts
  · exact confirmStopRule_acts
  · exact holdRule_acts
  · exact fun _ s => onSelected_acts fun i _ => ite_acts fun h => (Move.release i h).acts
  · exact declareFaultRule_acts
  · exact postReportRule_acts

theorem request_acts (l : Link) (code : Byte) (f : List Byte) (s : State) :
    Acts s (receiveRequest l code (ruleFor l code) f s) := receiveRequest_acts fun _ => ruleFor_acts

theorem receiveFrame_acts (l : Link) (bytes : List Byte) (s : State) : Acts s (receiveFrame l bytes s) := by
  unfold receiveFrame
  split
  · exact (Quiet.receiveEmpty s l).acts
  · exact (Quiet.receiveFetch s l _).acts
  · exact (Quiet.discardBytes s l _).acts
  · exact request_acts l _ _ s

/-! ## Events -/

theorem makeReady_acts (l : Link) (o : OpenFrames) (s : State) : Acts s (makeReady l o s) := by
  unfold makeReady
  split
  · unfold applyDeferred
    dsimp only
    split
    · exact (Quiet.of_eq rfl).acts
    · exact (Quiet.of_eq rfl).acts
    · exact (Quiet.of_eq rfl).acts
    · exact (Move.reset o).acts
  · exact .refl s
  · exact .refl s

theorem execInvalidPacket_acts {port : Source} {bytes : List Byte} {s t : State}
    (e : execInvalidPacket port bytes s = .next t) : Acts s t := by
  unfold execInvalidPacket at e
  split at e <;> cases e
  · exact (Move.frameStart _ _ _ _).acts
  · exact (Move.line _ _ _).acts
  · exact (Move.frameEnd _ _ _).acts
  · exact .refl s

/-- A request of known code is one move. -/
theorem named_acts {c : Instr} {l : Link} {code : Byte} {f : List Byte} {s t : State} (e : exec c s = .next t)
    (hp : requestParts c = some (l, code, f)) (hc : code ≠ 0) (hh : code.toNat < 0x80) : Acts s t := by
  rw [exec_request hp hc hh] at e
  cases e
  exact request_acts l code f s

/-- Each command but RESET_N_LOW is one move. -/
theorem exec_acts {c : Instr} {s t : State} (hc : ∀ o, c ≠ .resetNLow o) (e : exec c s = .next t) : Acts s t := by
  cases c
  case resetNLow o => exact absurd rfl (hc o)
  case invalidPacket => exact execInvalidPacket_acts e
  case fetchFrame l n =>
    cases e
    split
    · exact (Quiet.receiveEmpty s l).acts
    · exact (Quiet.receiveFetch s l n).acts
  case discardedFrame l bytes => cases e; exact receiveFrame_acts l bytes s
  case unknownRequest l code f =>
    cases e
    split
    · exact (Quiet.receiveFetch s l _).acts
    · split
      · exact receiveFrame_acts l _ s
      · exact request_acts l code f s
  case triggerEdge line p =>
    cases e
    split
    · exact (Move.edge line).acts
    · exact .refl s
  case responseReady l o => cases e; exact makeReady_acts l o s
  case resetNRelease => cases e; exact (Quiet.resetRelease s).acts
  case endOfInitialisation => cases e; exact (Quiet.endInitialisation s).acts
  case frameStart i n w h => cases e; exact (Move.frameStart i n w h).acts
  case line i n data => cases e; exact (Move.line i n data).acts
  case frameEnd i n k => cases e; exact (Move.frameEnd i n k).acts
  case warmDeadlineExpiry i => cases e; exact (Move.warm i).acts
  case lingerDeadlineExpiry i => cases e; exact (Move.linger i).acts
  case stopDeadlineExpiry i => cases e; exact (Move.stop i).acts
  case stallDeadlineExpiry i => cases e; exact (Move.stall i).acts
  case dormancyDeadlineExpiry k => cases e; exact (Move.dormant k).acts
  case wakeCompletion k => cases e; exact (Move.woken k).acts
  case viewTimerExpiry => cases e; exact Move.view.acts
  case syncPulseEnd i => cases e; exact (Quiet.endPulse s i).acts
  case nextSyncPulse i => cases e; exact (Quiet.takeNextPulse s i).acts
  case followListPulse i => cases e; exact (Quiet.takeFollowPulse s i).acts
  case streamTimerExpiry st => cases e; exact (Move.timer st).acts
  case emissionCompletion st => cases e; exact (Move.emitted st).acts
  all_goals exact named_acts e rfl (by decide) (by decide)

/-- Each step is one move, on the state with the rest of the queue, or RESET_N goes low. -/
theorem step_acts {s t : State} (e : step s = .next t) :
    ∃ q, Acts { s with pending := q } t ∨ ∃ o, s.pending = .resetNLow o :: q ∧ t = resetLow o { s with pending := q } := by
  unfold step at e
  split at e
  · cases e
    exact ⟨s.pending, .inl (Quiet.tick s).acts⟩
  · next c rest h =>
    refine ⟨rest, ?_⟩
    by_cases hc : ∃ o, c = .resetNLow o
    · obtain ⟨o, rfl⟩ := hc
      cases e
      exact .inr ⟨o, h, rfl⟩
    · exact .inl (exec_acts (fun o ho => hc ⟨o, ho⟩) e)

end Sys2Proof.Machine
end

section
/-! The machine's step and the link's part of a frame (R135, R162 to R166, R175, R176). -/

namespace Sys2Proof.Machine

open Sys2Proof

/-! ## The queue -/

/-- Settles O1: the step takes the front command by definition. -/
theorem stepRunsTheFrontCommand : Obligations.StepRunsTheFrontCommand := fun _ _ _ => rfl

theorem step_of_empty {s : State} (h : s.pending = []) : step s = .next (tick s) := by
  unfold step
  rw [h]

theorem tick_of_low {s : State} (h : s.resetLow = true) : tick s = s := if_pos h

theorem tick_of_none {s : State} (h : s.resetLow = false) (hd : dueEvents s = []) :
    tick s = { s with timebase := s.timebase + 1 } := by simp [tick, h, hd]

theorem tick_of_due {s : State} (h : s.resetLow = false) (hd : dueEvents s ≠ []) :
    tick s = { s with pending := dueEvents s } := by
  unfold tick
  rw [if_neg (by simp [h])]
  split
  · contradiction
  · rfl

theorem mem_flatMap_sources {f : Source → List Instr} {c : Instr} : c ∈ Source.all.flatMap f ↔ ∃ i, c ∈ f i := by
  refine List.mem_flatMap.trans ⟨fun ⟨i, _, h⟩ => ⟨i, h⟩, fun ⟨i, h⟩ => ⟨i, ?_, h⟩⟩
  cases i <;> decide

theorem mem_flatMap_banks {f : Bank → List Instr} {c : Instr} : c ∈ Bank.all.flatMap f ↔ ∃ k, c ∈ f k := by
  refine List.mem_flatMap.trans ⟨fun ⟨k, _, h⟩ => ⟨k, h⟩, fun ⟨k, h⟩ => ⟨k, ?_, h⟩⟩
  cases k <;> decide

theorem mem_flatMap_streams {f : StreamId → List Instr} {c : Instr} : c ∈ StreamId.all.flatMap f ↔ ∃ st, c ∈ f st := by
  refine List.mem_flatMap.trans ⟨fun ⟨st, _, h⟩ => ⟨st, h⟩, fun ⟨st, h⟩ => ⟨st, ?_, h⟩⟩
  cases st <;> decide

/-- The bound of a link's readiness is its deadline in Table 48. -/
theorem deadlineOf_responseReady (s : State) (l : Link) :
    deadlineOf s (.responseReady l ⟨false, false⟩) = (s.link l).response.readyBy := by
  simp only [deadlineOf]
  cases (s.link l).response <;> rfl

/-- What is due: the commands of the deadlines reached, block by block. -/
theorem mem_dueEvents {s : State} {c : Instr} :
    c ∈ dueEvents s ↔ (∃ i, c ∈ sourceDue s i) ∨ (∃ k, c ∈ bankDue s k) ∨ c ∈ dueIf s.timebase s.view.timer .viewTimerExpiry ∨
      (∃ i, c ∈ syncDue s i) ∨ (∃ st, c ∈ streamDue s st) ∨ c ∈ initialisationDue s ∨ ∃ l, c ∈ linkDue s l := by
  have links : (∃ l, c ∈ linkDue s l) ↔ c ∈ linkDue s .al ∨ c ∈ linkDue s .ml :=
    ⟨fun ⟨l, h⟩ => by cases l <;> simp [h], fun h => h.elim (fun h => ⟨.al, h⟩) fun h => ⟨.ml, h⟩⟩
  simp only [dueEvents, List.mem_append, mem_flatMap_sources, mem_flatMap_banks, mem_flatMap_streams, links, or_assoc]

/-- A command is due exactly when it is an expiry whose deadline is reached. -/
theorem mem_dueEvents_iff {s : State} {c : Instr} :
    c ∈ dueEvents s ↔ ∃ d, deadlineOf s c = some d ∧ reached s.timebase d = true := by
  rw [mem_dueEvents]
  simp only [sourceDue, bankDue, syncDue, streamDue, initialisationDue, linkDue, List.mem_append, mem_dueIf]
  cases c
  case responseReady l o =>
    obtain ⟨al, ml⟩ := o
    rcases al <;> rcases ml
    · simp [deadlineOf_responseReady]
    all_goals simp [deadlineOf]
  all_goals simp [deadlineOf]

/-- Settles O2, by the three cases of a tick and what is due block by block. -/
theorem emptyQueueTicks : Obligations.EmptyQueueTicks := by
  refine ⟨fun s h => ?_, fun s c => mem_dueEvents_iff⟩
  rw [step_of_empty h]
  exact ⟨fun hl => by rw [tick_of_low hl], fun hl hd => by rw [tick_of_due hl hd], fun hl hd => by rw [tick_of_none hl hd]⟩

/-! ## The checks against the link -/

theorem unknownOn_iff {l : Link} {code : Byte} :
    unknownOn l code = true ↔ 1 ≤ code.toNat ∧ code.toNat ≤ 0x7F ∧ ruleFor l code = none := by
  simp only [unknownOn, Bool.and_eq_true, decide_eq_true_eq, ← ruleFor_isNone, Option.isNone_iff_eq_none, and_assoc]

theorem ne_zero_of_toNat_pos {b : Byte} (h : 1 ≤ b.toNat) : b ≠ 0 := by
  rintro rfl
  exact absurd h (by decide)

/-- A request command with a field-length list has the rule of its code, which takes the lengths of the list. -/
theorem ruleFor_takesLength {i : Instr} {l : Link} {code : Byte} {f : List Byte} {b : Bool}
    (hp : requestParts i = some (l, code, f)) (ht : takesLength i f.length = some b) :
    code ≠ 0 ∧ code.toNat < 0x80 ∧ ∃ r, ruleFor l code = some r ∧ r.lengthOk f.length = b ∧ (code ≠ 0x01 → r.early = false) := by
  cases i
  case readIdentity => cases hp; cases ht; exact ⟨by decide, by decide, _, rfl, rfl, fun h => absurd rfl h⟩
  case unknownRequest => cases ht
  case readSourceStatus l' f' =>
    cases hp
    cases l <;> (cases ht; exact ⟨by decide, by decide, _, rfl, rfl, fun _ => rfl⟩)
  case clearFault l' f' =>
    cases hp
    cases l <;> (cases ht; exact ⟨by decide, by decide, _, rfl, rfl, fun _ => rfl⟩)
  all_goals cases hp
  all_goals cases ht
  all_goals exact ⟨by decide, by decide, _, rfl, rfl, fun _ => rfl⟩

/-- Settles O11: each check is one of `receiveRequest_checks`, with the rule of the code. -/
theorem linkChecksInOrder : Obligations.LinkChecksInOrder := by
  refine ⟨fun l code f s ho hu hf => ?_, fun i l code f s hp hf ho => ⟨fun ht => ?_, fun ht hc hi => ?_⟩⟩
  · obtain ⟨h1, h2, hr⟩ := unknownOn_iff.mp hu
    rw [exec_request rfl (ne_zero_of_toNat_pos h1) (by omega), hr]
    exact congrArg _ (receiveRequest_checks ho hf).1
  · obtain ⟨hc, hh, r, hr, hl, _⟩ := ruleFor_takesLength hp ht
    rw [exec_request hp hc hh, hr]
    exact congrArg _ ((receiveRequest_checks ho hf).2.1 r hl)
  · obtain ⟨hz, hh, r, hr, hl, he⟩ := ruleFor_takesLength hp ht
    rw [exec_request hp hz hh, hr]
    exact congrArg _ ((receiveRequest_checks ho hf).2.2 r hl (he hc) hi)

/-! ## Discarded frames -/

/-- A well-formed request has a request code and at most 60 field bytes. -/
theorem wellFormed_request {i : Instr} {l : Link} {code : Byte} {f : List Byte} (hp : requestParts i = some (l, code, f))
    (hw : WellFormed i = true) : code ≠ 0 ∧ code.toNat < 0x80 ∧ f.length ≤ 60 := by
  cases i
  case unknownRequest =>
    cases hp
    obtain ⟨hu, hf⟩ := (Bool.and_eq_true _ _).mp hw
    obtain ⟨h1, h2, _⟩ := unknownOn_iff.mp hu
    exact ⟨ne_zero_of_toNat_pos h1, by omega, of_decide_eq_true hf⟩
  all_goals cases hp
  all_goals exact ⟨by decide, by decide, of_decide_eq_true hw⟩

theorem exec_discarded {l : Link} {b : Byte} {rest : List Byte} {s : State}
    (h : WellFormed (.discardedFrame l (b :: rest)) = true) :
    exec (.discardedFrame l (b :: rest)) s = .next (discardBytes l (b :: rest) s) := by
  have kind : classifyFrame (b :: rest) = .discard := by simpa [WellFormed, discardedBytes] using h
  change Host.Outcome.next (receiveFrame l (b :: rest) s) = _
  rw [receiveFrame, kind]

theorem frameIgnored_iff {l : Link} {s : State} :
    frameIgnored l s = true ↔ s.resetLow = true ∨ (s.link l).abandoned ≠ none := by
  simp [frameIgnored, Option.isSome_iff_ne_none]

/-- Settles O12, by the first byte of a discarded frame, and for a request by its link's being PENDING. -/
theorem discardedFramesRaiseLinkError : Obligations.DiscardedFramesRaiseLinkError := by
  intro l s hr ha
  have taken : frameIgnored l s = false := by simp [frameIgnored, hr, ha]
  refine ⟨fun b rest hw => ?_, fun i code f hp hw hpend => ?_⟩
  · rw [exec_discarded hw]
    refine ⟨fun hb => ?_, fun hb => ?_⟩
    · simp only [discardBytes, List.headD_cons, hb, if_true, taken, Bool.false_eq_true, if_false]
      rfl
    · simp only [discardBytes, List.headD_cons, Nat.not_lt.mpr hb, if_false, taken, Bool.false_eq_true]
      rfl
  · obtain ⟨hz, hh, _⟩ := wellFormed_request hp hw
    rw [exec_request hp hz hh, receiveRequest_pending hr ha hpend]
    rfl

/-! ## Ignored frames -/

/-- The end of an ignored frame that no reset found in progress shifts out 0x00. -/
theorem ignoreFrame_of_none {l : Link} {before : ResponseState → List Byte} {s : State} (h : (s.link l).abandoned = none) :
    ignoreFrame l before s = endIgnored l (zeros (before .none).length) s := by
  rw [ignoreFrame, h]

/-- The end of an ignored frame that a reset found in progress: some first bytes are those without the reset, and with RESET_N
low since then the rest is 0x00. -/
theorem ignoreFrame_of_some {l : Link} {before : ResponseState → List Byte} {s : State} {a : AbandonedFrame}
    (h : (s.link l).abandoned = some a) :
    ∃ out, ignoreFrame l before s = endIgnored l out (spendFree s) ∧ out.length = (before a.met).length ∧
      ∃ k, 1 ≤ k ∧ out.take k = (before a.met).take k ∧ (a.low = true → s.resetLow = true → ∀ x ∈ out.drop k, x = 0) := by
  obtain ⟨hlen, htake, hzero⟩ := a.shiftedOut_spec s.resetLow (Config.freeCount s.free) (before := before a.met)
    (free := freeBytes (Config.freeByte s.free) 0 (before a.met).length) (by simp [freeBytes])
  exact ⟨_, by rw [ignoreFrame, h], hlen, _, Nat.le_add_left 1 _, htake, hzero⟩

theorem exec_fetchFrame {l : Link} {n : Nat} {s : State} (h : 1 ≤ n) :
    exec (.fetchFrame l n) s = .next (receiveFetch l n s) := congrArg Host.Outcome.next (if_neg (by omega))

theorem receiveFetch_ignored {l : Link} {n : Nat} {s : State} (h : frameIgnored l s = true) :
    receiveFetch l n s = ignoreFrame l (fun r => fetchShifted r n) s := if_pos h

theorem discardBytes_ignored_request {l : Link} {b : Byte} {rest : List Byte} {s : State} (h : frameIgnored l s = true)
    (hb : b.toNat < 0x80) : discardBytes l (b :: rest) s = endIgnored l (zeros (rest.length + 1)) s := by
  simp [discardBytes, h, hb]

theorem discardBytes_ignored_other {l : Link} {b : Byte} {rest : List Byte} {s : State} (h : frameIgnored l s = true)
    (hb : 0x80 ≤ b.toNat) :
    discardBytes l (b :: rest) s =
      ignoreFrame l (fun _ => freeBytes (Config.freeByte s.free) 0 (rest.length + 1)) s := by
  simp [discardBytes, h, Nat.not_lt.mpr hb]

/-- Settles O13, by the kind of frame and by whether a reset found it in progress. -/
theorem framesIgnoredInReset : Obligations.FramesIgnoredInReset := by
  intro l s hi
  have ignored := frameIgnored_iff.mpr hi
  refine ⟨fun i code f hp hw => ?_, fun b rest hw hb => ?_, fun ha => ⟨fun n hn => ?_, fun b rest hw => ?_⟩,
    fun a ha => ⟨fun n hn => ?_, fun b rest hw hb => ?_⟩, ?_⟩
  · obtain ⟨hz, hh, _⟩ := wellFormed_request hp hw
    rw [exec_request hp hz hh, receiveRequest_ignored hi]
    rfl
  · rw [exec_discarded hw, discardBytes_ignored_request ignored hb]
    rfl
  · rw [exec_fetchFrame hn, receiveFetch_ignored ignored, ignoreFrame_of_none ha, fetchShifted_length]
    rfl
  · rw [exec_discarded hw]
    rcases Nat.lt_or_ge b.toNat 0x80 with hb | hb
    · rw [discardBytes_ignored_request ignored hb]
      rfl
    · rw [discardBytes_ignored_other ignored hb, ignoreFrame_of_none ha, freeBytes, List.length_map, List.length_range]
      rfl
  · rw [exec_fetchFrame hn, receiveFetch_ignored ignored]
    obtain ⟨out, he, hl, hk⟩ := ignoreFrame_of_some (before := fun r => fetchShifted r n) ha
    exact ⟨out, congrArg _ he, hl.trans (fetchShifted_length _ n), hk⟩
  · rw [exec_discarded hw, discardBytes_ignored_other ignored hb]
    obtain ⟨out, he, hl, k, hk, _, hz⟩ := ignoreFrame_of_some
      (before := fun _ => freeBytes (Config.freeByte s.free) 0 (rest.length + 1)) ha
    exact ⟨out, congrArg _ he, by simpa [freeBytes] using hl, k, hk, hz⟩
  · change Host.Outcome.next (receiveEmpty l s) = _
    unfold receiveEmpty
    cases (s.link l).abandoned <;> rfl

end Sys2Proof.Machine
end

section
/-! Fetch frames, readiness and the resets (R163, R175, R176). -/

namespace Sys2Proof.Machine

open Sys2Proof

/-! ## Fetch frames and readiness -/

theorem exec_fetchFrame_zero {l : Link} {s : State} (h : (s.link l).abandoned = none) :
    exec (.fetchFrame l 0) s = .next s := by
  change Host.Outcome.next (receiveEmpty l s) = _
  simp [receiveEmpty, h]

theorem receiveFetch_taken {l : Link} {n : Nat} {s : State} (hr : s.resetLow = false) (ha : (s.link l).abandoned = none) :
    receiveFetch l n s = s.setLink l { s.link l with shifted := fetchShifted (s.link l).response n } := by
  simp [receiveFetch, frameIgnored, hr, ha]

theorem exec_responseReady (l : Link) (o : OpenFrames) (s : State) :
    exec (.responseReady l o) s = .next (makeReady l o s) := rfl

theorem makeReady_pending {l : Link} {o : OpenFrames} {s : State} {r : Response} {t : Time} {d : Deferred}
    (h : (s.link l).response = .pending r t d) : makeReady l o s = applyDeferred l r o d s := by
  rw [makeReady, h]

theorem makeReady_not_pending {l : Link} {o : OpenFrames} {s : State} (h : (s.link l).response.isPending = false) :
    makeReady l o s = s := by
  unfold makeReady
  split
  · next e => rw [e] at h; cases h
  all_goals rfl

/-- Settles O14, by the response state a fetch frame finds and by the effect that waited. -/
theorem fetchAndReadiness : Obligations.FetchAndReadiness := by
  refine ⟨fun l n s hr ha => ?_, fun l o s => ⟨fun r t h => ?_, fun r t p v h => ?_, fun r t line e h => ?_, fun r t h => ?_,
    fun h => ?_⟩⟩
  · rcases Nat.eq_zero_or_pos n with rfl | hn
    · exact exec_fetchFrame_zero ha
    · rw [exec_fetchFrame hn, receiveFetch_taken hr ha, if_neg (by omega)]
      cases (s.link l).response <;> rfl
  · rw [exec_responseReady, makeReady_pending h]
    rfl
  · rw [exec_responseReady, makeReady_pending h]
    rfl
  · rw [exec_responseReady, makeReady_pending h]
    rfl
  · rw [exec_responseReady, makeReady_pending h]
    rfl
  · rw [exec_responseReady, makeReady_not_pending h]

/-! ## RESET_N -/

/-- What RESET_N is, through everything that is no reset. -/
theorem closed_resetLow (low : Bool) : PartClosed (fun t : State => t.resetLow = low) where
  sources _ _ h := h
  raised _ _ h := h
  pool _ h := h
  flush _ h := h
  port _ _ h := h
  sync _ _ h := h
  handoff _ h := h
  timer _ h := h
  free _ h := h
  stream _ _ _ h := h
  dropOldest _ _ _ h := h
  push _ _ h _ _ := h
  ramp h := h
  wantSets _ _ h := h
  matched _ _ _ h := h
  completed _ _ _ h := h
  follow _ _ _ h := h

/-- No move makes RESET_N low. -/
theorem Move.resetLow {s t : State} (m : Move s t) (h : s.resetLow = false) : t.resetLow = false := by
  have c := closed_resetLow false
  cases m
  case same => exact h
  case reset => rfl
  case frameStart => exact c.intakeFrameStart _ _ _ _ h
  case line => exact c.intakeLine _ _ _ h
  case frameEnd => exact c.intakeFrameEnd _ _ _ h
  case warm => exact c.expireWarm _ h
  case linger => exact c.expireLinger _ h
  case stop => exact c.expireStop _ h
  case stall => exact c.expireStall _ h
  case dormant => exact c.goDormant _ h
  case woken => exact c.completeWake _ h
  case view => exact c.expireViewTimer h
  case timer => exact c.expireStreamTimer _ h
  case emitted => exact c.completeEmission _ h
  case edge => exact c.settle (c.offerBoth _ (c.raise _ h))
  case clearFault => exact c.enterOff _ (c.modSrc _ _ h)
  case enroll => exact c.enterOff _ h
  case withdraw => exact c.enterAbsent _ h
  case withdrawStarted => exact c.enterStopping _ (c.modSrc _ _ h)
  case withdrawStopping => exact h
  case keepWarm => exact c.setKeepWarm _ h
  case zoom => exact h
  case start => exact c.startStream _ h
  case halt => exact c.settle (c.stopStream _ h)
  case trigger => exact c.settle (c.triggerStream _ h)
  case confirmStart => exact h
  case refuseStart => exact c.enterFaulted _ _ (c.modSrc _ _ h)
  case confirmStop => exact c.enterOff _ (c.raiseSrc _ _ (c.modSrc _ _ h))
  case hold => exact c.enterHeld _ h
  case release => exact c.enterOff _ h
  case declareFault => exact c.enterFaulted _ _ h

/-- RESET_N goes low by RESET_N_LOW only. -/
theorem step_resetLow {s t : State} (e : step s = .next t) (h : s.resetLow = false) (ht : t.resetLow = true) :
    ∃ o u, t = Machine.resetLow o u := by
  obtain ⟨q, ⟨u, hm, hq⟩ | ⟨o, _, ho⟩⟩ := step_acts e
  · exact absurd (hq.low ht) (by rw [hm.resetLow (by exact h)]; decide)
  · exact ⟨o, _, ho⟩

theorem head_ne_resetNRelease {s : State} {c : Instr} {rest : List Instr} (hp : s.pending = c :: rest)
    (h : s.pending.head? ≠ some .resetNRelease) : c ≠ .resetNRelease := by
  rintro rfl
  exact h (by rw [hp]; rfl)

/-- The part is held in reset through every step but a release. -/
theorem HeldInReset.step_of_head {s t : State} (h : HeldInReset s) (e : Machine.step s = .next t)
    (hh : s.pending.head? ≠ some .resetNRelease) : HeldInReset t := by
  unfold Machine.step at e
  split at e
  · cases e
    rw [h.tick]
    exact h
  · next c rest hp => exact (h.setPending rest).exec (head_ne_resetNRelease hp hh) e

theorem endInitialisation_due {s : State} (hl : s.resetLow = false) (hi : s.initialising = true) (ht : s.timebase = 2000) :
    endInitialisation s =
      (raise (.part .partReady) { s with initialising := false }).setView
        { s.view with timer := some (timeAfter s.timebase s.params.viewTimerPeriod) } := by
  have : reached s.timebase initialisationEnd = true := by rw [ht]; decide
  simp [endInitialisation, hl, hi, this]

/-- Settles O15: the resets by their definition, and the hold in reset by what a step can do. -/
theorem resetsAndInitialisation : Obligations.ResetsAndInitialisation := by
  refine ⟨fun o s => ⟨rfl, fun h => ?_, fun h => ?_⟩, fun s hl hi ht => ?_, fun o s t e => ?_, fun s t h e hh => h.step_of_head e hh,
    fun s t h e ht => ?_, fun s h => ⟨?_, h.syncLine, h.inFlight, fun i => ?_⟩⟩
  · exact congrArg Host.Outcome.next (if_pos h)
  · exact congrArg Host.Outcome.next (if_neg (by simp [h]))
  · refine ⟨_, congrArg Host.Outcome.next (endInitialisation_due hl hi ht), rfl, fun l => ?_, ?_, ?_⟩
    · exact raise_notice _ _ _
    · simp [timeAfter, ht]
    · rw [← hi]; rfl
  · cases e
    exact resetLow_heldInReset o s
  · cases hs : s.resetLow with
    | true => exact (h hs).step e ht
    | false =>
      obtain ⟨o, u, rfl⟩ := step_resetLow e hs ht
      exact resetLow_heldInReset o u
  · rw [h.1]; rfl
  · rw [h.src i]; rfl

end Sys2Proof.Machine
end

section
/-! Frames and packets read back (Tables 62, 64 and 69), and the requests that answer with the state or let an effect wait
(R26, R94, R143, R151, R167 to R170, R176, R177). -/

namespace Sys2Proof.Machine

open Sys2Proof

/-! ## Round trips -/

theorem half_halfBytes (w : Half) : half (w.extractLsb' 8 8) (w.extractLsb' 0 8) = w := by
  have low : (w.extractLsb' 0 8).toNat < 2 ^ 8 := (w.extractLsb' 0 8).isLt
  refine BitVec.eq_of_toNat_eq ((BitVec.toNat_append _ _).trans ?_)
  rw [← Nat.shiftLeft_add_eq_or_of_lt low, Nat.shiftLeft_eq, BitVec.extractLsb'_toNat, BitVec.extractLsb'_toNat,
    Nat.shiftRight_eq_div_pow]
  omega

theorem classifyFrame_request {code : Byte} {f : List Byte} (hz : code ≠ 0) (hh : code.toNat < 0x80) (hf : f.length ≤ 60) :
    classifyFrame (code :: BitVec.ofNat 8 f.length :: f) = .request code f := by
  have hn : (BitVec.ofNat 8 f.length).toNat = f.length := by simp; omega
  simp only [classifyFrame]
  rw [if_neg hz, if_neg (by omega), hn, if_neg (show ¬ maxFields < f.length from Nat.not_lt.mpr hf), if_neg (by omega), List.take_length]

/-- Whether a code names a request does not depend on the fields. -/
theorem requestOf_isNone (l : Link) (code : Byte) (f : List Byte) :
    (requestOf l code f).isNone = (requestOf l code []).isNone := by
  unfold requestOf
  split <;> simp_all

/-- A well-formed request is what its code and fields spell. -/
theorem requestOf_parts {i : Instr} {l : Link} {code : Byte} {f : List Byte} (hp : requestParts i = some (l, code, f))
    (hw : WellFormed i = true) : (requestOf l code f).getD (.unknownRequest l code f) = i := by
  cases i
  case unknownRequest =>
    cases hp
    obtain ⟨hu, _⟩ := (Bool.and_eq_true _ _).mp hw
    have : (requestOf l code f).isNone = true := by
      rw [requestOf_isNone]
      exact (((Bool.and_eq_true _ _).mp hu)).2
    rw [Option.isNone_iff_eq_none.mp this]
    rfl
  all_goals cases hp
  all_goals rfl

/-- Settles O10: a request's frame is classified as its request, and a packet's bytes are put together again. -/
theorem framesAndPacketsRoundTrip : Obligations.FramesAndPacketsRoundTrip := by
  refine fun i hw => ⟨fun l bytes he => ?_, fun p bytes he => ?_⟩
  · obtain ⟨⟨l', code, f⟩, hp, hb⟩ := Option.map_eq_some_iff.mp he
    cases hb
    obtain ⟨hz, hh, hf⟩ := wellFormed_request hp hw
    rw [decodeLinkFrame, classifyFrame_request hz hh hf]
    exact congrArg some (requestOf_parts hp hw)
  · cases i
    case frameStart port n w h =>
      cases he
      simp [decodePacket, halfBytes, half_halfBytes]
    case line port n data =>
      cases he
      simp [decodePacket, halfBytes, half_halfBytes]
    case frameEnd port c k =>
      cases he
      simp [decodePacket, halfBytes, half_halfBytes]
    case invalidPacket port bs =>
      cases he
      exact of_decide_eq_true hw
    all_goals cases he

/-! ## What the status bytes show (Tables 66 to 68) -/

/-- A byte of up to eight flags shows them. -/
theorem bitsAre_byte {l : List Bool} (h : l.length ≤ 8) : BitsAre (bitsOf l % 256) l := by
  have hb : bitsOf l < 256 := (bitsOf_lt l).trans_le (Nat.pow_le_pow_right (by decide) h)
  rw [Nat.mod_eq_of_lt hb]
  exact bitsAre_bitsOf l

theorem SourceRecord.flagBits_shown (r : SourceRecord) :
    BitsAre (r.flagBits % 256) [r.want, r.lastStopUnconfirmed, r.withdrawPending, r.locked, r.lastCompleted.isSome] := by
  have e : r.flagBits = bitsOf [r.want, r.lastStopUnconfirmed, r.withdrawPending, r.locked, r.lastCompleted.isSome] := by
    simp only [SourceRecord.flagBits, bitAt_eq, bitsOf, List.foldr]
    omega
  exact e ▸ bitsAre_byte (by simp)

theorem HandoffRecord.flagBits_shown (r : HandoffRecord) :
    BitsAre (r.flagBits % 256) [r.reversed, r.forced, r.cut, decide (r.direction = .up)] := by
  have e : r.flagBits = bitsOf [r.reversed, r.forced, r.cut, decide (r.direction = .up)] := by
    simp only [HandoffRecord.flagBits, bitAt_eq, bitsOf, List.foldr]
    omega
  exact e ▸ bitsAre_byte (by simp)

theorem SourceState.number_byte (x : SourceState) :
    x.number % 256 =
      [SourceState.absent, .off, .requested, .warming, .standby, .live, .stopping, .held, .faulted].idxOf x := by
  cases x <;> decide

theorem FaultCause.number_byte (x : Option FaultCause) :
    (x.map FaultCause.number).getD 0 % 256 =
      [none, some FaultCause.refused, some .warmTimeout, some .stall, some .badFrames, some .moduleFault].idxOf x := by
  rcases x with _ | x
  · decide
  · cases x <;> decide

theorem Source.number_byte (i : Source) : i.number % 256 = i.number := by cases i <;> rfl

/-- Table 66: the bytes of a source's status stand at their offsets. -/
theorem showsSource_sourceStatus (g : Nat → Byte) (now : Time) (i : Source) (r : SourceRecord) :
    ShowsSource (sourceStatus g now i r) now i r := by
  refine ⟨sourceStatus_length g now i r, ?_, ?_, ?_, ?_, ?_, ?_, ?_, ?_, ?_, ?_, ?_, ?_, ?_, ?_, ?_, ?_⟩
  all_goals simp only [sourceStatus, List.append_assoc]
  · rw [fieldAt_natByte, Source.number_byte]
  · simp [fieldAt_skip, fieldAt_natByte, SourceState.number_byte]
  · simpa [fieldAt_skip, fieldAt_natByte] using r.flagBits_shown
  · simp [fieldAt_skip, fieldAt_natByte, FaultCause.number_byte]
  · simp [fieldAt_skip, fieldAt_one]
    cases r.refusalCode <;> rfl
  · simp [fieldAt_skip, fieldAt_skip_cons, fieldAt_natByte]
  · intro k hk
    have chain := fieldAt_chainBytes r.chain k hk
    interval_cases k <;> simp [fieldAt_skip, fieldAt_skip_cons, chain] <;> split <;> simp_all
  · simp [fieldAt_skip, fieldAt_skip_cons, fieldAt_natByte]
  · simp [fieldAt_skip, fieldAt_skip_cons, fieldAt_natByte]
  · simp [fieldAt_skip, fieldAt_skip_cons, fieldAt_natByte]
  · simp [fieldAt_skip, fieldAt_skip_cons, fieldAt_natByte]
  · intro n hn
    simp [fieldAt_skip, fieldAt_skip_cons, hn, lastCompletedBytes, fieldAt_half]
  · simp [fieldAt_skip, fieldAt_skip_cons, fieldAt_remainingMs]
  · simp [fieldAt_skip, fieldAt_skip_cons, fieldAt_remainingMs]
  · simp [fieldAt_skip, fieldAt_skip_cons, fieldAt_remainingMs]
  · simpa [fieldAt_skip, fieldAt_skip_cons] using fieldAt_remainingMs now r.stall []

theorem phaseNumber_byte (p : Option Phase) : phaseNumber p % 256 = phaseCode p := by
  rcases p with _ | p
  · rfl
  · cases p <;> rfl

theorem BankState.number_eq (x : BankState) : x.number = [BankState.awake, .dormant, .waking].idxOf x := by
  cases x <;> decide

theorem BankState.number_lt (x : BankState) : x.number < 4 := by cases x <;> decide

/-- Table 67: the banks' states by their letters, two bits each. -/
theorem bankBits_spec (s : State) {k : Nat} {x : Bank} (h : [Bank.a, .b, .c, .d][k]? = some x) :
    bankBits s.pool % 256 / 4 ^ k % 4 = [BankState.awake, .dormant, .waking].idxOf (s.bank x).state := by
  rw [← BankState.number_eq]
  have ha := (s.pool.banks.a.state).number_lt
  have hb := (s.pool.banks.b.state).number_lt
  have hc := (s.pool.banks.c.state).number_lt
  have hd := (s.pool.banks.d.state).number_lt
  unfold bankBits
  match k, h with
  | 0, h => cases h; change _ = s.pool.banks.a.state.number; omega
  | 1, h => cases h; change _ = s.pool.banks.b.state.number; omega
  | 2, h => cases h; change _ = s.pool.banks.c.state.number; omega
  | 3, h => cases h; change _ = s.pool.banks.d.state.number; omega

theorem partFlagBits_shown (s : State) :
    BitsAre (partFlagBits s % 256) [s.planner.ramp.isSome, s.view.timer.isSome, (s.trigger .trg0).lastEdge.isSome,
      (s.trigger .trg1).lastEdge.isSome] := by
  have e : partFlagBits s = bitsOf [s.planner.ramp.isSome, s.view.timer.isSome, (s.trigger .trg0).lastEdge.isSome,
      (s.trigger .trg1).lastEdge.isSome] := by
    change bitAt 0 s.planner.ramp.isSome + bitAt 1 s.view.timer.isSome + bitAt 2 (s.trigger .trg0).lastEdge.isSome +
      bitAt 3 (s.trigger .trg1).lastEdge.isSome = _
    simp only [bitAt_eq, bitsOf, List.foldr]
    omega
  exact e ▸ bitsAre_byte (by simp)

theorem freeUpTo_le (g : Nat → Byte) (k most : Nat) : freeUpTo g k most ≤ most :=
  Nat.lt_succ_iff.mp (Nat.mod_lt _ (Nat.succ_pos most))

/-- Table 67: the bytes of the part's status stand at their offsets. -/
theorem showsPart_partStatus (g : Nat → Byte) (s : State) : ShowsPart (partStatus g s) s := by
  refine ⟨partStatus_length g s, ?_, ?_, ?_, ?_, ?_, ?_, ?_, ?_, ?_, ?_, ?_, ?_, ?_, ?_, ?_, ?_, ?_, ?_, ?_⟩
  all_goals simp only [partStatus, List.append_assoc]
  · rw [fieldAt_natByte]
    unfold Handoff.state
    cases s.handoff.primary <;> cases s.handoff.record <;> rfl
  · cases hp : s.handoff.primary <;> simp [fieldAt_skip, sourceByte, fieldAt_one, fieldAt_natByte, Source.number_byte]
  · cases hr : s.handoff.record <;>
      simp [fieldAt_skip, handoffBytes, fieldAt_natByte, phaseNumber_byte]
  · cases s.handoff.record with
    | none =>
      simp [fieldAt_skip, fieldAt_skip_cons, handoffBytes, weightBytes, fieldAt_natByte, fieldAt_one, fieldAt_natHalf]
      exact ⟨Nat.lt_of_le_of_lt Nat.and_le_right (by decide), (Nat.mod_le _ _).trans (freeUpTo_le g 6 8),
        (Nat.mod_le _ _).trans (freeUpTo_le g 8 256)⟩
    | some r =>
      simpa [fieldAt_skip, fieldAt_skip_cons, handoffBytes, weightBytes, fieldAt_natByte, Source.number_byte,
        fieldAt_natHalf, fieldAt_wordOr] using r.flagBits_shown
  · simp [fieldAt_skip, fieldAt_natByte]
  · simp [fieldAt_skip, fieldAt_natHalf]
  · simp [fieldAt_skip, fieldAt_natHalf]
  · simp [fieldAt_skip, fieldAt_one]
  · simp [fieldAt_skip, fieldAt_skip_cons, fieldAt_one]
  · intro k x hk
    simpa [fieldAt_skip, fieldAt_skip_cons, fieldAt_natByte] using bankBits_spec s hk
  · simp [fieldAt_skip, fieldAt_skip_cons, fieldAt_natByte]
  · intro k hk
    have claims := fieldAt_claimBytes s k hk
    interval_cases k <;> simp [fieldAt_skip, fieldAt_skip_cons, claims] <;> split <;> simp_all
  · simp [fieldAt_skip, fieldAt_skip_cons, fieldAt_word]
  · simp [fieldAt_skip, fieldAt_skip_cons, fieldAt_word, oldestSeq]
    cases s.view.ring <;> rfl
  · simpa [fieldAt_skip, fieldAt_skip_cons, fieldAt_natByte] using partFlagBits_shown s
  · simp [fieldAt_skip, fieldAt_skip_cons, fieldAt_zeros]
  · simp [fieldAt_skip, fieldAt_skip_cons, fieldAt_word]
  · intro t ht
    have edge : s.triggers.trg0.lastEdge = some t := ht
    simp [fieldAt_skip, fieldAt_skip_cons, edge, fieldAt_wordOr]
  · intro t ht
    have edge : s.triggers.trg1.lastEdge = some t := ht
    simpa [fieldAt_skip, fieldAt_skip_cons, edge] using fieldAt_wordOr g 44 t []

/-- A field of the k-th point of a calibration table. -/
theorem fieldAt_calResponse {t : List CalPoint} {k : Nat} {p : CalPoint} (h : t[k]? = some p) (j n : Nat) :
    ∃ rest, fieldAt (calResponse t) (1 + j + 10 * k) n = fieldAt (calPointBytes p ++ rest) j n := by
  obtain ⟨rest, hr⟩ := flatMap_drop_of calPointBytes 10 t (fun p _ => calPointBytes_length p) k p h
  refine ⟨rest, ?_⟩
  have skip : decide ((natByte t.length).length ≤ 1 + j + 10 * k) = true := decide_eq_true (by rw [natByte_length]; omega)
  rw [calResponse, fieldAt_skip _ _ _ _ skip, ← hr, fieldAt_drop, natByte_length]
  congr 1
  omega

/-- Table 68: the bytes of a calibration table stand at their offsets. -/
theorem showsTable_calResponse (t : List CalPoint) : ShowsTable (calResponse t) t := by
  refine ⟨?_, ?_, fun k p hp => ⟨?_, ?_, ?_, ?_, ?_⟩⟩
  · rw [calResponse, List.length_append, natByte_length, flatMap_length_of calPointBytes 10 t fun p _ => calPointBytes_length p]
  · rw [calResponse, fieldAt_natByte]
  · obtain ⟨rest, hr⟩ := fieldAt_calResponse hp 0 2
    rw [hr, calPointBytes]
    simp [fieldAt_natHalf]
  · obtain ⟨rest, hr⟩ := fieldAt_calResponse hp 2 2
    rw [hr, calPointBytes]
    simp [fieldAt_skip, fieldAt_natHalf]
  · obtain ⟨rest, hr⟩ := fieldAt_calResponse hp 4 2
    rw [hr, calPointBytes]
    simp [fieldAt_skip, fieldAt_intHalf]
  · obtain ⟨rest, hr⟩ := fieldAt_calResponse hp 6 2
    rw [hr, calPointBytes]
    simp [fieldAt_skip, fieldAt_intHalf]
  · obtain ⟨rest, hr⟩ := fieldAt_calResponse hp 8 2
    rw [hr, calPointBytes]
    simp [fieldAt_skip, fieldAt_intHalf]

/-! ## The reads -/

theorem identityBytes_eq (b : Bool) :
    identityBytes b = [0x4D, 0x34, 0x12, 4, 12, 32, 8, 8, 2, if b then 1 else 0] := by cases b <;> decide

theorem exec_readIdentity {l : Link} {s : State} (h : LinkOpen l s) :
    exec (.readIdentity l []) s = .next (answered l 0x01 .ok (identityBytes s.initialising) .nothing 0 s) := by
  refine congrArg Host.Outcome.next ((receiveRequest_open h (Nat.zero_le _)).trans ?_)
  exact takeRequest_answered (j := acceptWith (identityBytes s.initialising) s)
    (by simp [judgeRequest, readIdentityRule, judgeReadIdentity]) rfl

theorem exec_readPartStatus {s : State} (h : LinkFree .al s) :
    exec (.readPartStatus []) s =
      .next (answered .al 0x10 .ok (partStatus (Config.freeByte s.free) s) .nothing 0 { s with free := s.free + 1 }) :=
  congrArg Host.Outcome.next (receiveRequest_free h (Nat.zero_le _) rfl (r := readPartStatusRule) rfl rfl)

theorem judgeReadSourceStatus_ml {f : List Byte} {s : State} :
    judgeReadSourceStatus .ml f s =
      onSelected (fun i => acceptWith (sourceStatus (Config.freeByte s.free) s.timebase i (s.src i)) (spendFree s)) s := rfl

/-- What a read of a source's status answers. -/
theorem exec_readSourceStatus_al {b : Byte} {i : Source} {s : State} (h : LinkFree .al s) (hb : Source.ofNumber b.toNat = some i) :
    exec (.readSourceStatus .al [b]) s =
      .next (answered .al 0x05 .ok (sourceStatus (Config.freeByte s.free) s.timebase i (s.src i)) .nothing 1
        { s with free := s.free + 1 }) := by
  refine congrArg Host.Outcome.next (receiveFixed_acceptedWith (t := { s with free := s.free + 1 }) h rfl (by decide) ?_ rfl)
  exact onSource_some hb

theorem exec_readSourceStatus_ml {s : State} (h : LinkFree .ml s) (hs : (s.src s.selected).state ≠ .absent) :
    exec (.readSourceStatus .ml []) s =
      .next (answered .ml 0x05 .ok (sourceStatus (Config.freeByte s.free) s.timebase s.selected (s.src s.selected)) .nothing 0
        { s with free := s.free + 1 }) := by
  refine congrArg Host.Outcome.next (receiveFixed_acceptedWith (t := { s with free := s.free + 1 }) h rfl (by decide) ?_ rfl)
  rw [judgeReadSourceStatus_ml, onSelected_present hs]
  rfl

theorem exec_readCal {b : Byte} {i : Source} {s : State} (h : LinkFree .al s) (hb : Source.ofNumber b.toNat = some i) :
    exec (.readCal [b]) s = .next (answered .al 0x2B .ok (calResponse (s.calTable i)) .nothing 1 s) := by
  refine congrArg Host.Outcome.next (receiveFixed_acceptedWith h rfl (by decide) ?_ rfl)
  exact onSource_some hb

/-- Settles O18: the answers of the reads, and their bytes at their offsets. -/
theorem statusReadsChangeNothing : Obligations.StatusReadsChangeNothing := by
  refine fun s => ⟨fun l h => ?_, exec_readPartStatus, fun b i h hb => ⟨exec_readSourceStatus_al h hb, exec_readCal h hb⟩,
    exec_readSourceStatus_ml, fun b h hb => ⟨?_, ?_⟩, fun g => partStatus_length g s, fun g i => sourceStatus_length g _ i _,
    fun r _ => recordBytes_length r, fun i => (showsTable_calResponse _).1, fun g => showsPart_partStatus g s,
    fun g i => showsSource_sourceStatus g _ i _, fun i => showsTable_calResponse _⟩
  · rw [← identityBytes_eq]
    exact exec_readIdentity h
  · exact congrArg Host.Outcome.next (receiveFixed_refused h rfl (by decide) (onSource_range hb))
  · exact congrArg Host.Outcome.next (receiveFixed_refused h rfl (by decide) (onSource_range hb))

/-! ## Requests whose effect waits -/

/-- Past initialisation, on an open link, a request that is answered OK with an effect at readiness. -/
theorem receiveFixed_later {l : Link} {code : Byte} {n : Nat} {judge : List Byte → State → Judged} {f : List Byte} {d : Deferred}
    {s : State} (h : LinkFree l s) (hf : f.length = n) (hn : n ≤ 60) (hj : judge f s = acceptLater d s) :
    receiveRequest l code (some (.fixed n judge)) f s = answered l code .ok [] d n s := by
  subst hf
  exact receiveRequest_free (j := acceptLater d s) h hn (decide_eq_true rfl) hj rfl

theorem judgeSetParameter_known {id v3 v2 v1 v0 : Byte} {p : Param} {s : State} (hp : paramOf id.toNat = some p) :
    judgeSetParameter [id, v3, v2, v1, v0] s =
      if within p.range (word v3 v2 v1 v0).toNat then acceptLater (.setParameter p (word v3 v2 v1 v0).toNat) s
      else refuse .range s := by
  simp only [judgeSetParameter, parseParameter, hp]

theorem judgeSetParameter_unknown {id v3 v2 v1 v0 : Byte} {s : State} (h : 11 < id.toNat) :
    judgeSetParameter [id, v3, v2, v1, v0] s = refuse .range s := by
  simp only [judgeSetParameter, parseParameter, paramOf_none h]

theorem judgeSetTriggerEdge_known {n e : Byte} {line : TriggerLine} {sel : EdgeSelection} {s : State}
    (hn : triggerLineOf n.toNat = some line) (he : edgeSelectionOf e.toNat = some sel) :
    judgeSetTriggerEdge [n, e] s = acceptLater (.setEdge line sel) s := by
  simp only [judgeSetTriggerEdge, parsePair, hn, he]

theorem judgeSetTriggerEdge_range {n e : Byte} {s : State} (h : 1 < n.toNat ∨ 3 < e.toNat) :
    judgeSetTriggerEdge [n, e] s = refuse .range s := by
  rcases h with h | h
  · simp only [judgeSetTriggerEdge, parsePair, triggerLineOf_none h]
  · simp only [judgeSetTriggerEdge, parsePair, edgeSelectionOf_none h]
    cases triggerLineOf n.toNat <;> rfl

/-- Settles O19, by whether the identifier and the value are in their lists. -/
theorem deferredRequestsWait : Obligations.DeferredRequestsWait := by
  refine ⟨fun id v3 v2 v1 v0 s h => ⟨fun p hp hv => ?_, fun hr => ?_⟩, fun n e s h => ⟨fun line sel hn he => ?_, fun hr => ?_⟩,
    fun s h => ?_⟩
  · refine congrArg Host.Outcome.next (receiveFixed_later h rfl (by decide) ?_)
    rw [judgeSetParameter_known hp, if_pos hv]
  · refine congrArg Host.Outcome.next (receiveFixed_refused h rfl (by decide) ?_)
    rcases hr with hr | ⟨p, hp, hv⟩
    · exact judgeSetParameter_unknown hr
    · rw [judgeSetParameter_known hp, hv]
      rfl
  · exact congrArg Host.Outcome.next (receiveFixed_later h rfl (by decide) (judgeSetTriggerEdge_known hn he))
  · exact congrArg Host.Outcome.next (receiveFixed_refused h rfl (by decide) (judgeSetTriggerEdge_range hr))
  · exact congrArg Host.Outcome.next (receiveFixed_later h rfl (by decide) rfl)

/-! ## The selected source -/

/-- A request on the selected source is answered WRONG_STATE in ABSENT. -/
theorem receiveSelected_absent {code : Byte} {n : Nat} {judge : List Byte → State → Judged} {f : List Byte} {s : State}
    (h : LinkFree .ml s) (hf : f.length = n) (hn : n ≤ 60) {rule : Source → Judged} (hj : judge f s = onSelected rule s)
    (ha : (s.src s.selected).state = .absent) :
    receiveRequest .ml code (some (.fixed n judge)) f s = refused .ml code .wrongState n s :=
  receiveFixed_refused h hf hn (hj.trans (onSelected_absent ha))

theorem parseReport_of_length {f : List Byte} (h : f.length = 13) : ∃ x, parseReport f = some x := by
  match f, h with
  | [n1, n0, f1, f0, e3, e2, e1, e0, x1, x0, y1, y0, fl], _ => exact ⟨_, rfl⟩

theorem judgePostReport_selected {f : List Byte} {s : State} (h : f.length = 13) :
    ∃ rule, judgePostReport f s = onSelected rule s := by
  obtain ⟨⟨r, flagsOk⟩, hx⟩ := parseReport_of_length h
  exact ⟨fun i => judgeReport i r flagsOk s, by rw [judgePostReport, hx]⟩

theorem judgeClearFault_ml {f : List Byte} {s : State} :
    judgeClearFault .ml f s =
      onSelected (fun i => if (s.src i).state = .faulted then accept .ok (clearFault i s) else refuse .wrongState s) s := rfl

theorem judgeRefuseStart_byte {b : Byte} {s : State} :
    judgeRefuseStart [b] s =
      onSelected (fun i => if (s.src i).state = .requested then accept .ok (refuseStart i b s) else refuse .wrongState s) s :=
  rfl

/-- R167: every source-directed ML request of its length asks for the selected source first. -/
theorem exec_selected_absent {i : Instr} {code : Byte} {f : List Byte} {s : State}
    (hi : i ∈ [.confirmStart f, .refuseStart f, .confirmStop f, .hold f, .releaseHold f, .declareFault f, .clearFault .ml f,
      .postReport f, .readSourceStatus .ml f])
    (hp : requestParts i = some (.ml, code, f)) (ht : takesLength i f.length = some true) (h : LinkFree .ml s)
    (ha : (s.src s.selected).state = .absent) : exec i s = .next (refused .ml code .wrongState f.length s) := by
  simp only [List.mem_cons, List.not_mem_nil, or_false] at hi
  rcases hi with rfl | rfl | rfl | rfl | rfl | rfl | rfl | rfl | rfl
  all_goals
    cases hp
    have hf := of_decide_eq_true (Option.some.inj ht)
    rw [hf]
    refine congrArg Host.Outcome.next ?_
  case inr.inl =>
    obtain ⟨b, rfl⟩ := List.length_eq_one_iff.mp hf
    exact receiveSelected_absent h rfl (by decide) judgeRefuseStart_byte ha
  case inr.inr.inr.inr.inr.inr.inr.inl =>
    obtain ⟨rule, hr⟩ := judgePostReport_selected hf
    exact receiveSelected_absent h hf (by decide) hr ha
  case inr.inr.inr.inr.inr.inr.inl => exact receiveSelected_absent h hf (by decide) judgeClearFault_ml ha
  case inr.inr.inr.inr.inr.inr.inr.inr => exact receiveSelected_absent h hf (by decide) judgeReadSourceStatus_ml ha
  all_goals exact receiveSelected_absent h hf (by decide) rfl ha

/-- Settles O20, by the rule of each request. -/
theorem selectedSourceRequests : Obligations.SelectedSourceRequests := by
  refine ⟨fun s h => ⟨fun b i hb => ?_, fun b hb => ?_, ?_⟩, fun i code f s hi hp ht h ha => exec_selected_absent hi hp ht h ha⟩
  · exact congrArg Host.Outcome.next (receiveFixed_accepted (t := { s with selected := i }) h rfl (by decide) (onSource_some hb) rfl)
  · exact congrArg Host.Outcome.next (receiveFixed_refused h rfl (by decide) (onSource_range hb))
  · exact congrArg Host.Outcome.next (receiveFixed_accepted h rfl (by decide) rfl rfl)

end Sys2Proof.Machine
end

section
/-! The source protocol: entries to OFF and REQUESTED, the confirmations, withdrawal, want and the deadlines (R4 to R25). -/

namespace Sys2Proof.Machine

open Sys2Proof

/-! ## Writes of one record -/

@[simp] theorem State.setSrc_setSrc (s : State) (i : Source) (x y : SourceRecord) : (s.setSrc i x).setSrc i y = s.setSrc i y := by
  cases i <;> rfl

@[simp] theorem State.setSrc_self (s : State) (i : Source) : s.setSrc i (s.src i) = s := by cases i <;> rfl

theorem State.modSrc_eq (s : State) (i : Source) (f : SourceRecord → SourceRecord) : s.modSrc i f = s.setSrc i (f (s.src i)) :=
  rfl

@[simp] theorem State.setSrc_src_self (s : State) (i : Source) (x : SourceRecord) : (s.setSrc i x).src i = x := by simp

theorem State.setSrc_src_ne (s : State) {i j : Source} (x : SourceRecord) (h : j ≠ i) : (s.setSrc i x).src j = s.src j := by
  simp [h]

/-! ## Entry to OFF (R15) -/

/-- R15: what an entry to OFF makes of the state, by the withdrawal that waits and by want. -/
theorem enterOff_eq (i : Source) (s : State) :
    enterOff i s =
      if (s.src i).withdrawPending then s.setSrc i (s.src i).absented
      else if (s.src i).want then enterRequested i (s.setSrc i { s.src i with state := .off })
      else s.setSrc i { s.src i with state := .off } := by
  unfold enterOff
  simp only [State.modSrc_eq, State.setSrc_src_self]
  split
  · unfold enterAbsent
    rw [State.modSrc_eq, State.setSrc_setSrc, State.setSrc_src_self]
    rfl
  · rfl

/-! ## Entry to REQUESTED (R6) -/

/-- The banks after a buffer joined a chain, by their buffers. -/
theorem joinChain_bank_dormancy (i : Source) (b : BufferId) (s : State) (k : Bank) :
    (joinChain i b s).bank k =
      { s.bank k with dormancy := if b ∈ k.buffers then none else (s.bank k).dormancy } := by
  rw [joinChain_bank]
  by_cases h : b ∈ k.buffers
  · rw [if_pos (bankOf_of_mem h).symm, if_pos h]
  · rw [if_neg (fun e : k = bankOf b => h (e ▸ mem_bankOf b)), if_neg h]

/-- The banks after buffers joined a chain. -/
theorem joinAll_bank (i : Source) (l : List BufferId) (s : State) (k : Bank) :
    (l.foldl (fun s b => joinChain i b s) s).bank k =
      { s.bank k with dormancy := if ∃ b ∈ l, b ∈ k.buffers then none else (s.bank k).dormancy } := by
  induction l generalizing s with
  | nil => simp
  | cons b l ih =>
    rw [List.foldl_cons, ih, joinChain_bank_dormancy]
    by_cases hb : b ∈ k.buffers <;> simp [hb]

/-- R122: the deficit of a state by the outstanding total of another's queue and the banks already WAKING. -/
theorem claimDeficit_eq {s t u : State} (hs : ∀ k, (u.bank k).state = (s.bank k).state)
    (ht : u.pool.claimQueue = t.pool.claimQueue ∧ ∀ j, u.src j = t.src j) :
    claimDeficit u = ((t.pool.claimQueue.map fun j => (t.src j).claim).sum : Int) -
      3 * ((Bank.all.filter fun x => decide ((s.bank x).state = .waking)).length : Int) := by
  simp only [claimDeficit, hs, ht.1, ht.2]

/-- R119 to R122: the banks after a claim, by the outstanding total that it leaves. -/
theorem placeClaim_bank (i : Source) (s : State) (k : Bank) :
    let t := placeClaim i s
    t.bank k =
      if (s.bank k).state = .dormant ∧ (t.src i).claim ≠ 0 ∧
          3 * (((Bank.all.takeWhile fun x => decide (x ≠ k)).filter fun x =>
            decide ((s.bank x).state = .dormant)).length : Int) <
            ((t.pool.claimQueue.map fun j => (t.src j).claim).sum : Int) -
              3 * ((Bank.all.filter fun x => decide ((s.bank x).state = .waking)).length : Int) then
        { state := .waking, dormancy := none, wake := some (s.timebase + 300) }
      else { s.bank k with dormancy := if ∃ b ∈ claimed i s, b ∈ k.buffers then none else (s.bank k).dormancy } := by
  intro t
  have claim : (t.src i).claim = 3 - (s.src i).chain.length - (claimed i s).length := by
    rw [placeClaim_src, if_pos rfl]
  rw [claim]
  have eq := placeClaim_eq i s
  dsimp only at eq
  have banks (x : Bank) := joinAll_bank i (claimed i s) s x
  have time := (joinAll_only i (claimed i s) s).timebase
  generalize (claimed i s).foldl (fun s b => joinChain i b s) s = joined at eq banks time
  by_cases hl : 3 - (s.src i).chain.length - (claimed i s).length = 0
  · rw [if_pos hl] at eq
    change (placeClaim i s).bank k = _
    rw [if_neg (fun h => h.2.1 hl), eq]
    exact banks k
  · rw [if_neg hl] at eq
    generalize hv : raise (.part .bufferWait) _ = v at eq
    have vbank (x : Bank) : v.bank x = joined.bank x := by rw [← hv]; rfl
    have vstate (x : Bank) : (v.bank x).state = (s.bank x).state := by rw [vbank, banks]
    have vtime : v.timebase = s.timebase := by rw [← hv]; exact time
    have same : v.pool.claimQueue = t.pool.claimQueue ∧ ∀ j, v.src j = t.src j := by
      change _ = (placeClaim i s).pool.claimQueue ∧ ∀ j, _ = (placeClaim i s).src j
      rw [eq]
      exact ⟨(wakeForDeficit_src v .s0).2.symm, fun j => (wakeForDeficit_src v j).1.symm⟩
    change (placeClaim i s).bank k = _
    rw [eq, wakeForDeficit_bank, claimDeficit_eq vstate same, vbank, banks, vtime]
    simp only [vstate, ne_eq, hl, not_false_eq_true, true_and]
    rfl

/-- R137 to R140: the sync line at entry to REQUESTED. -/
theorem beginPulsing_syncLine (i : Source) (s : State) :
    (beginPulsing i s).syncLine i =
      let l := s.syncLine i
      let own (span : Nat) : SyncLine := { l with
        pulsing := true, lastPulse := some s.timebase, nextPulse := some (s.timebase + BitVec.ofNat 32 span)
        pulseEnd := if l.pulseEnd = none then some (s.timebase + 10) else l.pulseEnd }
      match (s.enr i).syncMode with
        | .none => { l with pulsing := true }
        | .free => own (s.enr i).freePeriod
        | .follow => if s.handoff.primary = none then own (s.enr i).interval else { l with pulsing := true } := by
  unfold beginPulsing
  rw [State.setSync_syncLine, if_pos rfl]
  simp only [SyncLine.pulseNow, SyncLine.pulse_eq, Option.isNone_iff_eq_none]
  rfl

theorem beginPulsing_syncLine_ne {i j : Source} (s : State) (h : j ≠ i) : (beginPulsing i s).syncLine j = s.syncLine j := by
  unfold beginPulsing
  rw [State.setSync_syncLine, if_neg h]

/-- Entry to REQUESTED is the claim on the record with its warm deadline, START_WANTED and the pulses. -/
def requestedState (i : Source) (s : State) : State :=
  s.setSrc i { s.src i with
    state := .requested, warm := some (s.timebase + BitVec.ofNat 32 (1000 * s.params.warmTimeout)) }

theorem enterRequested_eq (i : Source) (s : State) :
    enterRequested i s = beginPulsing i (raiseSrc i .startWanted (placeClaim i (requestedState i s))) := rfl

@[simp] theorem beginPulsing_src (i j : Source) (s : State) : (beginPulsing i s).src j = s.src j := rfl

@[simp] theorem beginPulsing_notice (i : Source) (l : Link) (s : State) : (beginPulsing i s).notice l = s.notice l := rfl

@[simp] theorem beginPulsing_pool (i : Source) (s : State) : (beginPulsing i s).pool = s.pool := rfl

@[simp] theorem beginPulsing_bank (i : Source) (s : State) (k : Bank) : (beginPulsing i s).bank k = s.bank k := rfl

/-- R6, R121: the records after an entry to REQUESTED. -/
theorem enterRequested_src (i j : Source) (s : State) :
    (enterRequested i s).src j =
      if j = i then { s.src i with
        state := .requested, warm := some (s.timebase + BitVec.ofNat 32 (1000 * s.params.warmTimeout))
        chain := (s.src i).chain ++ claimed i s, claim := 3 - (s.src i).chain.length - (claimed i s).length }
      else s.src j := by
  rw [enterRequested_eq, beginPulsing_src, raiseSrc_src, placeClaim_src]
  have same : claimed i (requestedState i s) = claimed i s := by
    unfold claimed requestedState
    rw [State.setSrc_src_self]
    rfl
  rw [same, requestedState, State.setSrc_src_self]
  split
  · rfl
  · next h => rw [State.setSrc_src_ne _ _ h]

theorem claimed_of_empty {i : Source} {s : State} (h : (s.src i).chain = []) : claimed i s = (freeAwake s).take 3 := by
  rw [claimed, h]
  rfl

theorem startWanted_ne_bufferWait (i : Source) : Notice.source i .startWanted ≠ .part .bufferWait := nofun

/-- What an entry to REQUESTED with an empty chain makes of record, queue and notices (R6, R121). -/
theorem enterRequested_record {i : Source} {s : State} (hc : (s.src i).chain = []) :
    let t := enterRequested i s
    (t.src i).state = .requested ∧
      (t.src i).warm = some (s.timebase + BitVec.ofNat 32 (1000 * s.params.warmTimeout)) ∧
      (t.src i).chain.length + (t.src i).claim = 3 ∧ (t.src i).chain = (freeAwake s).take 3 ∧
      t.pool.claimQueue = (if (t.src i).claim = 0 then s.pool.claimQueue else s.pool.claimQueue ++ [i]) ∧
      ∀ l, t.notice l = (if (t.src i).claim = 0 then s.notice l else (s.notice l).raise (.part .bufferWait)).raise
        (.source i .startWanted) := by
  intro t
  have record : t.src i = _ := (enterRequested_src i i s).trans (if_pos rfl)
  have empty : ((requestedState i s).src i).chain = [] := by rw [requestedState, State.setSrc_src_self]; exact hc
  have length : ((freeAwake s).take 3).length ≤ 3 := by rw [List.length_take]; omega
  have given : claimed i (requestedState i s) = (freeAwake s).take 3 := claimed_of_empty empty
  have claim : (t.src i).claim = 3 - ((freeAwake s).take 3).length := by
    rw [record, claimed_of_empty hc, hc]
    rfl
  have queue : t.pool.claimQueue = (placeClaim i (requestedState i s)).pool.claimQueue := rfl
  have notice (l : Link) : t.notice l = ((placeClaim i (requestedState i s)).notice l).raise (.source i .startWanted) := by
    rw [← raiseSrc_notice]; rfl
  refine ⟨by rw [record], by rw [record], ?_, ?_, ?_, fun l => ?_⟩
  · rw [claim, record, claimed_of_empty hc, hc, List.nil_append]
    dsimp only
    omega
  · rw [record, claimed_of_empty hc, hc, List.nil_append]
  · rw [queue, placeClaim_claimQueue, given, empty, claim]
    rfl
  · rw [notice, placeClaim_notice, given, empty, claim]
    rfl

/-- What `beginPulsing` reads is as it was before the claim. -/
theorem placeClaim_requested (i : Source) (s : State) :
    let u := raiseSrc i .startWanted (placeClaim i (requestedState i s))
    (∀ j, u.syncLine j = s.syncLine j) ∧ u.enr i = s.enr i ∧ u.timebase = s.timebase ∧ u.handoff = s.handoff := by
  intro u
  -- What the pool's operations leave as it is.
  have closed : PoolClosed fun t => t.sync = s.sync ∧ t.timebase = s.timebase ∧ t.handoff = s.handoff :=
    ⟨fun _ _ h => h, fun _ _ h => h, fun _ h => h⟩
  obtain ⟨hsync, htime, hhandoff⟩ := closed.raiseSrc i .startWanted
    (closed.placeClaim i (s := requestedState i s) ⟨rfl, rfl, rfl⟩)
  refine ⟨fun j => congrArg (PerSource.get · j) hsync, ?_, htime, hhandoff⟩
  have record : u.src i = (placeClaim i (requestedState i s)).src i := rfl
  rw [State.enr, record, placeClaim_src, if_pos rfl, requestedState, State.setSrc_src_self]
  rfl

/-- R119 to R122: the banks after an entry to REQUESTED with an empty chain. -/
theorem enterRequested_bank {i : Source} {s : State} (hc : (s.src i).chain = []) (k : Bank) :
    let t := enterRequested i s
    t.bank k =
      if (s.bank k).state = .dormant ∧ (t.src i).claim ≠ 0 ∧
          3 * (((Bank.all.takeWhile fun x => decide (x ≠ k)).filter fun x =>
            decide ((s.bank x).state = .dormant)).length : Int) <
            ((t.pool.claimQueue.map fun j => (t.src j).claim).sum : Int) -
              3 * ((Bank.all.filter fun x => decide ((s.bank x).state = .waking)).length : Int) then
        { state := .waking, dormancy := none, wake := some (s.timebase + 300) }
      else { s.bank k with dormancy := if ∃ b ∈ (t.src i).chain, b ∈ k.buffers then none else (s.bank k).dormancy } := by
  obtain ⟨_, _, _, hchain, _⟩ := enterRequested_record hc
  have empty : ((requestedState i s).src i).chain = [] := by rw [requestedState, State.setSrc_src_self]; exact hc
  have given : claimed i (requestedState i s) = (freeAwake s).take 3 := claimed_of_empty empty
  have bank := placeClaim_bank i (requestedState i s) k
  have eq := enterRequested_eq i s
  generalize placeClaim i (requestedState i s) = p at bank eq
  rw [eq] at hchain ⊢
  intro t
  have chain : (t.src i).chain = claimed i (requestedState i s) := hchain.trans given.symm
  rw [chain]
  exact bank

/-- Settles O21: an entry to OFF by its cases, and an entry to REQUESTED as a claim with its pulses. -/
theorem entryToOffAndRequested : Obligations.EntryToOffAndRequested := by
  refine ⟨fun i s => ⟨fun hw => ?_, fun hw hv => ?_, fun hw hv => ?_⟩, fun i s hc => ?_⟩
  · rw [enterOff_eq, if_pos hw]
    rfl
  · rw [enterOff_eq, if_neg (by simp [hw]), if_pos hv]
  · rw [enterOff_eq, if_neg (by simp [hw]), if_neg (by simp [hv])]
  · obtain ⟨hstate, hwarm, hlen, hchain, hqueue, hnotice⟩ := enterRequested_record hc
    refine ⟨hstate, hwarm, hlen, hchain, fun h => by rw [hqueue, if_pos h], fun h => by rw [hqueue, if_neg h],
      fun l => by rw [hnotice, Notices.isPending_raise], fun h l => ?_, fun h l => ?_, fun k => ?_, ?_, fun j hj => ?_,
      fun j hj => ?_, (Kept.closed s).enterRequested i (.refl s)⟩
    · rw [hnotice, if_neg h, Notices.isPending_raise_ne (startWanted_ne_bufferWait i), Notices.isPending_raise]
    · rw [hnotice, if_pos h, Notices.isPending_raise_ne (startWanted_ne_bufferWait i)]
    · exact enterRequested_bank hc k
    · obtain ⟨hlines, henr, htime, hhandoff⟩ := placeClaim_requested i s
      rw [enterRequested_eq, beginPulsing_syncLine, hlines, henr, htime, hhandoff] <;> cases (s.enr i).syncMode <;> rfl
    · rw [enterRequested_eq, beginPulsing_syncLine_ne _ hj, (placeClaim_requested i s).1]
    · rw [enterRequested_src, if_neg hj]

/-! ## The confirmations (R7, R14, R22) -/

theorem clearFault_eq (i : Source) (s : State) :
    clearFault i s = enterOff i (s.setSrc i { s.src i with faultCause := none, refusalCode := none }) := rfl

theorem confirmStop_eq (i : Source) (s : State) :
    confirmStop i s = enterOff i (raise (.source i .stopped) (s.setSrc i { s.src i with stop := none })) := rfl

theorem clearFault_timebase (i : Source) (s : State) : (clearFault i s).timebase = s.timebase := enterOff_timebase i _

theorem confirmStop_timebase (i : Source) (s : State) : (confirmStop i s).timebase = s.timebase := enterOff_timebase i _

/-- A request on the selected source that is accepted in one state and refused in every other. -/
theorem onSelected_state {x : SourceState} (hx : x ≠ .absent) {f : Source → State} {s : State} :
    onSelected (fun i => if (s.src i).state = x then accept .ok (f i) else refuse .wrongState s) s =
      if (s.src s.selected).state = x then accept .ok (f s.selected) else refuse .wrongState s := by
  by_cases ha : (s.src s.selected).state = .absent
  · rw [onSelected_absent ha, if_neg (by rw [ha]; exact hx.symm)]
  · exact onSelected_present ha

/-- The answer to such a request. -/
theorem receiveFixed_ite {l : Link} {code : Byte} {n : Nat} {judge : List Byte → State → Judged} {f : List Byte}
    {p : Prop} [Decidable p] {st : Status} {s t : State} (h : LinkFree l s) (hf : f.length = n) (hn : n ≤ 60)
    (hj : judge f s = if p then accept .ok t else refuse st s) (ht : t.timebase = s.timebase) :
    receiveRequest l code (some (.fixed n judge)) f s = if p then answeredOk l code n t else refused l code st n s := by
  split
  · exact receiveFixed_accepted h hf hn (hj.trans (if_pos ‹_›)) ht
  · exact receiveFixed_refused h hf hn (hj.trans (if_neg ‹_›))

/-- R14: CONFIRM_STOP by the state of the selected source. -/
theorem judgeConfirmStop_eq (f : List Byte) (s : State) :
    judgeConfirmStop f s =
      if (s.src s.selected).state = .stopping then accept .ok (confirmStop s.selected s)
      else if (s.src s.selected).state = .faulted then accept .ok s
      else refuse .wrongState s := by
  unfold judgeConfirmStop
  by_cases ha : (s.src s.selected).state = .absent
  · rw [onSelected_absent ha, ha]
    rfl
  · rw [onSelected_present ha]
    cases h : (s.src s.selected).state <;> simp_all

/-- Settles O22, by the state in which each request is accepted. -/
theorem confirmationsByState : Obligations.ConfirmationsByState := by
  refine ⟨fun b i s h hb => ?_, fun b s h hb => ?_, fun s h => ⟨?_, ?_, ?_⟩⟩
  · exact congrArg Host.Outcome.next (receiveFixed_ite h rfl (by decide) (onSource_some hb) (clearFault_timebase i s))
  · exact congrArg Host.Outcome.next (receiveFixed_refused h rfl (by decide) (onSource_range hb))
  · refine congrArg Host.Outcome.next (receiveFixed_ite h rfl (by decide) ?_ (clearFault_timebase s.selected s))
    exact judgeClearFault_ml.trans (onSelected_state (by decide))
  · have accepted (t : State) (hj : judgeConfirmStop [] s = accept .ok t) (ht : t.timebase = s.timebase) :
        exec (.confirmStop []) s = .next (answeredOk .ml 0x44 0 t) :=
      congrArg Host.Outcome.next (receiveFixed_accepted h rfl (by decide) hj ht)
    have judged := judgeConfirmStop_eq [] s
    split at judged
    · next hs => rw [if_pos hs]; exact accepted _ judged (confirmStop_timebase _ s)
    · next hs =>
      rw [if_neg hs]
      split at judged
      · next hf => rw [if_pos hf]; exact accepted _ judged rfl
      · next hf =>
        rw [if_neg hf]
        exact congrArg Host.Outcome.next (receiveFixed_refused h rfl (by decide) judged)
  · refine congrArg Host.Outcome.next
      (receiveFixed_ite (t := enterWarming s.selected s) h rfl (by decide) ?_ rfl)
    exact onSelected_state (by decide)

/-! ## Withdrawal (R23) and enrolment (R3) -/

theorem enterAbsent_eq (i : Source) (s : State) : enterAbsent i s = s.setSrc i (s.src i).absented := rfl

theorem markWithdraw_eq (i : Source) (s : State) :
    markWithdraw i s = s.setSrc i { s.src i with withdrawPending := true } := rfl

theorem enterStopping_timebase (i : Source) (s : State) : (enterStopping i s).timebase = s.timebase :=
  ((Kept.closed s).enterStopping i (.refl s)).timebase

/-- Settles O29, by the state of the source. -/
theorem withdrawSourceByState : Obligations.WithdrawSourceByState := by
  refine ⟨fun b s h hb => ?_, fun b i s h hb => ?_⟩
  · exact congrArg Host.Outcome.next (receiveFixed_refused h rfl (by decide) (onSource_range hb))
  · have accepted (t : State) (hj : judgeWithdraw i s = accept .ok t) (ht : t.timebase = s.timebase) :
        exec (.withdrawSource [b]) s = .next (answeredOk .al 0x19 1 t) :=
      congrArg Host.Outcome.next (receiveFixed_accepted h rfl (by decide) ((onSource_some hb).trans hj) ht)
    have refused (st : Status) (hj : judgeWithdraw i s = refuse st s) :
        exec (.withdrawSource [b]) s = .next (refused .al 0x19 st 1 s) :=
      congrArg Host.Outcome.next (receiveFixed_refused h rfl (by decide) ((onSource_some hb).trans hj))
    have stopping : (enterStopping i (markWithdraw i s)).timebase = s.timebase := enterStopping_timebase i _
    split
    · next hs => exact accepted _ (by rw [judgeWithdraw, hs]; rfl) rfl
    · next hs => exact accepted _ (by rw [judgeWithdraw, hs]; rfl) rfl
    · next hs => exact accepted _ (by rw [judgeWithdraw, hs]; rfl) rfl
    · next hs => exact accepted _ (by rw [judgeWithdraw, hs]; rfl) stopping
    · next hs => exact accepted _ (by rw [judgeWithdraw, hs]; rfl) stopping
    · next hs => exact accepted _ (by rw [judgeWithdraw, hs]; rfl) stopping
    · next hs => exact accepted _ (by rw [judgeWithdraw, hs]; rfl) rfl
    · next hs => exact refused _ (by rw [judgeWithdraw, hs])
    · next hs => exact refused _ (by rw [judgeWithdraw, hs])

theorem parseEnrolment_length {f : List Byte} {x : Nat × Option Enrolment} (h : parseEnrolment f = some x) :
    f.length = 26 := by
  unfold parseEnrolment at h
  split at h
  · rfl
  · cases h

/-- The checks of an enrolment at a source, in their order. -/
def judgeEnrolment (i : Source) (enrolment : Option Enrolment) (s : State) : Judged :=
  if !(s.src i).state.enrollable then refuse .wrongState s
  else
    match enrolment with
    | some e =>
      if !e.inRange then refuse .range s
      else if baseTaken i e.base s then refuse .conflict s
      else accept .ok (enrollSource i e s)
    | none => refuse .range s

theorem judgeEnrollSource_parsed {f : List Byte} {n : Nat} {e : Option Enrolment} {s : State} {i : Source}
    (hf : parseEnrolment f = some (n, e)) (hn : Source.ofNumber n = some i) :
    judgeEnrollSource f s = judgeEnrolment i e s := by
  rw [judgeEnrollSource, hf]
  exact onSource_some hn

theorem SourceState.enrollable_iff {x : SourceState} : x.enrollable = true ↔ x ∈ [.absent, .off, .faulted] := by
  cases x <;> decide

theorem baseTaken_iff {i : Source} {base : Nat} {s : State} :
    baseTaken i base s = true ↔ ∃ j, j ≠ i ∧ (s.src j).state ≠ .absent ∧ (s.enr j).base = base := by
  have mem (j : Source) : j ∈ Source.all := by cases j <;> decide
  simp only [baseTaken, enrolled, List.any_eq_true, List.mem_filter, mem, true_and, Bool.and_eq_true, decide_eq_true_eq]
  exact ⟨fun ⟨j, h, hi, hb⟩ => ⟨j, hi, h, hb⟩, fun ⟨j, hi, h, hb⟩ => ⟨j, h, hi, hb⟩⟩

/-- R3: the enrolled record by the state in which it is accepted. -/
theorem SourceRecord.enroll_eq {r : SourceRecord} (e : Enrolment) (keepWarm : Bool) (h : r.state ∈ [.absent, .off, .faulted]) :
    r.enroll e keepWarm = { r with
      enrolment := some e, lastStopUnconfirmed := false
      want := if r.state = .absent then keepWarm else r.want
      faultCause := if r.state = .faulted then none else r.faultCause
      refusalCode := if r.state = .faulted then none else r.refusalCode } := by
  unfold SourceRecord.enroll
  cases hs : r.state <;> simp_all

/-- Settles O28: the checks in their order, by what each finds. -/
theorem enrollSourceChecksInOrder : Obligations.EnrollSourceChecksInOrder := by
  intro f n e s h hf
  have len := parseEnrolment_length hf
  have refused (st : Status) (hj : judgeEnrollSource f s = refuse st s) :
      exec (.enrollSource f) s = .next (refused .al 0x18 st 26 s) :=
    congrArg Host.Outcome.next (receiveFixed_refused h len (by decide) hj)
  refine ⟨fun hn => refused _ ?_, fun i hn => ?_⟩
  · rw [judgeEnrollSource, hf]
    exact onSource_range hn
  · rw [judgeEnrollSource_parsed hf hn] at refused
    refine ⟨fun hs => refused _ ?_, fun hs => ⟨fun hr => refused _ ?_, fun x hx hr => ⟨fun hc => refused _ ?_, fun hc => ?_⟩⟩⟩
    · simp [judgeEnrolment, Bool.eq_false_iff.mpr (mt SourceState.enrollable_iff.mp hs)]
    · cases e with
      | none => simp [judgeEnrolment, SourceState.enrollable_iff.mpr hs]
      | some x => simp [judgeEnrolment, SourceState.enrollable_iff.mpr hs, hr x rfl]
    · simp [judgeEnrolment, SourceState.enrollable_iff.mpr hs, hx, hr, baseTaken_iff.mpr hc]
    · have free : baseTaken i x.base s = false :=
        Bool.eq_false_iff.mpr fun ht => by
          obtain ⟨j, hj, ha, hb⟩ := baseTaken_iff.mp ht
          exact hc j hj ha hb
      have judged : judgeEnrollSource f s = accept .ok (enrollSource i x s) := by
        simp [judgeEnrollSource_parsed hf hn, judgeEnrolment, SourceState.enrollable_iff.mpr hs, hx, hr, free]
      rw [← SourceRecord.enroll_eq x (s.planner.keepWarm.get i) hs]
      exact congrArg Host.Outcome.next (receiveFixed_accepted h len (by decide) judged (enterOff_timebase i _))

end Sys2Proof.Machine
end

section
/-! Leaving the streaming states: STOPPING, HELD and FAULTED, and the controller's answer (R11, R13, R16, R19, R24). -/

namespace Sys2Proof.Machine

open Sys2Proof

/-! ## What the three entries share -/

/-- A record without the deadlines of a start and a linger, its chain and its claim, and without the history of a source that
was streaming. -/
def SourceRecord.Cleared (r : SourceRecord) (streaming : Bool) : Prop :=
  r.warm = none ∧ r.linger = none ∧ r.chain = [] ∧ r.claim = 0 ∧
    (streaming = true → r.lastCompleted = none ∧ r.lastStart = none ∧ r.qualify = 0 ∧ r.bad = 0 ∧ r.stall = none ∧
      r.locked = false ∧ r.matchCount = 0)

theorem SourceRecord.shut_cleared (r : SourceRecord) (streaming : Bool) : (r.shut streaming).Cleared streaming := by
  cases streaming
  · exact ⟨rfl, rfl, rfl, rfl, nofun⟩
  · exact ⟨rfl, rfl, rfl, rfl, fun _ => ⟨rfl, rfl, rfl, rfl, rfl, rfl, rfl⟩⟩

theorem SourceRecord.Cleared.absented {r : SourceRecord} {streaming : Bool} (h : r.Cleared streaming) :
    r.absented.Cleared streaming := h

theorem SourceRecord.Cleared.unlock {r : SourceRecord} {streaming : Bool} (h : r.Cleared streaming) :
    r.unlock.Cleared streaming := by
  obtain ⟨hw, hl, hc, hk, hs⟩ := h
  refine ⟨hw, hl, hc, hk, fun e => ?_⟩
  obtain ⟨h1, h2, h3, h4, h5, _⟩ := hs e
  exact ⟨h1, h2, h3, h4, h5, rfl, rfl⟩

/-- `u` is `s` after the source's shutdown and before the controller is informed. -/
structure ShutFrom (i : Source) (s u : State) : Prop where
  cleared : (u.src i).Cleared (s.src i).state.streaming
  left : (u.src i).state ≠ .standby
  queue : i ∉ u.pool.claimQueue
  line : u.syncLine i = .reset
  intake : (s.src i).state.streaming = true → u.report i = ⟨[], none⟩ ∧ u.port i = .idle
  control : SameForControl i s u

theorem SameForControl.refl (i : Source) (s : State) : SameForControl i s s :=
  ⟨rfl, rfl, rfl, rfl, rfl, fun _ _ => ⟨rfl, rfl, rfl⟩⟩

/-- The shutdown itself, from the record that the entry has written. -/
theorem ShutFrom.shutDown {i : Source} {s v : State} (hv : SameForControl i s v) (hs : (v.src i).state ≠ .standby) :
    ShutFrom i s (shutDown i (s.src i).state v) := by
  obtain ⟨record, queue, line, intake⟩ := shutDown_src i (s.src i).state v
  refine ⟨?_, ?_, queue, line, intake, hv.trans (shutDown_sameForControl i _ v)⟩
  · rw [record]
    exact (v.src i).shut_cleared _
  · rw [record]
    unfold SourceRecord.shut
    split <;> exact hs

theorem ShutFrom.raiseSrc {i : Source} {s u : State} (h : ShutFrom i s u) (j : Source) (k : SourceNotice) :
    ShutFrom i s (raiseSrc j k u) :=
  ⟨h.cleared, h.left, h.queue, h.line, h.intake, h.control.trans (raise_sameForControl i _ u)⟩

theorem absentIfPending_pool (i : Source) (s : State) : (absentIfPending i s).pool = s.pool := by
  unfold absentIfPending
  split <;> rfl

theorem absentIfPending_intake (i : Source) (s : State) :
    (absentIfPending i s).report i = s.report i ∧ (absentIfPending i s).port i = s.port i := by
  unfold absentIfPending
  split <;> exact ⟨rfl, rfl⟩

theorem ShutFrom.absentIfPending {i : Source} {s u : State} (h : ShutFrom i s u) : ShutFrom i s (absentIfPending i u) := by
  obtain ⟨hr, hp⟩ := absentIfPending_intake i u
  refine ⟨?_, ?_, by rw [absentIfPending_pool]; exact h.queue, by rw [absentIfPending_line]; exact h.line,
    by rw [hr, hp]; exact h.intake, h.control.trans (absentIfPending_sameForControl i u)⟩
  · rw [absentIfPending_src]
    split
    · exact h.cleared.absented
    · exact h.cleared
  · rw [absentIfPending_state]
    split
    · decide
    · exact h.left

theorem SourceState.shownOrReady_iff {x : SourceState} : x.shownOrReady = true ↔ x ∈ [.standby, .live] := by
  cases x <;> decide

/-- The controller's answer reaches the record of a source outside STANDBY only by its lock. -/
theorem informDeparture_record {i : Source} {u : State} (was : SourceState) (h : (u.src i).state ≠ .standby) :
    (informDeparture i was u).src i = u.src i ∨ (informDeparture i was u).src i = (u.src i).unlock := by
  unfold informDeparture
  split
  · exact departure_src h
  · exact .inl rfl

/-- What remains of a shut down source once the controller has answered. -/
theorem ShutFrom.informed {i : Source} {s u : State} (h : ShutFrom i s u) :
    let t := informDeparture i (s.src i).state u
    (t.src i).Cleared (s.src i).state.streaming ∧ i ∉ t.pool.claimQueue ∧ t.syncLine i = .reset ∧
      ((s.src i).state.streaming = true → t.report i = ⟨[], none⟩ ∧ t.port i = .idle) ∧
      ((s.src i).state ∈ [.standby, .live] → DepartsFrom i s t) ∧
      ((s.src i).state ∉ [.standby, .live] → t.handoff = s.handoff ∧ t.view = s.view) := by
  intro t
  have cleared : (t.src i).Cleared (s.src i).state.streaming := by
    rcases informDeparture_record (s.src i).state h.left with e | e
    · exact e ▸ h.cleared
    · exact e ▸ h.cleared.unlock
  by_cases hs : (s.src i).state ∈ [.standby, .live]
  · have departs : t = departure i u := if_pos (SourceState.shownOrReady_iff.mpr hs)
    have only := departure_only i u
    refine ⟨cleared, ?_, ?_, fun hst => ?_, fun _ => ?_, fun hn => absurd hs hn⟩
    · rw [departs, only]; exact h.queue
    · rw [departs, departure_syncLine (by rw [h.line]; rfl)]; exact h.line
    · rw [departs, only]; exact h.intake hst
    · rw [departs]; exact departs_of h.control h.line h.left
  · have stays : t = u := if_neg (mt SourceState.shownOrReady_iff.mp hs)
    rw [stays] at cleared ⊢
    exact ⟨cleared, h.queue, h.line, h.intake, fun hn => absurd hn hs, fun _ => ⟨h.control.handoff, h.control.view⟩⟩

/-! ## The three entries -/

/-- Entry to STOPPING before the controller is informed. -/
def stoppingShut (i : Source) (s : State) : State :=
  raiseSrc i .stopWanted (shutDown i (s.src i).state (s.modSrc i fun r =>
    { r with state := .stopping, stop := some (timeAfter s.timebase (msToUs s.params.stopTimeout)) }))

theorem enterStopping_eq (i : Source) (s : State) :
    enterStopping i s = informDeparture i (s.src i).state (stoppingShut i s) := rfl

theorem stoppingShut_from (i : Source) (s : State) : ShutFrom i s (stoppingShut i s) :=
  (ShutFrom.shutDown (modSrc_sameForControl i _ s) (by simp)).raiseSrc i .stopWanted

/-- Entry to HELD before the withdrawal that may wait. -/
def heldShut (i : Source) (s : State) : State :=
  shutDown i (s.src i).state (s.modSrc i fun r =>
    { r with state := .held, stop := none, faultCause := none, refusalCode := none })

theorem enterHeld_eq (i : Source) (s : State) :
    enterHeld i s = informDeparture i (s.src i).state (absentIfPending i (heldShut i s)) := rfl

theorem heldShut_from (i : Source) (s : State) : ShutFrom i s (heldShut i s) :=
  ShutFrom.shutDown (modSrc_sameForControl i _ s) (by simp)

/-- Entry to FAULTED before the withdrawal that may wait. -/
def faultedShut (i : Source) (cause : FaultCause) (s : State) : State :=
  let u := raiseSrc i .faulted (shutDown i (s.src i).state
    ({ s with free := s.free + 1 }.modSrc i fun r => { r.unlock with state := .faulted, stop := none, faultCause := some cause }))
  if stopWantedOnFault (s.src i).state cause (Config.freeBit s.free) then raiseSrc i .stopWanted u else u

theorem enterFaulted_eq (i : Source) (cause : FaultCause) (s : State) :
    enterFaulted i cause s = informDeparture i (s.src i).state (absentIfPending i (faultedShut i cause s)) := rfl

theorem faultedShut_from (i : Source) (cause : FaultCause) (s : State) : ShutFrom i s (faultedShut i cause s) := by
  have counted : SameForControl i s { s with free := s.free + 1 } :=
    ⟨rfl, rfl, rfl, rfl, rfl, fun _ _ => ⟨rfl, rfl, rfl⟩⟩
  have shut := (ShutFrom.shutDown (counted.trans (modSrc_sameForControl i
    (fun r => { r.unlock with state := .faulted, stop := none, faultCause := some cause }) _)) (by simp)).raiseSrc i .faulted
  unfold faultedShut
  dsimp only
  split
  · exact shut.raiseSrc i .stopWanted
  · exact shut

/-- Entry to STOPPING: the record keeps its enrolment and its want and has its deadline. -/
theorem enterStopping_src (i : Source) (s : State) :
    let r := (enterStopping i s).src i
    r.state = .stopping ∧ r.stop = some (s.timebase + BitVec.ofNat 32 (1000 * s.params.stopTimeout)) ∧
      r.want = (s.src i).want ∧ r.withdrawPending = (s.src i).withdrawPending ∧ r.enrolment = (s.src i).enrolment := by
  have shut : (stoppingShut i s).src i = SourceRecord.shut { s.src i with
      state := .stopping, stop := some (timeAfter s.timebase (msToUs s.params.stopTimeout)) } (s.src i).state.streaming := by
    rw [stoppingShut, raiseSrc_src, (shutDown_src i _ _).1, State.modSrc_eq, State.setSrc_src_self]
  have fields (r : SourceRecord) (b : Bool) :
      (r.shut b).state = r.state ∧ (r.shut b).stop = r.stop ∧ (r.shut b).want = r.want ∧
        (r.shut b).withdrawPending = r.withdrawPending ∧ (r.shut b).enrolment = r.enrolment := by
    cases b <;> exact ⟨rfl, rfl, rfl, rfl, rfl⟩
  rw [enterStopping_eq]
  rcases informDeparture_record (s.src i).state (stoppingShut_from i s).left with e | e <;> rw [e, shut]
  · exact fields _ _
  · exact fields _ _

/-- Settles O24: the three entries are a shutdown and the controller's answer. -/
theorem leavingReleasesEverything : Obligations.LeavingReleasesEverything := by
  refine fun i cause s => ⟨fun t ht => ?_, ?_⟩
  · obtain ⟨u, hu, he, hk⟩ : ∃ u, ShutFrom i s u ∧ t = informDeparture i (s.src i).state u ∧ Kept s t := by
      simp only [List.mem_cons, List.not_mem_nil, or_false] at ht
      rcases ht with rfl | rfl | rfl
      · exact ⟨_, stoppingShut_from i s, rfl, (Kept.closed s).enterStopping i (.refl s)⟩
      · exact ⟨_, (heldShut_from i s).absentIfPending, rfl, (Kept.closed s).enterHeld i (.refl s)⟩
      · exact ⟨_, (faultedShut_from i cause s).absentIfPending, rfl, (Kept.closed s).enterFaulted i cause (.refl s)⟩
    obtain ⟨⟨hw, hl, hc, hcl, hst⟩, hq, hline, hintake, hdep, hstay⟩ := he ▸ hu.informed
    exact ⟨hw, hl, hc, hcl, hq, hline, fun h => ⟨(hintake h).1, (hintake h).2, hst h⟩, hdep, hstay, hk⟩
  · obtain ⟨h1, h2, h3, h4, h5⟩ := enterStopping_src i s
    refine ⟨h1, h2, h3, h4, h5, fun l => ?_⟩
    rw [enterStopping_eq]
    refine (StillPending.closed (stoppingShut i s)).informDeparture i _ (.refl _) l _ ?_
    rw [stoppingShut, raiseSrc_notice, Notices.isPending_raise]

/-! ## The notices of an entry -/

theorem shutDown_notice (i : Source) (was : SourceState) (s : State) (l : Link) :
    (shutDown i was s).notice l = s.notice l := by
  have ends (v : State) : (stopPulsing i (if was.streaming then leaveStreaming i v else v)).notice l = v.notice l := by
    split <;> rfl
  exact (ends _).trans (((releaseChain_only i _).notice l).trans ((cancelClaim_only i _).notice l))

/-- The controller's answer raises a notice of its own group, or none. -/
theorem informDeparture_pending (i : Source) (was : SourceState) (s : State) (l : Link) (j : Source) (k : SourceNotice) :
    ((informDeparture i was s).notice l).isPending (.source j k) = (s.notice l).isPending (.source j k) := by
  have other (n : Notices) (h : HandoffNotice) : (n.raise (.handoff h)).isPending (.source j k) = n.isPending (.source j k) :=
    Notices.isPending_raise_ne nofun
  have cut : ((emergencyCut s).notice l).isPending (.source j k) = (s.notice l).isPending (.source j k) := by
    unfold emergencyCut
    dsimp only
    split <;> exact (congrArg (Notices.isPending · _) (raise_notice _ _ l)).trans (other _ _)
  have forced (r : HandoffRecord) :
      ((forceCompletion r s).notice l).isPending (.source j k) = (s.notice l).isPending (.source j k) := by
    unfold forceCompletion
    rw [settleAtOnce_notice]
    exact (congrArg (Notices.isPending · _) (raise_notice _ _ l)).trans (other _ _)
  have aborted : ((abortHandoff s).notice l).isPending (.source j k) = (s.notice l).isPending (.source j k) :=
    (congrArg (Notices.isPending · _) (raise_notice _ _ l)).trans (other _ _)
  unfold informDeparture departure
  split
  · split
    · split
      · split
        · exact forced _
        · split
          · exact aborted
          · rfl
      · split
        · exact cut
        · rfl
    · split
      · exact cut
      · rfl
  · rfl

theorem absentIfPending_notice (i : Source) (s : State) (l : Link) : (absentIfPending i s).notice l = s.notice l := by
  unfold absentIfPending
  split <;> rfl

/-- R16: an entry to HELD raises no notice of a source. -/
theorem enterHeld_pending (i : Source) (s : State) (l : Link) (j : Source) (k : SourceNotice) :
    ((enterHeld i s).notice l).isPending (.source j k) = (s.notice l).isPending (.source j k) := by
  rw [enterHeld_eq, informDeparture_pending, absentIfPending_notice, heldShut, shutDown_notice]
  rfl

/-- R16, R23: the record that entry to HELD leaves, without the withdrawal that waits and with it. -/
theorem enterHeld_src (i : Source) (s : State) :
    let r := (enterHeld i s).src i
    r.stop = none ∧ r.faultCause = none ∧ r.refusalCode = none ∧
      ((s.src i).withdrawPending = false → r.state = .held ∧ r.want = (s.src i).want ∧ r.enrolment = (s.src i).enrolment) ∧
      ((s.src i).withdrawPending = true → r.state = .absent ∧ r.want = false ∧ r.enrolment = none) := by
  have shut : (heldShut i s).src i = SourceRecord.shut { s.src i with
      state := .held, stop := none, faultCause := none, refusalCode := none } (s.src i).state.streaming := by
    rw [heldShut, (shutDown_src i _ _).1, State.modSrc_eq, State.setSrc_src_self]
  have fields (r : SourceRecord) (b : Bool) :
      (r.shut b).state = r.state ∧ (r.shut b).stop = r.stop ∧ (r.shut b).want = r.want ∧
        (r.shut b).faultCause = r.faultCause ∧ (r.shut b).refusalCode = r.refusalCode ∧
        (r.shut b).withdrawPending = r.withdrawPending ∧ (r.shut b).enrolment = r.enrolment := by
    cases b <;> exact ⟨rfl, rfl, rfl, rfl, rfl, rfl, rfl⟩
  obtain ⟨hstate, hstop, hwant, hcause, hcode, hpending, henr⟩ := fields { s.src i with
    state := .held, stop := none, faultCause := none, refusalCode := none } (s.src i).state.streaming
  have record := absentIfPending_src i (heldShut i s)
  rw [shut, hpending] at record
  rw [enterHeld_eq]
  cases hw : (s.src i).withdrawPending
  · rw [if_neg (by simp [hw])] at record
    rcases informDeparture_record (s.src i).state (heldShut_from i s).absentIfPending.left with e | e <;> rw [e, record] <;>
      exact ⟨hstop, hcause, hcode, fun _ => ⟨hstate, hwant, henr⟩, nofun⟩
  · rw [if_pos hw] at record
    rcases informDeparture_record (s.src i).state (heldShut_from i s).absentIfPending.left with e | e <;> rw [e, record] <;>
      exact ⟨hstop, rfl, rfl, nofun, fun _ => ⟨rfl, rfl, rfl⟩⟩

/-- Settles O25, by the record and the notices that an entry to HELD leaves. -/
theorem holdTakesTheSource : Obligations.HoldTakesTheSource := by
  intro s h ha
  have judged (t : State) (hj : judgeHold [] s = accept .ok t) (ht : t.timebase = s.timebase) :
      exec (.hold []) s = .next (answeredOk .ml 0x45 0 t) :=
    congrArg Host.Outcome.next (receiveRequest_accepted h hj ht)
  refine ⟨fun hs => judged s ?_ rfl, fun hs => ⟨_, judged _ ?_ ((Kept.closed s).enterHeld _ (.refl s)).timebase, rfl, ?_⟩⟩
  · exact (onSelected_present ha).trans (if_pos hs)
  · exact (onSelected_present ha).trans (if_neg hs)
  · obtain ⟨h1, h2, h3, h4, h5⟩ := enterHeld_src s.selected s
    exact ⟨h1, h2, h3, fun l => enterHeld_pending _ s l _ _, h4, h5⟩

/-! ## FAULTED -/

/-- The notices of a source's own that an entry to FAULTED raises (R19). -/
theorem enterFaulted_pending (i : Source) (cause : FaultCause) (s : State) (l : Link) (j : Source) (k : SourceNotice) :
    ((enterFaulted i cause s).notice l).isPending (.source j k) =
      (if stopWantedOnFault (s.src i).state cause (Config.freeBit s.free) then
        ((s.notice l).raise (.source i .faulted)).raise (.source i .stopWanted)
      else (s.notice l).raise (.source i .faulted)).isPending (.source j k) := by
  rw [enterFaulted_eq, informDeparture_pending, absentIfPending_notice]
  unfold faultedShut
  dsimp only
  split
  · rw [raiseSrc_notice, raiseSrc_notice, shutDown_notice]
    rfl
  · rw [raiseSrc_notice, shutDown_notice]
    rfl

/-- R19: the record of a fault is unlocked and has no stop deadline, whether the withdrawal that waits ends it or not. -/
theorem enterFaulted_record (i : Source) (cause : FaultCause) (s : State) :
    let r := (enterFaulted i cause s).src i
    r.stop = none ∧ r.locked = false ∧ r.matchCount = 0 ∧
      ((s.src i).withdrawPending = false → r.state = .faulted ∧ r.faultCause = some cause ∧ r.want = (s.src i).want ∧
        r.refusalCode = (s.src i).refusalCode ∧ r.enrolment = (s.src i).enrolment) ∧
      ((s.src i).withdrawPending = true → r.state = .absent ∧ r.faultCause = none) := by
  intro r
  have record : r = _ := enterFaulted_src i cause s
  rw [record]
  cases hw : (s.src i).withdrawPending <;> cases (s.src i).state.streaming
  · exact ⟨rfl, rfl, rfl, fun _ => ⟨rfl, rfl, rfl, rfl, rfl⟩, nofun⟩
  · exact ⟨rfl, rfl, rfl, fun _ => ⟨rfl, rfl, rfl, rfl, rfl⟩, nofun⟩
  · exact ⟨rfl, rfl, rfl, nofun, fun _ => ⟨rfl, rfl⟩⟩
  · exact ⟨rfl, rfl, rfl, nofun, fun _ => ⟨rfl, rfl⟩⟩

/-- R19: where the rule has STOP_WANTED raised. -/
theorem stopWantedOnFault_raised {was : SourceState} {cause : FaultCause}
    (h : was.streaming = true ∨ (was = .requested ∧ cause = .warmTimeout)) (b : Bool) :
    stopWantedOnFault was cause b = true := by
  rcases h with h | ⟨rfl, rfl⟩
  · cases was <;> first | rfl | cases h
  · rfl

/-- R19: where the rule has it not raised. -/
theorem stopWantedOnFault_not_raised {was : SourceState} {cause : FaultCause}
    (h : was ∈ [.off, .stopping, .held] ∨ (was = .requested ∧ cause = .refused)) (b : Bool) :
    stopWantedOnFault was cause b = false := by
  rcases h with h | ⟨rfl, rfl⟩
  · simp only [List.mem_cons, List.not_mem_nil, or_false] at h
    rcases h with rfl | rfl | rfl <;> rfl
  · rfl

/-- Settles O27, by the record and the notices of the entry. -/
theorem entryToFaulted : Obligations.EntryToFaulted := by
  refine ⟨fun i cause s => ?_, fun code s h => ?_⟩
  · obtain ⟨hstop, hlock, hmatch, hfault, habsent⟩ := enterFaulted_record i cause s
    refine ⟨hstop, hlock, hmatch, fun l => ?_, fun hr l => ?_, fun hr l => ?_, hfault, habsent⟩
    · rw [enterFaulted_pending]
      split
      · rw [Notices.isPending_raise_ne (by simp), Notices.isPending_raise]
      · rw [Notices.isPending_raise]
    · rw [enterFaulted_pending, if_pos (stopWantedOnFault_raised hr _), Notices.isPending_raise]
    · rw [enterFaulted_pending, if_neg (by simp [stopWantedOnFault_not_raised hr]), Notices.isPending_raise_ne (by simp)]
  · have judged : judgeRefuseStart [code] s = _ := judgeRefuseStart_byte.trans (onSelected_state (by decide))
    have time : (refuseStart s.selected code s).timebase = s.timebase := enterFaulted_timebase _ _ _
    have answer := receiveFixed_ite (code := 0x43) (n := 1) h rfl (by decide) judged time
    refine ⟨fun hs => congrArg Host.Outcome.next (answer.trans (if_pos hs)),
      fun hs => congrArg Host.Outcome.next (answer.trans (if_neg hs))⟩

/-! ## The deadlines (R9, R12, R14, R20) -/

/-- Settles O31: each expiry takes its deadline when it runs and is reached. -/
theorem sourceDeadlinesExpire : Obligations.SourceDeadlinesExpire := by
  intro i s
  refine ⟨fun d hd hr => ?_, fun d hd hr => ?_, fun d hd hr => ?_, fun d hd hr => ?_, fun h => ?_, fun h => ?_, fun h => ?_,
    fun h => ?_⟩
  · exact congrArg Host.Outcome.next (by rw [expireWarm, hd, expired_of_reached hr])
  · exact congrArg Host.Outcome.next (by rw [expireLinger, hd, expired_of_reached hr])
  · exact congrArg Host.Outcome.next (by rw [expireStop, hd, expired_of_reached hr]; rfl)
  · exact congrArg Host.Outcome.next (by rw [expireStall, hd, expired_of_reached hr])
  · exact congrArg Host.Outcome.next (by rw [expireWarm, expired_of_not_reached h])
  · exact congrArg Host.Outcome.next (by rw [expireLinger, expired_of_not_reached h])
  · exact congrArg Host.Outcome.next (by rw [expireStop, expired_of_not_reached h])
  · exact congrArg Host.Outcome.next (by rw [expireStall, expired_of_not_reached h])

end Sys2Proof.Machine
end

section
/-! Want (R4, R5, R25), the reports (R127 to R129), and the zoom requests and the ramp (R28 to R35). -/

namespace Sys2Proof.Machine

open Sys2Proof

/-! ## Want -/

/-- The planner, through everything that reaches neither the View Stepper nor the Zoom Planner. -/
theorem closed_planner (p : Planner) : Closed (fun t : State => t.planner = p) where
  sources _ _ h := h
  raised _ _ h := h
  pool _ h := h
  flush _ h := h
  port _ _ h := h
  sync _ _ h := h
  handoff _ h := h
  timer _ h := h
  free _ h := h

theorem writeWant_absent {i : Source} {v : Bool} {s : State} (h : (s.src i).state = .absent) : writeWant i v s = s := by
  simp [writeWant, h]

/-- R4: want is written where no rule follows the write. -/
theorem writeWant_plain {i : Source} {v : Bool} {s : State} (h : (s.src i).state ∈ [.live, .stopping, .held, .faulted]) :
    writeWant i v s = s.setSrc i { s.src i with want := v } := by
  unfold writeWant
  cases hs : (s.src i).state <;> simp_all [State.modSrc_eq]

/-- R6: a write of want in OFF. -/
theorem writeWant_off {i : Source} {v : Bool} {s : State} (h : (s.src i).state = .off) :
    writeWant i v s =
      if v = true ∧ (s.src i).want = false then enterRequested i (s.setSrc i { s.src i with want := true })
      else s.setSrc i { s.src i with want := v } := by
  have off : writeWant i v s = if v && !(s.src i).want then enterRequested i (s.modSrc i fun r => { r with want := v })
      else s.modSrc i fun r => { r with want := v } := by simp only [writeWant, h]
  rw [off]
  cases v
  · simp [State.modSrc_eq]
  · simp [State.modSrc_eq]

/-- R5: a write of want in REQUESTED, WARMING or STANDBY, by the linger. -/
theorem writeWant_started {i : Source} {v : Bool} {s : State} (h : (s.src i).state ∈ [.requested, .warming, .standby]) :
    writeWant i v s =
      if v && !(s.src i).want then s.setSrc i { s.src i with want := true, linger := none }
      else if !v && (s.src i).want then startLinger i (s.setSrc i { s.src i with want := false })
      else s := by
  have same (w : Bool) (hw : (s.src i).want = w) : s.setSrc i { s.src i with want := w } = s := by
    rw [← hw]
    exact State.setSrc_self s i
  have started : writeWant i v s =
      if v && !(s.src i).want then
        (s.modSrc i fun r => { r with want := v }).modSrc i fun r => { r with linger := none }
      else if !v && (s.src i).want then startLinger i (s.modSrc i fun r => { r with want := v })
      else s.modSrc i fun r => { r with want := v } := by
    simp only [List.mem_cons, List.not_mem_nil, or_false] at h
    rcases h with h | h | h <;> simp only [writeWant, h]
  rw [started]
  cases v <;> cases hw : (s.src i).want
  · exact same false hw
  · rfl
  · simp [State.modSrc_eq]
  · exact same true hw

theorem startLinger_eq (i : Source) (s : State) :
    startLinger i s = s.setSrc i { s.src i with
      linger := if (s.src i).linger = none then some (s.timebase + BitVec.ofNat 32 (1000 * s.params.lingerTime))
        else (s.src i).linger } := by
  unfold startLinger
  cases hl : (s.src i).linger
  · rfl
  · rw [if_neg (by simp), if_neg (by simp), ← hl]
    exact (State.setSrc_self s i).symm

theorem startLinger_src_ne {i j : Source} (s : State) (h : j ≠ i) : (startLinger i s).src j = s.src j := by
  rw [startLinger_eq, State.setSrc_src_ne _ _ h]

theorem enterRequested_src_ne {i j : Source} (s : State) (h : j ≠ i) : (enterRequested i s).src j = s.src j := by
  rw [enterRequested_src, if_neg h]

/-- The four classes of states a write of want tells apart. -/
theorem SourceState.want_classes (x : SourceState) :
    x = .absent ∨ x = .off ∨ x ∈ [.requested, .warming, .standby] ∨ x ∈ [.live, .stopping, .held, .faulted] := by
  cases x <;> decide

/-- A write of want reaches the source's own record only. -/
theorem writeWant_src_ne {i j : Source} (v : Bool) (s : State) (h : j ≠ i) : (writeWant i v s).src j = s.src j := by
  rcases (s.src i).state.want_classes with hs | hs | hs | hs
  · rw [writeWant_absent hs]
  · rw [writeWant_off hs]
    split
    · rw [enterRequested_src_ne _ h, State.setSrc_src_ne _ _ h]
    · rw [State.setSrc_src_ne _ _ h]
  · rw [writeWant_started hs]
    split
    · rw [State.setSrc_src_ne _ _ h]
    · split
      · rw [startLinger_src_ne _ h, State.setSrc_src_ne _ _ h]
      · rfl
  · rw [writeWant_plain hs, State.setSrc_src_ne _ _ h]

/-- R4: a write of want to a source outside ABSENT is kept. -/
theorem writeWant_want {i : Source} (v : Bool) {s : State} (h : (s.src i).state ≠ .absent) :
    ((writeWant i v s).src i).want = v := by
  rcases (s.src i).state.want_classes with hs | hs | hs | hs
  · exact absurd hs h
  · rw [writeWant_off hs]
    split
    · next hv => rw [enterRequested_src, if_pos rfl, State.setSrc_src_self, hv.1]
    · rw [State.setSrc_src_self]
  · rw [writeWant_started hs]
    cases v <;> cases hw : (s.src i).want
    · exact hw
    · exact (congrArg SourceRecord.want (by rw [startLinger_eq, State.setSrc_src_self])).trans
        (congrArg SourceRecord.want (State.setSrc_src_self _ _ _))
    · exact congrArg SourceRecord.want (State.setSrc_src_self _ _ _)
    · exact hw
  · rw [writeWant_plain hs, State.setSrc_src_self]

/-- Writes of want along a list without repetition: each source of the list has its own, the others none. -/
theorem writeWants_along (m : SourceSet) {l : List Source} (hl : l.Nodup) (s : State) (i : Source) :
    let t := l.foldl (fun s i => writeWant i (m.get i) s) s
    ((i ∉ l ∨ (s.src i).state = .absent) → t.src i = s.src i) ∧
      (i ∈ l → (s.src i).state ≠ .absent → (t.src i).want = m.get i) := by
  induction l generalizing s with
  | nil => exact ⟨fun _ => rfl, nofun⟩
  | cons j l ih =>
    obtain ⟨hj, hl⟩ := List.nodup_cons.mp hl
    obtain ⟨hsame, hwant⟩ := ih hl (writeWant j (m.get j) s)
    rw [List.foldl_cons]
    by_cases hi : i = j
    · subst hi
      refine ⟨fun h => ?_, fun _ ha => ?_⟩
      · have ha := h.resolve_left fun h => h List.mem_cons_self
        rw [hsame (.inl hj), writeWant_absent ha]
      · rw [hsame (.inl hj)]
        exact writeWant_want _ ha
    · rw [writeWant_src_ne _ _ hi] at hsame hwant
      refine ⟨fun h => hsame (h.imp_left fun h hm => h (List.mem_cons_of_mem j hm)), fun h ha => hwant ?_ ha⟩
      exact (List.mem_cons.mp h).resolve_left hi

theorem SourceSet.union_get (a b : SourceSet) (i : Source) : (SourceSet.union a b).get i = (a.get i || b.get i) := by
  simp [SourceSet.union]

/-- Settles O30: the writes along S0 to S3, and a write by the class of the state. -/
theorem setKeepWarmWrites : Obligations.SetKeepWarmWrites := by
  refine ⟨fun b s h => ⟨fun hb => ?_, fun m hm => ?_⟩, fun i v s => ⟨writeWant_absent, writeWant_off, fun hs => ⟨?_, ?_, ?_⟩,
    writeWant_plain⟩⟩
  · refine congrArg Host.Outcome.next (receiveFixed_refused h rfl (by decide) ?_)
    have none : sourceMask b = none := if_pos hb
    simp only [judgeSetKeepWarm, parseByte, none]
  · have kept := (Kept.closed s).setKeepWarm m (.refl s)
    have judged : judgeSetKeepWarm [b] s = accept .ok (setKeepWarm m s) := by
      simp only [judgeSetKeepWarm, parseByte, hm]
    have along := writeWants_along (SourceSet.union m s.planner.planned) (by decide : Source.all.Nodup)
      (s.setPlanner { s.planner with keepWarm := m })
    have mem (i : Source) : i ∈ Source.all := by cases i <;> decide
    refine ⟨_, congrArg Host.Outcome.next (receiveFixed_accepted h rfl (by decide) judged kept.timebase), ?_, ?_,
      fun i ha => ?_, fun i ha => (along i).1 (.inr ha), kept⟩
    · simp only [setKeepWarm, writeWants, SourceSet.union_get]
      rfl
    · exact (closed_planner { s.planner with keepWarm := m }).writeWants _ rfl
    · rw [← SourceSet.union_get]
      exact (along i).2 (mem i) ha
  · rintro rfl hw
    rw [writeWant_started hs, hw]
    rfl
  · rintro rfl hw
    rw [writeWant_started hs, hw]
    refine (startLinger_eq i _).trans ?_
    rw [State.setSrc_setSrc, State.setSrc_src_self]
    rfl
  · rintro rfl
    rw [writeWant_started hs]
    simp

/-- A request that its block accepts with any status. -/
theorem receiveFixed_answered {l : Link} {code : Byte} {n : Nat} {judge : List Byte → State → Judged} {f : List Byte}
    {st : Status} {s t : State} (h : LinkFree l s) (hf : f.length = n) (hn : n ≤ 60) (hj : judge f s = accept st t)
    (ht : t.timebase = s.timebase) :
    receiveRequest l code (some (.fixed n judge)) f s = answered l code st [] .nothing n t := by
  subst hf
  exact receiveRequest_free (j := accept st t) h hn (decide_eq_true rfl) hj ht

/-! ## Reports -/

theorem judgePostReport_parsed {f : List Byte} {r : Report} {flagsOk : Bool} {s : State} (h : parseReport f = some (r, flagsOk)) :
    judgePostReport f s = onSelected (fun i => judgeReport i r flagsOk s) s := by rw [judgePostReport, h]

theorem parseReport_length {f : List Byte} {x : Report × Bool} (h : parseReport f = some x) : f.length = 13 := by
  unfold parseReport at h
  split at h
  · rfl
  · cases h

theorem SourceState.streaming_ne_absent {x : SourceState} (h : x.streaming = true) : x ≠ .absent := by
  rintro rfl
  cases h

theorem isLate_iff {last : Option FrameNo} {frame : FrameNo} :
    isLate last frame = false ↔ ∀ n, last = some n → frameLater frame n = true := by
  cases last <;> simp [isLate]

theorem ReportUnit.accept_room {u : ReportUnit} (r : Report) (h : u.queue.length < 4) :
    u.accept r = ({ u with queue := u.queue ++ [r] }, false) := if_pos h

theorem ReportUnit.accept_full {u : ReportUnit} (r : Report) (h : 4 ≤ u.queue.length) :
    u.accept r = ({ u with queue := u.queue.tail ++ [r] }, true) := if_neg (Nat.not_lt.mpr h)

/-- R129: the report of a frame accepted latest is the last of the queue with its number. -/
theorem ReportUnit.forFrame_latest {u : ReportUnit} {n : FrameNo} {before after : List Report} {r : Report}
    (hq : u.queue = before ++ r :: after) (hr : r.frame = n) (ha : ∀ x ∈ after, x.frame ≠ n) :
    (u.forFrame n).getLast? = some r := by
  have none : after.filter (fun x => decide (x.frame = n)) = [] := by
    simpa [List.filter_eq_nil_iff] using ha
  rw [ReportUnit.forFrame, hq, List.filter_append, List.filter_cons_of_pos (by simpa using hr), none]
  exact List.getLast?_concat

theorem ReportUnit.forFrame_none {u : ReportUnit} {n : FrameNo} (h : ∀ x ∈ u.queue, x.frame ≠ n) : u.forFrame n = [] := by
  simpa [ReportUnit.forFrame, List.filter_eq_nil_iff] using h

/-- Settles O32: a report by the check that refuses it or by the room in its queue, and the matching by the latest of its
frame. -/
theorem reportsQueueAndMatch : Obligations.ReportsQueueAndMatch := by
  refine ⟨fun f r flagsOk s h hf => ?_, fun u n => ⟨rfl, fun before r after hq hr ha => ?_, fun hn => ?_⟩⟩
  · have len := parseReport_length hf
    have judged := judgePostReport_parsed (s := s) hf
    have refused (st : Status) (hj : judgePostReport f s = refuse st s) :
        exec (.postReport f) s = .next (refused .ml 0x48 st 13 s) :=
      congrArg Host.Outcome.next (receiveFixed_refused h len (by decide) hj)
    refine ⟨fun hs => refused _ ?_, fun hs => ?_⟩
    · by_cases ha : (s.src s.selected).state = .absent
      · exact judged.trans (onSelected_absent ha)
      · rw [judged, onSelected_present ha, judgeReport, hs]
        rfl
    · rw [onSelected_present (SourceState.streaming_ne_absent hs), judgeReport, hs] at judged
      refine ⟨fun hr => refused _ ?_, fun hr => ⟨fun n hn hl => refused _ ?_, fun hl => ?_⟩⟩
      · rw [judged, hr]
        rfl
      · rw [judged, hr, hn]
        simp [isLate, hl]
      · rw [hr, isLate_iff.mpr hl] at judged
        refine ⟨fun hroom => ?_, fun hfull => ?_⟩
        · rw [ReportUnit.accept_room r hroom] at judged
          exact congrArg Host.Outcome.next (receiveFixed_accepted h len (by decide) judged rfl)
        · rw [ReportUnit.accept_full r hfull] at judged
          exact congrArg Host.Outcome.next (receiveFixed_answered h len (by decide) judged rfl)
  · have found := ReportUnit.forFrame_latest hq hr ha
    exact ⟨found, by rw [ReportUnit.matching, found]; rfl⟩
  · rw [ReportUnit.matching, ReportUnit.forFrame_none hn]
    exact ⟨rfl, rfl⟩

/-! ## Zoom requests -/

theorem yesNo_none {b : Byte} (h : 1 < b.toNat) : yesNo b = none := by
  unfold yesNo
  split
  · exact absurd h (by decide)
  · exact absurd h (by decide)
  · rfl

theorem judgePostZoom_range {t1 t0 n1 n0 tag rep : Byte} {s : State} (h : 1023 < (half n1 n0).toNat ∨ 1 < rep.toNat) :
    judgePostZoom [t1, t0, n1, n0, tag, rep] s = refuse .range s := by
  simp only [judgePostZoom, parseZoom]
  rcases h with h | h
  · split
    · rw [if_pos h]
    · rfl
  · rw [yesNo_none h]

theorem judgePostZoom_ok {t1 t0 n1 n0 tag rep : Byte} {replace : Bool} {s : State} (h : (half n1 n0).toNat ≤ 1023)
    (hr : yesNo rep = some replace) :
    judgePostZoom [t1, t0, n1, n0, tag, rep] s = judgeZoom (half t1 t0).toNat (half n1 n0).toNat tag replace s := by
  simp only [judgePostZoom, parseZoom, hr]
  rw [if_neg (Nat.not_lt.mpr h)]

/-- R30: a request that replaces, by whether anything was discarded. -/
theorem replaceZoom_eq (z : ZoomRequest) (s : State) :
    replaceZoom z s =
      if s.planner.queue ≠ [] ∨ s.planner.ramp ≠ none then
        raise (.part .zoomDiscarded) { s with planner := { s.planner with queue := [z], ramp := none } }
      else { s with planner := { s.planner with queue := [z], ramp := none } } := by
  have discarded : (!s.planner.queue.isEmpty || s.planner.ramp.isSome) = true ↔
      s.planner.queue ≠ [] ∨ s.planner.ramp ≠ none := by
    simp [Option.isSome_iff_ne_none]
  unfold replaceZoom
  simp only [discarded]
  rfl

/-- A fold of a choice of two is a member's value that stands in the choice's order to all of them. -/
theorem foldl_choice {f : Nat → Nat → Nat} {r : Nat → Nat → Prop} (g : Source → Nat)
    (hf : ∀ a b, (f a b = a ∨ f a b = b) ∧ r (f a b) a ∧ r (f a b) b) (htrans : ∀ a b c, r a b → r b c → r a c)
    (hrefl : ∀ a, r a a) (i : Source) (l : List Source) :
    let m := l.foldl (fun m j => f m (g j)) (g i)
    (∃ j ∈ i :: l, g j = m) ∧ ∀ j ∈ i :: l, r m (g j) := by
  have general (x : Nat) (l : List Source) :
      let m := l.foldl (fun m j => f m (g j)) x
      (m = x ∨ ∃ j ∈ l, g j = m) ∧ r m x ∧ ∀ j ∈ l, r m (g j) := by
    induction l generalizing x with
    | nil => exact ⟨.inl rfl, hrefl x, nofun⟩
    | cons a l ih =>
      obtain ⟨hmem, hx, hall⟩ := ih (f x (g a))
      obtain ⟨hor, hfx, hfa⟩ := hf x (g a)
      refine ⟨?_, htrans _ _ _ hx hfx, fun j hj => ?_⟩
      · rcases hmem with h | ⟨j, hj, h⟩
        · rcases hor with e | e
          · exact .inl (h.trans e)
          · exact .inr ⟨a, List.mem_cons_self, (h.trans e).symm⟩
        · exact .inr ⟨j, List.mem_cons_of_mem a hj, h⟩
      · rcases List.mem_cons.mp hj with rfl | hj
        · exact htrans _ _ _ hx hfa
        · exact hall j hj
  obtain ⟨hmem, hi, hall⟩ := general (g i) l
  refine ⟨?_, fun j hj => ?_⟩
  · rcases hmem with h | ⟨j, hj, h⟩
    · exact ⟨i, List.mem_cons_self, h.symm⟩
    · exact ⟨j, List.mem_cons_of_mem i hj, h⟩
  · rcases List.mem_cons.mp hj with rfl | hj
    · exact hi
    · exact hall j hj

theorem mem_enrolled {s : State} {i : Source} : i ∈ enrolled s ↔ (s.src i).state ≠ .absent := by
  have mem : i ∈ Source.all := by cases i <;> decide
  simp [enrolled, mem]

/-- R28: the interval of the enrolled sources, from the smallest B to the largest L. -/
theorem zoomInterval_spec {s : State} (h : ∃ i, (s.src i).state ≠ .absent) :
    ((∃ i, (s.src i).state ≠ .absent ∧ (s.enr i).base = (zoomInterval s).1) ∧
      ∀ i, (s.src i).state ≠ .absent → (zoomInterval s).1 ≤ (s.enr i).base) ∧
    (∃ i, (s.src i).state ≠ .absent ∧ (s.enr i).limit = (zoomInterval s).2) ∧
      ∀ i, (s.src i).state ≠ .absent → (s.enr i).limit ≤ (zoomInterval s).2 := by
  obtain ⟨i, hi⟩ := h
  simp only [← mem_enrolled] at hi ⊢
  unfold zoomInterval
  cases he : enrolled s with
  | nil => rw [he] at hi; cases hi
  | cons a rest =>
    have low := foldl_choice (f := min) (r := (· ≤ ·)) (fun j => (s.enr j).base) (fun a b => by omega)
      (fun _ _ _ => Nat.le_trans) Nat.le_refl a rest
    have high := foldl_choice (f := max) (r := (· ≥ ·)) (fun j => (s.enr j).limit) (fun a b => by omega)
      (fun _ _ _ h h' => Nat.le_trans h' h) Nat.le_refl a rest
    exact ⟨low, high⟩

theorem zoomInterval_none {s : State} (h : ∀ i, (s.src i).state = .absent) : zoomInterval s = (64, 12800) := by
  have none : enrolled s = [] := List.eq_nil_iff_forall_not_mem.mpr fun i hi => mem_enrolled.mp hi (h i)
  rw [zoomInterval, none]

/-- The ramp of a planner with nothing queued and none active does not advance. -/
theorem advanceRamp_idle {s : State} (hr : s.planner.ramp = none) (hq : s.planner.queue = []) : advanceRamp s = s := by
  simp only [advanceRamp, Planner.activate, hr, hq, Planner.advance]
  rfl

/-- Settles O33: POST_ZOOM by its checks and by what it discards, the interval of the target, and FLUSH_ZOOM. -/
theorem zoomRequestsQueue : Obligations.ZoomRequestsQueue := by
  refine ⟨fun t1 t0 n1 n0 tag rep s h => ⟨fun hr => ?_, fun hs hr hfull => ?_, fun hs hr hroom => ?_, fun hs hr hq hn => ?_,
    fun hs hr hd => ?_⟩, fun s target low high hi => ?_, fun s h => ⟨?_, fun t hq hr => advanceRamp_idle hr hq⟩⟩
  · exact congrArg Host.Outcome.next (receiveFixed_refused h rfl (by decide) (judgePostZoom_range hr))
  · subst hr
    refine congrArg Host.Outcome.next (receiveFixed_refused h rfl (by decide) ((judgePostZoom_ok hs rfl).trans ?_))
    simp [judgeZoom, zoomQueueSize, Nat.not_lt.mpr hfull]
  · subst hr
    refine congrArg Host.Outcome.next (receiveFixed_answered h rfl (by decide) ((judgePostZoom_ok hs rfl).trans ?_) rfl)
    simp only [judgeZoom, zoomQueueSize, hroom, if_true, Bool.false_eq_true, if_false]
    rfl
  · subst hr
    refine congrArg Host.Outcome.next (receiveFixed_answered h rfl (by decide) ((judgePostZoom_ok hs rfl).trans ?_) rfl)
    simp only [judgeZoom, if_true, replaceZoom_eq, hq, hn, ne_eq, not_true_eq_false, or_self, if_false]
    rfl
  · subst hr
    refine congrArg Host.Outcome.next (receiveFixed_answered h rfl (by decide) ((judgePostZoom_ok hs rfl).trans ?_) rfl)
    simp only [judgeZoom, if_true, replaceZoom_eq, if_pos hd]
    rfl
  · have interval : zoomInterval s = (low, high) := by
      rcases hi with ⟨ha, rfl, rfl⟩ | ⟨⟨⟨a, ha, hal⟩, hlow⟩, ⟨b, hb, hbh⟩, hhigh⟩
      · exact zoomInterval_none ha
      · obtain ⟨⟨⟨c, hc, hcl⟩, hl⟩, ⟨d, hd, hdh⟩, hh⟩ := zoomInterval_spec ⟨a, ha⟩
        refine Prod.ext ?_ ?_
        · have h1 := hl a ha
          have h2 := hlow c hc
          omega
        · have h1 := hh b hb
          have h2 := hhigh d hd
          omega
    rw [clampTarget, interval]
    rfl
  · exact congrArg Host.Outcome.next (receiveFixed_accepted h rfl (by decide) rfl rfl)

/-! ## The ramp -/

theorem Ramp.zoomAt_end (r : Ramp) : r.zoomAt r.steps = r.target := by
  unfold Ramp.zoomAt
  split
  · rfl
  · next h =>
    rw [Int.mul_tdiv_cancel _ (by omega)]
    omega

/-- R34, R35: the advance of an active ramp, to its next step or to its target. -/
theorem Planner.advance_ramp {p : Planner} {r : Ramp} (h : p.ramp = some r) :
    (r.index + 1 < r.steps →
      p.advance = ({ p with commanded := r.zoomAt (r.index + 1), ramp := some { r with index := r.index + 1 } }, false)) ∧
    ((r.steps = 0 ∨ r.index + 1 = r.steps) →
      p.advance = ({ p with commanded := r.target, ramp := none, lastReachedTag := r.tag }, true)) := by
  unfold Planner.advance
  simp only [h]
  refine ⟨fun hi => ?_, fun hi => ?_⟩
  · have next : (if r.steps = 0 then 0 else r.index + 1) = r.index + 1 := if_neg (by omega)
    rw [next, if_neg (by omega)]
  · have reached : (if r.steps = 0 then 0 else r.index + 1) = r.steps := by split <;> omega
    rw [reached, if_pos rfl, Ramp.zoomAt_end]

theorem advanceRamp_active {s : State} {r : Ramp} (h : s.planner.ramp = some r) :
    advanceRamp s =
      if s.planner.advance.2 then raise (.handoff .zoomReached) (s.setPlanner s.planner.advance.1)
      else s.setPlanner s.planner.advance.1 := by
  have active : s.planner.activate = s.planner := by simp only [Planner.activate, h]
  rw [advanceRamp, active]

/-- Settles O35, by whether a ramp is active and whether it ends. -/
theorem rampAdvances : Obligations.RampAdvances := by
  refine fun s => ⟨advanceRamp_idle, fun z rest hr hq => ?_, fun r hr hi => ?_, fun r hr hi => ?_⟩
  · simp only [advanceRamp, Planner.activate, hr, hq]
    rfl
  · have steps : r.steps ≠ 0 := by omega
    rw [advanceRamp_active hr, (Planner.advance_ramp hr).1 hi, if_neg Bool.false_ne_true]
    simp only [Ramp.zoomAt, if_neg steps]
    rfl
  · rw [advanceRamp_active hr, (Planner.advance_ramp hr).2 hi, if_pos rfl]
    rfl

end Sys2Proof.Machine
end

section
/-! The wanted source, the append and the calibration curve (O34, O36, O38). -/

namespace Sys2Proof.Machine

open Sys2Proof

/-! ## The wanted source and the approach sources (O34) -/

theorem SourceState.available_iff (x : SourceState) :
    x.available = true ↔ x ∈ [.off, .requested, .warming, .standby, .live, .stopping] := by cases x <;> decide

theorem nearestBelow_some {s : State} {l : List Source} (c : Nat) (h : l ≠ []) :
    ∃ w, nearestBelow s l c = some w ∧ NearestBelow s l c w := by
  cases hw : nearestBelow s l c with
  | none => exact absurd (nearestBelow_eq_none.mp hw) h
  | some w => exact ⟨w, rfl, nearestBelow_spec hw⟩

/-- R39 case 2: without a reference source in V. -/
theorem wanted_without {s : State} {q : Option Source} (c : Nat) (h : ∀ p, q = some p → p ∉ availableSources s) :
    wanted s q c = nearestBelow s (availableSources s) c := by
  cases q with
  | none => rfl
  | some p =>
    have hp : ¬ (s.src p).state.available = true := fun ha => h p rfl (mem_availableSources.mpr ha)
    simp only [wanted, if_neg hp, wantedWithoutReference]

theorem wanted_available {s : State} {p : Source} (c : Nat) (h : p ∈ availableSources s) :
    wanted s (some p) c = wantedFrom s p c := by
  simp only [wanted, if_pos (mem_availableSources.mp h)]

/-- R39: a source above the reference whose switch-up zoom is reached. -/
theorem wantedFrom_up {s : State} {p : Source} {c : Nat}
    (h : ∃ u ∈ availableSources s, (s.enr p).base < (s.enr u).base ∧ (s.enr u).switchUp ≤ c) :
    ∃ w ∈ availableSources s, wantedFrom s p c = some w ∧ (s.enr p).base < (s.enr w).base ∧ (s.enr w).switchUp ≤ c ∧
      ∀ u ∈ availableSources s, (s.enr p).base < (s.enr u).base → (s.enr u).switchUp ≤ c →
        (s.enr u).base ≤ (s.enr w).base := by
  unfold wantedFrom
  cases hw : largestBase s ((availableSources s).filter fun i =>
      decide ((s.enr p).base < (s.enr i).base) && decide ((s.enr i).switchUp ≤ c)) with
  | none =>
    obtain ⟨u, hu, hb, hc⟩ := h
    have hn := List.filter_eq_nil_iff.mp (largestBase_eq_none.mp hw) u hu
    simp [hb, hc] at hn
  | some w =>
    have hm := largestBase_mem hw
    simp only [List.mem_filter, Bool.and_eq_true, decide_eq_true_eq] at hm
    exact ⟨w, hm.1, by simp only [hw], hm.2.1, hm.2.2, fun u hu hb hc => largestBase_le hw u (by simp [hu, hb, hc])⟩

/-- R39: with no source above to switch to, the reference or a source below it. -/
theorem wantedFrom_down {s : State} {p : Source} {c : Nat}
    (h : ∀ u ∈ availableSources s, (s.enr p).base < (s.enr u).base → c < (s.enr u).switchUp) :
    wantedFrom s p c = if c < (s.enr p).switchDown then
      (nearestBelow s ((availableSources s).filter fun i => decide ((s.enr i).base < (s.enr p).base)) c).or (some p)
      else some p := by
  have hn : largestBase s ((availableSources s).filter fun i =>
      decide ((s.enr p).base < (s.enr i).base) && decide ((s.enr i).switchUp ≤ c)) = none := by
    refine largestBase_eq_none.mpr (List.filter_eq_nil_iff.mpr fun u hu => ?_)
    have := h u hu
    simp only [Bool.and_eq_true, decide_eq_true_eq]
    omega
  simp only [wantedFrom, hn]
  split
  · cases nearestBelow s ((availableSources s).filter fun i => decide ((s.enr i).base < (s.enr p).base)) c <;> rfl
  · rfl

theorem BasesOk.available {s : State} (h : BasesOk s) {i j : Source} (hi : i ∈ availableSources s)
    (hj : j ∈ availableSources s) (hb : (s.enr i).base = (s.enr j).base) : i = j :=
  Decidable.byContradiction fun hne => h i j hne (SourceState.available_ne_absent (mem_availableSources.mp hi))
    (SourceState.available_ne_absent (mem_availableSources.mp hj)) hb

theorem mem_approachAbove {s : State} (hb : BasesOk s) {p n : Source} {c : Nat} :
    n ∈ (approachAbove s p c).toList ↔ ApproachesFromAbove s p n c := by
  unfold approachAbove ApproachesFromAbove
  simp only [Option.mem_toList, Option.filter_eq_some_iff, decide_eq_true_eq]
  constructor
  · rintro ⟨hs, hc⟩
    have hm := smallestBase_mem hs
    simp only [List.mem_filter, decide_eq_true_eq] at hm
    exact ⟨hm.1, hm.2, fun k hk hp => smallestBase_le hs k (by simp [hk, hp]), by omega⟩
  · rintro ⟨hm, hp, hle, hc⟩
    refine ⟨?_, by omega⟩
    cases hs : smallestBase s ((availableSources s).filter fun i => decide ((s.enr p).base < (s.enr i).base)) with
    | none =>
      have hn := List.filter_eq_nil_iff.mp (smallestBase_eq_none.mp hs) n hm
      exact absurd hp (by simpa using hn)
    | some w =>
      have hw := smallestBase_mem hs
      simp only [List.mem_filter, decide_eq_true_eq] at hw
      have h1 := smallestBase_le hs n (by simp [hm, hp])
      have h2 := hle w hw.1 hw.2
      exact congrArg some (hb.available hw.1 hm (by omega))

theorem mem_approachBelow {s : State} (hb : BasesOk s) {p n : Source} {c : Nat} :
    n ∈ (approachBelow s p c).toList ↔ ApproachesFromBelow s p n c := by
  unfold approachBelow ApproachesFromBelow
  simp only [Option.mem_toList, Option.filter_eq_some_iff, decide_eq_true_eq]
  constructor
  · rintro ⟨hs, hc⟩
    have hm := largestBase_mem hs
    simp only [List.mem_filter, decide_eq_true_eq] at hm
    exact ⟨hm.1, hm.2, fun k hk hp => largestBase_le hs k (by simp [hk, hp]), hc⟩
  · rintro ⟨hm, hp, hle, hc⟩
    refine ⟨?_, hc⟩
    cases hs : largestBase s ((availableSources s).filter fun i => decide ((s.enr i).base < (s.enr p).base)) with
    | none =>
      have hn := List.filter_eq_nil_iff.mp (largestBase_eq_none.mp hs) n hm
      exact absurd hp (by simpa using hn)
    | some w =>
      have hw := largestBase_mem hs
      simp only [List.mem_filter, decide_eq_true_eq] at hw
      have h1 := largestBase_le hs n (by simp [hm, hp])
      have h2 := hle w hw.1 hw.2
      exact congrArg some (hb.available hw.1 hm (by omega))

/-- Settles O34: the largest, the smallest and the nearest base of the lists of R37 to R40. -/
theorem wantedAndApproachSources : Obligations.WantedAndApproachSources := by
  unfold Obligations.WantedAndApproachSources
  refine ⟨fun s i => mem_availableSources.trans (SourceState.available_iff _), fun s => ⟨?_, ?_, ?_⟩,
    fun s q c => ⟨fun he => ?_, fun hv hq => ?_, ?_⟩, fun s q c n hb => ?_⟩
  · intro hp
    simp only [reference, hp]
  · intro hr
    cases hp : s.handoff.primary <;> simp only [reference, hp, hr]
  · intro p r hp hr
    cases hph : r.phase <;> simp [reference, hp, hr, hph]
  · rw [wanted_without c fun p _ => by simp [he], nearestBelow_eq_none, he]
  · rw [wanted_without c hq]
    exact nearestBelow_some c hv
  · rintro p rfl hp
    rw [wanted_available c hp]
    refine ⟨wantedFrom_up, fun hn => ⟨fun hc hd => ?_, fun hc hd => ?_, fun hc => ?_⟩⟩
    · obtain ⟨d, hd, hdb⟩ := hd
      obtain ⟨w, hw, hs⟩ := nearestBelow_some (s := s)
        (l := (availableSources s).filter fun i => decide ((s.enr i).base < (s.enr p).base)) c
        (List.ne_nil_of_mem (List.mem_filter.mpr ⟨hd, decide_eq_true hdb⟩))
      exact ⟨w, by rw [wantedFrom_down hn, if_pos hc, hw]; rfl, hs⟩
    · have he : (availableSources s).filter (fun i => decide ((s.enr i).base < (s.enr p).base)) = [] :=
        List.filter_eq_nil_iff.mpr fun d hm => by simpa using hd d hm
      rw [wantedFrom_down hn, if_pos hc, nearestBelow_eq_none.mpr he]
      rfl
    · rw [wantedFrom_down hn, if_neg (Nat.not_lt.mpr hc)]
  · cases q with
    | none => simp [approachSources]
    | some p =>
      by_cases ha : (s.src p).state.available = true
      · simp only [approachSources, if_pos ha, List.mem_append, mem_approachAbove hb, mem_approachBelow hb,
          Option.some.injEq, exists_eq_left', mem_availableSources.mpr ha, true_and]
      · simp [approachSources, ha, mem_availableSources]

/-! ## The append (O36) -/

theorem roomInRing_of_room {s : State} (h : s.view.ring.length < 32) : roomInRing s = { state := s, names := [] } := by
  rw [roomInRing, if_neg (by unfold ringSize; omega)]
  rfl

theorem Stream.pinsOn_eq (x : Stream) (seq : Seq) :
    x.pinsOn seq = (x.pendingSet.filter fun p => decide (p.seq = seq)).flatMap fun p => p.buffers := rfl

/-- R84: what the loss of a record's pending pins leaves of a stream. -/
theorem Stream.lose_eq (x : Stream) (seq : Seq) :
    x.lose seq = { x with
      skip := x.skip || decide ((∃ p ∈ x.pendingSet, p.seq = seq) ∧ x.state = .running ∧ x.config.take = .sequential)
      pendingSet := x.pendingSet.filter fun p => decide (p.seq ≠ seq) } := by
  unfold Stream.lose
  congr 1
  rw [Bool.eq_iff_iff]
  simp [and_assoc]

/-- R84: a full ring loses its oldest record, on the streams and on the links. -/
theorem roomInRing_full {s : State} {o : ViewRecord} {rest : List ViewRecord} (hr : s.view.ring = o :: rest)
    (hl : 32 ≤ s.view.ring.length) :
    (roomInRing s).state.view = { s.view with ring := rest } ∧
      (∀ st, (roomInRing s).state.stream st = (s.stream st).lose o.seq) ∧
      (roomInRing s).names = (s.stream .p).pinsOn o.seq ++ (s.stream .r).pinsOn o.seq ∧
      (∀ l, (roomInRing s).state.notice l =
        if s.view.cursors.get l = o.seq then (s.notice l).raise (.part .cursorOverrun) else s.notice l) ∧
      (roomInRing s).state.pool = s.pool ∧ (roomInRing s).state.sources = s.sources ∧ Kept s (roomInRing s).state := by
  have hroom : roomInRing s = overwriteOldest s := if_pos hl
  rw [hroom]
  have hview := overwriteOldest_view s
  have hkept : Kept s (overwriteOldest s).state := by
    simp only [overwriteOldest, hr]
    exact (Kept.closed s).dropOldest o rest (by rw [loseBoth_view, hr])
      ((Kept.closed s).overrunLink _ _ ((Kept.closed s).overrunLink _ _ ((Kept.closed s).loseBoth _ (.refl s))))
  refine ⟨by rw [hview, hr]; rfl, ?_⟩
  simp only [overwriteOldest, hr] at hkept ⊢
  have hlose : ∀ st, ((s.modStream .p fun x => x.lose o.seq).modStream .r fun x => x.lose o.seq).stream st =
      (s.stream st).lose o.seq := by
    intro st
    cases st <;> simp
  have hrest : ((s.modStream .p fun x => x.lose o.seq).modStream .r fun x => x.lose o.seq).view = s.view ∧
      ((s.modStream .p fun x => x.lose o.seq).modStream .r fun x => x.lose o.seq).notices = s.notices ∧
      ((s.modStream .p fun x => x.lose o.seq).modStream .r fun x => x.lose o.seq).pool = s.pool ∧
      ((s.modStream .p fun x => x.lose o.seq).modStream .r fun x => x.lose o.seq).sources = s.sources :=
    ⟨rfl, rfl, rfl, rfl⟩
  generalize (s.modStream .p fun x => x.lose o.seq).modStream .r (fun x => x.lose o.seq) = u at hkept hlose hrest ⊢
  obtain ⟨hv, hn, hp, hsrc⟩ := hrest
  obtain ⟨hnotice, hsame⟩ := overrunLinks o.seq u
  generalize [Link.al, Link.ml].foldl (overrunLink o.seq) u = v at hkept hnotice hsame ⊢
  have hstream : v.streams = u.streams := by rw [← hsame]
  have hpool : v.pool = u.pool := by rw [← hsame]
  have hsources : v.sources = u.sources := by rw [← hsame]
  refine ⟨fun st => ?_, trivial, fun l => ?_, hpool.trans hp, hsources.trans hsrc, hkept⟩
  · rw [← hlose st]
    exact congrArg (fun x => PerStream.get x st) hstream
  · have hu : u.notice l = s.notice l := congrArg (fun x => PerLink.get x l) hn
    rw [← hu, ← hv]
    exact hnotice l

theorem placePending_stream (r : ViewRecord) (s : State) (st su : StreamId) :
    (placePending r s st).stream su =
      if st = su ∧ (s.stream su).state = .running ∧ (s.stream su).config.take = .sequential then
        { s.stream su with pendingSet := (s.stream su).pendingSet ++ [{ seq := r.seq, buffers := holdNames s r }] }
      else s.stream su := by
  rw [placePending_eq]
  by_cases h : st = su
  · subst h
    by_cases hc : (s.stream st).state = .running ∧ (s.stream st).config.take = .sequential <;> simp [hc]
  · split <;> simp [h, Ne.symm h]

theorem placePending_buffer (r : ViewRecord) (s : State) (st : StreamId) (b : BufferId) :
    (placePending r s st).buffer b = { s.buffer b with
      pins := (s.buffer b).pins + if (s.stream st).state = .running ∧ (s.stream st).config.take = .sequential
        then (holdNames s r).count b else 0 } := by
  rw [placePending_eq]
  split <;> simp

theorem placePending_rest (r : ViewRecord) (s : State) (st : StreamId) :
    (placePending r s st).view = s.view ∧ (placePending r s st).notices = s.notices ∧
      (placePending r s st).sources = s.sources ∧ holdNames (placePending r s st) r = holdNames s r := by
  rw [placePending_eq]
  split
  · simp only [holdNames_addPins, holdNames_setStream, and_true]
    exact ⟨rfl, rfl, rfl⟩
  · exact ⟨rfl, rfl, rfl, rfl⟩

/-- R83: the record stands in the ring, with a pending pin for each stream that takes every record. -/
theorem placeRecord_spec (r : ViewRecord) (s : State) :
    (placeRecord r s).view = (pushRecord r s).view ∧
      (∀ st, (placeRecord r s).stream st =
        if (s.stream st).state = .running ∧ (s.stream st).config.take = .sequential then
          { s.stream st with
            pendingSet := (s.stream st).pendingSet ++ [{ seq := r.seq, buffers := holdNames s r }] }
        else s.stream st) ∧
      (∀ b, (placeRecord r s).buffer b = { s.buffer b with
        pins := (s.buffer b).pins + (holdNames s r).count b * ([StreamId.p, .r].filter fun st =>
          decide ((s.stream st).state = .running ∧ (s.stream st).config.take = .sequential)).length }) ∧
      (placeRecord r s).notices = s.notices ∧ (placeRecord r s).sources = s.sources ∧ Kept s (placeRecord r s) := by
  have hkept : Kept s (placeRecord r s) := (Kept.closed s).placeRecord r
    ⟨rfl, rfl, rfl, rfl, rfl, rfl, rfl, rfl, rfl, fun _ => rfl, fun _ => rfl, fun _ => rfl⟩
  have hs : ∀ st, (pushRecord r s).stream st = s.stream st := fun _ => rfl
  have hb : ∀ b, (pushRecord r s).buffer b = s.buffer b := fun _ => rfl
  have hh : holdNames (pushRecord r s) r = holdNames s r := rfl
  have hn : (pushRecord r s).notices = s.notices ∧ (pushRecord r s).sources = s.sources := ⟨rfl, rfl⟩
  have heq : placeRecord r s = placePending r (placePending r (pushRecord r s) .p) .r := rfl
  rw [heq] at hkept ⊢
  generalize pushRecord r s = u at hkept hs hb hh hn ⊢
  obtain ⟨hv1, hn1, hs1, hh1⟩ := placePending_rest r u .p
  obtain ⟨hv2, hn2, hs2, -⟩ := placePending_rest r (placePending r u .p) .r
  have hr : (placePending r u .p).stream .r = s.stream .r := by simp [placePending_stream, hs]
  refine ⟨hv2.trans hv1, fun st => ?_, fun b => ?_, hn2.trans (hn1.trans hn.1), hs2.trans (hs1.trans hn.2), hkept⟩
  · cases st
    · simp [placePending_stream, hs, hh]
    · simp [placePending_stream, hs, hh1, hh]
  · rw [placePending_buffer, placePending_buffer, hb, hh1, hh, hr, hs]
    by_cases hp : (s.stream .p).state = .running ∧ (s.stream .p).config.take = .sequential <;>
      by_cases hq : (s.stream .r).state = .running ∧ (s.stream .r).config.take = .sequential <;>
      simp [hp, hq, Nat.mul_two, Nat.add_assoc]

/-- Settles O36: the oldest record is lost, the new one placed, and the event's holds removed together. -/
theorem appendHandlesPinsAndCursors : Obligations.AppendHandlesPinsAndCursors := by
  unfold Obligations.AppendHandlesPinsAndCursors
  refine ⟨fun s => roomInRing_of_room, fun s o rest hr hl => ?_, placeRecord_spec,
    fun r s => by simp only [appendRecord, Releasing.settle, Releasing.andThen]⟩
  obtain ⟨hv, hst, hnames, hnotice, hpool, hsources, hkept⟩ := roomInRing_full hr hl
  refine ⟨hv, fun st => (hst st).trans (Stream.lose_eq _ _), fun b => ?_, hnotice, hpool, hsources, hkept⟩
  rw [hnames]
  simp [Stream.pinsOn_eq]

/-! ## The calibration curve (O38) -/

theorem alignmentAt_cons_of_le {f : Nat} {p : CalPoint} {rest : List CalPoint} (h : f ≤ p.focus) :
    alignmentAt f (p :: rest) = p.alignment := by
  cases rest with
  | nil => rfl
  | cons q rest => simp only [alignmentAt, if_pos h]

theorem alignmentAt_cons_cons_of_le {f : Nat} {p q : CalPoint} {rest : List CalPoint} (hp : p.focus < f)
    (hq : q.focus ≤ f) : alignmentAt f (p :: q :: rest) = alignmentAt f (q :: rest) := by
  simp only [alignmentAt, if_neg (Nat.not_le.mpr hp), if_neg (Nat.not_lt.mpr hq)]

/-- R96: the points of an ascending table below a point at or below the focus code do not matter. -/
theorem alignmentAt_append {f : Nat} {before : List CalPoint} {p : CalPoint} {after : List CalPoint}
    (h : (before ++ p :: after).Pairwise fun p q => p.focus < q.focus) (hp : p.focus ≤ f) :
    alignmentAt f (before ++ p :: after) = alignmentAt f (p :: after) := by
  induction before with
  | nil => rfl
  | cons a before ih =>
    obtain ⟨ha, hrest⟩ := List.pairwise_cons.mp h
    have hlt : a.focus < f := Nat.lt_of_lt_of_le (ha p (by simp)) hp
    refine Eq.trans ?_ (ih hrest)
    cases before with
    | nil => exact alignmentAt_cons_cons_of_le hlt hp
    | cons b before =>
      have hb : b.focus < p.focus := (List.pairwise_cons.mp hrest).1 p (by simp)
      exact alignmentAt_cons_cons_of_le hlt (by omega)

/-- Settles O38: the points below the focus code fall away, and the first two that are left decide. -/
theorem interpolationByFocus : Obligations.InterpolationByFocus := by
  unfold Obligations.InterpolationByFocus
  refine ⟨fun _ => rfl, fun t f ht => ⟨fun p hm hf => ?_, ?_, ?_, ?_⟩⟩ <;> obtain ⟨-, hpair, -⟩ := ht
  · obtain ⟨before, after, rfl⟩ := List.append_of_mem hm
    rw [alignmentAt_append hpair (by omega), alignmentAt_cons_of_le (by omega)]
  · rintro p rest rfl hf
    exact alignmentAt_cons_of_le hf
  · rintro before p rfl hf
    rw [alignmentAt_append hpair hf]
    rfl
  · rintro before p q after rfl hp hq
    rw [alignmentAt_append hpair (by omega)]
    simp only [alignmentAt, if_neg (Nat.not_le.mpr hp), if_pos hq, CalPoint.between, lerp]

end Sys2Proof.Machine
end

section
/-! The crop window, the positions and the blend (O39). -/

namespace Sys2Proof.Machine

open Sys2Proof

/-- R100: an edge coordinate keeps a window no larger than the frame inside it. -/
theorem placeWindow_spec {frame size : Nat} (h : size ≤ frame) (moved : Int) :
    let x := Int.tdiv ((8 * (frame : Int) - moved) - 8 * size) 16
    (((placeWindow frame size moved).1 : Int) =
      if x < 0 then 0 else if (frame : Int) < x + size then (frame : Int) - size else x) ∧
    ((placeWindow frame size moved).2 = true ↔ x < 0 ∨ (frame : Int) < x + size) ∧
    (placeWindow frame size moved).1 + size ≤ frame := by
  intro x
  have hp : placeWindow frame size moved =
    if x < 0 then (0, true) else if (frame : Int) < x + size then (frame - size, true) else (x.toNat, false) := rfl
  rw [hp]
  generalize x = x
  by_cases h0 : x < 0
  · simp [h0, h]
  · by_cases h1 : (frame : Int) < x + size
    · simp only [if_neg h0, if_pos h1]
      refine ⟨by omega, by simp [h1], by omega⟩
    · simp only [if_neg h0, if_neg h1]
      refine ⟨by omega, by simp [h0, h1], by omega⟩

theorem windowHeight_le {e : Enrolment} {w : Nat} (h : w ≤ e.width) : w * e.height / e.width ≤ e.height := by
  rcases Nat.eq_zero_or_pos e.width with h0 | h0
  · simp [h0]
  · exact Nat.div_le_of_le_mul (Nat.mul_le_mul_right _ h)

theorem cropWindow_of_lt {e : Enrolment} {a : Machine.Alignment} {zoom : Nat} (r : ReportUsed)
    (h : e.width < windowWidth e a zoom) :
    cropWindow e a zoom r = ({ x := 0, y := 0, width := e.width, height := e.height }, true) := by
  simp only [cropWindow, if_pos h]

theorem cropWindow_of_le {e : Enrolment} {a : Machine.Alignment} {zoom : Nat} (r : ReportUsed)
    (h : windowWidth e a zoom ≤ e.width) :
    cropWindow e a zoom r =
      (let w := windowWidth e a zoom
       let height := w * e.height / e.width
       let px := placeWindow e.width w (offsetPixels e a a.offsetX + r.shiftX)
       let py := placeWindow e.height height (offsetPixels e a a.offsetY + r.shiftY)
       ({ x := px.1, y := py.1, width := w, height := height }, px.2 || py.2)) := by
  simp only [cropWindow, if_neg (Nat.not_lt.mpr h)]

/-- R99, R100: the window lies in the frame. -/
theorem cropWindow_inside (e : Enrolment) (a : Machine.Alignment) (zoom : Nat) (r : ReportUsed) :
    (cropWindow e a zoom r).1.x + (cropWindow e a zoom r).1.width ≤ e.width ∧
      (cropWindow e a zoom r).1.y + (cropWindow e a zoom r).1.height ≤ e.height := by
  by_cases h : e.width < windowWidth e a zoom
  · simp [cropWindow_of_lt r h]
  · have h := Nat.not_lt.mp h
    rw [cropWindow_of_le r h]
    exact ⟨(placeWindow_spec h _).2.2, (placeWindow_spec (windowHeight_le h) _).2.2⟩

theorem primaryPosition_inside (origin : Nat) {size out u : Nat} (hu : u < out) (hs : 0 < size) :
    origin ≤ primaryPosition origin size out u ∧ primaryPosition origin size out u < origin + size := by
  unfold primaryPosition
  have hlt : (2 * u + 1) * size / (2 * out) < size :=
    Nat.div_lt_of_lt_mul (Nat.mul_lt_mul_of_pos_right (by omega) hs)
  exact ⟨Nat.le_add_right _ _, Nat.add_lt_add_left hlt _⟩

/-- R102: the numerators over their common divisor are the turned offset added to the window's centre. -/
theorem secondaryPosition_eq (w : Window) (roll : Int) {outW outH : Nat} (u v : Nat) (hw : 0 < outW) (hh : 0 < outH) :
    let across : ℚ := (2 * u + 1) * w.width / (2 * outW) - w.width / 2
    let down : ℚ := (2 * v + 1) * w.height / (2 * outH) - w.height / 2
    let c : ℚ := cos16 roll / 65536
    let n : ℚ := sin16 roll / 65536
    secondaryPosition w roll outW outH u v =
      (roundAway (w.x + w.width / 2 + (across * c - down * n)),
        roundAway (w.y + w.height / 2 + (across * n + down * c))) := by
  have hd : 0 < 2 * outW * outH * 65536 := by positivity
  have hw' : (outW : ℚ) ≠ 0 := by exact_mod_cast hw.ne'
  have hh' : (outH : ℚ) ≠ 0 := by exact_mod_cast hh.ne'
  simp only [secondaryPosition, roundDiv_eq _ _ hd, secondaryNumerators]
  congr 2 <;> push_cast <;> field_simp

theorem sampleAt_inside {content : List (List Pixel)} {width height : Nat} (col row : Int) (hw : 0 < width)
    (hh : 0 < height) (hc : content.length = height) (hrow : ∀ samples ∈ content, samples.length = width) :
    ∃ samples, content[(nearestIn height row).toNat]? = some samples ∧
      samples[(nearestIn width col).toNat]? = some (sampleAt content col row) := by
  rw [nearestIn_toNat _ _ hw, nearestIn_toNat _ _ hh]
  have hv : min row.toNat (height - 1) < content.length := by omega
  refine ⟨content[min row.toNat (height - 1)], List.getElem?_eq_getElem hv, ?_⟩
  have hlen := hrow _ (List.getElem_mem hv)
  have hu : min col.toNat (width - 1) < content[min row.toNat (height - 1)].length := by omega
  rw [List.getElem?_eq_getElem hu]
  simp only [sampleAt, hc, List.getD_eq_getElem?_getD, List.getElem?_eq_getElem hv, Option.getD_some, hlen,
    List.getElem?_eq_getElem hu]

/-- R103: the blend of two values lies between them. -/
theorem blendValue_between {w : Nat} (hw : w ≤ 255) (p s : BitVec 10) :
    (blendValue w p s).toNat = ((256 - w) * p.toNat + w * s.toNat) / 256 ∧
      min p.toNat s.toNat ≤ (blendValue w p s).toNat ∧ (blendValue w p s).toNat ≤ max p.toNat s.toNat := by
  have hsum (m : Nat) : (256 - w) * m + w * m = 256 * m := by rw [← Nat.add_mul]; congr 1; omega
  have hlow : min p.toNat s.toNat ≤ ((256 - w) * p.toNat + w * s.toNat) / 256 := by
    have h1 := Nat.mul_le_mul_left (256 - w) (Nat.min_le_left p.toNat s.toNat)
    have h2 := Nat.mul_le_mul_left w (Nat.min_le_right p.toNat s.toNat)
    have := hsum (min p.toNat s.toNat)
    omega
  have hhigh : ((256 - w) * p.toNat + w * s.toNat) / 256 ≤ max p.toNat s.toNat := by
    have h1 := Nat.mul_le_mul_left (256 - w) (Nat.le_max_left p.toNat s.toNat)
    have h2 := Nat.mul_le_mul_left w (Nat.le_max_right p.toNat s.toNat)
    have := hsum (max p.toNat s.toNat)
    omega
  have hval : (blendValue w p s).toNat = ((256 - w) * p.toNat + w * s.toNat) / 256 := by
    have hp := p.isLt
    have hs := s.isLt
    rw [blendValue, BitVec.toNat_ofNat, Nat.mod_eq_of_lt (by omega)]
  rw [hval]
  exact ⟨rfl, hlow, hhigh⟩

/-- Settles O39: the window and the positions axis by axis, the blend between its values, and the rows sample by sample. -/
theorem cropWindowAndBlend : Obligations.CropWindowAndBlend := by
  unfold Obligations.CropWindowAndBlend
  refine ⟨fun e a zoom r => ⟨cropWindow_of_lt r, fun h => ?_, fun h => ?_, cropWindow_inside e a zoom r⟩,
    fun origin size out u hu hs => ⟨rfl, primaryPosition_inside origin hu hs⟩, trig16_near,
    fun w roll outW outH u v => secondaryPosition_eq w roll u v,
    fun content width height col row hw hh => sampleAt_inside col row hw hh,
    fun w _ hw => ⟨blendValue_between hw, fun _ _ => rfl⟩, fun s outW outH u v => ⟨fun r p hp => ?_, fun hu hv shown => ?_,
      fun shown => ⟨by simp [renderRows], fun samples hm => ?_⟩⟩⟩
  · rw [cropWindow_of_le r h]
    exact ⟨rfl, rfl⟩
  · rw [cropWindow_of_le r h]
    obtain ⟨hx, hxl, -⟩ := placeWindow_spec h (offsetPixels e a a.offsetX + r.shiftX)
    obtain ⟨hy, hyl, -⟩ := placeWindow_spec (windowHeight_le h) (offsetPixels e a a.offsetY + r.shiftY)
    refine ⟨hx, hy, ?_⟩
    rw [Bool.or_eq_true]
    exact (or_congr hxl hyl).trans or_assoc
  · exact ⟨fun hq => by simp only [outputPixel, hp, hq], fun q hq => by simp only [outputPixel, hp, hq]⟩
  · rw [renderRows, List.getElem?_map, List.getElem?_range hv]
    refine ⟨_, rfl, ?_⟩
    rw [List.getElem?_map, List.getElem?_range hu]
    cases shown <;> rfl
  · obtain ⟨v, -, rfl⟩ := List.mem_map.mp hm
    simp

end Sys2Proof.Machine
end

section
/-! The view records' bytes and the reads by cursor (O40). -/

namespace Sys2Proof.Machine

open Sys2Proof

/-! ## Tables 65 and 68 -/

theorem ViewFlags.bits_lt (f : ViewFlags) : f.bits < 65536 :=
  f.bits_eq ▸ Nat.lt_of_lt_of_le (bitsOf_lt _) (by simp [flagList])

theorem BufferId.byte (b : BufferId) : b.val % 256 = b.val :=
  Nat.mod_eq_of_lt (Nat.lt_trans b.isLt (by decide))

/-- Table 65: the bytes of a view record stand at their offsets. -/
theorem showsRecord_recordBytes (r : ViewRecord) : ShowsRecord (recordBytes r) r := by
  refine ⟨recordBytes_length r, ?_, ?_, ?_, ?_, ?_, ?_, ?_, ?_, ?_, ?_⟩
  all_goals simp only [recordBytes, List.append_assoc]
  · rw [fieldAt_word]
  · simp [fieldAt_skip, fieldAt_word]
  · simp [fieldAt_skip, fieldAt_natHalf]
  · simp [fieldAt_skip, fieldAt_natHalf]
  · simp [fieldAt_skip, fieldAt_natByte, phaseNumber_byte]
  · simp [fieldAt_skip, fieldAt_one]
  · simp only [fieldAt_skip, fieldAt_skip_cons, fieldAt_natHalf, wordBytes_length, natHalf_length, natByte_length,
      List.cons_append, List.nil_append, Nat.reduceSub, Nat.reduceLeDiff, decide_true, Nat.le_refl, Nat.sub_self]
    rw [Nat.mod_eq_of_lt r.flags.bits_lt, ViewFlags.bits_eq]
    exact bitsAre_bitsOf _
  · cases r.primary with
    | none => simp [fieldAt_skip, fieldAt_skip_cons, primaryBytes, fieldAt_one, fieldAt_zeros]
    | some p =>
      simp only [primaryBytes, List.append_assoc]
      refine ⟨?_, ?_, ?_, ?_, ?_⟩
      · simp [fieldAt_skip, fieldAt_skip_cons, fieldAt_natByte, Source.number_byte]
      · simp [fieldAt_skip, fieldAt_skip_cons, fieldAt_natByte, BufferId.byte]
      · simp [fieldAt_skip, fieldAt_skip_cons, fieldAt_half]
      · simp [ShowsWindow, windowBytes, fieldAt_skip, fieldAt_skip_cons, fieldAt_natHalf]
      · simp [fieldAt_skip, fieldAt_skip_cons, fieldAt_natHalf]
  · cases r.secondary with
    | none => simp [fieldAt_skip, fieldAt_skip_cons, secondaryBytes, fieldAt_one, fieldAt_zeros]
    | some q =>
      simp only [secondaryBytes, List.append_assoc]
      refine ⟨?_, ?_, ?_, ?_, ?_, ?_⟩
      · simp [fieldAt_skip, fieldAt_skip_cons, fieldAt_natByte, Source.number_byte]
      · simp [fieldAt_skip, fieldAt_skip_cons, fieldAt_natByte, BufferId.byte]
      · simp [fieldAt_skip, fieldAt_skip_cons, fieldAt_half]
      · simp [ShowsWindow, windowBytes, fieldAt_skip, fieldAt_skip_cons, fieldAt_natHalf]
      · simp [fieldAt_skip, fieldAt_skip_cons, fieldAt_intHalf]
      · simp [fieldAt_skip, fieldAt_skip_cons, fieldAt_natByte]
  · simpa [fieldAt_skip, fieldAt_skip_cons] using fieldAt_zeros 3 []

/-- Table 68: the bytes of the records stand one after the other. -/
theorem showsRecords_recordsResponse (rs : List ViewRecord) : ShowsRecords (recordsResponse rs) rs := by
  have hlen := fun r (_ : r ∈ rs) => recordBytes_length r
  refine ⟨?_, ?_, fun k r hk => ?_⟩
  · rw [recordsResponse, List.length_append, natByte_length, flatMap_length_of recordBytes 48 rs hlen]
  · rw [recordsResponse, fieldAt_natByte]
  · obtain ⟨rest, hr⟩ := flatMap_drop_of recordBytes 48 rs hlen k r hk
    have hd : (recordsResponse rs).drop (1 + 48 * k) = recordBytes r ++ rest := by
      rw [← hr, recordsResponse, List.drop_append, natByte_length, List.drop_of_length_le (by rw [natByte_length]; omega),
        List.nil_append, Nat.add_sub_cancel_left]
    rw [hd, List.take_append_of_le_length (by rw [recordBytes_length]),
      List.take_of_length_le (by rw [recordBytes_length])]
    exact showsRecord_recordBytes r

/-! ## The place of a cursor (R85, R86) -/

theorem RingOk.oldest {s : State} (h : RingOk s) :
    oldestSeq s.view = s.view.nextSeq - BitVec.ofNat 32 s.view.ring.length := by
  obtain ⟨-, hseq⟩ := h
  unfold oldestSeq
  cases hr : s.view.ring with
  | nil => simp
  | cons r rest => simpa [hr] using hseq 0 (by simp [hr])

/-- A cursor on the k-th record of the ring. -/
theorem RingOk.place_present {s : State} (h : RingOk s) {k : Nat} (hk : k < s.view.ring.length) :
    cursorPlace s.view (s.view.ring[k]).seq = .inside ∧ ((s.view.ring[k]).seq - oldestSeq s.view).toNat = k := by
  have hold := h.oldest
  obtain ⟨hlen, hseq⟩ := h
  have hsk := hseq k hk
  have hne : (s.view.ring[k]).seq ≠ s.view.nextSeq := by bv_omega
  have hc : ((s.view.ring[k]).seq - oldestSeq s.view).toNat = k := by bv_omega
  have hn : (s.view.nextSeq - oldestSeq s.view).toNat = s.view.ring.length := by bv_omega
  exact ⟨by rw [cursorPlace, if_neg hne, hc, hn, if_pos hk], hc⟩

/-- A cursor on no record, and not at the newest end. -/
theorem RingOk.place_absent {s : State} (h : RingOk s) {c : Seq} (hc : c ≠ s.view.nextSeq)
    (hr : ∀ r ∈ s.view.ring, r.seq ≠ c) : cursorPlace s.view c = .outside := by
  have hold := h.oldest
  obtain ⟨hlen, hseq⟩ := h
  have hn : (s.view.nextSeq - oldestSeq s.view).toNat = s.view.ring.length := by bv_omega
  have hout : ¬ (c - oldestSeq s.view).toNat < s.view.ring.length := by
    intro hlt
    refine hr _ (List.getElem_mem hlt) ?_
    rw [hseq _ hlt]
    bv_omega
  rw [cursorPlace, if_neg hc, hn, if_neg hout]

/-- R86: a read of 1 to 4 records answers what the ring holds from the cursor and moves the cursor past it. -/
theorem exec_readViewRecords {l : Link} {b : Byte} {s : State} (h : LinkFree l s) (h1 : 1 ≤ b.toNat) (h4 : b.toNat ≤ 4)
    {st : Status} {rs : List ViewRecord} {c : Seq} (hr : readRing s.view (s.view.cursors.get l) b.toNat = (st, rs, c)) :
    exec (.readViewRecords l [b]) s =
      .next (answered l 0x04 st (recordsResponse rs) .nothing 1
        { s with view := { s.view with cursors := s.view.cursors.set c l } }) := by
  have hin : within (1, 4) b.toNat = true := within_iff.mpr ⟨h1, h4⟩
  have hj : judgeReadViewRecords l [b] s =
      ⟨s.setView { s.view with cursors := s.view.cursors.set c l }, ⟨st, recordsResponse rs, .nothing⟩⟩ := by
    simp only [judgeReadViewRecords, parseByte, hin, hr, if_true]
  exact congrArg Host.Outcome.next (receiveRequest_free
    (r := .fixed 1 (judgeReadViewRecords l)) (f := [b]) h (by simp) rfl hj rfl)

/-- Settles O40: the layouts field by field, and a read by the place of its cursor. -/
theorem readViewRecordsByCursor : Obligations.ReadViewRecordsByCursor := by
  unfold Obligations.ReadViewRecordsByCursor
  refine ⟨showsRecord_recordBytes, showsRecords_recordsResponse, fun l b s h hring => ⟨fun hb => ?_,
    fun h1 h4 => ⟨fun hc => ?_, fun k hk hc => ?_, fun hc hr => ?_⟩⟩⟩
  · refine congrArg Host.Outcome.next (receiveFixed_refused h rfl (by decide) ?_)
    have hin : ¬ within (1, 4) b.toNat = true := by
      rw [within_iff]
      rcases hb with rfl | hb
      · decide
      · omega
    simp only [judgeReadViewRecords, parseByte, if_neg hin]
  · have hr : readRing s.view (s.view.cursors.get l) b.toNat = (.empty, [], s.view.cursors.get l) := by
      simp only [readRing, cursorPlace, if_pos hc]
    rw [exec_readViewRecords h h1 h4 hr]
    have same : s.view.cursors.set (s.view.cursors.get l) l = s.view.cursors := by cases l <;> rfl
    rw [same]
    rfl
  · obtain ⟨hp, hd⟩ := hring.place_present hk
    have hr : readRing s.view (s.view.cursors.get l) b.toNat = (.ok, (s.view.ring.drop k).take b.toNat,
        s.view.cursors.get l + BitVec.ofNat 32 (min b.toNat (s.view.ring.length - k))) := by
      rw [hc]
      simp only [readRing, hp, recordsFrom, hd, List.length_take, List.length_drop]
    exact exec_readViewRecords h h1 h4 hr
  · have hp := hring.place_absent hc hr
    have hr : readRing s.view (s.view.cursors.get l) b.toNat = (.overrun, s.view.ring.take b.toNat,
        oldestSeq s.view + BitVec.ofNat 32 (min b.toNat s.view.ring.length)) := by
      simp only [readRing, hp, recordsFrom, BitVec.sub_self, BitVec.toNat_zero, List.drop_zero, List.length_take]
    exact exec_readViewRecords h h1 h4 hr

end Sys2Proof.Machine
end

section
/-! What a view record is composed of (O42). -/

namespace Sys2Proof.Machine

open Sys2Proof

theorem reportUsed_reported {s : State} {i : Source} {m : FrameMeta} {r : Report} (h : m.report = some r) :
    reportUsed s i m = { focus := r.focus, shiftX := r.shiftX, shiftY := r.shiftY, stale := false } := by
  simp only [reportUsed, h]

theorem reportUsed_current {s : State} {i : Source} {m : FrameMeta} {r : Report} (h : m.report = none)
    (hc : (s.report i).current = some r) :
    reportUsed s i m = { focus := r.focus, shiftX := r.shiftX, shiftY := r.shiftY, stale := true } := by
  simp only [reportUsed, h, hc]

theorem reportUsed_none {s : State} {i : Source} {m : FrameMeta} (h : m.report = none) (hc : (s.report i).current = none) :
    reportUsed s i m = { focus := 0, shiftX := 0, shiftY := 0, stale := true } := by
  simp only [reportUsed, h, hc]

/-- R78, R79: a source named with a frame of known metadata. -/
def namedWith (s : State) (i : Source) (b : BufferId) (m : FrameMeta) : Named :=
  let a := alignmentAt (reportUsed s i m).focus (s.calTable i)
  let w := cropWindow (s.enr i) a s.handoff.viewZoom (reportUsed s i m)
  { source := i, buffer := b, info := m, used := reportUsed s i m, alignment := a, window := w.1, edge := w.2
    uncalibrated := (s.calTable i).isEmpty }

theorem nameFrame_some {s : State} {b : BufferId} {m : FrameMeta} (i : Source) (h : (s.buffer b).info = some m) :
    nameFrame s s.handoff.viewZoom i b = some (namedWith s i b m) := by
  simp only [nameFrame, h, Option.map_some, namedWith]

theorem nameFrame_none {s : State} {b : BufferId} (zoom : Nat) (i : Source) (h : (s.buffer b).info = none) :
    nameFrame s zoom i b = none := by
  simp only [nameFrame, h, Option.map_none]

theorem namedPrimary_some {s : State} {step : StepFrame} {p : Source} {b : BufferId} {m : FrameMeta}
    (hp : s.handoff.primary = some p) (hb : primaryFrame s step p = some b) (hm : (s.buffer b).info = some m) :
    namedPrimary s step = some (namedWith s p b m) := by
  simp only [namedPrimary, hp, hb, Option.bind_some, nameFrame_some p hm]

theorem namedPrimary_none {s : State} {step : StepFrame}
    (h : s.handoff.primary = none ∨
      ∃ p, s.handoff.primary = some p ∧ ∀ b, primaryFrame s step p = some b → (s.buffer b).info = none) :
    namedPrimary s step = none := by
  rcases h with hp | ⟨p, hp, hb⟩
  · simp only [namedPrimary, hp, Option.bind_none]
  · simp only [namedPrimary, hp, Option.bind_some]
    cases hf : primaryFrame s step p with
    | none => rfl
    | some b => exact nameFrame_none _ _ (hb b hf)

theorem namedSecondary_none {s : State} (h : ∀ x, s.handoff.record = some x → x.phase ≠ .crossfade) :
    namedSecondary s = none := by
  unfold namedSecondary
  cases hr : s.handoff.record with
  | none => rfl
  | some x => simp only [Option.bind_some, if_neg (h x hr)]

theorem namedSecondary_some {s : State} {x : HandoffRecord} {c : BufferId} {n : FrameMeta} (hx : s.handoff.record = some x)
    (hph : x.phase = .crossfade) (hc : newestReady s x.dst = some c) (hn : (s.buffer c).info = some n) :
    namedSecondary s = some (namedWith s x.dst c n, x.weight) := by
  simp only [namedSecondary, hx, Option.bind_some, if_pos hph, hc, nameFrame_some x.dst hn, Option.map_some]

/-- R75: the fields that every record has. -/
theorem composeRecord_common (step : StepFrame) (now : Time) (s : State) :
    let r := composeRecord s step now
    r.seq = s.view.nextSeq ∧ r.timestamp = now ∧ r.commanded = s.planner.commanded ∧ r.view = s.handoff.viewZoom ∧
      r.phase = (s.handoff.record.map fun x => x.phase) ∧ r.tag = s.planner.currentTag ∧
      (r.flags.noSource = true ↔ r.primary = none) ∧
      (r.flags.clamped = true ↔ s.handoff.viewZoom ≠ s.planner.commanded) ∧
      r.flags.cut = s.handoff.marks.cut ∧ r.flags.forced = s.handoff.marks.forced ∧
      r.flags.aborted = s.handoff.marks.aborted ∧ r.flags.reversed = s.handoff.marks.reversed := by
  refine ⟨rfl, rfl, rfl, rfl, rfl, rfl, ?_, ?_, rfl, rfl, rfl, rfl⟩
  · simp only [composeRecord, recordFlags, Option.isNone_iff_eq_none, Option.map_eq_none_iff]
  · simp only [composeRecord, recordFlags, decide_eq_true_eq]

theorem composeRecord_noSource {s : State} {step : StepFrame} (now : Time) (h : namedPrimary s step = none) :
    let r := composeRecord s step now
    r.primary = none ∧ r.secondary = none ∧ r.flags.staleReport = false ∧ r.flags.unpaired = false ∧
      r.flags.heldSecondary = false ∧ r.flags.uncalibrated = false ∧ r.flags.edge = false := by
  simp [composeRecord, recordFlags, h]

theorem composeRecord_alone {s : State} {step : StepFrame} {p : Named} (now : Time) (hp : namedPrimary s step = some p)
    (hq : namedSecondary s = none) :
    let r := composeRecord s step now
    r.secondary = none ∧ r.flags.staleReport = p.used.stale ∧ r.flags.unpaired = false ∧
      r.flags.heldSecondary = false ∧ r.flags.uncalibrated = p.uncalibrated ∧ r.flags.edge = p.edge := by
  simp [composeRecord, recordFlags, hp, hq]

theorem composeRecord_fading {s : State} {step : StepFrame} {p q : Named} {w : Nat} (now : Time)
    (hp : namedPrimary s step = some p) (hq : namedSecondary s = some (q, w)) :
    let r := composeRecord s step now
    r.secondary = some (q.secondaryPart p w) ∧ r.flags.staleReport = (p.used.stale || q.used.stale) ∧
      r.flags.unpaired = isUnpaired s p q ∧ r.flags.heldSecondary = isHeldSecondary s q ∧
      r.flags.uncalibrated = (p.uncalibrated || q.uncalibrated) ∧ r.flags.edge = (p.edge || q.edge) := by
  simp [composeRecord, recordFlags, hp, hq]

theorem isUnpaired_iff {s : State} {p q : Named} :
    isUnpaired s p q = true ↔ s.params.pairingWindow < (q.info.start - p.info.start).toInt.natAbs := by
  simp [isUnpaired, pairedStarts, timeDiff]

/-- Settles O42, by the frames that the controller's sources have. -/
theorem recordsNameTheirFrames : Obligations.RecordsNameTheirFrames := by
  unfold Obligations.RecordsNameTheirFrames
  refine ⟨fun s i m => ⟨fun r => reportUsed_reported, fun r => reportUsed_current, reportUsed_none⟩, fun step now s => ?_⟩
  have hframe : ∀ p, primaryFrame s step p = (match step with
      | some y => if y.1 = p then some y.2 else newestReady s p
      | none => newestReady s p) := by
    intro p
    rcases step with _ | ⟨i, b⟩ <;> rfl
  refine ⟨composeRecord_common step now s, fun h => ?_, fun p b m hp hb hm => ⟨?_, fun hx => ?_, fun x c n hx hph hc hn => ?_⟩⟩
  · refine composeRecord_noSource now (namedPrimary_none (h.imp_right fun ⟨p, hp, hb⟩ => ⟨p, hp, fun b hf => ?_⟩))
    exact hb b ((hframe p).symm.trans hf)
  · have hn := namedPrimary_some hp ((hframe p).trans hb) hm
    simp only [composeRecord, hn, Option.map_some, Named.primaryPart, namedWith]
  · have hn := namedPrimary_some hp ((hframe p).trans hb) hm
    obtain ⟨h1, h2, h3, h4, h5, h6⟩ := composeRecord_alone now hn (namedSecondary_none hx)
    exact ⟨h1, h2, h3, h4, h5 ▸ List.isEmpty_iff, h6⟩
  · have hn' := namedPrimary_some hp ((hframe p).trans hb) hm
    obtain ⟨h1, h2, h3, h4, h5, h6⟩ := composeRecord_fading now hn' (namedSecondary_some hx hph hc hn)
    refine ⟨h1, h2, h3 ▸ isUnpaired_iff, h4 ▸ decide_eq_true_iff, ?_, h6⟩
    rw [h5, Bool.or_eq_true]
    exact or_congr List.isEmpty_iff List.isEmpty_iff

end Sys2Proof.Machine
end

section
/-! What the controller's update and the want writes of a view step can do, said once: the rules of R48 to R58 as one case
each, and what they leave as it is. -/

namespace Sys2Proof.Machine

open Sys2Proof

/-! ## The controller's update (R48 to R58) -/

/-- The outcomes of the controller's rule at a view step, with what the rule has found. -/
inductive Update (s : State) : State → Prop where
  | same : Update s s
  | candidate (w : Option Source) : s.handoff.primary = none →
      (∀ i, w = some i → (s.src i).state ≠ .standby) → Update s (s.setHandoff { s.handoff with candidate := w })
  | first (w : Source) : s.handoff.primary = none → (s.src w).state = .standby →
      Update s (makeFirstPrimary w (s.setHandoff { s.handoff with candidate := some w }))
  | start (p w : Source) : s.handoff.primary = some p → s.handoff.record = none → w ≠ p → Update s (createHandoff p w s)
  | before (p : Source) (r r' : HandoffRecord) : s.handoff.primary = some p → s.handoff.record = some r →
      r.phase ∈ [.prepare, .align] → r'.phase ∈ [.prepare, .align] → r'.src = r.src → r'.dst = r.dst ∨ r'.dst ≠ p →
      Update s (setRecord (some r') s)
  | cancel (r : HandoffRecord) : s.handoff.record = some r → r.phase ∈ [.prepare, .align] → Update s (cancelHandoff s)
  | cut (r r' : HandoffRecord) : s.handoff.record = some r → r.phase = .align → r'.src = r.src → r'.dst = r.dst →
      (s.src r.dst).state = .standby → Update s (cutOver r' s)
  | fade (r r' : HandoffRecord) : s.handoff.record = some r → r.phase = .align → r'.src = r.src → r'.dst = r.dst →
      (s.src r.dst).state = .standby → Update s (beginFade r' s)
  | advance (r : HandoffRecord) : s.handoff.record = some r → r.phase = .crossfade → Update s (advanceFade r s)
  | reverse (r r' : HandoffRecord) : s.handoff.record = some r → r.phase = .crossfade →
      r' = { r with src := r.dst, dst := r.src, direction := directionOf s r.dst r.src, weight := 256 - r.weight,
                    reversed := true } →
      Update s (advanceFade r' (reverseHandoff r s))
  | hold (p : Source) (r r' : HandoffRecord) : s.handoff.primary = some p → s.handoff.record = some r → r.phase = .settle →
      r' = { r with count := r.count + 1 } → Update s (setRecord (some r') s)
  | finish (r : HandoffRecord) : s.handoff.record = some r → r.phase = .settle → Update s (setRecord none s)

theorem prepareTest_eq (r : HandoffRecord) (s : State) :
    prepareTest r s =
      setRecord (some (if (s.src r.dst).state = .standby then { r with phase := .align, count := 0 } else r)) s := by
  unfold prepareTest
  split <;> rfl

section

variable {s : State} {p : Source} {r : HandoffRecord}

theorem Update.prepareTest {r' : HandoffRecord} (hp : s.handoff.primary = some p) (hr : s.handoff.record = some r)
    (hph : r.phase ∈ [.prepare, .align]) (hph' : r'.phase = .prepare) (hsrc : r'.src = r.src)
    (hdst : r'.dst = r.dst ∨ r'.dst ≠ p) : Update s (prepareTest r' s) := by
  rw [prepareTest_eq]
  split
  · exact .before p r _ hp hr hph (by simp) hsrc hdst
  · exact .before p r _ hp hr hph (by simp [hph']) hsrc hdst

theorem Update.alignStep (hp : s.handoff.primary = some p) (hr : s.handoff.record = some r) (hph : r.phase = .align)
    (b : Option BufferId) : Update s (alignStep r b s) := by
  have hmem : r.phase ∈ [.prepare, .align] := by simp [hph]
  unfold Machine.alignStep
  split
  · exact .before p r _ hp hr hmem (by simp) rfl (.inl rfl)
  · next hs =>
    have hs := not_not.mp hs
    split
    · dsimp only
      split
      · unfold endAlign
        dsimp only
        split
        · exact .cut r _ hr hph rfl rfl hs
        · exact .fade r _ hr hph rfl rfl hs
      · exact .before p r _ hp hr hmem (by simp [hph]) rfl (.inl rfl)
    · exact .before p r _ hp hr hmem (by simp [hph]) rfl (.inl rfl)

theorem Update.beforeFade (hp : s.handoff.primary = some p) (hr : s.handoff.record = some r)
    (hph : r.phase ∈ [.prepare, .align]) (w : Option Source) (b : Option BufferId) : Update s (beforeFade r p w b s) := by
  have go : Update s (if r.phase = .prepare then Machine.prepareTest r s else Machine.alignStep r b s) := by
    split
    · next h => exact .prepareTest hp hr hph h rfl (.inl rfl)
    · next h =>
      have halign : r.phase = .align := by simpa [h] using hph
      exact .alignStep hp hr halign b
  unfold Machine.beforeFade
  split
  · split
    · exact go
    · split
      · exact .cancel r hr hph
      · next hw => exact .prepareTest hp hr hph rfl rfl (.inr hw)
  · exact go

theorem reverseHandoff_handoff (r : HandoffRecord) (s : State) :
    (reverseHandoff r s).handoff = { s.handoff with
      primary := some r.dst
      record := some { r with src := r.dst, dst := r.src, direction := directionOf s r.dst r.src, weight := 256 - r.weight,
                              reversed := true }
      marks := { s.handoff.marks with reversed := true } } := rfl

theorem fadeStep_eq (r : HandoffRecord) (w : Option Source) (s : State) :
    fadeStep r w s =
      if w = some r.src then
        advanceFade { r with src := r.dst, dst := r.src, direction := directionOf s r.dst r.src, weight := 256 - r.weight,
                             reversed := true } (reverseHandoff r s)
      else advanceFade r s := by
  unfold fadeStep
  split
  · simp only [reverseHandoff_handoff]
  · rfl

/-- The rule of a view step has one of the outcomes. -/
theorem update_handoffStep (w : Option Source) (b : Option BufferId) (s : State) : Update s (handoffStep w b s) := by
  unfold handoffStep
  split
  · next hp =>
    unfold noPrimaryStep
    dsimp only
    split
    · next w =>
      split
      · next hs => exact .first w hp hs
      · next hs => exact .candidate (some w) hp fun i hi => by cases hi; exact hs
    · exact .candidate none hp (by simp)
  · next p hp hr =>
    split
    · next w =>
      split
      · exact .same
      · next hw => exact .start p w hp hr hw
    · exact .same
  · next p r hp hr =>
    split
    · next hph => exact .beforeFade hp hr (by simp [hph]) w b
    · next hph => exact .beforeFade hp hr (by simp [hph]) w b
    · next hph =>
      rw [fadeStep_eq]
      split
      · exact .reverse r _ hr hph rfl
      · exact .advance r hr hph
    · next hph =>
      unfold settleStep
      split
      · exact .finish r hr hph
      · exact .hold p r _ hp hr hph rfl

end

/-! ## What the controller leaves -/

/-- The record with another role: its state, its linger and its lock. -/
def SameButRole (r r' : SourceRecord) : Prop :=
  r' = { r with state := r'.state, linger := r'.linger, locked := r'.locked, matchCount := r'.matchCount }

theorem SameButRole.trans {r r' r'' : SourceRecord} (h : SameButRole r r') (h' : SameButRole r' r'') : SameButRole r r'' := by
  unfold SameButRole at *
  rw [h', h]

/-- In `t` the controller has acted on `s`: sources may have changed places between STANDBY and LIVE, and locks, lines,
notices, the view timer and the hand-off. -/
structure Steered (s t : State) : Prop where
  only : OnlyControl s t
  role : ∀ i, SameButRole (s.src i) (t.src i)
  shown : ∀ i, (s.src i).state ∈ [.standby, .live] → (t.src i).state ∈ [.standby, .live]

namespace Steered

variable {s t u : State}

theorem refl (s : State) : Steered s s := ⟨rfl, fun _ => rfl, fun _ h => h⟩

theorem trans (h : Steered s t) (h' : Steered t u) : Steered s u :=
  ⟨h.only.trans h'.only, fun i => (h.role i).trans (h'.role i), fun i hi => h'.shown i (h.shown i hi)⟩

theorem of_src (h : OnlyControl s t) (hs : ∀ i, t.src i = s.src i) : Steered s t :=
  ⟨h, fun i => by rw [hs]; rfl, fun i hi => by rwa [hs]⟩

theorem raise (k : Notice) (s : State) : Steered s (raise k s) := of_src (raise_only k s) fun _ => rfl

theorem setHandoff (x : Handoff) (s : State) : Steered s (s.setHandoff x) := of_src (setHandoff_only x s) fun _ => rfl

theorem setRecord (r : Option HandoffRecord) (s : State) : Steered s (setRecord r s) := setHandoff _ s

theorem setTimer (x : Option Time) (s : State) : Steered s (s.setView { s.view with timer := x }) :=
  of_src rfl fun _ => rfl

theorem changePrimary (new : Option Source) (s : State) : Steered s (changePrimary new s) :=
  ⟨changePrimary_only new s, fun i => by rw [changePrimary_src]; rfl, fun i hi => by rw [changePrimary_src]; exact hi⟩

theorem moveToLive (i : Source) (s : State) : Steered s (moveToLive i s) := by
  have hs : ∀ j, (Machine.moveToLive i s).src j = if j = i then { s.src i with state := .live, linger := none } else s.src j := by
    intro j
    by_cases e : j = i <;> simp [Machine.moveToLive, e]
  refine ⟨moveToLive_only i s, fun j => ?_, fun j hj => ?_⟩ <;> rw [hs] <;> split
  · next e => subst e; rfl
  · rfl
  · simp
  · exact hj

theorem moveToStandby (i : Source) (s : State) : Steered s (moveToStandby i s) := by
  refine ⟨?_, fun j => ?_, fun j hj => ?_⟩
  · rw [OnlyControl, moveToStandby_only]
  · rw [moveToStandby_src]
    split
    · next e => subst e; rfl
    · rfl
  · rw [moveToStandby_src]
    split
    · simp
    · exact hj

theorem settleAtOnce (s : State) : Steered s (settleAtOnce s) := of_src (settleAtOnce_only s) fun i => settleAtOnce_src s i

theorem enterSettle (r : HandoffRecord) (s : State) : Steered s (enterSettle r s) :=
  (((changePrimary _ s).trans (moveToStandby _ _)).trans (setRecord _ _)).trans ((raise _ _).trans (settleAtOnce _))

theorem advanceFade (r : HandoffRecord) (s : State) : Steered s (advanceFade r s) := by
  unfold Machine.advanceFade
  dsimp only
  split
  · exact setRecord _ s
  · exact enterSettle r s

theorem cutOver (r : HandoffRecord) (s : State) : Steered s (cutOver r s) :=
  ((((moveToLive r.dst s).trans (changePrimary _ _)).trans (moveToStandby _ _)).trans (setRecord _ _)).trans
    (((setHandoff _ _).trans (raise _ _)).trans (settleAtOnce _))

theorem beginFade (r : HandoffRecord) (s : State) : Steered s (beginFade r s) := by
  unfold Machine.beginFade
  dsimp only
  have h : ∀ x, Steered s (Machine.raise (.handoff .crossfadeBegun) (Machine.setRecord x (Machine.moveToLive r.dst s))) :=
    fun x => ((moveToLive r.dst s).trans (setRecord _ _)).trans (raise _ _)
  split
  · exact h _
  · exact (h _).trans (enterSettle _ _)

theorem makeFirstPrimary (w : Source) (s : State) : Steered s (makeFirstPrimary w s) :=
  (((moveToLive w s).trans (changePrimary _ _)).trans (setHandoff _ _)).trans ((setHandoff _ _).trans (setTimer _ _))

theorem reverseHandoff (r : HandoffRecord) (s : State) : Steered s (reverseHandoff r s) :=
  ((changePrimary _ s).trans (setRecord _ _)).trans ((setHandoff _ _).trans (raise _ _))

theorem of_update (h : Update s t) : Steered s t := by
  cases h with
  | same => exact refl s
  | candidate => exact setHandoff _ s
  | first w => exact (setHandoff _ s).trans (makeFirstPrimary w _)
  | start => exact (setRecord _ s).trans (raise _ _)
  | before | hold | finish => exact setRecord _ s
  | cancel => exact (setRecord _ s).trans (raise _ _)
  | cut r r' => exact cutOver r' s
  | fade r r' => exact beginFade r' s
  | advance r => exact advanceFade r s
  | reverse r r' => exact (reverseHandoff r s).trans (advanceFade r' _)

theorem handoffStep (w : Option Source) (b : Option BufferId) (s : State) : Steered s (handoffStep w b s) :=
  of_update (update_handoffStep w b s)

theorem buffer (h : Steered s t) (b : BufferId) : t.buffer b = s.buffer b := by rw [h.only]; rfl

theorem enr (h : Steered s t) (i : Source) : t.enr i = s.enr i := by rw [State.enr, h.role]; rfl

theorem chain (h : Steered s t) (i : Source) : (t.src i).chain = (s.src i).chain := by rw [h.role]

end Steered

/-! ## The want writes (R4, R6, R42) -/

/-- The FREE buffers that a claim takes are EMPTY after it; every other buffer is as it was. -/
theorem joinAll_buffer (i : Source) (l : List BufferId) (s : State) (b : BufferId) :
    (l.foldl (fun s b => joinChain i b s) s).buffer b = if b ∈ l then (s.buffer b).cleared .empty else s.buffer b := by
  induction l generalizing s with
  | nil => simp
  | cons c l ih =>
    rw [List.foldl_cons, ih, joinChain_buffer]
    by_cases hc : b = c
    · subst hc
      simp [Buffer.cleared]
    · simp [hc]

theorem wakeForDeficit_buffers (s : State) : (wakeForDeficit s).pool.buffers = s.pool.buffers := by
  unfold wakeForDeficit
  generalize Bank.all = l
  induction l generalizing s with
  | nil => rfl
  | cons k l ih =>
    rw [List.foldl_cons, ih]
    split <;> rfl

theorem placeClaim_buffer (i : Source) (s : State) (b : BufferId) :
    (placeClaim i s).buffer b = if b ∈ claimed i s then (s.buffer b).cleared .empty else s.buffer b := by
  rw [← joinAll_buffer i (claimed i s) s b, placeClaim_eq]
  dsimp only
  split
  · rfl
  · rw [State.buffer, wakeForDeficit_buffers]
    rfl

theorem claimed_free {i : Source} {s : State} {b : BufferId} (h : b ∈ claimed i s) : (s.buffer b).state = .free := by
  have hm := List.mem_of_mem_take h
  simp only [freeAwake, List.mem_filter, Bool.and_eq_true, decide_eq_true_eq] at hm
  exact hm.2.1

/-- In `t` want has been written in `s`: sources outside OFF have another want and linger at most, a source in OFF may have
been requested, and no buffer but a FREE one has changed. -/
structure Wanting (s t : State) : Prop where
  only : t = { s with sources := t.sources, sync := t.sync, pool := t.pool, notices := t.notices }
  enr : ∀ i, t.enr i = s.enr i
  plain : ∀ i, (s.src i).state ≠ .off → t.src i = { s.src i with want := (t.src i).want, linger := (t.src i).linger }
  buffer : ∀ b, (s.buffer b).state ≠ .free → t.buffer b = s.buffer b
  free : ∀ b, (s.buffer b).state = .free → (t.buffer b).state ∈ [.free, .empty]

namespace Wanting

variable {s t u : State}

theorem refl (s : State) : Wanting s s := ⟨rfl, fun _ => rfl, fun _ _ => rfl, fun _ _ => rfl, fun _ h => by simp [h]⟩

theorem trans (h : Wanting s t) (h' : Wanting t u) : Wanting s u where
  only := by rw [h'.only, h.only]
  enr i := (h'.enr i).trans (h.enr i)
  plain i hi := by
    have ht := h.plain i hi
    rw [h'.plain i (by rw [ht]; exact hi), ht]
  buffer b hb := by
    have ht := h.buffer b hb
    rw [h'.buffer b (by rwa [ht]), ht]
  free b hb := by
    have ht := h.free b hb
    simp only [List.mem_cons, List.not_mem_nil, or_false] at ht
    rcases ht with ht | ht
    · exact h'.free b ht
    · rw [h'.buffer b (by simp [ht]), ht]
      simp

/-- No buffer becomes READY by a write of want. -/
theorem ready (h : Wanting s t) {b : BufferId} (hb : (t.buffer b).state = .ready) : t.buffer b = s.buffer b := by
  refine h.buffer b fun hf => ?_
  have := h.free b hf
  simp [hb] at this

theorem setSrc {i : Source} {x : SourceRecord} (h : x = { s.src i with want := x.want, linger := x.linger }) :
    Wanting s (s.setSrc i x) := by
  have hs : ∀ j, (s.setSrc i x).src j = if j = i then x else s.src j := fun j => by simp
  refine ⟨rfl, fun j => ?_, fun j _ => ?_, fun _ _ => rfl, fun b hb => ?_⟩
  · rw [State.enr, hs]
    split
    · next e => subst e; rw [h]; rfl
    · rfl
  · rw [hs]
    split
    · next e => subst e; exact h
    · rfl
  · have same : (s.setSrc i x).buffer b = s.buffer b := rfl
    simp [same, hb]

theorem enterRequested {i : Source} (h : (s.src i).state = .off) : Wanting s (enterRequested i s) := by
  have hsrc := enterRequested_src i
  have hbuf : ∀ b, (Machine.enterRequested i s).buffer b = (placeClaim i (requestedState i s)).buffer b := by
    intro b
    rw [enterRequested_eq, State.buffer, beginPulsing_pool]
    rfl
  have hfree : ∀ b, (requestedState i s).buffer b = s.buffer b := fun _ => rfl
  refine ⟨?_, fun j => ?_, fun j hj => ?_, fun b hb => ?_, fun b hb => ?_⟩
  · have c : PoolClosed fun t => t = { s with sources := t.sources, sync := t.sync, pool := t.pool, notices := t.notices } :=
      ⟨fun v _ h => by rw [h], fun l k h => by rw [h]; rfl, fun p h => by rw [h]⟩
    rw [enterRequested_eq]
    have h1 := c.raiseSrc i .startWanted (c.placeClaim i (s := requestedState i s) rfl)
    generalize raiseSrc i .startWanted (placeClaim i (requestedState i s)) = u at h1
    unfold beginPulsing
    dsimp only
    split <;> rw [h1] <;> rfl
  · rw [State.enr, hsrc]
    split
    · next e => subst e; rfl
    · rfl
  · have hne : j ≠ i := by rintro rfl; exact hj h
    rw [hsrc, if_neg hne]
  · rw [hbuf, placeClaim_buffer]
    split
    · next hm => exact absurd (claimed_free hm) hb
    · rfl
  · rw [hbuf, placeClaim_buffer]
    split
    · simp [Buffer.cleared]
    · rw [hfree, hb]
      simp

theorem writeWant (i : Source) (v : Bool) (s : State) : Wanting s (writeWant i v s) := by
  rcases (s.src i).state.want_classes with hs | hs | hs | hs
  · rw [writeWant_absent hs]
    exact refl s
  · rw [writeWant_off hs]
    split
    · exact (setSrc rfl).trans (enterRequested (by rw [State.setSrc_src_self]; exact hs))
    · exact setSrc rfl
  · rw [writeWant_started hs]
    split
    · exact setSrc rfl
    · split
      · rw [startLinger_eq]
        exact (setSrc rfl).trans (setSrc rfl)
      · exact refl s
  · rw [writeWant_plain hs]
    exact setSrc rfl

theorem writeWants (m : SourceSet) (s : State) : Wanting s (writeWants m s) := by
  unfold Machine.writeWants
  generalize Source.all = l
  induction l generalizing s with
  | nil => exact refl s
  | cons i l ih => exact (writeWant i _ s).trans (ih _)

end Wanting

end Sys2Proof.Machine
end

section
/-! The hand-off: its beginning, its phases and its ends, and the answer to a departure (O43 to O47). -/

namespace Sys2Proof.Machine

open Sys2Proof

/-! ## What each operation of the controller leaves -/

theorem moveToLive_src (i j : Source) (s : State) :
    (moveToLive i s).src j = if j = i then { s.src i with state := .live, linger := none } else s.src j := by
  by_cases e : j = i <;> simp [moveToLive, e]

@[simp] theorem moveToLive_enr (i j : Source) (s : State) : (moveToLive i s).enr j = s.enr j := by
  rw [State.enr, moveToLive_src]
  split
  · next e => subst e; rfl
  · rfl

@[simp] theorem moveToLive_handoff (i : Source) (s : State) : (moveToLive i s).handoff = s.handoff := rfl

@[simp] theorem moveToLive_params (i : Source) (s : State) : (moveToLive i s).params = s.params := rfl

@[simp] theorem moveToLive_notice (i : Source) (s : State) (l : Link) : (moveToLive i s).notice l = s.notice l := rfl

theorem makeFirstPrimary_handoff (w : Source) (s : State) :
    (makeFirstPrimary w s).handoff =
      { s.handoff with primary := some w, candidate := none, marks := { s.handoff.marks with cut := true } } := rfl

theorem makeFirstPrimary_src (w : Source) (s : State) (j : Source) :
    (makeFirstPrimary w s).src j = ((moveToLive w s).src j).unlock := by
  simp [makeFirstPrimary, markCut]

/-- A source that has moved to LIVE in a change of primary, and the others. -/
theorem unlock_moveToLive {s t : State} {q : Source} (h : ∀ j, t.src j = ((moveToLive q s).src j).unlock) :
    EntersLive q t ∧ ∀ j, j ≠ q → OnlyUnlocked j s t := by
  have hq : t.src q = _ := (h q).trans (by rw [moveToLive_src, if_pos rfl])
  exact ⟨by rw [EntersLive, hq]; exact ⟨rfl, rfl⟩,
    fun j hj => by rw [OnlyUnlocked, h, moveToLive_src, if_neg hj]; rfl⟩

/-- R57: the from source enters STANDBY, and the others are unlocked. -/
theorem unlock_moveToStandby {s t u : State} {i : Source} (h : ∀ j, t.src j = (moveToStandby i u).src j)
    (hu : ∀ j, OnlyUnlocked j s u) (htime : u.timebase = s.timebase) (hparams : u.params = s.params) :
    EntersStandby i s t ∧ ∀ j, j ≠ i → OnlyUnlocked j s t := by
  constructor
  · rw [EntersStandby, h, moveToStandby_src, if_pos rfl, hu i, htime, hparams]
    exact ⟨rfl, rfl⟩
  · intro j hj
    rw [OnlyUnlocked, h, moveToStandby_src, if_neg hj]
    exact hu j

theorem changePrimary_unlocked (new : Option Source) (s : State) (j : Source) : OnlyUnlocked j s (changePrimary new s) :=
  changePrimary_src new s j

theorem enterSettle_roles (r : HandoffRecord) (s : State) :
    EntersStandby r.src s (enterSettle r s) ∧ ∀ j, j ≠ r.src → OnlyUnlocked j s (enterSettle r s) :=
  unlock_moveToStandby (enterSettle_src r s) (changePrimary_unlocked _ s) rfl rfl

theorem enterSettle_done (r : HandoffRecord) (s : State) (l : Link) :
    ((enterSettle r s).notice l).isPending (.handoff .done) = true := by
  rw [enterSettle_notice, Notices.isPending_raise]

theorem cutOver_handoff (r : HandoffRecord) (s : State) :
    (cutOver r s).handoff = { s.handoff with
      primary := some r.dst
      record := if s.params.settleSteps = 0 then none
        else some { r with phase := .settle, weight := 256, count := 0, cut := true }
      marks := { s.handoff.marks with cut := true } } := by
  unfold cutOver
  dsimp only
  rw [settleAtOnce_handoff]
  simp [setRecord, markCut]

theorem cutOver_src (r : HandoffRecord) (s : State) (j : Source) :
    (cutOver r s).src j = (moveToStandby r.src (changePrimary (some r.dst) (moveToLive r.dst s))).src j := by
  unfold cutOver
  rw [settleAtOnce_src]
  simp [setRecord, markCut]

theorem cutOver_done (r : HandoffRecord) (s : State) (l : Link) :
    ((cutOver r s).notice l).isPending (.handoff .done) = true := by
  unfold cutOver
  rw [settleAtOnce_notice, raise_notice, Notices.isPending_raise]

theorem advanceFade_eq (r : HandoffRecord) (s : State) :
    advanceFade r s = if r.weight + fadeInc s < 256 then setRecord (some { r with weight := r.weight + fadeInc s }) s
      else enterSettle r s := rfl

/-- R53: the entry to CROSSFADE before its length is looked at. -/
def crossfading (r : HandoffRecord) (s : State) : State :=
  raise (.handoff .crossfadeBegun)
    (setRecord (some { r with phase := .crossfade, weight := fadeInc s, count := 0 }) (moveToLive r.dst s))

theorem beginFade_eq (r : HandoffRecord) (s : State) :
    beginFade r s = if fadeInc s < 256 then crossfading r s
      else enterSettle { r with phase := .crossfade, weight := fadeInc s, count := 0 } (crossfading r s) := rfl

theorem crossfading_handoff (r : HandoffRecord) (s : State) :
    (crossfading r s).handoff =
      { s.handoff with record := some { r with phase := .crossfade, weight := fadeInc s, count := 0 } } := rfl

theorem crossfading_src (r : HandoffRecord) (s : State) (j : Source) : (crossfading r s).src j = (moveToLive r.dst s).src j :=
  rfl

theorem crossfading_begun (r : HandoffRecord) (s : State) (l : Link) :
    ((crossfading r s).notice l).isPending (.handoff .crossfadeBegun) = true := by
  rw [crossfading, raise_notice, Notices.isPending_raise]

theorem changePrimary_crossfading (new : Option Source) (r : HandoffRecord) (s : State) (j : Source) :
    (changePrimary new (crossfading r s)).syncLine j = (changePrimary new s).syncLine j :=
  (changePrimary_moveToLive new r.dst j s)

/-- PrimaryChanged looks at the lines of the earlier state only. -/
theorem PrimaryChanged.of_lines {u u' t : State} (h : PrimaryChanged u t) (hl : ∀ i, u'.syncLine i = u.syncLine i) :
    PrimaryChanged u' t := fun i => ⟨(h i).1.trans (hl i).symm, (h i).2⟩

/-! ## The beginning (O43) -/

theorem handoffStep_noPrimary {s : State} (hp : s.handoff.primary = none) (w : Option Source) (b : Option BufferId) :
    handoffStep w b s = noPrimaryStep w s := by
  simp only [handoffStep, hp]

theorem handoffStep_steady_none {s : State} {p : Source} (hp : s.handoff.primary = some p) (hr : s.handoff.record = none)
    (b : Option BufferId) : handoffStep none b s = s := by
  simp only [handoffStep, hp, hr]

theorem handoffStep_steady {s : State} {p : Source} (hp : s.handoff.primary = some p) (hr : s.handoff.record = none)
    (w : Source) (b : Option BufferId) : handoffStep (some w) b s = if w = p then s else createHandoff p w s := by
  simp only [handoffStep, hp, hr]

theorem noPrimaryStep_waits {w : Option Source} {s : State} (h : ∀ q, w = some q → (s.src q).state ≠ .standby) :
    noPrimaryStep w s = s.setHandoff { s.handoff with candidate := w } := by
  cases w with
  | none => rfl
  | some q => exact if_neg (h q rfl)

theorem noPrimaryStep_first {q : Source} {s : State} (h : (s.src q).state = .standby) :
    noPrimaryStep (some q) s = makeFirstPrimary q (s.setHandoff { s.handoff with candidate := some q }) := if_pos h

/-- Settles O43, by the primary and the record. -/
theorem handoffBegins : Obligations.HandoffBegins := by
  unfold Obligations.HandoffBegins
  refine fun w b s => ⟨fun hp hw => ?_, ?_, ?_, ?_⟩
  · rw [handoffStep_noPrimary hp, noPrimaryStep_waits hw]
    rfl
  · rintro q hp rfl hs
    rw [handoffStep_noPrimary hp, noPrimaryStep_first hs]
    obtain ⟨hlive, hothers⟩ := unlock_moveToLive (makeFirstPrimary_src q (s.setHandoff { s.handoff with candidate := some q }))
    exact ⟨rfl, hlive, hothers, rfl, (makeFirstPrimary_changes q _).of_lines fun _ => rfl⟩
  · rintro p hp hr (rfl | rfl)
    · exact handoffStep_steady_none hp hr b
    · rw [handoffStep_steady hp hr, if_pos rfl]
  · rintro p q hp hr rfl hq
    rw [handoffStep_steady hp hr, if_neg hq]
    rfl

/-! ## PREPARE and ALIGN (O44) -/

theorem handoffStep_beforeFade {s : State} {p : Source} {r : HandoffRecord} (hp : s.handoff.primary = some p)
    (hr : s.handoff.record = some r) (hph : r.phase ∈ [.prepare, .align]) (w : Option Source) (b : Option BufferId) :
    handoffStep w b s = beforeFade r p w b s := by
  simp only [List.mem_cons, List.not_mem_nil, or_false] at hph
  rcases hph with hph | hph <;> simp only [handoffStep, hp, hr, hph]

/-- R51, R52: with W the to source, or none, the phase decides. -/
theorem beforeFade_on {r : HandoffRecord} {w : Option Source} (hw : w = none ∨ w = some r.dst) (p : Source)
    (b : Option BufferId) (s : State) :
    beforeFade r p w b s = if r.phase = .prepare then prepareTest r s else alignStep r b s := by
  rcases hw with rfl | rfl
  · rfl
  · exact if_pos rfl

theorem beforeFade_other {r : HandoffRecord} {q p : Source} (hq : q ≠ r.dst) (b : Option BufferId) (s : State) :
    beforeFade r p (some q) b s = if q = p then cancelHandoff s else prepareTest (retargeted r q s) s := if_neg hq

theorem alignStep_eq (r : HandoffRecord) (b : Option BufferId) (s : State) :
    alignStep r b s =
      if (s.src r.dst).state ≠ .standby then setRecord (some { r with phase := .prepare, count := 0 }) s
      else if alignQualifies r b s then
        if s.params.alignSteps ≤ r.count + 1 then endAlign { r with count := r.count + 1 } s
        else setRecord (some { r with count := r.count + 1 }) s
      else setRecord (some { r with count := 0 }) s := rfl

theorem Option.bind_info_iff {s : State} {b : Option BufferId} {m : FrameMeta} :
    (b.bind fun b => (s.buffer b).info) = some m ↔ ∃ c, b = some c ∧ (s.buffer c).info = some m :=
  Option.bind_eq_some_iff

theorem alignQualifies_iff {r : HandoffRecord} {b : Option BufferId} {s : State} :
    alignQualifies r b s = true ↔
      (∃ bp mp bt mt, b = some bp ∧ (s.buffer bp).info = some mp ∧ newestReady s r.dst = some bt ∧
        (s.buffer bt).info = some mt ∧ (timeDiff mt.start mp.start).natAbs ≤ s.params.pairingWindow ∧
        mp.report ≠ none ∧ mt.report ≠ none) ∧
      ((s.enr r.dst).syncMode = .follow → (s.src r.dst).locked = true) ∧ s.calTable r.src ≠ [] ∧ s.calTable r.dst ≠ [] := by
  have frames : (match b.bind fun b => (s.buffer b).info, (newestReady s r.dst).bind fun b => (s.buffer b).info with
      | some mp, some mt => pairedStarts s.params.pairingWindow mt.start mp.start && mp.report.isSome && mt.report.isSome
      | _, _ => false) = true ↔
      ∃ bp mp bt mt, b = some bp ∧ (s.buffer bp).info = some mp ∧ newestReady s r.dst = some bt ∧
        (s.buffer bt).info = some mt ∧ (timeDiff mt.start mp.start).natAbs ≤ s.params.pairingWindow ∧
        mp.report ≠ none ∧ mt.report ≠ none := by
    constructor
    · intro h
      split at h
      · next mp mt hp ht =>
        obtain ⟨bp, hbp, hmp⟩ := Option.bind_info_iff.mp hp
        obtain ⟨bt, hbt, hmt⟩ := Option.bind_info_iff.mp ht
        simp only [Bool.and_eq_true, pairedStarts, decide_eq_true_eq, Option.isSome_iff_ne_none] at h
        exact ⟨bp, mp, bt, mt, hbp, hmp, hbt, hmt, h.1.1, h.1.2, h.2⟩
      · exact absurd h Bool.false_ne_true
    · rintro ⟨bp, mp, bt, mt, hbp, hmp, hbt, hmt, hw, hrp, hrt⟩
      rw [Option.bind_info_iff.mpr ⟨bp, hbp, hmp⟩, Option.bind_info_iff.mpr ⟨bt, hbt, hmt⟩]
      simp [pairedStarts, hw, Option.isSome_iff_ne_none, hrp, hrt]
  rw [← frames]
  simp only [alignQualifies, Bool.and_eq_true, Bool.or_eq_true, decide_eq_true_eq, Bool.not_eq_true',
    List.isEmpty_eq_false_iff, ← Decidable.imp_iff_not_or, ne_eq, and_assoc] <;> rfl

theorem newestReady_eq_none {s : State} {i : Source} :
    newestReady s i = none ↔ ∀ c ∈ (s.src i).chain, (s.buffer c).state ≠ .ready := by
  simp [newestReady, bestOf_none, List.filter_eq_nil_iff]

/-- R114: the READY frame that none before it reaches and none after it passes. -/
theorem newestReady_split {s : State} {i : Source} {before : List BufferId} {c : BufferId} {after : List BufferId}
    {m : FrameMeta} (hchain : (s.src i).chain = before ++ c :: after) (hc : (s.buffer c).state = .ready)
    (hm : (s.buffer c).info = some m)
    (h1 : ∀ x ∈ before, (s.buffer x).state = .ready → ∃ n, (s.buffer x).info = some n ∧ timeLater m.finish n.finish = true)
    (h2 : ∀ x ∈ after, (s.buffer x).state = .ready → ∃ n, (s.buffer x).info = some n ∧ timeLater n.finish m.finish = false) :
    newestReady s i = some c := by
  rw [newestReady, hchain, List.filter_append, List.filter_cons_of_pos (by simp [hc])]
  refine bestOf_split (laterEnd_or s) (fun x hx => ?_) (fun x hx => ?_)
  · obtain ⟨hx, hr⟩ := List.mem_filter.mp hx
    obtain ⟨n, hn, ht⟩ := h1 x hx (of_decide_eq_true hr)
    simp [laterEnd, hn, hm, ht]
  · obtain ⟨hx, hr⟩ := List.mem_filter.mp hx
    obtain ⟨n, hn, ht⟩ := h2 x hx (of_decide_eq_true hr)
    simp [laterEnd, hn, hm, ht]

/-- Settles O44, by W and the phase. -/
theorem prepareAndAlign : Obligations.PrepareAndAlign := by
  unfold Obligations.PrepareAndAlign
  intro r w b s hp hr hne hph
  have step := handoffStep_beforeFade hp hr hph w b
  refine ⟨?_, ?_, fun hw h => ?_, fun hw h => ?_, alignQualifies_iff, fun i => newestReady_eq_none,
    fun i before c after m => newestReady_split⟩
  · rintro rfl
    rw [step, beforeFade_other hne, if_pos rfl]
    rfl
  · rintro q rfl hq hq'
    rw [step, beforeFade_other hq', if_neg hq, prepareTest_eq]
    congr 2
    by_cases hs : (s.src q).state = .standby <;> simp [retargeted, directionOf, hs]
  · rw [step, beforeFade_on hw, if_pos h, prepareTest_eq]
  · have halign : handoffStep w b s = alignStep r b s := by rw [step, beforeFade_on hw, if_neg (by simp [h])]
    rw [halign, alignStep_eq]
    refine ⟨fun hs => if_pos hs, fun hs hq => ?_, fun hs hq hc => ?_, fun hs hq hc => ?_⟩ <;>
      rw [if_neg (not_not.mpr hs)]
    · rw [if_neg (by simp [hq])]
    · rw [if_pos hq, if_neg (by omega)]
    · rw [if_pos hq, if_pos hc]

/-! ## The end of ALIGN (O45) -/

theorem endAlign_eq (r : HandoffRecord) (s : State) :
    endAlign r s =
      if min (s.enr r.src).limit (s.enr r.dst).limit < max (s.enr r.src).base (s.enr r.dst).base then cutOver r s
      else beginFade r s := rfl

theorem fadeInc_of_one {s : State} (h : s.params.crossfadeSteps = 1) : ceilDiv 256 s.params.crossfadeSteps = 256 := by
  rw [h]
  rfl

/-- R5, R47: the sources after a cut or a fade of one step: to is LIVE, from is in STANDBY, and every lock is reset. -/
theorem roles_of_settled {s t : State} {src dst : Source} (hne : src ≠ dst) (new : Option Source)
    (h : ∀ j, t.src j = (moveToStandby src (changePrimary new (moveToLive dst s))).src j) :
    EntersLive dst t ∧ EntersStandby src s t ∧ ∀ j, j ≠ src → j ≠ dst → OnlyUnlocked j s t := by
  have hlive := h dst
  rw [moveToStandby_src, if_neg hne.symm, changePrimary_src, moveToLive_src, if_pos rfl] at hlive
  have hstandby := h src
  rw [moveToStandby_src, if_pos rfl, changePrimary_src, moveToLive_src, if_neg hne] at hstandby
  refine ⟨by rw [EntersLive, hlive]; exact ⟨rfl, rfl⟩, by rw [EntersStandby, hstandby]; exact ⟨rfl, rfl⟩, fun j hj hd => ?_⟩
  rw [OnlyUnlocked, h, moveToStandby_src, if_neg hj, changePrimary_src, moveToLive_src, if_neg hd]
  rfl

/-- R53: a fade whose increment is 256 enters SETTLE at once. -/
theorem beginFade_settled {r : HandoffRecord} {s : State} (h : 256 ≤ fadeInc s) :
    (beginFade r s).handoff = { s.handoff with
        primary := some r.dst
        record := if s.params.settleSteps = 0 then none else some { r with phase := .settle, weight := 256, count := 0 } } ∧
      (∀ j, (beginFade r s).src j = (moveToStandby r.src (changePrimary (some r.dst) (moveToLive r.dst s))).src j) ∧
      PrimaryChanged (changePrimary (some r.dst) s) (beginFade r s) ∧
      ∀ l, ((beginFade r s).notice l).isPending (.handoff .crossfadeBegun) = true ∧
        ((beginFade r s).notice l).isPending (.handoff .done) = true := by
  rw [beginFade_eq, if_neg (Nat.not_lt.mpr h)]
  refine ⟨?_, fun j => ?_, ?_, fun l => ⟨?_, enterSettle_done _ _ l⟩⟩
  · rw [enterSettle_handoff]
    rfl
  · rw [enterSettle_src]
    simp only [moveToStandby_src, changePrimary_src, crossfading_src]
    rfl
  · exact (enterSettle_changes _ _).of_lines fun i => (changePrimary_crossfading _ r s i).symm
  · rw [enterSettle_notice]
    exact Notices.isPending_raise_of _ (crossfading_begun r s l)

/-- Settles O45, by the coverages and the increment. -/
theorem alignEnds : Obligations.AlignEnds := by
  unfold Obligations.AlignEnds
  refine fun r s hne => ⟨fun hc hi => ?_, fadeInc_of_one, fun hc hi => ?_, fun hc => ?_⟩ <;> rw [endAlign_eq]
  · have hi : fadeInc s < 256 := hi
    rw [if_neg (Nat.not_lt.mpr hc), beginFade_eq, if_pos hi]
    refine ⟨rfl, rfl, ?_, fun i hid => ?_, crossfading_begun r s⟩
    · rw [crossfading_src, moveToLive_src, if_pos rfl]
    · rw [crossfading_src, moveToLive_src, if_neg hid]
  · rw [if_neg (Nat.not_lt.mpr hc)]
    obtain ⟨hhandoff, hsrc, hchanged, hnotice⟩ := beginFade_settled (r := r) hi
    obtain ⟨hlive, hstandby, hothers⟩ := roles_of_settled hne _ hsrc
    exact ⟨hhandoff, hlive, hstandby, hothers, hchanged, hnotice⟩
  · rw [if_pos hc]
    obtain ⟨hlive, hstandby, hothers⟩ := roles_of_settled hne _ (cutOver_src r s)
    exact ⟨cutOver_handoff r s, hlive, hstandby, hothers, cutOver_changes r s, cutOver_done r s⟩

/-! ## CROSSFADE and SETTLE (O46) -/

theorem handoffStep_crossfade {s : State} {r : HandoffRecord} (hp : s.handoff.primary ≠ none)
    (hr : s.handoff.record = some r) (hph : r.phase = .crossfade) (w : Option Source) (b : Option BufferId) :
    handoffStep w b s = fadeStep r w s := by
  obtain ⟨p, hp⟩ := Option.ne_none_iff_exists'.mp hp
  simp only [handoffStep, hp, hr, hph]

theorem handoffStep_settle {s : State} {r : HandoffRecord} (hp : s.handoff.primary ≠ none)
    (hr : s.handoff.record = some r) (hph : r.phase = .settle) (w : Option Source) (b : Option BufferId) :
    handoffStep w b s =
      setRecord (if s.params.settleSteps ≤ r.count + 1 then none else some { r with count := r.count + 1 }) s := by
  obtain ⟨p, hp⟩ := Option.ne_none_iff_exists'.mp hp
  simp only [handoffStep, hp, hr, hph, settleStep]
  split <;> rfl

/-- R56: the record turned round. -/
def HandoffRecord.turned (r : HandoffRecord) (s : State) : HandoffRecord :=
  { r with src := r.dst, dst := r.src, direction := directionOf s r.dst r.src, weight := 256 - r.weight, reversed := true }

theorem fadeStep_back (r : HandoffRecord) (s : State) :
    fadeStep r (some r.src) s = advanceFade (r.turned s) (reverseHandoff r s) := by
  rw [fadeStep_eq, if_pos rfl]
  rfl

theorem fadeStep_on {r : HandoffRecord} {w : Option Source} (h : w ≠ some r.src) (s : State) :
    fadeStep r w s = advanceFade r s := by
  rw [fadeStep_eq, if_neg h]

theorem reverseHandoff_src (r : HandoffRecord) (s : State) (j : Source) : (reverseHandoff r s).src j = (s.src j).unlock :=
  changePrimary_src (some r.dst) s j

theorem reverseHandoff_unlocked (r : HandoffRecord) (s : State) (j : Source) : OnlyUnlocked j s (reverseHandoff r s) :=
  reverseHandoff_src r s j

theorem reverseHandoff_notice (r : HandoffRecord) (s : State) (l : Link) :
    ((reverseHandoff r s).notice l).isPending (.handoff .reversed) = true := by
  rw [reverseHandoff, raise_notice, Notices.isPending_raise]

/-- Unlocking twice is unlocking once. -/
theorem OnlyUnlocked.trans {j : Source} {s t u : State} (h : OnlyUnlocked j s t) (h' : OnlyUnlocked j t u) :
    OnlyUnlocked j s u := by
  rw [OnlyUnlocked] at *
  rw [h', h]

theorem EntersStandby.of_unlocked {i : Source} {s t u : State} (h : OnlyUnlocked i s t) (htime : t.timebase = s.timebase)
    (hparams : t.params = s.params) (h' : EntersStandby i t u) : EntersStandby i s u := by
  rw [EntersStandby, h, htime, hparams] at h'
  exact h'

/-- Settles O46, by the phase, W and the weight reached. -/
theorem crossfadeAndSettle : Obligations.CrossfadeAndSettle := by
  unfold Obligations.CrossfadeAndSettle
  intro r w b s _ hp hr
  refine ⟨fun hph hw hi => ?_, fun hph hw hi => ?_, ?_, ?_, fun hph => handoffStep_settle hp hr hph w b⟩
  · have hi : r.weight + fadeInc s < 256 := hi
    rw [handoffStep_crossfade hp hr hph, fadeStep_on hw, advanceFade_eq, if_pos hi]
    rfl
  · have hi : 256 ≤ r.weight + fadeInc s := hi
    rw [handoffStep_crossfade hp hr hph, fadeStep_on hw, advanceFade_eq, if_neg (Nat.not_lt.mpr hi)]
    obtain ⟨hstandby, hothers⟩ := enterSettle_roles r s
    refine ⟨enterSettle_handoff r s, hstandby, hothers, fun hne => ?_, enterSettle_changes r s, enterSettle_done r s⟩
    rw [hothers r.dst hne.symm]
  · rintro hph rfl hi
    have hi : (r.turned s).weight + fadeInc (reverseHandoff r s) < 256 := hi
    rw [handoffStep_crossfade hp hr hph, fadeStep_back, advanceFade_eq, if_pos hi]
    exact ⟨rfl, reverseHandoff_unlocked r s, reverseHandoff_changes r s, reverseHandoff_notice r s⟩
  · rintro hph rfl hi
    have hi : 256 ≤ (r.turned s).weight + fadeInc (reverseHandoff r s) := hi
    rw [handoffStep_crossfade hp hr hph, fadeStep_back, advanceFade_eq, if_neg (Nat.not_lt.mpr hi)]
    have hu := reverseHandoff_unlocked r s
    have hkept := (Kept.closed s).reverseHandoff r (.refl s)
    obtain ⟨hstandby, hothers⟩ := enterSettle_roles (r.turned s) (reverseHandoff r s)
    have hunlocked : ∀ j, j ≠ r.dst → OnlyUnlocked j s (enterSettle (r.turned s) (reverseHandoff r s)) :=
      fun j hj => (hu j).trans (hothers j hj)
    refine ⟨?_, hstandby.of_unlocked (hu r.dst) hkept.timebase hkept.params, hunlocked, fun hne => ?_, ?_,
      fun l => ⟨?_, enterSettle_done _ _ l⟩⟩
    · rw [enterSettle_handoff]
      rfl
    · rw [hunlocked r.src hne]
    · exact (enterSettle_changes (r.turned s) (reverseHandoff r s)).of_lines fun _ => rfl
    · rw [enterSettle_notice]
      exact Notices.isPending_raise_of _ (reverseHandoff_notice r s l)

/-! ## Departures (O47) -/

/-- The sources in STANDBY. -/
def inStandby (s : State) : List Source := Source.all.filter fun i => decide ((s.src i).state = .standby)

theorem mem_inStandby {s : State} {i : Source} : i ∈ inStandby s ↔ (s.src i).state = .standby := by
  simp [inStandby, mem_sourceAll]

theorem inStandby_available {s : State} {i : Source} (h : i ∈ inStandby s) : i ∈ availableSources s := by
  rw [mem_availableSources, mem_inStandby.mp h]
  rfl

theorem successor_eq (s : State) :
    successor s = ((wantedWithoutReference s s.planner.commanded).filter fun i => decide ((s.src i).state = .standby)).or
      (nearestBelow s (inStandby s) s.planner.commanded) := by
  unfold successor
  dsimp only
  cases (wantedWithoutReference s s.planner.commanded).filter fun i => decide ((s.src i).state = .standby) <;> rfl

/-- R62: the choice of W for an absent reference is the one source that R62 names. -/
theorem NearestBelow.wanted {s : State} {w : Source} (hb : BasesOk s)
    (h : NearestBelow s (availableSources s) s.planner.commanded w) :
    wantedWithoutReference s s.planner.commanded = some w := by
  obtain ⟨v, hv, hs⟩ := nearestBelow_some (s := s) s.planner.commanded (List.ne_nil_of_mem h.1)
  rw [hs.unique (fun a ha b hc => hb.available ha hc) h] at hv
  exact hv

theorem successor_wanted {s : State} {w : Source} (hb : BasesOk s)
    (h : NearestBelow s (availableSources s) s.planner.commanded w) (hs : (s.src w).state = .standby) :
    successor s = some w := by
  rw [successor_eq, h.wanted hb, Option.filter_some, if_pos (decide_eq_true hs)]
  rfl

theorem successor_standing {s : State} {w j : Source} (hb : BasesOk s)
    (h : NearestBelow s (availableSources s) s.planner.commanded w) (hs : (s.src w).state ≠ .standby)
    (hj : NearestBelow s (inStandby s) s.planner.commanded j) : successor s = some j := by
  rw [successor_eq, h.wanted hb, Option.filter_some, if_neg (by simp [hs]), Option.none_or]
  obtain ⟨v, hv, hn⟩ := nearestBelow_some (s := s) s.planner.commanded (List.ne_nil_of_mem hj.1)
  rw [hn.unique (fun a ha b hc => hb.available (inStandby_available ha) (inStandby_available hc)) hj] at hv
  exact hv

theorem successor_eq_none {s : State} : successor s = none ↔ ∀ k, (s.src k).state ≠ .standby := by
  constructor
  · intro h k hk
    rw [successor_eq, Option.or_eq_none_iff, nearestBelow_eq_none] at h
    exact List.ne_nil_of_mem (mem_inStandby.mpr hk) h.2
  · intro h
    cases hs : successor s with
    | none => rfl
    | some j => exact absurd (successor_standby hs) (h j)

/-- R59: in CROSSFADE the departure of the primary forces the hand-off. -/
theorem departure_primary {i : Source} {r : HandoffRecord} {s : State} (hr : s.handoff.record = some r)
    (hph : r.phase = .crossfade) (hp : s.handoff.primary = some i) : departure i s = forceCompletion r s := by
  simp only [departure, hr, hph, hp, if_true]

theorem departure_secondary {i : Source} {r : HandoffRecord} {s : State} (hr : s.handoff.record = some r)
    (hph : r.phase = .crossfade) (hp : s.handoff.primary ≠ some i) (hd : r.dst = i) : departure i s = abortHandoff s := by
  simp only [departure, hr, hph, hp, hd, if_true, if_false]

theorem departure_lost {i : Source} {s : State} (hr : ∀ r, s.handoff.record = some r → r.phase ≠ .crossfade)
    (hp : s.handoff.primary = some i) : departure i s = emergencyCut s := by
  cases h : s.handoff.record with
  | none => simp only [departure, h, hp, if_true]
  | some r => simp only [departure, h, hp, if_neg (hr r h), if_true]

theorem departure_none {i : Source} {s : State} (hp : s.handoff.primary ≠ some i)
    (hr : ∀ r, s.handoff.record = some r → r.phase = .crossfade → r.dst ≠ i) : departure i s = s := by
  cases h : s.handoff.record with
  | none => simp only [departure, h, hp, if_false]
  | some r =>
    by_cases hph : r.phase = .crossfade
    · simp only [departure, h, hp, if_pos hph, hr r h hph, if_false]
    · simp only [departure, h, hp, if_neg hph, if_false]

theorem forceCompletion_handoff (r : HandoffRecord) (s : State) :
    (forceCompletion r s).handoff = { s.handoff with
      primary := some r.dst
      record := if s.params.settleSteps = 0 then none
        else some { r with phase := .settle, weight := 256, count := 0, forced := true }
      marks := { s.handoff.marks with forced := true } } := by
  unfold forceCompletion
  dsimp only
  rw [settleAtOnce_handoff]
  rfl

theorem forceCompletion_unlocked (r : HandoffRecord) (s : State) (j : Source) : OnlyUnlocked j s (forceCompletion r s) := by
  rw [OnlyUnlocked, forceCompletion, settleAtOnce_src]
  exact changePrimary_src (some r.dst) s j

theorem forceCompletion_done (r : HandoffRecord) (s : State) (l : Link) :
    ((forceCompletion r s).notice l).isPending (.handoff .done) = true := by
  rw [forceCompletion, settleAtOnce_notice, raise_notice, Notices.isPending_raise]

/-- The state in which the emergency cut looks for a successor. -/
def primaryLost (s : State) : State := raise (.handoff .primaryLost) (setRecord none s)

theorem primaryLost_notice (s : State) (l : Link) : ((primaryLost s).notice l).isPending (.handoff .primaryLost) = true := by
  rw [primaryLost, raise_notice, Notices.isPending_raise]

theorem emergencyCut_some {j : Source} {s : State} (h : successor s = some j) :
    emergencyCut s = markCut (changePrimary (some j) (moveToLive j (primaryLost s))) := by
  have hs : successor (raise (.handoff .primaryLost) (setRecord none s)) = some j := h
  simp only [emergencyCut, hs, primaryLost]

theorem emergencyCut_none {s : State} (h : successor s = none) : emergencyCut s = enterNoPrimary (primaryLost s) := by
  have hs : successor (raise (.handoff .primaryLost) (setRecord none s)) = none := h
  simp only [emergencyCut, hs, primaryLost]

/-- The choice of R62 reads the states and the base zooms only. -/
theorem wantedWithoutReference_congr {s t : State} (hs : ∀ i, (t.src i).state = (s.src i).state)
    (he : ∀ i, t.enr i = s.enr i) (c : Nat) : wantedWithoutReference t c = wantedWithoutReference s c := by
  simp only [wantedWithoutReference, nearestBelow, largestBase, smallestBase, availableSources, hs, he]

theorem enterNoPrimary_handoff (s : State) :
    (enterNoPrimary s).handoff =
      { s.handoff with primary := none, candidate := wantedWithoutReference s s.planner.commanded } := by
  have he : ∀ i, (changePrimary none s).enr i = s.enr i := changePrimary_enr none s
  have hs : ∀ i, ((changePrimary none s).src i).state = (s.src i).state := fun i => by rw [changePrimary_src]; rfl
  rw [← wantedWithoutReference_congr hs he]
  rfl

/-- Settles O47: the successor's three cases, and the departures by phase and role. -/
theorem departures : Obligations.Departures := by
  unfold Obligations.Departures
  refine ⟨fun s => ⟨fun w h hs hb => successor_wanted hb h hs, fun w h hs hb j hj => successor_standing hb h hs hj,
    successor_eq_none, fun j => successor_standby, fun w => nearestBelow_spec, nearestBelow_eq_none⟩,
    fun i s => ⟨fun r hr hph hp => ?_, fun r hr hph hp hd => ?_, fun hr hp => ?_, departure_none⟩⟩
  · rw [departure_primary hr hph hp]
    exact ⟨forceCompletion_handoff r s, forceCompletion_changes r s, forceCompletion_unlocked r s, forceCompletion_done r s⟩
  · rw [departure_secondary hr hph hp hd]
    rfl
  · rw [departure_lost hr hp]
    have hchanged := emergencyCut_changes s
    refine ⟨fun l => ?_, fun j hj => ?_, fun hn => ?_⟩
    · cases hs : successor s with
      | some j =>
        rw [emergencyCut_some hs]
        exact primaryLost_notice s l
      | none =>
        rw [emergencyCut_none hs]
        exact primaryLost_notice s l
    · rw [hj] at hchanged
      rw [emergencyCut_some hj] at hchanged ⊢
      have hsrc : ∀ k, (markCut (changePrimary (some j) (moveToLive j (primaryLost s)))).src k =
          ((moveToLive j (primaryLost s)).src k).unlock := fun k => changePrimary_src (some j) _ k
      obtain ⟨hlive, hothers⟩ := unlock_moveToLive hsrc
      exact ⟨rfl, hlive, hothers, hchanged⟩
    · rw [hn] at hchanged
      rw [emergencyCut_none hn] at hchanged ⊢
      exact ⟨hchanged, fun k => changePrimary_src none _ k, enterNoPrimary_handoff (primaryLost s), rfl⟩

end Sys2Proof.Machine
end

section
/-! What a stream's part of an event leaves as it is, and the records and the ring after an append. -/

namespace Sys2Proof.Machine

open Sys2Proof

/-! ## The streams (R148 to R159) -/

/-- In `t` streams have acted on `s`: the streams, the notices and the pin counts alone may differ. -/
structure OnlyStreams (s t : State) : Prop where
  only : t = { s with streams := t.streams, notices := t.notices, pool := { s.pool with buffers := t.pool.buffers } }
  buffer : ∀ b, t.buffer b = { s.buffer b with pins := (t.buffer b).pins }

namespace OnlyStreams

variable {s t u : State}

theorem refl (s : State) : OnlyStreams s s := ⟨rfl, fun _ => rfl⟩

theorem trans (h : OnlyStreams s t) (h' : OnlyStreams t u) : OnlyStreams s u :=
  ⟨by rw [h'.only, h.only], fun b => by rw [h'.buffer, h.buffer]⟩

theorem setStream (st : StreamId) (x : Stream) (s : State) : OnlyStreams s (s.setStream st x) := ⟨rfl, fun _ => rfl⟩

theorem raise (k : Notice) (s : State) : OnlyStreams s (raise k s) := ⟨rfl, fun _ => rfl⟩

theorem addPins (names : List BufferId) (s : State) : OnlyStreams s (addPins names s) :=
  ⟨rfl, fun b => by rw [addPins_buffer]⟩

theorem clearSkip (st : StreamId) (s : State) : OnlyStreams s (clearSkip st s) := by
  unfold Machine.clearSkip
  split
  · exact (setStream st _ s).trans (raise _ _)
  · exact refl s

theorem takeInto (st : StreamId) (r : ViewRecord) (s : State) : OnlyStreams s (takeInto st r s).state :=
  (addPins _ s).trans (setStream st _ _)

theorem startEmission (st : StreamId) (s : State) : OnlyStreams s (startEmission st s).state := by
  unfold Machine.startEmission
  dsimp only
  refine OnlyStreams.trans ?_ (setStream st _ _)
  split
  · exact (clearSkip st s).trans (takeInto st _ _)
  · exact clearSkip st s

theorem triggerStream (st : StreamId) (s : State) : OnlyStreams s (triggerStream st s).state := by
  unfold Machine.triggerStream
  dsimp only
  split
  · exact refl s
  · split
    · exact startEmission st s
    · split
      · exact raise _ s
      · exact setStream st _ s

theorem offerTrigger (cause : Cause) (st : StreamId) (s : State) : OnlyStreams s (offerTrigger cause st s).state := by
  unfold Machine.offerTrigger
  split
  · exact triggerStream st s
  · exact refl s

theorem offerBoth (cause : Cause) (s : State) : OnlyStreams s (offerBoth cause s).state :=
  (offerTrigger cause .p s).trans (offerTrigger cause .r _)

theorem restStream (st : StreamId) (next : StreamState) (s : State) : OnlyStreams s (restStream st next s).state :=
  setStream st _ s

theorem stopStream (st : StreamId) (s : State) : OnlyStreams s (stopStream st s).state := by
  unfold Machine.stopStream
  dsimp only
  split
  · split
    · exact restStream st _ s
    · exact setStream st _ s
  · exact setStream st _ s
  · exact refl s
  · exact refl s

theorem continueStream (st : StreamId) (s : State) : OnlyStreams s (continueStream st s).state := by
  unfold Machine.continueStream
  dsimp only
  split
  · exact (setStream st _ s).trans (startEmission st _)
  · exact refl s

theorem afterCompletion (st : StreamId) (s : State) : OnlyStreams s (afterCompletion st s).state := by
  unfold Machine.afterCompletion
  dsimp only
  split
  · split
    · exact continueStream st s
    · split
      · exact ((setStream st _ s).trans (restStream st _ _)).trans (raise _ _)
      · exact (setStream st _ s).trans (continueStream st _)
  · exact restStream st _ s
  · exact refl s
  · exact refl s

theorem src (h : OnlyStreams s t) (i : Source) : t.src i = s.src i := by rw [h.only]; rfl

theorem handoff (h : OnlyStreams s t) : t.handoff = s.handoff := by rw [h.only]

theorem planner (h : OnlyStreams s t) : t.planner = s.planner := by rw [h.only]

theorem view (h : OnlyStreams s t) : t.view = s.view := by rw [h.only]

end OnlyStreams

/-- What stays of the controller, the planner and the records when an event settles: pins, chains and claims alone change. -/
structure Settled (s t : State) : Prop where
  handoff : t.handoff = s.handoff
  planner : t.planner = s.planner
  params : t.params = s.params
  ports : t.ports = s.ports
  src : ∀ i, SameButChain (s.src i) (t.src i)

namespace Settled

variable {s t u : State}

theorem trans (h : Settled s t) (h' : Settled t u) : Settled s u where
  handoff := h'.handoff.trans h.handoff
  planner := h'.planner.trans h.planner
  params := h'.params.trans h.params
  ports := h'.ports.trans h.ports
  src i := by
    have h1 := h.src i
    have h2 := h'.src i
    rw [SameButChain] at *
    rw [h2, h1]

theorem of_src (hh : t.handoff = s.handoff) (hp : t.planner = s.planner) (hq : t.params = s.params) (ho : t.ports = s.ports)
    (hs : ∀ i, t.src i = s.src i) : Settled s t := ⟨hh, hp, hq, ho, fun i => by rw [hs]; rfl⟩

theorem of_streams (h : OnlyStreams s t) : Settled s t := by
  refine of_src h.handoff h.planner ?_ ?_ h.src <;> rw [h.only]

theorem removePins (names : List BufferId) (s : State) : Settled s (removePins names s) := by
  have h := removePins_only names s
  refine ⟨h.handoff, h.planner, h.params, by rw [h], fun i => ?_⟩
  unfold Machine.removePins
  dsimp only
  generalize List.filter _ allBuffers = freed
  have hu : ((s.mapBuffers fun b x => { x with pins := x.pins - names.count b }).mapBuffers fun b x =>
    if b ∈ freed then x.cleared .free else x).src i = s.src i := rfl
  rw [← hu]
  exact (settleFreed_delivered freed _).only i

theorem settle {x : Releasing} (h : OnlyStreams s x.state) : Settled s x.settle :=
  (of_streams h).trans (removePins _ _)

end Settled

/-! ## The append (R82 to R84, R88) -/

theorem removePins_view (names : List BufferId) (s : State) : (removePins names s).view = s.view :=
  (removePins_only names s).view

/-- R82, R84: the ring of at most 32 records after an append. -/
theorem roomInRing_view {s : State} (h : s.view.ring.length ≤ 32) :
    (roomInRing s).state.view =
      { s.view with ring := if s.view.ring.length = 32 then s.view.ring.tail else s.view.ring } := by
  by_cases hl : s.view.ring.length = 32
  · rw [if_pos hl, roomInRing, if_pos (by rw [hl]; decide), overwriteOldest_view]
  · rw [if_neg hl, roomInRing_of_room (by omega)]

/-- R82: the view stepper after an append. -/
theorem appendRecord_view {s : State} (r : ViewRecord) (h : s.view.ring.length ≤ 32) :
    (appendRecord r s).view =
      { s.view with
        ring := (if s.view.ring.length = 32 then s.view.ring.tail else s.view.ring) ++ [r]
        nextSeq := s.view.nextSeq + 1
        lastSecondary := r.secondary.map fun q => (q.source, q.frame) } := by
  rw [appendRecord, Releasing.settle, removePins_view]
  have hp : (placeRecord r (roomInRing s).state).view = _ := (placeRecord_spec r _).1
  exact ((OnlyStreams.offerBoth .view _).view.trans hp).trans (by rw [pushRecord, roomInRing_view h]; rfl)

/-- An append keeps what the stream engines keep, and does not look at the view stepper. -/
theorem StreamClosed.appendRecord {P : State → Prop} (c : StreamClosed P) (hv : ∀ s v, P s → P (s.setView v)) {s : State}
    (r : ViewRecord) (h : P s) : P (appendRecord r s) := by
  have hroom : P (roomInRing s).state := by
    unfold roomInRing
    split
    · unfold overwriteOldest
      split
      · exact h
      · exact hv _ _ (c.overrunLink _ _ (c.overrunLink _ _ (c.loseBoth _ h)))
    · exact h
  exact c.settle (StreamClosed.andThen (fun s h =>
    c.offerBoth .view (c.placePending r .r (c.placePending r .p (hv s _ h)))) hroom)

theorem overwriteOldest_settled (s : State) : Settled s (overwriteOldest s).state := by
  cases hr : s.view.ring with
  | nil =>
    simp only [overwriteOldest, hr]
    exact .of_src rfl rfl rfl rfl fun _ => rfl
  | cons o rest =>
    simp only [overwriteOldest, hr]
    have hl := (overrunLinks o.seq ((s.modStream .p fun x => x.lose o.seq).modStream .r fun x => x.lose o.seq)).2
    generalize [Link.al, Link.ml].foldl (overrunLink o.seq) _ = v at hl ⊢
    have hv : v = { (s.modStream .p fun x => x.lose o.seq).modStream .r (fun x => x.lose o.seq) with
        notices := v.notices } := by rw [← hl]
    rw [hv]
    exact .of_src rfl rfl rfl rfl fun _ => rfl

theorem placePending_only (r : ViewRecord) (s : State) (st : StreamId) : OnlyStreams s (placePending r s st) := by
  rw [placePending_eq]
  split
  · exact (OnlyStreams.setStream st _ s).trans (.addPins _ _)
  · exact .refl s

/-- R82 to R84: an append leaves the controller, the planner and the records but for chains and claims. -/
theorem appendRecord_settled (r : ViewRecord) (s : State) : Settled s (appendRecord r s) := by
  have hroom : Settled s (roomInRing s).state := by
    unfold roomInRing
    split
    · exact overwriteOldest_settled s
    · exact .of_src rfl rfl rfl rfl fun _ => rfl
  have hpush : Settled (roomInRing s).state (pushRecord r (roomInRing s).state) := .of_src rfl rfl rfl rfl fun _ => rfl
  have hplace : OnlyStreams (pushRecord r (roomInRing s).state) (placeRecord r (roomInRing s).state) :=
    (placePending_only r _ .p).trans (placePending_only r _ .r)
  have hall := (hroom.trans hpush).trans (Settled.of_streams (hplace.trans (.offerBoth .view _)))
  rw [appendRecord, Releasing.settle_eq, Releasing.andThen_state]
  exact hall.trans (.removePins _ _)

end Sys2Proof.Machine
end

section
/-! A view step, from the ramp's advance to the record it appends (O41). -/

namespace Sys2Proof.Machine

open Sys2Proof

/-! ## The state a record is composed of -/

/-- R43: the view step up to the record: the ramp, the controller's update, the view zoom and the want writes. -/
def beforeRecord (step : StepFrame) (s : State) : State :=
  let a := advanceRamp s
  let c := a.planner.commanded
  let q := reference a
  let w := wanted a q c
  let v := deriveViewZoom (handoffStep w (stepBuffer step) a)
  storeAndWrite (q.toList ++ w.toList ++ viewMembers v ++ approachSources a q c) v

theorem viewStep_eq (step : StepFrame) (now : Time) (s : State) :
    viewStep step now s =
      appendRecord (composeRecord (beforeRecord step s) step now) (clearMarks (beforeRecord step s)) := rfl

theorem advanceRamp_only (s : State) :
    advanceRamp s = { s with planner := (advanceRamp s).planner, notices := (advanceRamp s).notices } := by
  unfold advanceRamp
  dsimp only
  split <;> rfl

theorem advanceRamp_keepWarm (s : State) : (advanceRamp s).planner.keepWarm = s.planner.keepWarm := by
  have h : ∀ p : Planner, p.activate.keepWarm = p.keepWarm ∧ p.advance.1.keepWarm = p.keepWarm := by
    intro p
    constructor
    · unfold Planner.activate
      split <;> rfl
    · unfold Planner.advance
      split
      · rfl
      · next r hr =>
        dsimp only
        generalize (if r.steps = 0 then 0 else r.index + 1) = k
        split <;> rfl
  have hp : (advanceRamp s).planner = s.planner.activate.advance.1 := by
    unfold advanceRamp
    dsimp only
    split <;> rfl
  rw [hp, (h _).2, (h _).1]

theorem advanceRamp_src (s : State) (i : Source) : (advanceRamp s).src i = s.src i := by rw [advanceRamp_only]; rfl

theorem advanceRamp_handoff (s : State) : (advanceRamp s).handoff = s.handoff := by rw [advanceRamp_only]

theorem advanceRamp_buffer (s : State) (b : BufferId) : (advanceRamp s).buffer b = s.buffer b := by
  rw [advanceRamp_only]; rfl

/-- The controller's part of a view step. -/
def controlled (step : StepFrame) (s : State) : State :=
  let a := advanceRamp s
  handoffStep (wanted a (reference a) a.planner.commanded) (stepBuffer step) a

theorem controlled_steered (step : StepFrame) (s : State) : Steered (advanceRamp s) (controlled step s) :=
  .handoffStep _ _ _

theorem controlled_planner (step : StepFrame) (s : State) : (controlled step s).planner = (advanceRamp s).planner := by
  rw [(controlled_steered step s).only]

/-- R41: the sources planned at a view step. -/
def plannedSources (step : StepFrame) (s : State) : List Source :=
  let a := advanceRamp s
  let q := reference a
  q.toList ++ (wanted a q a.planner.commanded).toList ++ viewMembers (controlled step s) ++
    approachSources a q a.planner.commanded

/-- The state that want is written in. -/
def planning (step : StepFrame) (s : State) : State :=
  let v := deriveViewZoom (controlled step s)
  v.setPlanner { v.planner with planned := SourceSet.ofList (plannedSources step s) }

theorem beforeRecord_eq (step : StepFrame) (s : State) :
    beforeRecord step s = writeWants
      (SourceSet.union (SourceSet.ofList (plannedSources step s)) (controlled step s).planner.keepWarm) (planning step s) :=
  rfl

theorem beforeRecord_wanting (step : StepFrame) (s : State) : Wanting (planning step s) (beforeRecord step s) :=
  .writeWants _ _

theorem beforeRecord_handoff (step : StepFrame) (s : State) :
    (beforeRecord step s).handoff = { (controlled step s).handoff with
      viewZoom := viewZoomFor (controlled step s) (advanceRamp s).planner.commanded } := by
  rw [(beforeRecord_wanting step s).only, ← controlled_planner step s]
  rfl

theorem beforeRecord_planner (step : StepFrame) (s : State) :
    (beforeRecord step s).planner = { (advanceRamp s).planner with
      planned := SourceSet.ofList (plannedSources step s) } := by
  rw [(beforeRecord_wanting step s).only, ← controlled_planner step s]
  rfl

/-- What a view step leaves as it is until the record. -/
theorem beforeRecord_rest (step : StepFrame) (s : State) :
    (beforeRecord step s).cal = s.cal ∧ (beforeRecord step s).reports = s.reports ∧
      (beforeRecord step s).params = s.params ∧ (beforeRecord step s).ports = s.ports ∧
      (beforeRecord step s).streams = s.streams ∧
      (beforeRecord step s).view = { s.view with timer := (controlled step s).view.timer } := by
  have h := (controlled_steered step s).only
  rw [advanceRamp_only] at h
  rw [(beforeRecord_wanting step s).only]
  refine ⟨?_, ?_, ?_, ?_, ?_, ?_⟩ <;> simp only [planning, deriveViewZoom, State.setPlanner_cal, State.setPlanner_reports,
    State.setPlanner_params, State.setPlanner_ports, State.setPlanner_streams, State.setPlanner_view, State.setHandoff_cal,
    State.setHandoff_reports, State.setHandoff_params, State.setHandoff_ports, State.setHandoff_streams,
    State.setHandoff_view] <;> rw [h]

theorem beforeRecord_enr (step : StepFrame) (s : State) (i : Source) : (beforeRecord step s).enr i = s.enr i := by
  have h1 := (beforeRecord_wanting step s).enr i
  have h2 := (controlled_steered step s).enr i
  have h3 : (advanceRamp s).enr i = s.enr i := by rw [State.enr, advanceRamp_src]; rfl
  exact h1.trans (h2.trans h3)

theorem controlled_buffer (step : StepFrame) (s : State) (b : BufferId) : (controlled step s).buffer b = s.buffer b :=
  ((controlled_steered step s).buffer b).trans (advanceRamp_buffer s b)

theorem beforeRecord_buffer (step : StepFrame) (s : State) {b : BufferId} (h : (s.buffer b).state ≠ .free) :
    (beforeRecord step s).buffer b = s.buffer b := by
  have hb : (planning step s).buffer b = s.buffer b := controlled_buffer step s b
  rw [(beforeRecord_wanting step s).buffer b (by rwa [hb]), hb]

theorem beforeRecord_ready (step : StepFrame) (s : State) {b : BufferId}
    (h : ((beforeRecord step s).buffer b).state = .ready) : (beforeRecord step s).buffer b = s.buffer b :=
  ((beforeRecord_wanting step s).ready h).trans (controlled_buffer step s b)

theorem controlled_shown (step : StepFrame) (s : State) {i : Source} (h : (s.src i).state ∈ [.standby, .live]) :
    ((controlled step s).src i).state ∈ [.standby, .live] :=
  (controlled_steered step s).shown i (by rwa [advanceRamp_src])

theorem beforeRecord_shown (step : StepFrame) (s : State) {i : Source} (h : (s.src i).state ∈ [.standby, .live]) :
    (beforeRecord step s).src i = { (controlled step s).src i with
      want := ((beforeRecord step s).src i).want, linger := ((beforeRecord step s).src i).linger } := by
  refine (beforeRecord_wanting step s).plain i fun hoff => ?_
  have hshown := controlled_shown step s h
  have hsame : (planning step s).src i = (controlled step s).src i := rfl
  rw [← hsame, hoff] at hshown
  simp at hshown

theorem beforeRecord_chain (step : StepFrame) (s : State) {i : Source} (h : (s.src i).state ∈ [.standby, .live]) :
    ((beforeRecord step s).src i).chain = (s.src i).chain := by
  rw [beforeRecord_shown step s h]
  exact ((controlled_steered step s).chain i).trans (by rw [advanceRamp_src])

theorem beforeRecord_want (step : StepFrame) (s : State) {i : Source} (h : ((beforeRecord step s).src i).state ≠ .absent) :
    ((beforeRecord step s).src i).want =
      ((beforeRecord step s).planner.planned.get i || s.planner.keepWarm.get i) := by
  have along := writeWants_along
    (SourceSet.union (SourceSet.ofList (plannedSources step s)) (controlled step s).planner.keepWarm)
    (by decide : Source.all.Nodup) (planning step s) i
  rw [beforeRecord_planner, ← advanceRamp_keepWarm s, ← controlled_planner step s, ← SourceSet.union_get]
  refine along.2 (mem_sourceAll i) fun ha => h ?_
  exact (congrArg SourceRecord.state (along.1 (.inr ha))).trans ha

theorem mem_viewMembers {s : State} {i : Source} :
    i ∈ viewMembers s ↔
      s.handoff.primary = some i ∨ ∃ x, s.handoff.record = some x ∧ (x.src = i ∨ x.dst = i) := by
  unfold viewMembers
  cases s.handoff.record <;> simp [eq_comm]

theorem mem_plannedSources {step : StepFrame} {s : State} {i : Source} :
    i ∈ plannedSources step s ↔
      reference (advanceRamp s) = some i ∨
      wanted (advanceRamp s) (reference (advanceRamp s)) (advanceRamp s).planner.commanded = some i ∨
      (controlled step s).handoff.primary = some i ∨
      (∃ x, (controlled step s).handoff.record = some x ∧ (x.src = i ∨ x.dst = i)) ∨
      i ∈ approachSources (advanceRamp s) (reference (advanceRamp s)) (advanceRamp s).planner.commanded := by
  simp only [plannedSources, mem_viewMembers, List.mem_append, Option.mem_toList, or_assoc]

theorem SourceSet.ofList_get (l : List Source) (i : Source) : (SourceSet.ofList l).get i = true ↔ i ∈ l := by
  simp [SourceSet.ofList]

/-! ## The view zoom, the marks and the primary's frame (R68, R69, R76) -/

theorem viewZoomFor_spec (s : State) (c : Nat) :
    (s.handoff.primary = none → viewZoomFor s c = c) ∧
    (∀ p, s.handoff.primary = some p → (∀ y, s.handoff.record = some y → y.phase ≠ .crossfade) →
      viewZoomFor s c = clampTo (s.enr p).base (s.enr p).limit c) ∧
    (∀ p y, s.handoff.primary = some p → s.handoff.record = some y → y.phase = .crossfade →
      viewZoomFor s c = clampTo (max (s.enr y.src).base (s.enr y.dst).base)
        (min (s.enr y.src).limit (s.enr y.dst).limit) c) := by
  refine ⟨fun hp => by simp only [viewZoomFor, hp], fun p hp hr => ?_, fun p y hp hr hph => ?_⟩
  · cases h : s.handoff.record with
    | none => simp only [viewZoomFor, hp, h]
    | some y =>
      cases hph : y.phase with
      | crossfade => exact absurd hph (hr y h)
      | prepare | align | settle => simp only [viewZoomFor, hp, h, hph]
  · simp only [viewZoomFor, hp, hr, hph, sharedCoverage]

/-- A mark that is set stays set. -/
def MarksKept (m n : Marks) : Prop :=
  (m.cut = true → n.cut = true) ∧ (m.forced = true → n.forced = true) ∧ (m.aborted = true → n.aborted = true) ∧
    (m.reversed = true → n.reversed = true)

theorem advanceFade_marks (r : HandoffRecord) (s : State) : (advanceFade r s).handoff.marks = s.handoff.marks := by
  rw [advanceFade_eq]
  split
  · rfl
  · rw [enterSettle_handoff]

theorem Update.marks {s t : State} (h : Update s t) : MarksKept s.handoff.marks t.handoff.marks := by
  cases h with
  | same | candidate | start | before | cancel | hold | finish => exact ⟨id, id, id, id⟩
  | first w => exact ⟨fun _ => rfl, id, id, id⟩
  | cut r r' =>
    rw [cutOver_handoff]
    exact ⟨fun _ => rfl, id, id, id⟩
  | fade r r' =>
    rw [beginFade_eq]
    split
    · exact ⟨id, id, id, id⟩
    · rw [enterSettle_handoff]
      exact ⟨id, id, id, id⟩
  | advance r =>
    rw [advanceFade_marks]
    exact ⟨id, id, id, id⟩
  | reverse r r' =>
    rw [advanceFade_marks]
    exact ⟨id, id, id, fun _ => rfl⟩

/-- R11: the LIVE sources are the primary and the members of a CROSSFADE. -/
theorem LiveOk.primary {s : State} (h : LiveOk s) {p : Source} (hp : s.handoff.primary = some p) :
    (s.src p).state = .live := (h.1 p).mpr (.inl hp)

theorem LiveOk.member {s : State} (h : LiveOk s) {r : HandoffRecord} (hr : s.handoff.record = some r)
    (hph : r.phase = .crossfade) {i : Source} (hi : r.src = i ∨ r.dst = i) : (s.src i).state = .live :=
  (h.1 i).mpr (.inr ⟨r, hr, hph, hi⟩)

/-- A new primary was in STANDBY or LIVE. -/
theorem Update.primary_shown {s t : State} (h : Update s t) (hl : LiveOk s) {p : Source} (hp : t.handoff.primary = some p) :
    (s.src p).state ∈ [.standby, .live] := by
  have keep : s.handoff.primary = some p → (s.src p).state ∈ [.standby, .live] := fun h => by simp [hl.primary h]
  cases h with
  | same | candidate | start | before | cancel | hold | finish => exact keep hp
  | first w _ hs =>
    cases hp
    simp [hs]
  | cut r r' _ _ _ hd hs =>
    rw [cutOver_handoff] at hp
    cases hp
    simp [hd, hs]
  | fade r r' _ _ _ hd hs =>
    rw [beginFade_eq] at hp
    split at hp
    · exact keep hp
    · rw [enterSettle_handoff] at hp
      cases hp
      simp [hd, hs]
  | advance r hr hph =>
    rw [advanceFade_eq] at hp
    split at hp
    · exact keep hp
    · rw [enterSettle_handoff] at hp
      cases hp
      simp [hl.member hr hph (.inr rfl)]
  | reverse r r' hr hph hr' =>
    rw [advanceFade_eq] at hp
    split at hp
    · cases hp
      simp [hl.member hr hph (.inr rfl)]
    · rw [enterSettle_handoff] at hp
      cases hp
      subst hr'
      simp [hl.member hr hph (.inl rfl)]

theorem controlled_update (step : StepFrame) (s : State) : Update (advanceRamp s) (controlled step s) :=
  update_handoffStep _ _ _

theorem LiveOk.advanceRamp {s : State} (h : LiveOk s) : LiveOk (advanceRamp s) := by
  rw [LiveOk, advanceRamp_handoff]
  simp only [advanceRamp_src]
  exact h

/-- R76: a primary always has a frame to name. -/
theorem beforeRecord_named {step : StepFrame} {s : State} (hl : LiveOk s) (hf : FramesOk s)
    (hstep : ∀ y, step = some y → (s.buffer y.2).state = .ready) {p : Source}
    (hp : (controlled step s).handoff.primary = some p) : namedPrimary (beforeRecord step s) step ≠ none := by
  obtain ⟨hready, hinfo, -, -⟩ := hf
  have hshown : (s.src p).state ∈ [.standby, .live] := by
    rw [← advanceRamp_src s p]
    exact (controlled_update step s).primary_shown hl.advanceRamp hp
  have hx : (beforeRecord step s).handoff.primary = some p := by rw [beforeRecord_handoff]; exact hp
  have known : ∀ b, (s.buffer b).state = .ready → ∃ m, ((beforeRecord step s).buffer b).info = some m := by
    intro b hb
    rw [beforeRecord_buffer step s (by simp [hb])]
    exact Option.ne_none_iff_exists'.mp (hinfo b (by simp [hb]))
  have named : ∀ b, primaryFrame (beforeRecord step s) step p = some b → (s.buffer b).state = .ready →
      namedPrimary (beforeRecord step s) step ≠ none := by
    intro b hb hr
    obtain ⟨m, hm⟩ := known b hr
    rw [namedPrimary_some hx hb hm]
    exact Option.some_ne_none _
  have newest : primaryFrame (beforeRecord step s) step p = newestReady (beforeRecord step s) p →
      namedPrimary (beforeRecord step s) step ≠ none := by
    intro hn
    cases hb : newestReady (beforeRecord step s) p with
    | none =>
      obtain ⟨b, hm, hb'⟩ := hready p hshown
      refine absurd ?_ (newestReady_eq_none.mp hb b (by rw [beforeRecord_chain step s hshown]; exact hm))
      rw [beforeRecord_buffer step s (by simp [hb']), hb']
    | some b =>
      have hm := bestOf_mem (laterEnd_or _) hb
      have hr := of_decide_eq_true (List.mem_filter.mp hm).2
      exact named b (hn.trans hb) (by rw [← beforeRecord_ready step s hr, hr])
  rcases step with _ | ⟨i, b⟩
  · exact newest rfl
  · by_cases hi : i = p
    · exact named b (if_pos hi) (hstep _ rfl)
    · exact newest (if_neg hi)

theorem beforeRecord_noSource {step : StepFrame} {s : State} (now : Time) (hl : LiveOk s) (hf : FramesOk s)
    (hstep : ∀ y, step = some y → (s.buffer y.2).state = .ready) :
    (composeRecord (beforeRecord step s) step now).flags.noSource = true ↔ (controlled step s).handoff.primary = none := by
  have hnone : (composeRecord (beforeRecord step s) step now).flags.noSource = true ↔
      namedPrimary (beforeRecord step s) step = none := by
    simp only [composeRecord, recordFlags, Option.isNone_iff_eq_none]
  rw [hnone]
  constructor
  · intro h
    cases hp : (controlled step s).handoff.primary with
    | none => rfl
    | some p => exact absurd h (beforeRecord_named hl hf hstep hp)
  · intro h
    exact namedPrimary_none (.inl (by rw [beforeRecord_handoff]; exact h))

/-! ## The view step (O41) -/

theorem viewStep_handoff (step : StepFrame) (now : Time) (s : State) :
    (viewStep step now s).handoff = { (controlled step s).handoff with
      viewZoom := viewZoomFor (controlled step s) (advanceRamp s).planner.commanded, marks := .empty } := by
  rw [viewStep_eq, (appendRecord_settled _ _).handoff, clearMarks, State.setHandoff_handoff, beforeRecord_handoff]

theorem viewStep_planner (step : StepFrame) (now : Time) (s : State) :
    (viewStep step now s).planner = { (advanceRamp s).planner with
      planned := SourceSet.ofList (plannedSources step s) } := by
  rw [viewStep_eq, (appendRecord_settled _ _).planner, ← beforeRecord_planner]
  rfl

theorem viewStep_src (step : StepFrame) (now : Time) (s : State) (i : Source) :
    SameButChain ((beforeRecord step s).src i) ((viewStep step now s).src i) :=
  (appendRecord_settled _ (clearMarks (beforeRecord step s))).src i

theorem viewStep_view (step : StepFrame) (now : Time) {s : State} (h : s.view.ring.length ≤ 32) :
    (viewStep step now s).view.ring = (if s.view.ring.length = 32 then s.view.ring.tail else s.view.ring) ++
        [composeRecord (beforeRecord step s) step now] ∧
      (viewStep step now s).view.nextSeq = s.view.nextSeq + 1 := by
  obtain ⟨-, -, -, -, -, hview⟩ := beforeRecord_rest step s
  have hv : (clearMarks (beforeRecord step s)).view = (beforeRecord step s).view := rfl
  rw [viewStep_eq, appendRecord_view _ (by rw [hv, hview]; exact h), hv, hview]
  exact ⟨rfl, rfl⟩

theorem exec_viewTimerExpiry (s : State) : exec .viewTimerExpiry s = .next (expireViewTimer s) := rfl

/-- Settles O41: what is composed before the append, and what the append leaves. -/
theorem viewStepAppendsOneRecord : Obligations.ViewStepAppendsOneRecord := by
  unfold Obligations.ViewStepAppendsOneRecord
  refine ⟨fun step now s hring => ?_, fun s => ⟨fun d hd hr => ?_, fun hd => ?_⟩⟩
  · intro a q w h t
    have ht : t.handoff = { h with viewZoom := t.handoff.viewZoom, marks := Marks.empty } := by
      rw [show t.handoff = _ from viewStep_handoff step now s]
      rfl
    have hzoom : t.handoff.viewZoom = viewZoomFor (controlled step s) a.planner.commanded := by
      rw [show t.handoff = _ from viewStep_handoff step now s]
    obtain ⟨hnone, hfixed, hfading⟩ := viewZoomFor_spec (controlled step s) a.planner.commanded
    have henr (i : Source) : (controlled step s).enr i = s.enr i :=
      ((controlled_steered step s).enr i).trans (by rw [State.enr, advanceRamp_src]; rfl)
    simp only [henr] at hfixed hfading
    obtain ⟨hcal, hreports, hparams, -, -, hview⟩ := beforeRecord_rest step s
    have hx : (beforeRecord step s).handoff = { h with viewZoom := t.handoff.viewZoom } := by
      rw [hzoom]
      exact beforeRecord_handoff step s
    have hplanner : t.planner = _ := viewStep_planner step now s
    have hxplanner := beforeRecord_planner step s
    obtain ⟨hr1, hr2, hr3, hr4, hr5, hr6, hr7, hr8, hr9, hr10, hr11, hr12⟩ :=
      composeRecord_common step now (beforeRecord step s)
    obtain ⟨hcut, hforced, haborted, hreversed⟩ := (controlled_update step s).marks
    obtain ⟨htring, htseq⟩ := viewStep_view step now hring
    rw [hx] at hr4 hr5 hr8 hr9 hr10 hr11 hr12
    rw [hxplanner] at hr3 hr6 hr8
    rw [hview] at hr1
    rw [advanceRamp_handoff] at hcut hforced haborted hreversed
    have hphase : t.handoff.record = h.record := by rw [ht]
    have hprimary : t.handoff.primary = h.primary := by rw [ht]
    refine ⟨composeRecord (beforeRecord step s) step now, beforeRecord step s, viewStep_eq step now s, rfl, hx,
      beforeRecord_enr step s, hcal, hreports, hparams, by rw [hview], fun b hb => beforeRecord_buffer step s ?_,
      fun i hi => beforeRecord_chain step s hi, ⟨fun hp => hzoom.trans (hnone hp),
        fun p hp hy => hzoom.trans (hfixed p hp hy), fun p y hp hy hph => hzoom.trans (hfading p y hp hy hph)⟩,
      fun hl hf hs => beforeRecord_noSource now hl hf hs, htring, hr1, hr2, htseq, by rw [hplanner], ht,
      by rw [hr3, hplanner], hr4, by rw [hr6, hplanner], by rw [hr5, hphase], hr7, by rw [hr8, hr4, hr3], hr9, hr10, hr11,
      hr12, fun hm => by rw [hr9]; exact hcut hm, fun hm => by rw [hr10]; exact hforced hm,
      fun hm => by rw [hr11]; exact haborted hm, fun hm => by rw [hr12]; exact hreversed hm, fun i => ?_, fun i hi => ?_,
      (Kept.closed s).viewStep step now (.refl s)⟩
    · intro hf
      rw [hf] at hb
      simp at hb
    · rw [hplanner, hprimary, hphase, SourceSet.ofList_get]
      exact mem_plannedSources
    · have hsrc := viewStep_src step now s i
      rw [SameButChain] at hsrc
      rw [hsrc] at hi ⊢
      rw [hplanner, ← hxplanner]
      exact beforeRecord_want step s hi
  · rw [exec_viewTimerExpiry, expireViewTimer, hd, expired_of_reached hr]
    rfl
  · rw [exec_viewTimerExpiry, expireViewTimer, expired_of_not_reached hd]

end Sys2Proof.Machine
end

section
/-! The locks and the sync lines (O48, O49). -/

namespace Sys2Proof.Machine

open Sys2Proof

/-! ## A change of primary (R47, R144) -/

theorem SyncLine.retime_other {l : SyncLine} {e : Enrolment} (h : l.pulsing = false ∨ e.syncMode ≠ .follow) (i : Source)
    (new : Option Source) (now : Time) : l.retime e i new now = l := by
  rw [SyncLine.retime, if_pos]
  rcases h with h | h <;> simp [h]

theorem SyncLine.retime_paced {l : SyncLine} {e : Enrolment} {i p : Source} (hl : l.pulsing = true)
    (he : e.syncMode = .follow) (hp : p ≠ i) (now : Time) :
    l.retime e i (some p) now = { l with nextPulse := none, followList := [] } := by
  rw [SyncLine.retime, if_neg (by simp [hl, he]), if_pos (by simp [hp])]

/-- R144: a follower that becomes self-paced, by the pulse it has. -/
theorem SyncLine.retime_alone {l : SyncLine} {e : Enrolment} {i : Source} {new : Option Source} (hl : l.pulsing = true)
    (he : e.syncMode = .follow) (hn : new = none ∨ new = some i) (now : Time) :
    (l.nextPulse ≠ none → l.retime e i new now = { l with followList := [] }) ∧
    (∀ d, l.nextPulse = none → l.lastPulse = some d → timeLater (d + BitVec.ofNat 32 e.interval) now = true →
      l.retime e i new now =
        { l with followList := [], nextPulse := some (d + BitVec.ofNat 32 e.interval) }) ∧
    (l.nextPulse = none → (∀ d, l.lastPulse = some d → timeLater (d + BitVec.ofNat 32 e.interval) now = false) →
      l.retime e i new now = { l with
        followList := [], lastPulse := some now
        pulseEnd := if l.pulseEnd = none then some (now + 10) else l.pulseEnd
        nextPulse := some (now + BitVec.ofNat 32 e.interval) }) := by
  have hguard : ¬ (!l.pulsing || decide (e.syncMode ≠ .follow)) = true := by simp [hl, he]
  have halone : ¬ (new.isSome && decide (new ≠ some i)) = true := by rcases hn with rfl | rfl <;> simp
  refine ⟨fun hp => ?_, fun d hp hd ht => ?_, fun hp hd => ?_⟩ <;> rw [SyncLine.retime, if_neg hguard, if_neg halone]
  · obtain ⟨x, hx⟩ := Option.ne_none_iff_exists'.mp hp
    simp only [hx]
  · have ht : timeLater (timeAfter d e.interval) now = true := ht
    simp only [hp, hd, ht, if_true]
    rfl
  · have now' : ({ l with followList := [] } : SyncLine).pulseNow now e.interval = { l with
        followList := [], lastPulse := some now
        pulseEnd := if l.pulseEnd = none then some (now + 10) else l.pulseEnd
        nextPulse := some (now + BitVec.ofNat 32 e.interval) } := by
      rw [SyncLine.pulseNow, SyncLine.pulse_eq]
      rfl
    refine Eq.trans ?_ now'
    cases hl : l.lastPulse with
    | none => simp only [hp]
    | some d =>
      have ht : timeLater (timeAfter d e.interval) now = false := hd d hl
      simp only [hp, ht, Bool.false_eq_true, if_false]

/-! ## The judgement of a frame start (R141, R142) -/

theorem lockReference_some {s : State} {i p : Source} {ref : Time} (hp : s.handoff.primary = some p) (hi : p ≠ i)
    (hr : (s.src p).lastStart = some ref) : lockReference s i = some (p, ref) := by
  simp only [lockReference, hp, if_neg hi, hr, Option.map_some]

theorem judgeLock_eq {s : State} {i p : Source} {ref : Time} (t : Time) (h : lockReference s i = some (p, ref))
    (hs : (s.src i).state.streaming = true) (he : (s.enr i).syncMode = .follow) :
    judgeLock i t s =
      let inWindow := decide ((lockDifference t ref (s.enr p).interval).natAbs ≤ s.params.pairingWindow)
      if (s.src i).locked && !inWindow then raise (.source i .lockLost) (s.setSrc i ((s.src i).judged inWindow))
      else s.setSrc i ((s.src i).judged inWindow) := by
  simp only [judgeLock, h, hs, he, decide_true, Bool.and_self, if_true, State.modSrc_eq]
  rfl

theorem judgeLock_inside {s : State} {i p : Source} {t ref : Time} (h : lockReference s i = some (p, ref))
    (hs : (s.src i).state.streaming = true) (he : (s.enr i).syncMode = .follow)
    (hw : (lockDifference t ref (s.enr p).interval).natAbs ≤ s.params.pairingWindow) :
    judgeLock i t s = s.setSrc i { s.src i with
      matchCount := min 2 ((s.src i).matchCount + 1)
      locked := (s.src i).locked || decide (2 ≤ (s.src i).matchCount + 1) } := by
  rw [judgeLock_eq t h hs he]
  simp only [decide_eq_true hw, Bool.not_true, Bool.and_false, Bool.false_eq_true, if_false, SourceRecord.judged, if_true]

theorem judgeLock_outside {s : State} {i p : Source} {t ref : Time} (h : lockReference s i = some (p, ref))
    (hs : (s.src i).state.streaming = true) (he : (s.enr i).syncMode = .follow)
    (hw : s.params.pairingWindow < (lockDifference t ref (s.enr p).interval).natAbs) :
    judgeLock i t s =
      if (s.src i).locked then raise (.source i .lockLost) (s.setSrc i { s.src i with matchCount := 0, locked := false })
      else s.setSrc i { s.src i with matchCount := 0, locked := false } := by
  rw [judgeLock_eq t h hs he]
  simp only [decide_eq_false (Nat.not_le.mpr hw), Bool.not_false, Bool.and_true, SourceRecord.judged, Bool.false_eq_true,
    if_false]

/-! ## The follow list (R139) -/

theorem followsPrimary_iff {s : State} {p i : Source} :
    followsPrimary s p i = true ↔ (s.syncLine i).pulsing = true ∧ (s.enr i).syncMode = .follow ∧ i ≠ p := by
  simp [followsPrimary, and_assoc]

theorem SyncLine.follow_late {l : SyncLine} {start t : Time} (h : timeLater t start = true) :
    l.follow start t = l.addFollow start t := if_pos h

theorem SyncLine.addFollow_of_lt {l : SyncLine} {now : Time} (t : Time) (h : l.followList.length < 4) :
    l.addFollow now t = { l with followList := insertTime t l.followList } := by
  rw [SyncLine.addFollow, SyncLine.makeRoom_of_lt h]

/-- R139: a full list loses its earliest time, which pulses when it is due. -/
theorem SyncLine.addFollow_full {l : SyncLine} {d : Time} {rest : List Time} (now t : Time) (hl : l.followList = d :: rest)
    (hr : rest.length = 3) :
    l.addFollow now t =
      if reached now d = true then { l.pulse d with followList := insertTime t rest }
      else { l with followList := insertTime t rest } := by
  have hroom : l.makeRoom now = if reached now d then { l.pulse d with followList := rest } else { l with followList := rest } := by
    unfold SyncLine.makeRoom
    split
    · next h => rw [hl] at h; cases h
    · next x xs h =>
      rw [hl] at h
      cases h
      rw [if_neg (by rw [hl]; simp [hr])]
  rw [SyncLine.addFollow, hroom]
  split <;> rfl

theorem SyncLine.follow_full {l : SyncLine} {start t d : Time} {rest : List Time} (h : timeLater t start = true)
    (hl : l.followList = d :: rest) (hr : rest.length = 3) :
    l.follow start t =
      if reached start d = true then
        ({ l with
          followList := rest, lastPulse := some d
          pulseEnd := if l.pulseEnd = none then some (d + 10) else l.pulseEnd } : SyncLine).follow start t
      else ({ l with followList := rest } : SyncLine).follow start t := by
  rw [SyncLine.follow_late h, SyncLine.addFollow_full start t hl hr, SyncLine.follow_late h, SyncLine.follow_late h,
    SyncLine.addFollow_of_lt t (by rw [hr]; decide), SyncLine.addFollow_of_lt t (by rw [hr]; decide), SyncLine.pulse_eq]

/-- Settles O48: the retiming by the line's mode, the judgement by the window, and the pace by the follow list. -/
theorem lockFollowsThePrimary : Obligations.LockFollowsThePrimary := by
  unfold Obligations.LockFollowsThePrimary
  refine ⟨fun new i s => ⟨rfl, changePrimary_src new s i, fun h => ?_, ?_, fun hn hl he => ?_⟩,
    fun i p t ref s hp hi hr hs he => ?_, fun t ref interval => rfl, fun p start s => ⟨fun i h => ?_, fun i hl he hi => ?_, ?_⟩,
    fun l start t => ⟨fun h => ?_, fun h hlen => ?_, fun d rest h hl hr => SyncLine.follow_full h hl hr⟩⟩
  · rw [changePrimary_syncLine, SyncLine.retime_other h]
  · rintro p rfl hp hl he
    rw [changePrimary_syncLine, SyncLine.retime_paced hl he hp]
  · rw [changePrimary_syncLine]
    exact SyncLine.retime_alone hl he hn s.timebase
  · have href := lockReference_some hp hi hr
    exact ⟨judgeLock_inside href hs he, judgeLock_outside href hs he⟩
  · have hf : ¬ followsPrimary s p i = true := by
      rw [followsPrimary_iff]
      rintro ⟨hl, he, hi⟩
      rcases h with h | h | h
      · rw [h] at hl; cases hl
      · exact h he
      · exact hi h
    rw [(paceFollowers_lines p start s).2 i, if_neg hf]
  · rw [(paceFollowers_lines p start s).2 i, if_pos (followsPrimary_iff.mpr ⟨hl, he, hi⟩)]
    rfl
  · exact (paceFollowers_lines p start s).1
  · rw [SyncLine.follow, if_neg (by simp [h]), SyncLine.pulse_eq]
  · obtain ⟨before, after, hl, hins, hbefore, hafter⟩ := insertTime_place t l.followList
    refine ⟨before, after, hl, ?_, hbefore, hafter⟩
    rw [SyncLine.follow_late h, SyncLine.addFollow_of_lt t hlen, hins]

/-! ## The pulses (R137 to R140) -/

theorem ownPeriod_eq (e : Enrolment) : ownPeriod e = if e.syncMode = .free then e.freePeriod else e.interval := by
  cases h : e.syncMode <;> simp [ownPeriod, h]

theorem exec_syncPulseEnd (i : Source) (s : State) : exec (.syncPulseEnd i) s = .next (endPulse i s) := rfl

theorem exec_nextSyncPulse (i : Source) (s : State) : exec (.nextSyncPulse i) s = .next (takeNextPulse i s) := rfl

theorem exec_followListPulse (i : Source) (s : State) : exec (.followListPulse i) s = .next (takeFollowPulse i s) := rfl

theorem takeNextPulse_reached {i : Source} {s : State} {d : Time} (h : (s.syncLine i).nextPulse = some d)
    (hd : reached s.timebase d = true) :
    takeNextPulse i s =
      s.setSync i { (s.syncLine i).pulse d with nextPulse := some (timeAfter d (ownPeriod (s.enr i))) } := by
  simp only [takeNextPulse, h, expired_of_reached hd]

theorem takeFollowPulse_reached {i : Source} {s : State} {d : Time} {rest : List Time}
    (hl : (s.syncLine i).followList = d :: rest) (hd : reached s.timebase d = true) :
    takeFollowPulse i s = s.setSync i { (s.syncLine i).pulse d with followList := rest } := by
  simp only [takeFollowPulse, hl, hd, if_true]

theorem takeFollowPulse_waits {i : Source} {s : State}
    (h : ∀ d rest, (s.syncLine i).followList = d :: rest → reached s.timebase d = false) : takeFollowPulse i s = s := by
  cases hl : (s.syncLine i).followList with
  | nil => simp only [takeFollowPulse, hl]
  | cons d rest => simp only [takeFollowPulse, hl, h d rest hl, Bool.false_eq_true, if_false]

/-- Settles O49, deadline by deadline. -/
theorem syncLinesPulse : Obligations.SyncLinesPulse := by
  unfold Obligations.SyncLinesPulse
  refine fun i s => ⟨fun d hd hr => ?_, fun d hd hr => ?_, fun d rest hl hr => ?_, fun hd => ?_, fun hd => ?_, fun hd => ?_⟩
  · rw [exec_syncPulseEnd, endPulse, hd, expired_of_reached hr]
  · rw [exec_nextSyncPulse, takeNextPulse_reached hd hr, SyncLine.pulse_eq, ownPeriod_eq]
    rfl
  · rw [exec_followListPulse, takeFollowPulse_reached hl hr, SyncLine.pulse_eq]
  · rw [exec_syncPulseEnd, endPulse, expired_of_not_reached hd]
  · rw [exec_nextSyncPulse, takeNextPulse, expired_of_not_reached hd]
  · rw [exec_followListPulse, takeFollowPulse_waits hd]

end Sys2Proof.Machine
end

section
/-! Bad frames and frame starts (O50, O52). -/

namespace Sys2Proof.Machine

open Sys2Proof

/-! ## The buffer a frame start fills (R107) -/

theorem fillChoice_empty {s : State} {i : Source} {before : List BufferId} {b : BufferId} {after : List BufferId}
    (hchain : (s.src i).chain = before ++ b :: after) (hb : (s.buffer b).state = .empty)
    (hbefore : ∀ x ∈ before, (s.buffer x).state ≠ .empty) : fillChoice s i = some b := by
  have hfind : ((s.src i).chain.find? fun b => decide ((s.buffer b).state = .empty)) = some b := by
    rw [hchain, List.find?_append, List.find?_eq_none.mpr (by simpa using hbefore), Option.none_or,
      List.find?_cons_of_pos (by simp [hb])]
  simp only [fillChoice, hfind]

/-- Without an EMPTY buffer the choice is among the READY ones that no stream has pinned. -/
theorem fillChoice_full {s : State} {i : Source} (h : ∀ x ∈ (s.src i).chain, (s.buffer x).state ≠ .empty) :
    fillChoice s i = bestOf (earlierEnd s)
      ((s.src i).chain.filter fun b => decide ((s.buffer b).state = .ready) && decide ((s.buffer b).pins = 0)) := by
  have hfind : ((s.src i).chain.find? fun b => decide ((s.buffer b).state = .empty)) = none :=
    List.find?_eq_none.mpr (by simpa using h)
  simp only [fillChoice, hfind]

theorem fillChoice_ready {s : State} {i : Source} {before : List BufferId} {b : BufferId} {after : List BufferId}
    {m : FrameMeta} (hchain : (s.src i).chain = before ++ b :: after)
    (hfull : ∀ x ∈ (s.src i).chain, (s.buffer x).state ≠ .empty) (hb : (s.buffer b).state = .ready)
    (hp : (s.buffer b).pins = 0) (hm : (s.buffer b).info = some m)
    (h1 : ∀ x ∈ before, (s.buffer x).state = .ready → (s.buffer x).pins = 0 →
      ∃ n, (s.buffer x).info = some n ∧ timeLater n.finish m.finish = true)
    (h2 : ∀ x ∈ after, (s.buffer x).state = .ready → (s.buffer x).pins = 0 →
      ∃ n, (s.buffer x).info = some n ∧ timeLater m.finish n.finish = false) : fillChoice s i = some b := by
  rw [fillChoice_full hfull, hchain, List.filter_append, List.filter_cons_of_pos (by simp [hb, hp])]
  refine bestOf_split (earlierEnd_or s) (fun x hx => ?_) (fun x hx => ?_) <;>
    obtain ⟨hx, hr⟩ := List.mem_filter.mp hx <;> simp only [Bool.and_eq_true, decide_eq_true_eq] at hr
  · obtain ⟨n, hn, ht⟩ := h1 x hx hr.1 hr.2
    simp [earlierEnd, hn, hm, ht]
  · obtain ⟨n, hn, ht⟩ := h2 x hx hr.1 hr.2
    simp [earlierEnd, hn, hm, ht]

theorem fillChoice_eq_none {s : State} {i : Source} :
    fillChoice s i = none ↔ ∀ x ∈ (s.src i).chain,
      (s.buffer x).state ≠ .empty ∧ ¬((s.buffer x).state = .ready ∧ (s.buffer x).pins = 0) := by
  by_cases h : ∀ x ∈ (s.src i).chain, (s.buffer x).state ≠ .empty
  · rw [fillChoice_full h, bestOf_none, List.filter_eq_nil_iff]
    refine forall₂_congr fun x hx => ?_
    simp [h x hx]
  · have hfind : ((s.src i).chain.find? fun b => decide ((s.buffer b).state = .empty)) ≠ none := by
      rw [ne_eq, List.find?_eq_none]
      simpa using h
    obtain ⟨b, hb⟩ := Option.ne_none_iff_exists'.mp hfind
    simp only [fillChoice, hb, reduceCtorEq, false_iff]
    intro hall
    exact h fun x hx => (hall x hx).1

/-- The choice reads the source's chain and the buffers alone. -/
theorem fillChoice_congr {s t : State} {i : Source} (hc : (t.src i).chain = (s.src i).chain) (hb : ∀ b, t.buffer b = s.buffer b) :
    fillChoice t i = fillChoice s i := by
  have he : earlierEnd t = earlierEnd s := by
    funext a b
    simp only [earlierEnd, hb]
  simp only [fillChoice, hc, hb, he]

/-- The chosen buffer is of the chain, EMPTY, or READY without a pin. -/
theorem fillChoice_mem {s : State} {i : Source} {b : BufferId} (h : fillChoice s i = some b) :
    b ∈ (s.src i).chain ∧
      ((s.buffer b).state = .empty ∨
        ((s.buffer b).state = .ready ∧ (s.buffer b).pins = 0 ∧ ∀ x ∈ (s.src i).chain, (s.buffer x).state ≠ .empty)) := by
  unfold fillChoice at h
  split at h
  · next c hc =>
    cases h
    exact ⟨List.mem_of_find?_eq_some hc, .inl (by simpa using List.find?_some hc)⟩
  · next hn =>
    have hm := List.mem_filter.mp (bestOf_mem (earlierEnd_or s) h)
    simp only [Bool.and_eq_true, decide_eq_true_eq] at hm
    refine ⟨hm.1, .inr ⟨hm.2.1, hm.2.2, ?_⟩⟩
    simpa using List.find?_eq_none.mp hn

/-! ## Bad frames (R110, R21) -/

theorem shutDown_port (i : Source) (was : SourceState) (s : State) (j : Source) :
    (shutDown i was s).port j = if was.streaming = true ∧ j = i then .idle else s.port j := by
  unfold shutDown
  dsimp only
  have hport := (releaseChain_only i (cancelClaim i (s.modSrc i fun r => { r with warm := none, linger := none }))).port j
  generalize releaseChain i (cancelClaim i (s.modSrc i fun r => { r with warm := none, linger := none })) = u at hport
  have hs : u.port j = s.port j := hport
  cases was.streaming
  · simp [stopPulsing, hs]
  · by_cases hj : j = i <;> simp [stopPulsing, leaveStreaming, hj, hs]

theorem informDeparture_port (i : Source) (was : SourceState) (s : State) (j : Source) :
    (informDeparture i was s).port j = s.port j := by
  unfold informDeparture
  split
  · rw [departure_only]
    rfl
  · rfl

theorem enterFaulted_port (i : Source) (cause : FaultCause) (s : State) (j : Source) :
    (enterFaulted i cause s).port j = if (s.src i).state.streaming = true ∧ j = i then .idle else s.port j := by
  have habsent : ∀ u : State, (absentIfPending i u).port j = u.port j := by
    intro u
    unfold absentIfPending
    split <;> rfl
  rw [enterFaulted_eq, informDeparture_port, habsent]
  unfold faultedShut
  dsimp only
  split <;> simp only [raiseSrc_port] <;> rw [shutDown_port] <;> rfl

theorem abandonFilling_idle {i : Source} {s : State} (h : s.port i = .idle) : abandonFilling i s = s := by
  simp only [abandonFilling, h]

theorem abandonFilling_filling {i : Source} {s : State} {b : BufferId} {f : FrameNo} {st : Time} {k : Nat} {c : Half}
    (h : s.port i = .filling b f st k c) :
    abandonFilling i s = (s.modBuffer b fun x => x.cleared .empty).setPort i .idle := by
  simp only [abandonFilling, h]

theorem abandonFilling_port (i : Source) (s : State) : (abandonFilling i s).port i = .idle := by
  cases h : s.port i with
  | idle => rw [abandonFilling_idle h, h]
  | filling b f st k c =>
    rw [abandonFilling_filling h]
    simp

/-- What an abandoned frame leaves besides its port and its buffer. -/
theorem abandonFilling_only (i : Source) (s : State) :
    abandonFilling i s = { s with
      ports := (abandonFilling i s).ports, pool := { s.pool with buffers := (abandonFilling i s).pool.buffers } } := by
  cases h : s.port i with
  | idle => rw [abandonFilling_idle h]
  | filling b f st k c => rw [abandonFilling_filling h]; rfl

theorem abandonFilling_src (i j : Source) (s : State) : (abandonFilling i s).src j = s.src j := by
  rw [abandonFilling_only]; rfl

/-- R21: the record of a source with one bad frame more. -/
def SourceRecord.badCounted (r : SourceRecord) : SourceRecord := { r with bad := r.bad + 1, qualify := 0 }

theorem badFrame_eq (i : Source) (s : State) :
    badFrame i s =
      let u := (abandonFilling i s).setSrc i (s.src i).badCounted
      if s.params.badFrameLimit ≤ (s.src i).bad + 1 then enterFaulted i .badFrames u else u := by
  have hsrc := abandonFilling_src i i s
  have hparams : (abandonFilling i s).params = s.params := by rw [abandonFilling_only]
  have hcount : badFrame i s = if (abandonFilling i s).params.badFrameLimit ≤ ((abandonFilling i s).src i).bad + 1 then
      enterFaulted i .badFrames ((abandonFilling i s).setSrc i ((abandonFilling i s).src i).badCounted)
      else (abandonFilling i s).setSrc i ((abandonFilling i s).src i).badCounted := by
    unfold badFrame countBadFrame
    simp only [State.modSrc_eq, State.setSrc_src_self, State.setSrc_params]
    rfl
  rw [hcount, hsrc, hparams]

theorem badFrame_port (i : Source) (s : State) : (badFrame i s).port i = .idle := by
  rw [badFrame_eq]
  have hu : ((abandonFilling i s).setSrc i (s.src i).badCounted).port i = .idle := abandonFilling_port i s
  dsimp only
  split
  · rw [enterFaulted_port, hu, ite_self]
  · exact hu

theorem badFrame_counted {i : Source} {s : State} (h : (s.src i).bad + 1 < s.params.badFrameLimit) :
    badFrame i s = (abandonFilling i s).setSrc i (s.src i).badCounted := by
  rw [badFrame_eq]
  exact if_neg (Nat.not_le.mpr h)

theorem badFrame_faulted {i : Source} {s : State} (h : s.params.badFrameLimit ≤ (s.src i).bad + 1) :
    badFrame i s = enterFaulted i .badFrames ((abandonFilling i s).setSrc i (s.src i).badCounted) := by
  rw [badFrame_eq]
  exact if_pos h

/-- Settles O52, by whether the limit is reached. -/
theorem badFramesCount : Obligations.BadFramesCount := by
  unfold Obligations.BadFramesCount
  refine fun i s => ⟨badFrame_port i s, fun h => ?_, fun h hw => ?_⟩
  · have hkept : Kept s (badFrame i s) := by
      rw [badFrame_counted h, abandonFilling_only]
      exact ⟨rfl, rfl, rfl, rfl, rfl, rfl, rfl, rfl, rfl, fun _ => rfl, fun _ => rfl, fun _ => rfl⟩
    rw [badFrame_counted h] at hkept ⊢
    refine ⟨State.setSrc_src_self _ _ _, fun j hj => ?_, fun b f st k c hp => ?_, fun hp => ?_, ?_, ?_, hkept⟩
    · rw [State.setSrc_src_ne _ _ hj, abandonFilling_src]
    · rw [abandonFilling_filling hp]
      refine ⟨by simp [Buffer.cleared], fun b' hb' => by simp [hb']⟩
    · rw [abandonFilling_idle hp]
      rfl
    · rw [abandonFilling_only]
      rfl
    · rw [abandonFilling_only]
      rfl
  · rw [badFrame_faulted h]
    refine enterFaulted_faulted ?_
    rw [State.setSrc_src_self]
    exact hw

/-! ## The judgement at a frame start (R141, R142) -/

/-- Whether a frame start is judged, and whether it is then in the window. -/
def judgement (i : Source) (start : Time) (s : State) : Option Bool :=
  match lockReference s i with
  | some (p, ref) =>
    if (s.src i).state.streaming && decide ((s.enr i).syncMode = .follow) then
      some (decide ((lockDifference start ref (s.enr p).interval).natAbs ≤ s.params.pairingWindow))
    else none
  | none => none

/-- The lock and the match count after a judgement, if there is one. -/
def SourceRecord.judgedBy (r : SourceRecord) : Option Bool → SourceRecord
  | none => r
  | some inWindow => r.judged inWindow

/-- Whether a judgement raises LOCK_LOST. -/
def losesLock (r : SourceRecord) : Option Bool → Bool
  | none => false
  | some inWindow => r.locked && !inWindow

theorem judgeLock_judgement (i : Source) (start : Time) (s : State) :
    judgeLock i start s =
      if losesLock (s.src i) (judgement i start s) then
        raiseSrc i .lockLost (s.setSrc i ((s.src i).judgedBy (judgement i start s)))
      else s.setSrc i ((s.src i).judgedBy (judgement i start s)) := by
  unfold judgeLock judgement
  cases lockReference s i with
  | none => simp [losesLock, SourceRecord.judgedBy]
  | some x =>
    obtain ⟨p, ref⟩ := x
    dsimp only
    by_cases h : ((s.src i).state.streaming && decide ((s.enr i).syncMode = .follow)) = true
    · simp only [if_pos h, losesLock, SourceRecord.judgedBy, State.modSrc_eq]
    · simp only [if_neg h, losesLock, SourceRecord.judgedBy, Bool.false_eq_true, if_false, State.setSrc_self]

theorem SourceRecord.judgedBy_eq (r : SourceRecord) (o : Option Bool) :
    r.judgedBy o = { r with locked := (r.judgedBy o).locked, matchCount := (r.judgedBy o).matchCount } := by
  unfold SourceRecord.judgedBy SourceRecord.judged
  split
  · rfl
  · split <;> rfl

theorem judgeLock_src (i : Source) (start : Time) (s : State) (j : Source) :
    (judgeLock i start s).src j = if j = i then (s.src i).judgedBy (judgement i start s) else s.src j := by
  rw [judgeLock_judgement]
  split <;> simp

theorem judgeLock_notice (i : Source) (start : Time) (s : State) (l : Link) :
    (judgeLock i start s).notice l =
      if losesLock (s.src i) (judgement i start s) then (s.notice l).raise (.source i .lockLost) else s.notice l := by
  rw [judgeLock_judgement]
  split
  · rw [raiseSrc_notice]
    rfl
  · rfl

theorem judgeLock_only (i : Source) (start : Time) (s : State) :
    judgeLock i start s = { s with sources := (judgeLock i start s).sources, notices := (judgeLock i start s).notices } := by
  rw [judgeLock_judgement]
  split <;> rfl

/-- R20, R106: the record of a source whose frame starts now. -/
def startedRecord (i : Source) (s : State) : SourceRecord :=
  { s.src i with lastStart := some s.timebase, stall := some (stallFrom s i s.timebase) }

theorem stampStart_eq (i : Source) (s : State) :
    stampStart i s =
      let u := judgeLock i s.timebase (s.setSrc i (startedRecord i s))
      if s.handoff.primary = some i then paceFollowers i s.timebase u else u := by
  have hh : (judgeLock i s.timebase (s.setSrc i (startedRecord i s))).handoff = s.handoff := by
    rw [judgeLock_only]
    rfl
  have h : stampStart i s =
      let u := judgeLock i s.timebase (s.setSrc i (startedRecord i s))
      if u.handoff.primary = some i then paceFollowers i s.timebase u else u := rfl
  rw [h]
  dsimp only
  rw [hh]

theorem startedRecord_enr (i j : Source) (s : State) : (s.setSrc i (startedRecord i s)).enr j = s.enr j := by
  rw [State.enr, State.setSrc_src]
  split
  · next h => subst h; rfl
  · rfl

/-- The judgement does not look at the source's own start. -/
theorem judgement_started (i : Source) (start : Time) (s : State) :
    judgement i start (s.setSrc i (startedRecord i s)) = judgement i start s := by
  have href : lockReference (s.setSrc i (startedRecord i s)) i = lockReference s i := by
    unfold lockReference
    rw [State.setSrc_handoff]
    cases s.handoff.primary with
    | none => rfl
    | some p =>
      by_cases hp : p = i
      · simp [hp]
      · simp only [if_neg hp, State.setSrc_src]
  have hstate : ((s.setSrc i (startedRecord i s)).src i).state = (s.src i).state := by
    rw [State.setSrc_src_self]
    rfl
  simp only [judgement, href, startedRecord_enr, hstate, State.setSrc_params]

/-- The state after a frame start's stamp and judgement, before the followers are paced. -/
def stamped (i : Source) (s : State) : State := judgeLock i s.timebase (s.setSrc i (startedRecord i s))

theorem stamped_src (i : Source) (s : State) (j : Source) :
    (stamped i s).src j = if j = i then (startedRecord i s).judgedBy (judgement i s.timebase s) else s.src j := by
  rw [stamped, judgeLock_src, judgement_started, State.setSrc_src_self]
  split
  · rfl
  · next h => exact State.setSrc_src_ne _ _ h

theorem stamped_notice (i : Source) (s : State) (l : Link) :
    (stamped i s).notice l = (judgeLock i s.timebase s).notice l := by
  rw [stamped, judgeLock_notice, judgeLock_notice, judgement_started, State.setSrc_src_self]
  have h : losesLock (startedRecord i s) (judgement i s.timebase s) = losesLock (s.src i) (judgement i s.timebase s) := by
    cases judgement i s.timebase s <;> rfl
  rw [h]
  rfl

theorem stamped_only (i : Source) (s : State) :
    stamped i s = { s with sources := (stamped i s).sources, notices := (stamped i s).notices } := by
  rw [stamped, judgeLock_only]
  rfl

theorem stampStart_pace (i : Source) (s : State) :
    stampStart i s = if s.handoff.primary = some i then paceFollowers i s.timebase (stamped i s) else stamped i s :=
  stampStart_eq i s

/-- What a frame start's stamp leaves as it is. -/
theorem stampStart_only (i : Source) (s : State) :
    stampStart i s = { s with sources := (stamped i s).sources, notices := (stamped i s).notices,
                              sync := (stampStart i s).sync } := by
  rw [stampStart_pace]
  split
  · have h := (paceFollowers_lines i s.timebase (stamped i s)).1
    generalize paceFollowers i s.timebase (stamped i s) = v at h ⊢
    have hv : v = { stamped i s with sync := v.sync } := by rw [← h]
    conv_lhs => rw [hv, stamped_only]
  · conv_lhs => rw [stamped_only]
    rw [stamped_only]

theorem stampStart_src (i : Source) (s : State) (j : Source) :
    (stampStart i s).src j = if j = i then (startedRecord i s).judgedBy (judgement i s.timebase s) else s.src j := by
  rw [stampStart_only, ← stamped_src]
  rfl

theorem stampStart_notice (i : Source) (s : State) (l : Link) :
    (stampStart i s).notice l = (judgeLock i s.timebase s).notice l := by
  rw [stampStart_only, ← stamped_notice]
  rfl

/-! ## The frame start (O50) -/

theorem startedRecord_judged (i : Source) (s : State) (o : Option Bool) :
    (startedRecord i s).judgedBy o = { startedRecord i s with
      locked := ((s.src i).judgedBy o).locked, matchCount := ((s.src i).judgedBy o).matchCount } := by
  rcases o with _ | _ | _ <;> rfl

theorem stamped_enr (i : Source) (s : State) (j : Source) : (stamped i s).enr j = s.enr j := by
  rw [State.enr, stamped_src]
  split
  · next h =>
    subst h
    rw [startedRecord_judged]
    rfl
  · rfl

/-- The followers' pace is that of the state before the stamp. -/
theorem stampStart_syncLine (i : Source) (s : State) (j : Source) :
    (stampStart i s).syncLine j =
      if s.handoff.primary = some i then (paceFollowers i s.timebase s).syncLine j else s.syncLine j := by
  have hline : ∀ k, (stamped i s).syncLine k = s.syncLine k := fun k => by rw [stamped_only]; rfl
  rw [stampStart_pace]
  split
  · rw [(paceFollowers_lines i s.timebase (stamped i s)).2, (paceFollowers_lines i s.timebase s).2]
    have hf : followsPrimary (stamped i s) i j = followsPrimary s i j := by simp only [followsPrimary, hline, stamped_enr]
    rw [hf, hline, stamped_enr, stamped_enr]
  · exact hline j

theorem judgeLock_pending (i : Source) (start : Time) (s : State) (l : Link) {k : Notice} (h : k ≠ .source i .lockLost) :
    ((judgeLock i start s).notice l).isPending k = (s.notice l).isPending k := by
  rw [judgeLock_notice]
  split
  · exact Notices.isPending_raise_ne h.symm
  · rfl



/-- R106: the stamp of a frame start. -/
theorem stampStart_stamped (i : Source) (s : State) : StampedStart i s (stampStart i s) := by
  have hlock : (judgeLock i s.timebase s).src i = (s.src i).judgedBy (judgement i s.timebase s) := by
    rw [judgeLock_src, if_pos rfl]
  refine ⟨?_, fun l => by rw [stampStart_notice], fun l k hk _ => ?_, stampStart_syncLine i s, fun j hj => ?_, ?_, ?_,
    (Kept.closed s).stampStart i (.refl s)⟩
  · rw [hlock, stampStart_src, if_pos rfl, startedRecord_judged]
    rfl
  · rw [stampStart_notice, judgeLock_pending i _ s l hk]
  · rw [stampStart_src, if_neg hj]
  · rw [stampStart_only]
  · rw [stampStart_only]

theorem stampStart_qualify (i : Source) (s : State) :
    ((stampStart i s).src i).qualify = (s.src i).qualify ∧ ((stampStart i s).src i).state = (s.src i).state ∧
      ((stampStart i s).src i).chain = (s.src i).chain := by
  rw [stampStart_src, if_pos rfl, startedRecord_judged]
  exact ⟨rfl, rfl, rfl⟩

theorem stampStart_enr (i : Source) (s : State) (j : Source) : (stampStart i s).enr j = s.enr j := by
  rw [← stamped_enr i s j, stampStart_only]
  rfl

/-- A stamped state in which the source's qualify count, the pool, the ports and DROP may have changed. -/
theorem StampedStart.filled {i : Source} {s t u : State} (h : StampedStart i s t)
    (hsrc : u.src i = { t.src i with qualify := (u.src i).qualify }) (hothers : ∀ j, j ≠ i → u.src j = t.src j)
    (hnotice : ∀ l k, k ≠ .source i .drop → (u.notice l).isPending k = (t.notice l).isPending k)
    (hsync : ∀ j, u.syncLine j = t.syncLine j) (hhandoff : u.handoff = t.handoff) (hview : u.view = t.view)
    (hkept : Kept t u) : StampedStart i s u := by
  obtain ⟨h1, h2, h3, h4, h5, h6, h7, h8⟩ := h
  refine ⟨?_, fun l => (hnotice l _ (by simp)).trans (h2 l), fun l k hk hd => (hnotice l k hd).trans (h3 l k hk hd),
    fun j => (hsync j).trans (h4 j), fun j hj => (hothers j hj).trans (h5 j hj), hhandoff.trans h6, hview.trans h7, ?_⟩
  · rw [hsrc, h1]
  · exact ⟨hkept.pending.trans h8.pending, hkept.resetLow.trans h8.resetLow, hkept.initialising.trans h8.initialising,
      hkept.timebase.trans h8.timebase, hkept.params.trans h8.params, hkept.cal.trans h8.cal,
      hkept.triggers.trans h8.triggers, hkept.links.trans h8.links, hkept.selected.trans h8.selected,
      fun l => (hkept.kinds l).trans (h8.kinds l), fun l => (hkept.groups l).trans (h8.groups l),
      fun st => (hkept.configs st).trans (h8.configs st)⟩

theorem takeFrameStart_wrong {i : Source} {n w h : Half} {s : State}
    (hs : w.toNat ≠ (s.enr i).width ∨ h.toNat ≠ (s.enr i).height) :
    takeFrameStart i n w h s = badFrame i (stampStart i s) := by
  rw [takeFrameStart, if_pos]
  simpa [stampStart_enr] using hs

theorem takeFrameStart_right {i : Source} {n w h : Half} {s : State} (hw : w.toNat = (s.enr i).width)
    (hh : h.toNat = (s.enr i).height) :
    (∀ b, fillChoice s i = some b → takeFrameStart i n w h s = beginFilling i b n (stampStart i s)) ∧
      (fillChoice s i = none → takeFrameStart i n w h s = dropFrame i (stampStart i s)) := by
  have hsize : ¬ (decide (w.toNat ≠ ((stampStart i s).enr i).width) || decide (h.toNat ≠ ((stampStart i s).enr i).height)) =
      true := by
    simp [stampStart_enr, hw, hh]
  have hfill : fillChoice (stampStart i s) i = fillChoice s i :=
    fillChoice_congr (stampStart_qualify i s).2.2 fun b => by rw [stampStart_only]; rfl
  refine ⟨fun b hb => ?_, fun hb => ?_⟩ <;> rw [takeFrameStart, if_neg hsize] <;> simp only [hfill, hb]

theorem beginFilling_stamped {i : Source} {b : BufferId} {n : FrameNo} {s t : State} (h : StampedStart i s t) :
    StampedStart i s (beginFilling i b n t) := by
  have hsrc : ∀ j, (beginFilling i b n t).src j = t.src j := fun _ => rfl
  have hnotice : ∀ l, (beginFilling i b n t).notice l = t.notice l := fun _ => rfl
  have hsync : ∀ j, (beginFilling i b n t).syncLine j = t.syncLine j := fun _ => rfl
  refine h.filled ?_ (fun j _ => hsrc j) (fun l k _ => by rw [hnotice]) hsync ?_ ?_
    ((Kept.closed t).beginFilling i b n (.refl t))
  · rw [hsrc]
  · rw [beginFilling, State.setPort_handoff, State.modBuffer_handoff]
  · rw [beginFilling, State.setPort_view, State.modBuffer_view]

theorem dropFrame_eq (i : Source) (s : State) :
    dropFrame i s = raiseSrc i .drop (s.setSrc i { s.src i with
      qualify := if (s.src i).state = .warming then 0 else (s.src i).qualify }) := by
  unfold dropFrame
  split
  · rw [State.modSrc_eq]
  · rw [State.setSrc_self]

theorem dropFrame_stamped {i : Source} {s t : State} (h : StampedStart i s t) : StampedStart i s (dropFrame i t) := by
  have hkept := (Kept.closed t).dropFrame i (.refl t)
  rw [dropFrame_eq] at hkept ⊢
  refine h.filled ?_ (fun j hj => ?_) (fun l k hk => ?_) (fun _ => rfl) rfl rfl hkept
  · rw [raiseSrc_src, State.setSrc_src_self]
  · rw [raiseSrc_src, State.setSrc_src_ne _ _ hj]
  · rw [raiseSrc_notice, Notices.isPending_raise_ne hk.symm]
    rfl

theorem intakeFrameStart_discarded {i : Source} {n w h : Half} {s : State} (hs : (s.src i).state.streaming = false) :
    intakeFrameStart i n w h s = s := by
  rw [intakeFrameStart, if_pos (by simp [hs])]

theorem intakeFrameStart_idle {i : Source} {n w h : Half} {s : State} (hs : (s.src i).state.streaming = true)
    (hp : s.port i = .idle) : intakeFrameStart i n w h s = takeFrameStart i n w h s := by
  rw [intakeFrameStart, if_neg (by simp [hs])]
  simp only [hp, hs, if_true]

theorem intakeFrameStart_filling {i : Source} {n w h : Half} {s : State} {b : BufferId} {f : FrameNo} {st : Time} {k : Nat}
    {c : Half} (hs : (s.src i).state.streaming = true) (hp : s.port i = .filling b f st k c) :
    intakeFrameStart i n w h s =
      if ((badFrame i s).src i).state.streaming then intakeFrameStart i n w h (badFrame i s) else badFrame i s := by
  have hstart : intakeFrameStart i n w h s =
      if ((badFrame i s).src i).state.streaming then takeFrameStart i n w h (badFrame i s) else badFrame i s := by
    rw [intakeFrameStart, if_neg (by simp [hs])]
    simp only [hp]
  rw [hstart]
  split
  · next hb => rw [intakeFrameStart_idle hb (badFrame_port i s)]
  · rfl

theorem exec_frameStart (i : Source) (n w h : Half) (s : State) :
    exec (.frameStart i n w h) s = .next (intakeFrameStart i n w h s) := rfl

theorem lockReference_none {s : State} {i : Source}
    (h : ∀ p, s.handoff.primary = some p → p = i ∨ (s.src p).lastStart = none) : lockReference s i = none := by
  unfold lockReference
  cases hp : s.handoff.primary with
  | none => rfl
  | some p =>
    by_cases hi : p = i
    · simp only [if_pos hi]
    · simp only [if_neg hi, (h p hp).resolve_left hi, Option.map_none]

/-- R141: a frame start that meets not every condition is not judged. -/
theorem judgeLock_unjudged {s : State} {i : Source} (t : Time)
    (h : (∀ p, s.handoff.primary = some p → p = i ∨ (s.src p).lastStart = none) ∨ (s.enr i).syncMode ≠ .follow) :
    judgeLock i t s = s := by
  have hnone : judgement i t s = none := by
    unfold judgement
    rcases h with h | h
    · simp only [lockReference_none h]
    · cases lockReference s i with
      | none => rfl
      | some x => simp [h]
  rw [judgeLock_judgement, hnone]
  simp [losesLock, SourceRecord.judgedBy]

/-- Settles O50: the chosen buffer, the stamp, and the judgement by its conditions. -/
theorem frameStartTakesABuffer : Obligations.FrameStartTakesABuffer := by
  unfold Obligations.FrameStartTakesABuffer
  refine ⟨fun i s => ⟨fun before b after => fillChoice_empty, fun before b after m => fillChoice_ready, fillChoice_eq_none⟩,
    fun i n w h s => ⟨fun hs => ?_, fun b f st k c hs hp => ?_, fun hs hp => ⟨fun hsize => ?_, fun hw hh => ?_, ?_, ?_, ?_,
      judgeLock_unjudged s.timebase⟩⟩⟩
  · rw [exec_frameStart, intakeFrameStart_discarded hs]
  · rw [exec_frameStart, intakeFrameStart_filling hs hp]
    split <;> rfl
  · rw [exec_frameStart, intakeFrameStart_idle hs hp, takeFrameStart_wrong hsize]
  · rw [exec_frameStart, intakeFrameStart_idle hs hp]
    obtain ⟨hfill, hdrop⟩ := takeFrameStart_right (n := n) (s := s) hw hh
    obtain ⟨hq, hstate, -⟩ := stampStart_qualify i s
    have hport : ∀ j, (stampStart i s).port j = s.port j := fun j => by rw [stampStart_only]; rfl
    have hbuffer : ∀ b, (stampStart i s).buffer b = s.buffer b := fun b => by rw [stampStart_only]; rfl
    have hpool : (stampStart i s).pool = s.pool := by rw [stampStart_only]
    have hpending : ∀ l, ((stampStart i s).notice l).isPending (.source i .drop) = (s.notice l).isPending (.source i .drop) :=
      fun l => by rw [stampStart_notice, judgeLock_pending i _ s l (by simp)]
    have hstamp := stampStart_stamped i s
    cases hb : fillChoice s i with
    | some b =>
      rw [hfill b hb]
      refine ⟨_, rfl, beginFilling_stamped hstamp, fun j hj => ?_, fun b' hb' => ?_, nofun⟩
      · rw [← hport j]
        simp [beginFilling, hj]
      · cases hb'
        refine ⟨?_, ?_, fun b' hb' => ?_, hq, hpending⟩
        · have htime : (stampStart i s).timebase = s.timebase := by rw [stampStart_only]
          rw [← htime]
          simp [beginFilling]
        · rw [← hbuffer b]
          simp [beginFilling, Buffer.cleared]
        · rw [← hbuffer b']
          simp [beginFilling, hb']
    | none =>
      rw [hdrop hb]
      refine ⟨_, rfl, dropFrame_stamped hstamp, fun j _ => ?_, nofun, fun _ => ?_⟩ <;> rw [dropFrame_eq]
      · exact hport j
      · refine ⟨(hport i).trans hp, hpool, ?_, fun l => ?_⟩
        · rw [raiseSrc_src, State.setSrc_src_self, hstate, hq]
        · rw [raiseSrc_notice, Notices.isPending_raise]
  · refine ⟨stampStart_stamped i s, ?_, ?_, (stampStart_qualify i s).1⟩ <;> rw [stampStart_only]
  · intro p ref hpr hpi hr he hw
    exact judgeLock_inside (lockReference_some hpr hpi hr) hs he hw
  · intro p ref hpr hpi hr he hw
    have hj := judgeLock_outside (lockReference_some hpr hpi hr) hs he hw
    rw [hj]
    cases (s.src i).locked <;> simp

end Sys2Proof.Machine
end

section
/-! Lines, frame ends and good frames (O51, O53). -/

namespace Sys2Proof.Machine

open Sys2Proof

/-! ## The samples of a line (R178) -/

theorem half_toNat (hi lo : Byte) : (half hi lo).toNat = 256 * hi.toNat + lo.toNat := by
  have h1 := hi.isLt
  have h2 := lo.isLt
  rw [half, BitVec.toNat_append, ← Nat.shiftLeft_add_eq_or_of_lt h2, Nat.shiftLeft_eq]
  omega

theorem sample_toNat (hi lo : Byte) : ((half hi lo).setWidth 10).toNat = (256 * hi.toNat + lo.toNat) % 1024 := by
  rw [BitVec.toNat_setWidth, half_toNat]

theorem fieldAt_two (x y : Byte) (a : List Byte) : fieldAt (x :: y :: a) 0 2 = 256 * x.toNat + y.toNat := by
  simp [fieldAt]

theorem fieldAt_past (before a : List Byte) (k n : Nat) : fieldAt (before ++ a) (before.length + k) n = fieldAt a k n := by
  rw [fieldAt_skip _ _ _ _ (by simp), Nat.add_sub_cancel_left]

theorem parsePixels_spec (data : List Byte) (width : Nat) (h : data.length = 6 * width) :
    (parsePixels data).length = width ∧
      ∀ u p, (parsePixels data)[u]? = some p →
        p.c0.toNat = fieldAt data (6 * u) 2 % 1024 ∧ p.c1.toNat = fieldAt data (6 * u + 2) 2 % 1024 ∧
          p.c2.toNat = fieldAt data (6 * u + 4) 2 % 1024 := by
  induction width generalizing data with
  | zero =>
    obtain rfl : data = [] := List.eq_nil_of_length_eq_zero (by omega)
    exact ⟨rfl, by simp [parsePixels]⟩
  | succ width ih =>
    match data, h with
    | a1 :: a0 :: b1 :: b0 :: c1 :: c0 :: rest, h =>
      obtain ⟨hlen, hrest⟩ := ih rest (by simp only [List.length_cons] at h; omega)
      refine ⟨by simp [parsePixels, hlen], fun u p hp => ?_⟩
      cases u with
      | zero =>
        simp only [parsePixels, List.getElem?_cons_zero, Option.some.injEq] at hp
        subst hp
        refine ⟨?_, ?_, ?_⟩
        · rw [Nat.mul_zero, fieldAt_two, sample_toNat]
        · have past : fieldAt (a1 :: a0 :: b1 :: b0 :: c1 :: c0 :: rest) (6 * 0 + 2) 2 =
              fieldAt (b1 :: b0 :: c1 :: c0 :: rest) 0 2 := fieldAt_past [a1, a0] _ 0 2
          rw [past, fieldAt_two, sample_toNat]
        · have past : fieldAt (a1 :: a0 :: b1 :: b0 :: c1 :: c0 :: rest) (6 * 0 + 4) 2 =
              fieldAt (c1 :: c0 :: rest) 0 2 := fieldAt_past [a1, a0, b1, b0] _ 0 2
          rw [past, fieldAt_two, sample_toNat]
      | succ u =>
        simp only [parsePixels, List.getElem?_cons_succ] at hp
        obtain ⟨h0, h1, h2⟩ := hrest u p hp
        have past (k : Nat) : fieldAt (a1 :: a0 :: b1 :: b0 :: c1 :: c0 :: rest) (6 * (u + 1) + k) 2 =
            fieldAt rest (6 * u + k) 2 := by
          rw [show 6 * (u + 1) + k = [a1, a0, b1, b0, c1, c0].length + (6 * u + k) by simp; omega]
          exact fieldAt_past [a1, a0, b1, b0, c1, c0] rest _ 2
        exact ⟨by rw [h0]; exact congrArg (· % 1024) (past 0).symm, by rw [h1, past], by rw [h2, past]⟩

theorem rowSum_toNat (row : List Pixel) :
    (rowSum row).toNat = (row.map fun p => p.c0.toNat + p.c1.toNat + p.c2.toNat).sum % 65536 := by
  have go : ∀ (row : List Pixel) (acc : Half),
      (row.foldl (fun acc px => acc + px.c0.setWidth 16 + px.c1.setWidth 16 + px.c2.setWidth 16) acc).toNat =
        (acc.toNat + (row.map fun p => p.c0.toNat + p.c1.toNat + p.c2.toNat).sum) % 65536 := by
    intro row
    induction row with
    | nil => exact fun acc => by simpa using (Nat.mod_eq_of_lt acc.isLt).symm
    | cons p row ih =>
      intro acc
      have h0 := p.c0.isLt
      have h1 := p.c1.isLt
      have h2 := p.c2.isLt
      rw [List.foldl_cons, ih, List.map_cons, List.sum_cons]
      simp only [BitVec.toNat_add, BitVec.toNat_setWidth]
      omega
  rw [rowSum, go]
  simp

/-! ## Lines and frame ends (O51) -/

theorem intakeLine_stray {i : Source} {number : Half} {data : List Byte} {s : State}
    (h : (s.src i).state.streaming = false ∨ s.port i = .idle) : intakeLine i number data s = s := by
  unfold intakeLine
  split
  · rfl
  · next hs =>
    have hs : (s.src i).state.streaming = true := by simpa using hs
    have hp : s.port i = .idle := h.resolve_left (by simp [hs])
    simp only [hp]

theorem intakeFrameEnd_stray {i : Source} {count check : Half} {s : State}
    (h : (s.src i).state.streaming = false ∨ s.port i = .idle) : intakeFrameEnd i count check s = s := by
  unfold intakeFrameEnd
  split
  · rfl
  · next hs =>
    have hs : (s.src i).state.streaming = true := by simpa using hs
    have hp : s.port i = .idle := h.resolve_left (by simp [hs])
    simp only [hp]

theorem intakeLine_filling {i : Source} {number : Half} {data : List Byte} {s : State} {b : BufferId} {f : FrameNo}
    {st : Time} {lines : Nat} {sum : Half} (hs : (s.src i).state.streaming = true)
    (hp : s.port i = .filling b f st lines sum) :
    intakeLine i number data s =
      if lineGood (s.enr i) lines number data then
        (s.modBuffer b fun x => { x with content := x.content ++ [parsePixels data] }).setPort i
          (.filling b f st (lines + 1) (sum + rowSum (parsePixels data)))
      else badFrame i s := by
  rw [intakeLine, if_neg (by simp [hs])]
  simp only [hp]

theorem intakeFrameEnd_filling {i : Source} {count check : Half} {s : State} {b : BufferId} {f : FrameNo} {st : Time}
    {lines : Nat} {sum : Half} (hs : (s.src i).state.streaming = true) (hp : s.port i = .filling b f st lines sum) :
    intakeFrameEnd i count check s =
      if frameGood (s.enr i) lines sum count check then goodFrame i b f st s else badFrame i s := by
  rw [intakeFrameEnd, if_neg (by simp [hs])]
  simp only [hp]

theorem lineGood_iff {e : Enrolment} {lines : Nat} {number : Half} {data : List Byte} :
    lineGood e lines number data = true ↔ number.toNat = lines ∧ lines < e.height ∧ data.length = 6 * e.width := by
  simp [lineGood, and_assoc]

theorem frameGood_iff {e : Enrolment} {lines : Nat} {sum count check : Half} :
    frameGood e lines sum count check = true ↔ count.toNat = e.height ∧ lines = e.height ∧ check = sum := by
  simp [frameGood, and_assoc]

theorem exec_line (i : Source) (number : Half) (data : List Byte) (s : State) :
    exec (.line i number data) s = .next (intakeLine i number data s) := rfl

theorem exec_frameEnd (i : Source) (count check : Half) (s : State) :
    exec (.frameEnd i count check) s = .next (intakeFrameEnd i count check s) := rfl

/-- R178: bytes that spell no packet are discarded. -/
theorem exec_invalidPacket {i : Source} {bytes : List Byte} (h : WellFormed (.invalidPacket i bytes) = true) (s : State) :
    exec (.invalidPacket i bytes) s = .next s := by
  have hd : decodePacket i bytes = .invalidPacket i bytes := of_decide_eq_true h
  have he : exec (.invalidPacket i bytes) s = execInvalidPacket i bytes s := rfl
  rw [he]
  simp only [execInvalidPacket, hd]

/-- Settles O51, by the port and the tests. -/
theorem linesFillTheBuffer : Obligations.LinesFillTheBuffer := by
  unfold Obligations.LinesFillTheBuffer
  refine ⟨parsePixels_spec, rowSum_toNat, fun i number count check data s => ⟨fun h => ?_, fun bytes h => exec_invalidPacket h s,
    fun b f st lines sum hs hp => ⟨fun h => ?_, fun h => ?_, fun h => ?_⟩⟩⟩
  · rw [exec_line, exec_frameEnd, intakeLine_stray h, intakeFrameEnd_stray h]
    exact ⟨rfl, rfl⟩
  · rw [exec_line, intakeLine_filling hs hp, if_pos (lineGood_iff.mpr h)]
  · rw [exec_line, intakeLine_filling hs hp, if_neg (mt lineGood_iff.mp h)]
  · rw [exec_frameEnd, intakeFrameEnd_filling hs hp, if_neg (mt frameGood_iff.mp h)]

/-! ## Good frames (O53) -/

/-- What the completion of a buffer and the match of its report leave. -/
structure Completed (i : Source) (b : BufferId) (f : FrameNo) (st : Time) (s v : State) : Prop where
  only : v = { s with ports := v.ports, reports := v.reports, pool := { s.pool with buffers := v.pool.buffers } }
  port : v.port i = .idle
  buffer : v.buffer b = { s.buffer b with
    state := .ready
    info := some { source := i, frame := f, start := st, finish := s.timebase, report := ((s.report i).matching f).2 } }
  report : v.report i = ((s.report i).matching f).1
  buffers : ∀ b', b' ≠ b → v.buffer b' = s.buffer b'
  others : ∀ j, j ≠ i → v.report j = s.report j ∧ v.port j = s.port j

theorem completeBuffer_report (i : Source) (b : BufferId) (f : FrameNo) (st : Time) (s : State) (j : Source) :
    (completeBuffer i b f st s).report j = s.report j := rfl

theorem completeBuffer_port (i : Source) (b : BufferId) (f : FrameNo) (st : Time) (s : State) (j : Source) :
    (completeBuffer i b f st s).port j = if j = i then .idle else s.port j := by
  simp [completeBuffer]

theorem completeBuffer_buffer (i : Source) (b : BufferId) (f : FrameNo) (st : Time) (s : State) (b' : BufferId) :
    (completeBuffer i b f st s).buffer b' =
      if b' = b then { s.buffer b with
        state := .ready, info := some { source := i, frame := f, start := st, finish := s.timebase, report := none } }
      else s.buffer b' := by
  by_cases h : b' = b <;> simp [completeBuffer, h]

theorem completeBuffer_only (i : Source) (b : BufferId) (f : FrameNo) (st : Time) (s : State) :
    completeBuffer i b f st s = { s with
      ports := (completeBuffer i b f st s).ports
      pool := { s.pool with buffers := (completeBuffer i b f st s).pool.buffers } } := rfl

theorem matchReport_completed (i : Source) (b : BufferId) (f : FrameNo) (st : Time) (s : State) :
    Completed i b f st s (matchReport i b f (completeBuffer i b f st s)).1 ∧
      (matchReport i b f (completeBuffer i b f st s)).2 = ((s.report i).matching f).2.isSome := by
  have hr := completeBuffer_report i b f st s
  have hp := completeBuffer_port i b f st s
  have hb := completeBuffer_buffer i b f st s
  have ho := completeBuffer_only i b f st s
  generalize completeBuffer i b f st s = c at hr hp hb ho ⊢
  cases hm : ((s.report i).matching f).2 with
  | none =>
    have he : matchReport i b f c = (c.setReport i ((s.report i).matching f).1, false) := by
      simp only [matchReport, hr, hm]
    rw [he]
    refine ⟨⟨?_, ?_, ?_, ?_, fun b' hb' => ?_, fun j hj => ?_⟩, rfl⟩
    · rw [ho]
      rfl
    · simp [hp]
    · simp [hb, hm]
    · simp
    · simp [hb, hb']
    · simp [hr, hp, hj]
  | some r =>
    have he : matchReport i b f c = ((c.setReport i ((s.report i).matching f).1).modBuffer b fun x =>
        { x with info := x.info.map fun m => { m with report := some r } }, true) := by
      simp only [matchReport, hr, hm]
    rw [he]
    refine ⟨⟨?_, ?_, ?_, ?_, fun b' hb' => ?_, fun j hj => ?_⟩, rfl⟩
    · rw [ho]
      rfl
    · simp [hp]
    · simp [hb, hm]
    · simp
    · simp [hb, hb']
    · simp [hr, hp, hj]

/-- R10: the four conditions. -/
theorem qualifies_iff {i : Source} {s : State} :
    qualifies i s = true ↔ s.params.qualifyFrames ≤ (s.src i).qualify ∧ (s.src i).chain.length = 3 ∧ s.calTable i ≠ [] ∧
      ((s.enr i).syncMode = .follow → s.handoff.primary ≠ none → (s.src i).locked = true) := by
  have hlock : ((s.enr i).syncMode ≠ .follow ∨ s.handoff.primary = none) ∨ (s.src i).locked = true ↔
      ((s.enr i).syncMode = .follow → s.handoff.primary ≠ none → (s.src i).locked = true) := by tauto
  simp only [qualifies, Bool.and_eq_true, Bool.or_eq_true, decide_eq_true_eq, Bool.not_eq_true',
    List.isEmpty_eq_false_iff, Option.isNone_iff_eq_none, hlock, and_assoc]

/-- R111: the record after a good frame end. -/
def SourceRecord.goodCounted (r : SourceRecord) (f : FrameNo) : SourceRecord := { r with bad := 0, lastCompleted := some f }

theorem recordGoodFrame_eq (i : Source) (f : FrameNo) (reported : Bool) (s : State) :
    recordGoodFrame i f reported s =
      if (s.src i).state = .warming then warmingFrame i reported (s.setSrc i ((s.src i).goodCounted f))
      else s.setSrc i ((s.src i).goodCounted f) := by
  unfold recordGoodFrame
  simp only [State.modSrc_eq, State.setSrc_src_self]
  rfl

theorem warmingFrame_missing (i : Source) (s : State) :
    warmingFrame i false s = raiseSrc i .reportMissing (s.setSrc i { s.src i with qualify := 0 }) := by
  rw [warmingFrame, if_neg Bool.false_ne_true, State.modSrc_eq]

theorem warmingFrame_reported (i : Source) (s : State) :
    warmingFrame i true s =
      let u := s.setSrc i { s.src i with qualify := min 8 ((s.src i).qualify + 1) }
      if qualifies i u then qualifyNow i u else u := by
  rw [warmingFrame, if_pos rfl, State.modSrc_eq]

/-- R10: the source in STANDBY, before the controller is informed. -/
def qualified (i : Source) (s : State) : State :=
  raiseSrc i .ready (moveToStandby i (s.setSrc i { s.src i with warm := none }))

theorem qualifyNow_eq (i : Source) (s : State) : qualifyNow i s = informStandby i (qualified i s) := by
  rw [qualifyNow, State.modSrc_eq]
  rfl

theorem qualified_src (i : Source) (s : State) (j : Source) :
    (qualified i s).src j =
      if j = i then { s.src i with
        warm := none, state := .standby
        linger := if (s.src i).want = true ∨ (s.src i).linger ≠ none then (s.src i).linger
          else some (timeAfter s.timebase (msToUs s.params.lingerTime)) }
      else s.src j := by
  rw [qualified, raiseSrc_src, moveToStandby_src, State.setSrc_src_self]
  split
  · rfl
  · next h => exact State.setSrc_src_ne _ _ h

theorem qualified_only (i : Source) (s : State) :
    qualified i s = { s with sources := (qualified i s).sources, notices := (qualified i s).notices } := by
  rw [qualified, moveToStandby_only]
  rfl

theorem qualified_notice (i : Source) (s : State) (l : Link) :
    (qualified i s).notice l = (s.notice l).raise (.source i .ready) := by
  rw [qualified, raiseSrc_notice, moveToStandby_notice]
  rfl

theorem informStandby_candidate {i : Source} {s : State} (hp : s.handoff.primary = none)
    (hc : s.handoff.candidate = some i) : informStandby i s = makeFirstPrimary i s := by
  rw [informStandby, if_pos (by simp [hp, hc])]

theorem informStandby_other {i : Source} {s : State}
    (h : ¬(s.handoff.primary = none ∧ s.handoff.candidate = some i)) : informStandby i s = s := by
  rw [informStandby, if_neg (by simpa using h)]

theorem makeFirstPrimary_notice (i : Source) (s : State) (l : Link) : (makeFirstPrimary i s).notice l = s.notice l := rfl

theorem Steered.informStandby (i : Source) (s : State) : Steered s (informStandby i s) := by
  unfold Machine.informStandby
  split
  · exact makeFirstPrimary i s
  · exact refl s

theorem setSrc_control (s : State) (i : Source) (x : SourceRecord) : OnlyControl s (s.setSrc i x) := rfl

theorem qualifyNow_control (i : Source) (s : State) : OnlyControl s (qualifyNow i s) := by
  have h : OnlyControl s (qualified i s) := by rw [OnlyControl, qualified_only]
  rw [qualifyNow_eq]
  exact h.trans (Steered.informStandby i _).only

theorem warmingFrame_control (i : Source) (reported : Bool) (s : State) : OnlyControl s (warmingFrame i reported s) := by
  cases reported
  · rw [warmingFrame_missing]
    exact (setSrc_control s i { s.src i with qualify := 0 }).trans (raise_only _ _)
  · rw [warmingFrame_reported]
    have h := setSrc_control s i { s.src i with qualify := min 8 ((s.src i).qualify + 1) }
    generalize s.setSrc i { s.src i with qualify := min 8 ((s.src i).qualify + 1) } = u at h
    dsimp only
    split
    · exact h.trans (qualifyNow_control i u)
    · exact h

theorem recordGoodFrame_control (i : Source) (f : FrameNo) (reported : Bool) (s : State) :
    OnlyControl s (recordGoodFrame i f reported s) := by
  rw [recordGoodFrame_eq]
  have h := setSrc_control s i ((s.src i).goodCounted f)
  split
  · exact h.trans (warmingFrame_control i reported _)
  · exact h

theorem goodFrame_eq (i : Source) (b : BufferId) (f : FrameNo) (st : Time) (s : State) :
    goodFrame i b f st s =
      let u := recordGoodFrame i f (matchReport i b f (completeBuffer i b f st s)).2
        (matchReport i b f (completeBuffer i b f st s)).1
      if s.handoff.primary = some i then viewStep (some (i, b)) u.timebase u else u := by
  unfold goodFrame
  simp only [decide_eq_true_eq]

/-- R111, R10, R130: the source's record and what follows, by the qualification; `v` is the state whose buffer is complete. -/
theorem recordGoodFrame_cases (i : Source) (f : FrameNo) (reported : Bool) (v : State) :
    let u := recordGoodFrame i f reported v
    let qualifies := v.params.qualifyFrames ≤ min 8 ((v.src i).qualify + 1) ∧ (v.src i).chain.length = 3 ∧ v.calTable i ≠ [] ∧
      ((v.enr i).syncMode = .follow → v.handoff.primary ≠ none → (v.src i).locked = true)
    let counted := { (v.src i).goodCounted f with qualify := min 8 ((v.src i).qualify + 1) }
    ((v.src i).state ≠ .warming → u = v.setSrc i ((v.src i).goodCounted f)) ∧
    ((v.src i).state = .warming → reported = false →
      u = raiseSrc i .reportMissing (v.setSrc i { (v.src i).goodCounted f with qualify := 0 })) ∧
    ((v.src i).state = .warming → reported = true → ¬qualifies → u = v.setSrc i counted) ∧
    ((v.src i).state = .warming → reported = true → qualifies →
      u = informStandby i (qualified i (v.setSrc i counted))) := by
  intro u qualifies counted
  have hu : u = _ := recordGoodFrame_eq i f reported v
  have hcounted : (v.setSrc i ((v.src i).goodCounted f)).setSrc i
      { (v.setSrc i ((v.src i).goodCounted f)).src i with
        qualify := min 8 (((v.setSrc i ((v.src i).goodCounted f)).src i).qualify + 1) } = v.setSrc i counted := by
    rw [State.setSrc_setSrc, State.setSrc_src_self]
    rfl
  have henr : (v.setSrc i counted).enr i = v.enr i := by rw [State.enr, State.setSrc_src_self]; rfl
  have hq : Machine.qualifies i (v.setSrc i counted) = true ↔ qualifies := by
    rw [qualifies_iff, henr, State.setSrc_src_self]
    exact Iff.rfl
  refine ⟨fun hs => ?_, fun hs hr => ?_, fun hs hr hn => ?_, fun hs hr hy => ?_⟩
  · rw [hu, if_neg hs]
  · rw [hu, if_pos hs, hr, warmingFrame_missing, State.setSrc_setSrc, State.setSrc_src_self]
  · rw [hu, if_pos hs, hr, warmingFrame_reported, hcounted]
    exact if_neg (mt hq.mp hn)
  · rw [hu, if_pos hs, hr, warmingFrame_reported, hcounted, ← qualifyNow_eq]
    exact if_pos (hq.mpr hy)

/-- A good frame's state as far as the controller's part leaves it. -/
theorem Completed.controlled {i : Source} {b : BufferId} {f : FrameNo} {st : Time} {s v u : State}
    (h : Completed i b f st s v) (hu : OnlyControl v u) :
    u.port i = .idle ∧ (u.buffer b).state = .ready ∧ (u.buffer b).content = (s.buffer b).content ∧
      (u.buffer b).pins = (s.buffer b).pins ∧
      (u.buffer b).info = some { source := i, frame := f, start := st, finish := s.timebase,
                                 report := ((s.report i).matching f).2 } ∧
      (∀ b', b' ≠ b → u.buffer b' = s.buffer b') ∧ u.report i = ((s.report i).matching f).1 ∧
      u.pool.banks = s.pool.banks ∧ u.pool.claimQueue = s.pool.claimQueue ∧ u.planner = s.planner ∧ u.streams = s.streams ∧
      ∀ j, j ≠ i → u.report j = s.report j ∧ u.port j = s.port j := by
  have hbuffer : ∀ b', u.buffer b' = v.buffer b' := fun b' => by rw [hu]; rfl
  have hport : ∀ j, u.port j = v.port j := fun j => by rw [hu]; rfl
  have hreport : ∀ j, u.report j = v.report j := fun j => by rw [hu]; rfl
  have hpool : u.pool = v.pool := by rw [hu]
  have honly := h.only
  refine ⟨(hport i).trans h.port, ?_, ?_, ?_, ?_, fun b' hb' => (hbuffer b').trans (h.buffers b' hb'),
    (hreport i).trans h.report, ?_, ?_, ?_, ?_, fun j hj => ?_⟩
  · rw [hbuffer, h.buffer]
  · rw [hbuffer, h.buffer]
  · rw [hbuffer, h.buffer]
  · rw [hbuffer, h.buffer]
  · rw [hpool, honly]
  · rw [hpool, honly]
  · rw [hu, honly]
  · rw [hu, honly]
  · rw [hreport, hport]
    exact h.others j hj

/-- R66, R67: a qualified source that the controller does not wait for enters STANDBY. -/
theorem qualified_standby (i : Source) (s v : State) (x : SourceRecord) (hs : ∀ j, v.src j = if j = i then x else s.src j)
    (hw : x.want = (s.src i).want) (hl : x.linger = (s.src i).linger) (htime : v.timebase = s.timebase)
    (hparams : v.params = s.params) :
    EntersStandby i s (qualified i v) ∧
      (qualified i v).src i = { x with warm := none, state := .standby, linger := ((qualified i v).src i).linger } ∧
      ∀ j, j ≠ i → (qualified i v).src j = s.src j := by
  have hi : v.src i = x := (hs i).trans (if_pos rfl)
  have hq : (qualified i v).src i = _ := (qualified_src i v i).trans (if_pos rfl)
  refine ⟨?_, ?_, fun j hj => by rw [qualified_src, if_neg hj, hs, if_neg hj]⟩
  · rw [EntersStandby, hq, hi, hw, hl, htime, hparams]
    exact ⟨rfl, rfl⟩
  · rw [hq, hi]

theorem Completed.fields {i : Source} {b : BufferId} {f : FrameNo} {st : Time} {s v : State} (h : Completed i b f st s v) :
    (∀ j, v.src j = s.src j) ∧ v.params = s.params ∧ v.handoff = s.handoff ∧ v.view = s.view ∧ v.sync = s.sync ∧
      v.timebase = s.timebase ∧ v.notices = s.notices ∧ (∀ j, v.calTable j = s.calTable j) := by
  have honly := h.only
  refine ⟨fun j => ?_, ?_, ?_, ?_, ?_, ?_, ?_, fun j => ?_⟩ <;> rw [honly] <;> rfl

/-- R66, R67: a qualified candidate becomes the first primary. -/
theorem qualified_first (i : Source) (s v : State) (x : SourceRecord) (hs : ∀ j, v.src j = if j = i then x else s.src j)
    (he : x.enrolment = (s.src i).enrolment) (htime : v.timebase = s.timebase) (hsync : v.sync = s.sync) :
    let t := makeFirstPrimary i (qualified i v)
    EntersLive i t ∧
      t.src i = { x with warm := none, state := .live, linger := none, locked := false, matchCount := 0 } ∧
      (∀ j, j ≠ i → OnlyUnlocked j s t) ∧ PrimaryChanged (changePrimary (some i) s) t ∧
      t.handoff = { v.handoff with primary := some i, candidate := none, marks := { v.handoff.marks with cut := true } } ∧
      t.view = { v.view with timer := none } := by
  intro t
  have hq := qualified_src i v
  obtain ⟨hlive, hothers⟩ := unlock_moveToLive (makeFirstPrimary_src i (qualified i v))
  have hi : v.src i = x := (hs i).trans (if_pos rfl)
  have honly := qualified_only i v
  refine ⟨hlive, ?_, fun j hj => ?_, (makeFirstPrimary_changes i _).of_lines fun j => ?_, ?_, ?_⟩
  · rw [show t.src i = _ from makeFirstPrimary_src i _ i, moveToLive_src, if_pos rfl, hq, if_pos rfl, hi]
    rfl
  · have hj' := hothers j hj
    rw [OnlyUnlocked, hq, if_neg hj, hs, if_neg hj] at hj'
    exact hj'
  · have hline : (qualified i v).syncLine j = s.syncLine j := by
      rw [honly]
      exact congrArg (PerSource.get · j) hsync
    have henr : (qualified i v).enr j = s.enr j := by
      have hj : ((qualified i v).src j).enrolment = (s.src j).enrolment := by
        rw [hq]
        split
        · next h => rw [hi, h]; exact he
        · next h => rw [hs, if_neg h]
      rw [State.enr, State.enr, hj]
    have ht : (qualified i v).timebase = s.timebase := by rw [honly]; exact htime
    rw [changePrimary_syncLine, changePrimary_syncLine, hline, henr, ht]
  · rw [show t.handoff = _ from makeFirstPrimary_handoff i _, honly]
  · have hview : (qualified i v).view = v.view := by rw [honly]
    rw [← hview]
    rfl

/-- R73: the frame end, with the state that the view step starts from. -/
theorem exec_frameEnd_good {i : Source} {count check : Half} {b : BufferId} {f : FrameNo} {st : Time} {s : State}
    (hs : (s.src i).state.streaming = true) (hp : s.port i = .filling b f st (s.enr i).height check)
    (hc : count.toNat = (s.enr i).height) :
    ∃ v, Completed i b f st s v ∧
      (let u := recordGoodFrame i f ((s.report i).matching f).2.isSome v
       Kept s u ∧ exec (.frameEnd i count check) s =
        .next (if s.handoff.primary = some i then viewStep (some (i, b)) s.timebase u else u)) := by
  obtain ⟨hv, hm⟩ := matchReport_completed i b f st s
  have hlater := PartClosed.matchReport_later (s := completeBuffer i b f st s) i b f
  have hkept := (Kept.closed s).recordGoodFrame i f ((s.report i).matching f).2.isSome
    ((Kept.closed s).matchReport i b f ((Kept.closed s).completeBuffer i b f st (.refl s))) hlater
  refine ⟨_, hv, hkept, ?_⟩
  rw [exec_frameEnd, intakeFrameEnd_filling hs hp, if_pos (frameGood_iff.mpr ⟨hc, rfl, rfl⟩), goodFrame_eq, hm]
  dsimp only
  rw [hkept.timebase]

/-- Settles O53, by the state, the match, the qualification and the candidate. -/
theorem goodFrameEnds : Obligations.GoodFrameEnds := by
  unfold Obligations.GoodFrameEnds
  intro i count check b f st s hs hp hc matched qualifies candidate
  obtain ⟨v, hv, hkept, hexec⟩ := exec_frameEnd_good hs hp hc
  have hmatched : matched ↔ ((s.report i).matching f).2.isSome = true := Option.isSome_iff_ne_none.symm
  obtain ⟨hvsrc, hvparams, hvhandoff, hvview, hvsync, hvtime, hvnotices, hvcal⟩ := hv.fields
  have hcontrol := recordGoodFrame_control i f ((s.report i).matching f).2.isSome v
  have henr : v.enr i = s.enr i := by rw [State.enr, hvsrc]; rfl
  have hcases := recordGoodFrame_cases i f ((s.report i).matching f).2.isSome v
  simp only [hvsrc, hvparams, hvhandoff, hvcal, henr] at hcases
  generalize ((s.report i).matching f).2.isSome = reported at hkept hexec hmatched hcontrol hcases
  generalize recordGoodFrame i f reported v = u at hkept hexec hcontrol hcases
  obtain ⟨hplain, hmissing, hnot, hqualifies⟩ := hcases
  obtain ⟨h1, h2, h3, h4, h5, h6, h7, h8, h9, h10, h11, h12⟩ := hv.controlled hcontrol
  have hnotice : ∀ l, v.notice l = s.notice l := fun l => congrArg (PerLink.get · l) hvnotices
  -- Only the source's record differs from `v`.
  have hset (x : SourceRecord) : (v.setSrc i x).src i = x ∧ (v.setSrc i x).handoff = s.handoff ∧
      (v.setSrc i x).view = s.view ∧ (v.setSrc i x).sync = s.sync ∧ ∀ j, j ≠ i → (v.setSrc i x).src j = s.src j :=
    ⟨State.setSrc_src_self _ _ _, hvhandoff, hvview, hvsync, fun j hj => by rw [State.setSrc_src_ne _ _ hj, hvsrc]⟩
  have hrecords (x : SourceRecord) (j : Source) : (v.setSrc i x).src j = if j = i then x else s.src j := by
    rw [State.setSrc_src, hvsrc]
  have hready (x : SourceRecord) := qualified_standby i s (v.setSrc i x) x (hrecords x)
  have hfirst (x : SourceRecord) := qualified_first i s (v.setSrc i x) x (hrecords x)
  have honly (x : SourceRecord) := qualified_only i (v.setSrc i x)
  set counted : SourceRecord := { (s.src i).goodCounted f with qualify := min 8 ((s.src i).qualify + 1) } with hcounted
  have hother (hcand : ¬candidate) :
      informStandby i (qualified i (v.setSrc i counted)) = qualified i (v.setSrc i counted) := by
    refine informStandby_other ?_
    rw [honly counted, show (v.setSrc i counted).handoff = s.handoff from hvhandoff]
    exact hcand
  have hcandidate (hcand : candidate) :
      informStandby i (qualified i (v.setSrc i counted)) = makeFirstPrimary i (qualified i (v.setSrc i counted)) := by
    refine informStandby_candidate ?_ ?_
    · rw [honly counted, show (v.setSrc i counted).handoff = s.handoff from hvhandoff]
      exact hcand.1
    · rw [honly counted, show (v.setSrc i counted).handoff = s.handoff from hvhandoff]
      exact hcand.2
  refine ⟨u, hexec, h1, h2, h3, h4, h5, h6, h7, h8, h9, h10, h11, h12, hkept, fun hn => ?_, fun hw => ?_, fun hw hm => ?_,
    fun hw hm hq => ?_, fun hw hm hq => ⟨fun l => ?_, fun hcand => ?_, fun hcand => ?_⟩⟩
  · by_cases hw : (s.src i).state = .warming
    · by_cases hm : matched
      · by_cases hq : qualifies
        · have hcand : ¬candidate := fun hcand => hn ⟨hw, hm, hq, hcand⟩
          rw [hqualifies hw (hmatched.mp hm) hq, hother hcand]
          refine ⟨?_, ?_, ?_, (hready counted rfl rfl hvtime hvparams).2.2⟩
          · rw [honly counted]
            exact hvhandoff
          · rw [honly counted]
            exact hvview
          · rw [honly counted]
            exact hvsync
        · rw [hnot hw (hmatched.mp hm) hq]
          exact (hset _).2
      · rw [hmissing hw (by simpa using mt hmatched.mpr hm)]
        exact (hset _).2
    · rw [hplain hw]
      exact (hset _).2
  · rw [hplain hw]
    exact ⟨(hset _).1, hvnotices⟩
  · rw [hmissing hw (by simpa using mt hmatched.mpr hm)]
    refine ⟨(hset _).1, fun l => ?_⟩
    rw [raiseSrc_notice, ← hnotice l]
    rfl
  · rw [hnot hw (hmatched.mp hm) hq]
    exact ⟨(hset _).1, hvnotices⟩
  · have hu := hqualifies hw (hmatched.mp hm) hq
    have hq := qualified_notice i (v.setSrc i counted) l
    rw [show (v.setSrc i counted).notice l = s.notice l from hnotice l] at hq
    by_cases hcand : candidate
    · rw [hu, hcandidate hcand, makeFirstPrimary_notice, hq]
    · rw [hu, hother hcand, hq]
  · rw [hqualifies hw (hmatched.mp hm) hq, hother hcand]
    obtain ⟨hstandby, hsrc, -⟩ := hready counted rfl rfl hvtime hvparams
    exact ⟨hstandby, hsrc⟩
  · rw [hqualifies hw (hmatched.mp hm) hq, hcandidate hcand]
    obtain ⟨hlive, hsrc, hunlocked, hchanged, hhandoff, hview⟩ := hfirst counted rfl hvtime hvsync
    refine ⟨hlive, hsrc, hunlocked, hchanged, hhandoff.trans ?_, hview.trans ?_⟩
    · rw [show (v.setSrc i counted).handoff = s.handoff from hvhandoff]
    · rw [show (v.setSrc i counted).view = s.view from hvview]

end Sys2Proof.Machine
end

section
/-! The stream requests, the triggers, and the parts of an emission. -/

namespace Sys2Proof.Machine

open Sys2Proof

/-! ## START_STREAM and STOP_STREAM (R148, R149) -/

theorem StreamState.busy_iff {x : StreamState} : x.busy = true ↔ x = .running ∨ x = .stopping := by
  cases x <;> simp [StreamState.busy]

theorem exec_startStream (f : List Byte) (s : State) :
    exec (.startStream f) s = .next (receiveRequest .al 0x31 (some startStreamRule) f s) := rfl

theorem exec_stopStream (f : List Byte) (s : State) :
    exec (.stopStream f) s = .next (receiveRequest .al 0x32 (some stopStreamRule) f s) := rfl

theorem exec_triggerStream (f : List Byte) (s : State) :
    exec (.triggerStream f) s = .next (receiveRequest .al 0x33 (some triggerStreamRule) f s) := rfl

theorem judgeStartStream_eq (b : Byte) (s : State) :
    judgeStartStream [b] s =
      onStream b.toNat
        (fun st => if (s.stream st).state = .running ∨ (s.stream st).state = .stopping then refuse .busy s
          else accept .ok (startStream st s)) s := by
  simp only [← StreamState.busy_iff]
  rfl

theorem judgeStopStream_eq (b : Byte) (s : State) :
    judgeStopStream [b] s = onStream b.toNat (fun st => accept .ok (stopStream st s).settle) s := rfl

/-- R148: the stream as START_STREAM sets it. -/
theorem startStream_eq (st : StreamId) (s : State) :
    startStream st s = s.setStream st { s.stream st with
      state := .running
      remaining := if (s.stream st).config.countMode = .counted then (s.stream st).config.count else 0
      number := 0, pendingTrigger := false, skip := false, pendingSet := [], current := none, holdRecord := .none
      position := if (s.stream st).config.take = .sequential then some (s.view.nextSeq - 1) else none
      timer := if (s.stream st).config.cause = .timer then some (s.timebase + BitVec.ofNat 32 (s.stream st).config.period)
        else none } := by
  unfold startStream State.modStream timeAfter
  refine congrArg (s.setStream st) ?_
  dsimp only
  generalize s.stream st = x
  cases x.config.countMode <;> cases x.config.take <;> rfl

/-- R149: STOP_STREAM by the state of the stream. -/
theorem stopStream_settle_eq (st : StreamId) (s : State) :
    (stopStream st s).settle =
      match (s.stream st).state with
      | .running =>
        if (s.stream st).inFlight = none then
          removePins ((s.stream st).pendingNames ++ (s.stream st).currentNames ++ (s.stream st).ownHoldNames)
            (s.setStream st { s.stream st with
              state := .stopped, pendingTrigger := false, skip := false, timer := none, pendingSet := [],
              current := none, holdRecord := .none })
        else
          removePins (s.stream st).pendingNames
            (s.setStream st { s.stream st with
              state := .stopping, pendingTrigger := false, skip := false, timer := none, pendingSet := [] })
      | .done => s.setStream st { s.stream st with state := .stopped }
      | .stopping | .stopped => s := by
  rw [Releasing.settle_eq]
  cases h : (s.stream st).state with
  | running =>
    have hs : stopStream st s =
        if (s.stream st).inFlight.isNone then restStream st .stopped s
        else { state := s.setStream st { (s.stream st).leaveRunning with state := .stopping },
               names := (s.stream st).pendingNames } := by simp only [stopStream, h]
    rw [hs]
    simp only [Option.isNone_iff_eq_none]
    split <;> rfl
  | done =>
    have hs : stopStream st s = .nothing (s.setStream st { s.stream st with state := .stopped }) := by simp only [stopStream, h]
    rw [hs]
    exact removePins_nil _
  | stopping =>
    have hs : stopStream st s = .nothing s := by simp only [stopStream, h]
    rw [hs]
    exact removePins_nil _
  | stopped =>
    have hs : stopStream st s = .nothing s := by simp only [stopStream, h]
    rw [hs]
    exact removePins_nil _

/-- A settled part of the streams leaves the timebase. -/
theorem OnlyStreams.settle_timebase {x : Releasing} {s : State} (h : OnlyStreams s x.state) : x.settle.timebase = s.timebase := by
  rw [Releasing.settle_eq, removePins_only, h.only]

/-- Settles O57, by the stream number and the state of the stream. -/
theorem startAndStopStream : Obligations.StartAndStopStream := by
  unfold Obligations.StartAndStopStream
  intro b s h
  refine ⟨fun hb => ⟨?_, ?_⟩, fun st hst => ⟨?_, ?_⟩⟩
  · rw [exec_startStream]
    exact congrArg _ (receiveFixed_refused h rfl (by decide) ((judgeStartStream_eq b s).trans (onStream_range hb)))
  · rw [exec_stopStream]
    exact congrArg _ (receiveFixed_refused h rfl (by decide) ((judgeStopStream_eq b s).trans (onStream_range hb)))
  · have judged := (judgeStartStream_eq b s).trans (onStream_some hst)
    rw [exec_startStream, ← startStream_eq]
    split at judged
    · next hs => rw [if_pos hs]; exact congrArg _ (receiveFixed_refused h rfl (by decide) judged)
    · next hs => rw [if_neg hs]; exact congrArg _ (receiveFixed_accepted h rfl (by decide) judged rfl)
  · rw [exec_stopStream]
    refine congrArg Host.Outcome.next ((receiveFixed_accepted (n := 1) h rfl (by decide)
      ((judgeStopStream_eq b s).trans (onStream_some hst)) (OnlyStreams.stopStream st s).settle_timebase).trans ?_)
    exact congrArg (answeredOk .al 0x32 1) (stopStream_settle_eq st s)

/-! ## Triggers (R150 to R153) -/

section
variable {st : StreamId} {s : State}

theorem triggerStream_idle (h : (s.stream st).state ≠ .running) : triggerStream st s = .nothing s := by
  rw [triggerStream, if_pos h]

theorem triggerStream_start (h : (s.stream st).state = .running) (hf : (s.stream st).inFlight = none) :
    triggerStream st s = startEmission st s := by
  rw [triggerStream, if_neg (by simpa using h), if_pos (by simpa using hf)]

theorem triggerStream_pend (h : (s.stream st).state = .running) (hf : (s.stream st).inFlight ≠ none)
    (hp : (s.stream st).pendingTrigger = false) :
    triggerStream st s = .nothing (s.setStream st { s.stream st with pendingTrigger := true }) := by
  rw [triggerStream, if_neg (by simpa using h), if_neg (by simpa using hf), if_neg (by simp [hp])]

theorem triggerStream_overlap (h : (s.stream st).state = .running) (hf : (s.stream st).inFlight ≠ none)
    (hp : (s.stream st).pendingTrigger = true) : triggerStream st s = .nothing (raise (overlapNotice st) s) := by
  rw [triggerStream, if_neg (by simpa using h), if_neg (by simpa using hf), if_pos hp]

end

theorem exec_streamTimerExpiry (st : StreamId) (s : State) :
    exec (.streamTimerExpiry st) s = .next (expireStreamTimer st s) := rfl

theorem expireStreamTimer_reached {st : StreamId} {s : State} {d : Time} (h : (s.stream st).timer = some d)
    (hd : reached s.timebase d = true) :
    expireStreamTimer st s =
      (triggerStream st (s.setStream st { s.stream st with
        timer := some (d + BitVec.ofNat 32 (s.stream st).config.period) })).settle := by
  rw [expireStreamTimer, h, expired_of_reached hd]
  rfl

theorem expireStreamTimer_waiting {st : StreamId} {s : State}
    (h : ∀ d, (s.stream st).timer = some d → reached s.timebase d = false) : expireStreamTimer st s = s := by
  rw [expireStreamTimer, expired_of_not_reached h]

theorem judgeTriggerStream_eq (b : Byte) (f : List Byte) (s : State) :
    judgeTriggerStream (b :: f) s =
      onStream b.toNat
        (fun st => if (s.stream st).state = .running ∧ (s.stream st).config.cause = .request then
            accept .ok (triggerStream st s).settle
          else refuse .wrongState s) s := by
  simp only [judgeTriggerStream, Bool.and_eq_true, decide_eq_true_eq]

/-- R152, R165: TRIGGER_STREAM takes up to 59 fields after the stream number. -/
theorem receiveTrigger {b : Byte} {f : List Byte} {s : State} (h : LinkFree .al s) (hf : f.length ≤ 59)
    {j : Judged} (hj : judgeTriggerStream (b :: f) s = j) (ht : j.state.timebase = s.timebase) :
    receiveRequest .al 0x33 (some triggerStreamRule) (b :: f) s =
      answered .al 0x33 j.answer.status j.answer.fields j.answer.deferred (f.length + 1) j.state := by
  refine receiveRequest_free h (by rw [List.length_cons]; omega) ?_ hj ht
  have hlen : 1 ≤ (b :: f).length ∧ (b :: f).length ≤ maxFields := by
    rw [List.length_cons, maxFields]
    omega
  exact (within_iff (r := (1, maxFields))).mpr hlen

theorem EdgeSelection.takes_iff {x : EdgeSelection} {e : Polarity} :
    x.takes e = true ↔ x = .both ∨ (x = .rising ∧ e = .rising) ∨ (x = .falling ∧ e = .falling) := by
  cases x <;> cases e <;> simp [EdgeSelection.takes]

theorem exec_triggerEdge (line : TriggerLine) (e : Polarity) (s : State) :
    exec (.triggerEdge line e) s = .next (if (s.trigger line).selection.takes e then recordEdge line s else s) := rfl

/-- Settles O58: the trigger by the emission in flight, then each cause that gives one. -/
theorem triggersReachTheirStream : Obligations.TriggersReachTheirStream := by
  unfold Obligations.TriggersReachTheirStream
  refine ⟨fun st s => ⟨triggerStream_idle, triggerStream_start, triggerStream_pend, triggerStream_overlap, fun _ => rfl,
    fun d h hd => ?_, fun h => ?_⟩, fun b f s h hf => ⟨fun hb => ?_, fun st hst => ?_⟩, fun line e s => ?_⟩
  · rw [exec_streamTimerExpiry, expireStreamTimer_reached h hd]
    rfl
  · rw [exec_streamTimerExpiry, expireStreamTimer_waiting h]
  · rw [exec_triggerStream]
    exact congrArg Host.Outcome.next (receiveTrigger h hf ((judgeTriggerStream_eq b f s).trans (onStream_range hb)) rfl)
  · have judged := (judgeTriggerStream_eq b f s).trans (onStream_some hst)
    rw [exec_triggerStream]
    split at judged
    · next hs =>
      rw [if_pos hs]
      exact congrArg Host.Outcome.next (receiveTrigger h hf judged (OnlyStreams.triggerStream st s).settle_timebase)
    · next hs =>
      rw [if_neg hs]
      exact congrArg Host.Outcome.next (receiveTrigger h hf judged rfl)
  · simp only [exec_triggerEdge, EdgeSelection.takes_iff]
    cases line <;> rfl

end Sys2Proof.Machine
end

section
/-! An emission from its take to its completion. -/

namespace Sys2Proof.Machine

open Sys2Proof

/-! ## The take (R155, R156) -/

/-- The hold of a record when a stream takes it. -/
def heldOf (s : State) (r : ViewRecord) : HeldRecord := { record := r, buffers := holdNames s r, intact := recordIntact s r }

/-- R155, R156: the take, before the emission leaves. -/
def takeFor (st : StreamId) (s : State) : Releasing :=
  match takeRecord s.view.ring (s.stream st) with
  | some r => takeInto st r (clearSkip st s)
  | none => .nothing (clearSkip st s)

/-- The stream after a take of `r`. -/
def Stream.took (x : Stream) (h : HeldRecord) : Stream :=
  { x with
    current := some h, holdRecord := (settleHolds x h).1, position := some h.record.seq
    pendingSet := x.pendingSet.filter fun p => decide (p.seq ≠ h.record.seq) }

/-- The buffers of the holds that a take of `r` removes. -/
def Stream.takes (x : Stream) (h : HeldRecord) : List BufferId :=
  ((x.pendingSet.filter fun p => decide (p.seq = h.record.seq)).flatMap fun p => p.buffers) ++ (settleHolds x h).2

section
variable {st : StreamId} {s : State} {r : ViewRecord}

theorem startEmission_eq : startEmission st s =
    { state := launch st (takeRecord s.view.ring (s.stream st)).isSome (s.stream st).skipping (takeFor st s).state
      names := (takeFor st s).names } := rfl

theorem takeFor_none (h : takeRecord s.view.ring (s.stream st) = none) : takeFor st s = .nothing (clearSkip st s) := by
  simp only [takeFor, h]

theorem takeFor_some (h : takeRecord s.view.ring (s.stream st) = some r) :
    takeFor st s = takeInto st r (clearSkip st s) := by
  simp only [takeFor, h]

theorem clearSkip_skipping (h : (s.stream st).skipping = true) :
    clearSkip st s = raise (skipNotice st) (s.setStream st { s.stream st with skip := false }) := by
  rw [clearSkip, if_pos h]
  rfl

theorem clearSkip_not_skipping (h : (s.stream st).skipping ≠ true) : clearSkip st s = s := by rw [clearSkip, if_neg h]

theorem skipping_iff : (s.stream st).skipping = true ↔ (s.stream st).config.take = .sequential ∧ (s.stream st).skip = true := by
  simp [Stream.skipping]

theorem clearSkip_stream : (clearSkip st s).stream st =
    { s.stream st with skip := (s.stream st).skip && !(s.stream st).skipping } := by
  by_cases h : (s.stream st).skipping = true
  · rw [clearSkip_skipping h, raise_stream, State.setStream_stream, if_pos rfl, h, Bool.not_true, Bool.and_false]
  · rw [clearSkip_not_skipping h, eq_false_of_ne_true h, Bool.not_false, Bool.and_true]

theorem clearSkip_stream_ne {other : StreamId} (ho : other ≠ st) : (clearSkip st s).stream other = s.stream other := by
  by_cases h : (s.stream st).skipping = true
  · rw [clearSkip_skipping h, raise_stream, State.setStream_stream, if_neg ho]
  · rw [clearSkip_not_skipping h]

theorem clearSkip_pool : (clearSkip st s).pool = s.pool := by
  by_cases h : (s.stream st).skipping = true
  · rw [clearSkip_skipping h]
    rfl
  · rw [clearSkip_not_skipping h]

theorem heldOf_clearSkip : heldOf (clearSkip st s) r = heldOf s r := by
  by_cases h : (s.stream st).skipping = true
  · rw [clearSkip_skipping h]
    rfl
  · rw [clearSkip_not_skipping h]

theorem takeInto_eq : takeInto st r s =
    { state := (addPins (holdNames s r) s).setStream st ((s.stream st).took (heldOf s r))
      names := (s.stream st).takes (heldOf s r) } := rfl

/-- The settings of the stream that a take leaves. -/
theorem takeFor_stream_none (h : takeRecord s.view.ring (s.stream st) = none) :
    (takeFor st s).state.stream st = { s.stream st with skip := (s.stream st).skip && !(s.stream st).skipping } := by
  rw [takeFor_none h]
  exact clearSkip_stream

theorem takeFor_stream_some (h : takeRecord s.view.ring (s.stream st) = some r) :
    (takeFor st s).state.stream st =
      { (s.stream st).took (heldOf s r) with skip := (s.stream st).skip && !(s.stream st).skipping } := by
  rw [takeFor_some h, takeInto_eq, State.setStream_stream, if_pos rfl, heldOf_clearSkip, clearSkip_stream]
  rfl

theorem takeFor_names_some (h : takeRecord s.view.ring (s.stream st) = some r) :
    (takeFor st s).names = (s.stream st).takes (heldOf s r) := by
  rw [takeFor_some h, takeInto_eq, heldOf_clearSkip, clearSkip_stream]
  rfl

theorem takeFor_stream_ne {other : StreamId} (ho : other ≠ st) : (takeFor st s).state.stream other = s.stream other := by
  cases h : takeRecord s.view.ring (s.stream st) with
  | none =>
    rw [takeFor_none h]
    exact clearSkip_stream_ne ho
  | some r =>
    rw [takeFor_some h, takeInto_eq, State.setStream_stream, if_neg ho]
    exact clearSkip_stream_ne ho

theorem takeFor_buffer (b : BufferId) : (takeFor st s).state.buffer b =
    { s.buffer b with pins := (s.buffer b).pins + (match takeRecord s.view.ring (s.stream st) with
        | some r => (holdNames s r).count b
        | none => 0) } := by
  have hpool : (clearSkip st s).buffer b = s.buffer b := congrArg (fun p => p.buffers.get b) clearSkip_pool
  cases h : takeRecord s.view.ring (s.stream st) with
  | none =>
    rw [takeFor_none h]
    exact hpool
  | some r =>
    have hnames : holdNames (clearSkip st s) r = holdNames s r := congrArg HeldRecord.buffers heldOf_clearSkip
    rw [takeFor_some h, takeInto_eq, State.setStream_buffer, addPins_buffer, hpool, hnames]

theorem takeFor_only : OnlyStreams s (takeFor st s).state := by
  unfold takeFor
  split
  · exact (OnlyStreams.clearSkip st s).trans (OnlyStreams.takeInto st _ _)
  · exact OnlyStreams.clearSkip st s

theorem takeFor_notices : (takeFor st s).state.notices = (clearSkip st s).notices := by
  unfold takeFor
  split <;> rfl

end

/-! ## The hold record (R156) and the frame kind (R157) -/

section
variable {x : Stream} {h : HeldRecord}

theorem HeldRecord.shows_iff : h.shows = true ↔ h.record.primary ≠ none ∧ h.intact = true := by
  simp [HeldRecord.shows, Option.isSome_iff_ne_none]

theorem settleHolds_shows (hs : h.shows = true) : settleHolds x h = (.current, x.currentNames ++ x.ownHoldNames) := by
  rw [settleHolds, if_pos hs]

theorem settleHolds_pattern (hs : h.shows ≠ true) (hm : x.config.holdMode = .pattern) :
    settleHolds x h = (.none, x.currentNames ++ x.ownHoldNames) := by
  simp only [settleHolds, hs, hm, Bool.false_eq_true, if_false]

/-- R156: REPEAT keeps what it holds, as a hold of its own when that was the record now replaced. -/
theorem settleHolds_repeat (hs : h.shows ≠ true) (hm : x.config.holdMode = .repeat) :
    (x.took h).held = x.held ∧ (settleHolds x h).2 = if x.holdRecord = .current then [] else x.currentNames := by
  have hsettle : settleHolds x h = match x.holdRecord, x.current with
      | .current, some c => (.own c, [])
      | .current, none => (.none, [])
      | .own g, _ => (.own g, x.currentNames)
      | .none, _ => (.none, x.currentNames) := by
    simp only [settleHolds, hs, hm, Bool.false_eq_true, if_false]
    cases x.holdRecord <;> cases x.current <;> rfl
  cases hr : x.holdRecord <;> cases hc : x.current <;>
    simp [Stream.took, Stream.held, hsettle, hr, hc]

theorem Stream.fallbackKind_eq : x.fallbackKind =
    if x.config.holdMode = .repeat ∧ x.held ≠ none then .hold else .pattern := by
  unfold Stream.fallbackKind
  cases hm : x.config.holdMode <;> cases hh : x.held <;> simp

theorem Stream.frameKind_shows {taken : Bool} (hc : x.current = some h) (hs : h.shows = true) :
    x.frameKind taken = if taken = true then .new else .repeat := by
  simp only [Stream.frameKind, hc, hs, if_true]

theorem Stream.frameKind_fallback {taken : Bool} (hc : ∀ g, x.current = some g → g.shows ≠ true) :
    x.frameKind taken = x.fallbackKind := by
  cases h : x.current with
  | none => simp only [Stream.frameKind, h]
  | some g => simp only [Stream.frameKind, h, hc g h, Bool.false_eq_true, if_false]

end

/-! ## The emission (R157, R158, R160) -/

/-- The emission as `launch` forms it, from the state after the take. -/
def formed (st : StreamId) (taken skipped : Bool) (s : State) : Emission :=
  { start := s.timebase, deadline := timeAfter s.timebase (emissionSpan (s.stream st).config)
    kind := (s.stream st).frameKind taken, number := (s.stream st).number, trailer := makeTrailer s st taken skipped }

theorem launch_stream (st : StreamId) (taken skipped : Bool) (s : State) :
    (launch st taken skipped s).stream st =
      { s.stream st with inFlight := some (formed st taken skipped s), number := (s.stream st).number + 1 } :=
  (State.setStream_stream _ _ _ _).trans (if_pos rfl)

theorem launch_stream_ne {st other : StreamId} (taken skipped : Bool) (s : State) (h : other ≠ st) :
    (launch st taken skipped s).stream other = s.stream other :=
  (State.setStream_stream _ _ _ _).trans (if_neg h)

section
variable {st : StreamId} {s : State}

theorem startEmission_stream : (startEmission st s).state.stream st =
    { (takeFor st s).state.stream st with
      inFlight := some (formed st (takeRecord s.view.ring (s.stream st)).isSome (s.stream st).skipping (takeFor st s).state)
      number := ((takeFor st s).state.stream st).number + 1 } := launch_stream _ _ _ _

theorem startEmission_stream_ne {other : StreamId} (h : other ≠ st) :
    (startEmission st s).state.stream other = s.stream other := (launch_stream_ne _ _ _ h).trans (takeFor_stream_ne h)

theorem startEmission_notices : (startEmission st s).state.notices = (clearSkip st s).notices :=
  takeFor_notices

/-- The settings of the stream that neither its take nor the emission changes. -/
theorem takeFor_settings :
    ((takeFor st s).state.stream st).config = (s.stream st).config ∧
      ((takeFor st s).state.stream st).state = (s.stream st).state ∧
      ((takeFor st s).state.stream st).number = (s.stream st).number ∧
      ((takeFor st s).state.stream st).remaining = (s.stream st).remaining ∧
      ((takeFor st s).state.stream st).skip = ((s.stream st).skip && !(s.stream st).skipping) := by
  cases h : takeRecord s.view.ring (s.stream st) with
  | none =>
    rw [takeFor_stream_none h]
    exact ⟨rfl, rfl, rfl, rfl, rfl⟩
  | some r =>
    rw [takeFor_stream_some h]
    exact ⟨rfl, rfl, rfl, rfl, rfl⟩

/-- The stream's record is intact when it was at the take. -/
theorem takeFor_lost :
    ((takeRecord s.view.ring (s.stream st)).isSome && ((takeFor st s).state.stream st).current.any fun h => !h.intact) =
      (takeRecord s.view.ring (s.stream st)).any fun r => !recordIntact s r := by
  cases h : takeRecord s.view.ring (s.stream st) with
  | none => rfl
  | some r =>
    rw [takeFor_stream_some h]
    rfl

/-- R160: the report data of the record that a take leaves shown. -/
theorem trailerReport_takeFor (shown : Option ViewRecord) : trailerReport (takeFor st s).state shown = trailerReport s shown := by
  have hinfo : ∀ b, ((takeFor st s).state.buffer b).info = (s.buffer b).info := fun b => by rw [takeFor_buffer]
  simp only [trailerReport, hinfo]

end

/-! ## What a take finds (R155) -/

section
variable {ring : List ViewRecord} {x : Stream}

theorem takeRecord_latest (h : x.config.take = .latest) : takeRecord ring x = ring.getLast?.filter (isNew x.position) := by
  simp only [takeRecord, h]

theorem takeRecord_skip (h : x.config.take = .sequential) (hs : x.skip = true) : takeRecord ring x = ring.head? := by
  simp only [takeRecord, h, hs, if_true]

theorem takeRecord_next {p : Seq} (h : x.config.take = .sequential) (hs : x.skip = false) (hp : x.position = some p) :
    takeRecord ring x = ring.find? fun r => decide (r.seq = p + 1) := by
  simp only [takeRecord, h, hs, hp, Bool.false_eq_true, if_false, Option.bind_some]

end

section
variable {st : StreamId} {s : State} {r : ViewRecord}

/-- R156, R157: the kind and the holds when a record is taken. -/
theorem startEmission_taken (h : takeRecord s.view.ring (s.stream st) = some r) :
    let x := s.stream st
    let y := (startEmission st s).state.stream st
    let names := (startEmission st s).names
    let kind := ((takeFor st s).state.stream st).frameKind true
    let shows := r.primary ≠ none ∧ recordIntact s r = true
    let taken := (x.pendingSet.filter fun p => decide (p.seq = r.seq)).flatMap fun p => p.buffers
    (shows → kind = .new ∧ y.holdRecord = .current ∧ names = taken ++ x.currentNames ++ x.ownHoldNames) ∧
    (¬shows → x.config.holdMode = .pattern →
      kind = .pattern ∧ y.holdRecord = .none ∧ names = taken ++ x.currentNames ++ x.ownHoldNames) ∧
    (¬shows → x.config.holdMode = .repeat →
      kind = (if y.held = none then .pattern else .hold) ∧ y.held = x.held ∧
        names = taken ++ if x.holdRecord = .current then [] else x.currentNames) := by
  intro x y names kind shows taken
  have hshows : (heldOf s r).shows = true ↔ shows := HeldRecord.shows_iff
  have hnames : names = taken ++ (settleHolds x (heldOf s r)).2 := takeFor_names_some h
  have hstream : (takeFor st s).state.stream st = _ := takeFor_stream_some h
  have hcurrent : ((takeFor st s).state.stream st).current = some (heldOf s r) := by rw [hstream]; rfl
  have hmode : ((takeFor st s).state.stream st).config.holdMode = x.config.holdMode := by rw [takeFor_settings.1]
  have hhold : y.holdRecord = (settleHolds x (heldOf s r)).1 := by
    rw [show y = _ from startEmission_stream, hstream]
    rfl
  have hheld : y.held = (x.took (heldOf s r)).held := by
    rw [show y = _ from startEmission_stream, hstream]
    rfl
  have hheld' : ((takeFor st s).state.stream st).held = y.held := by
    rw [show y = _ from startEmission_stream]
    rfl
  have hfallback (hn : ¬shows) : kind = ((takeFor st s).state.stream st).fallbackKind := by
    refine Stream.frameKind_fallback fun g hg => ?_
    rw [hcurrent, Option.some.injEq] at hg
    rw [← hg]
    exact mt hshows.mp hn
  refine ⟨fun hs => ?_, fun hn hm => ?_, fun hn hm => ?_⟩
  · have hsettle := settleHolds_shows (x := x) (hshows.mpr hs)
    rw [hhold, hnames, hsettle]
    exact ⟨(Stream.frameKind_shows hcurrent (hshows.mpr hs)).trans (if_pos rfl), rfl, (List.append_assoc _ _ _).symm⟩
  · have hsettle := settleHolds_pattern (mt hshows.mp hn) hm
    rw [hhold, hnames, hsettle, hfallback hn, Stream.fallbackKind_eq, hmode, hm]
    exact ⟨if_neg (by simp), rfl, (List.append_assoc _ _ _).symm⟩
  · obtain ⟨hkept, hremoved⟩ := settleHolds_repeat (mt hshows.mp hn) hm
    refine ⟨?_, hheld.trans hkept, hnames.trans (congrArg (taken ++ ·) hremoved)⟩
    rw [hfallback hn, Stream.fallbackKind_eq, hmode, hheld']
    simp [hm]

/-- R157: the kind when no record is taken. -/
theorem startEmission_untaken (h : takeRecord s.view.ring (s.stream st) = none) :
    let x := s.stream st
    let kind := ((takeFor st s).state.stream st).frameKind false
    ((∃ g, x.current = some g ∧ g.record.primary ≠ none ∧ g.intact = true) → kind = .repeat) ∧
    ((∀ g, x.current = some g → g.record.primary = none ∨ g.intact = false) →
      kind = if x.config.holdMode = .repeat ∧ x.held ≠ none then .hold else .pattern) := by
  intro x kind
  have hkind : kind = x.frameKind false := (congrArg (Stream.frameKind · false) (takeFor_stream_none h)).trans rfl
  rw [hkind]
  refine ⟨fun ⟨g, hg, hs⟩ => ?_, fun hn => ?_⟩
  · exact (Stream.frameKind_shows hg (HeldRecord.shows_iff.mpr hs)).trans (if_neg Bool.false_ne_true)
  · rw [Stream.frameKind_fallback fun g hg => ?_, Stream.fallbackKind_eq]
    rw [Ne, HeldRecord.shows_iff, not_and_or, not_ne_iff, Bool.not_eq_true]
    exact hn g hg

/-- R160: the trailer's fields, from the stream after its take. -/
theorem makeTrailer_takeFor (taken skipped : Bool) (shown : Option ViewRecord)
    (hshown : shown = ((takeFor st s).state.stream st).shownRecord (((takeFor st s).state.stream st).frameKind taken)) :
    makeTrailer (takeFor st s).state st taken skipped =
      { stream := st, number := (s.stream st).number, start := s.timebase
        kind := ((takeFor st s).state.stream st).frameKind taken
        lost := taken && (((takeFor st s).state.stream st).current.any fun h => !h.intact)
        skipped := skipped
        currentSeq := ((takeFor st s).state.stream st).current.map fun h => h.record.seq
        shownSeq := shown.map fun r => r.seq
        shownFlags := (shown.map fun r => r.flags).getD .clear
        remaining := if (s.stream st).config.countMode = .counted then (s.stream st).remaining - 1 else 0
        report := trailerReport s shown } := by
  obtain ⟨hconfig, -, hnumber, hremaining, -⟩ := takeFor_settings (st := st) (s := s)
  have htime : (takeFor st s).state.timebase = s.timebase := by rw [takeFor_only.only]
  have hcount : ((takeFor st s).state.stream st).trailerRemaining =
      if (s.stream st).config.countMode = .counted then (s.stream st).remaining - 1 else 0 := by
    rw [Stream.trailerRemaining, hconfig, hremaining]
    cases (s.stream st).config.countMode <;> rfl
  rw [makeTrailer, hnumber, htime, hcount, trailerReport_takeFor, ← hshown]

end

/-- Settles O59, by what the take finds. -/
theorem emissionBegins : Obligations.EmissionBegins := by
  unfold Obligations.EmissionBegins
  intro st s x t y found
  obtain ⟨hconfig, hstate, hnumber, -, hskip⟩ := takeFor_settings (st := st) (s := s)
  have hy : y = _ := startEmission_stream
  have hyne (h : found = none) : y = { x with
      skip := x.skip && !x.skipping, inFlight := y.inFlight, number := y.number } := by
    rw [hy, takeFor_stream_none h]
  have hysome (r : ViewRecord) (h : found = some r) : y = { x.took (heldOf s r) with
      skip := x.skip && !x.skipping, inFlight := y.inFlight, number := y.number } := by
    rw [hy, takeFor_stream_some h]
  have honly := OnlyStreams.startEmission st s
  refine ⟨_, (congrArg Stream.inFlight hy).trans rfl, ?_, ?_, hnumber, ?_, ?_, fun r h => ?_, fun h => ?_, ?_, fun h => ?_,
    fun h hs => ⟨?_, ?_, fun l => ?_⟩, fun p h hs hp => ⟨fun r hr => ?_, fun hn => ?_⟩, fun b => ?_, fun other ho => ?_, ?_, ?_, ?_, ?_, ?_, ?_, ?_, ?_, ?_, ?_,
    fun hs => ?_⟩
  · exact takeFor_only.only ▸ rfl
  · have hspan : emissionSpan ((takeFor st s).state.stream st).config =
        ceilDiv (x.config.height * x.config.linePeriod) 16 := by rw [hconfig]; rfl
    have htime : (takeFor st s).state.timebase = s.timebase := by rw [takeFor_only.only]
    exact congrArg₂ timeAfter htime hspan
  · rw [hy]; exact congrArg (· + 1) hnumber
  · rw [hy]; exact hstate
  · obtain ⟨hnew, hpattern, hrepeat⟩ := startEmission_taken h
    have hkind : (formed st found.isSome x.skipping (takeFor st s).state).kind =
        ((takeFor st s).state.stream st).frameKind true := by rw [h]; rfl
    rw [hkind]
    refine ⟨?_, ?_, ?_, fun hs => ?_, fun hn hm => ?_, fun hn hm => ?_⟩
    · rw [hysome r h]; rfl
    · rw [hysome r h]; rfl
    · rw [hysome r h]; rfl
    · obtain ⟨hk, hh, hnames⟩ := hnew hs
      exact ⟨hk, hh, fun b => congrArg (List.count b) hnames⟩
    · obtain ⟨hk, hh, hnames⟩ := hpattern hn hm
      exact ⟨hk, hh, fun b => congrArg (List.count b) hnames⟩
    · obtain ⟨hk, hh, hnames⟩ := hrepeat hn hm
      exact ⟨hk, hh, fun b => congrArg (List.count b) hnames⟩
  · obtain ⟨hrepeat, hother⟩ := startEmission_untaken h
    have hkind : (formed st found.isSome x.skipping (takeFor st s).state).kind =
        ((takeFor st s).state.stream st).frameKind false := by rw [h]; rfl
    rw [hkind]
    refine ⟨?_, ?_, ?_, ?_, congrArg Releasing.names (takeFor_none h), hrepeat, hother⟩
    · rw [hyne h]
    · rw [hyne h]
    · rw [hyne h]
    · rw [hyne h]
  · intro shown
    have hcurrent : y.current = ((takeFor st s).state.stream st).current := by rw [hy]
    have hheld : y.held = ((takeFor st s).state.stream st).held := by rw [hy]; rfl
    have hshown : shown = ((takeFor st s).state.stream st).shownRecord
        (((takeFor st s).state.stream st).frameKind found.isSome) := by
      have hmatch : shown = y.shownRecord (formed st found.isSome x.skipping (takeFor st s).state).kind := rfl
      rw [hmatch, hy]
      rfl
    refine (makeTrailer_takeFor found.isSome x.skipping shown hshown).trans ?_
    have hskipped : x.skipping = decide (x.config.take = .sequential ∧ x.skip = true) := by
      rw [Bool.eq_iff_iff, decide_eq_true_eq]
      exact skipping_iff
    rw [takeFor_lost, ← hcurrent, hskipped]
    cases shown <;> rfl
  · rw [show found = _ from takeRecord_latest h]
    cases s.view.ring.getLast? with
    | none => rfl
    | some r =>
      cases x.position with
      | none => rfl
      | some p =>
        show Option.filter (fun r => timeLater r.seq p) (some r) = _
        exact Option.filter_some
  · exact takeRecord_skip h hs
  · rw [hy]
    exact hskip.trans (by rw [skipping_iff.mpr ⟨h, hs⟩]; simp)
  · rw [show t.state.notice l = _ from congrArg (PerLink.get · l) startEmission_notices, clearSkip_skipping (skipping_iff.mpr ⟨h, hs⟩)]
    have hraised := Notices.isPending_raise ((s.setStream st { s.stream st with skip := false }).notice l) (skipNotice st)
    rw [← raise_notice] at hraised
    cases st <;> exact hraised
  · rw [show found = _ from takeRecord_next h hs hp] at hr
    exact ⟨List.mem_of_find?_eq_some hr, by simpa using List.find?_some hr⟩
  · rw [show found = _ from takeRecord_next h hs hp] at hn
    simpa using hn
  · exact takeFor_buffer b
  · exact startEmission_stream_ne ho
  · exact (Kept.closed s).startEmission st (.refl s)
  · exact honly.view
  · exact honly.handoff
  · exact honly.planner
  · rw [honly.only]
  · rw [honly.only]
  · rw [honly.only]
  · rw [honly.only]
  · rw [honly.only]
  · rw [honly.only]
  · rw [show t.state.notices = _ from startEmission_notices, clearSkip_not_skipping (mt skipping_iff.mp hs)]

end Sys2Proof.Machine
end

section
/-! The completion of an emission and the frame on the port. -/

namespace Sys2Proof.Machine

open Sys2Proof

/-! ## The frame on the port (Table 70, R178) -/

theorem StreamId.number_eq (st : StreamId) : st.number % 256 = [StreamId.p, .r].idxOf st := by cases st <;> decide

theorem FrameKindOut.number_eq (k : FrameKindOut) :
    k.number % 256 = [FrameKindOut.new, .repeat, .hold, .pattern].idxOf k := by cases k <;> decide

/-- The flags of a trailer below bit 5. -/
def Trailer.lowFlags (t : Trailer) : List Bool := [t.lost, t.skipped, t.currentSeq.isSome, t.shownSeq.isSome, t.report.isSome]

/-- Bits 5 and 6 of a trailer's flag byte are the report's two flags, and free without a report. -/
theorem Trailer.flagByte_spec (t : Trailer) :
    t.flagByte.toNat < 128 ∧ t.flagByte.toNat % 32 = bitsOf t.lowFlags ∧
      ∀ r, t.report = some r → t.flagByte.toNat / 32 = bitsOf [r.focusMoving, r.exposureChanging] := by
  have hlow : bitAt 0 t.lost + bitAt 1 t.skipped + bitAt 2 t.currentSeq.isSome + bitAt 3 t.shownSeq.isSome
      + bitAt 4 t.report.isSome = bitsOf t.lowFlags := by
    simp only [bitAt_eq, bitsOf, Trailer.lowFlags, List.foldr]
    omega
  cases hr : t.report with
  | none =>
    have h : t.flagByte = BitVec.ofNat 8 (bitsOf t.lowFlags) ||| t.freeByte 2 &&& 0x60 := by
      simp only [Trailer.flagByte, ← hlow, hr]
    obtain ⟨h1, h2, -⟩ := trailerFlags_low t.lowFlags rfl (t.freeByte 2)
    rw [h]
    exact ⟨h1, h2, nofun⟩
  | some r =>
    have h : t.flagByte = BitVec.ofNat 8 (bitsOf t.lowFlags) |||
        BitVec.ofNat 8 (bitAt 5 r.focusMoving + bitAt 6 r.exposureChanging) &&& 0x60 := by
      have hmask : BitVec.ofNat 8 (bitAt 5 r.focusMoving + bitAt 6 r.exposureChanging) &&& 0x60 =
          BitVec.ofNat 8 (bitAt 5 r.focusMoving + bitAt 6 r.exposureChanging) := by
        cases r.focusMoving <;> cases r.exposureChanging <;> decide
      simp only [Trailer.flagByte, ← hlow, hr, hmask]
    obtain ⟨h1, h2, h3⟩ := trailerFlags_low t.lowFlags rfl (BitVec.ofNat 8 (bitAt 5 r.focusMoving + bitAt 6 r.exposureChanging))
    rw [h]
    refine ⟨h1, h2, fun r' hr' => ?_⟩
    cases hr'
    rw [h3]
    cases r.focusMoving <;> cases r.exposureChanging <;> decide

/-- Table 70: the bytes of a trailer stand at their offsets. -/
theorem showsTrailer_trailerBytes (t : Trailer) : ShowsTrailer (trailerBytes t) t := by
  obtain ⟨hlt, hlow, hhigh⟩ := t.flagByte_spec
  have hflags : fieldAt (trailerBytes t) 2 1 = t.flagByte.toNat := by
    simp [trailerBytes, List.append_assoc, fieldAt_skip, fieldAt_one]
  refine ⟨trailerBytes_length t, ?_, ?_, hflags ▸ hlt, ?_, fun r hr => ?_, ?_, ?_, ?_, ?_, fun q hq => ?_, fun q hq => ?_,
    ?_, ?_, ?_⟩
  · rw [← StreamId.number_eq]
    simp [trailerBytes, List.append_assoc, fieldAt_natByte]
  · rw [← FrameKindOut.number_eq]
    simp [trailerBytes, List.append_assoc, fieldAt_skip, fieldAt_natByte]
  · rw [hflags, hlow]
    exact bitsAre_bitsOf t.lowFlags
  · rw [hflags, hhigh r hr]
    exact bitsAre_bitsOf _
  · simp [trailerBytes, List.append_assoc, fieldAt_skip, fieldAt_skip_cons, fieldAt_zeros]
  · simp [trailerBytes, List.append_assoc, fieldAt_skip, fieldAt_skip_cons, fieldAt_half]
  · have h : fieldAt (trailerBytes t) 6 2 = bitsOf (flagList t.shownFlags) := by
      simp [trailerBytes, List.append_assoc, fieldAt_skip, fieldAt_skip_cons, fieldAt_natHalf]
      rw [Nat.mod_eq_of_lt t.shownFlags.bits_lt, ViewFlags.bits_eq]
    rw [h]
    exact bitsAre_bitsOf _
  · simp [trailerBytes, List.append_assoc, fieldAt_skip, fieldAt_skip_cons, fieldAt_word]
  · simp [trailerBytes, List.append_assoc, fieldAt_skip, fieldAt_skip_cons, hq, fieldAt_wordOr]
  · simp [trailerBytes, List.append_assoc, fieldAt_skip, fieldAt_skip_cons, hq, fieldAt_wordOr]
  · simp [trailerBytes, List.append_assoc, fieldAt_skip, fieldAt_skip_cons, fieldAt_natHalf]
  · simp [trailerBytes, List.append_assoc, fieldAt_skip, fieldAt_skip_cons, fieldAt_zeros]
  · have h : fieldAt (trailerBytes t) 24 4 = (BitVec.ofNat 32 ((t.report.map fun r => r.exposure).getD 0)).toNat := by
      have := fieldAt_word (BitVec.ofNat 32 ((t.report.map fun r => r.exposure).getD 0)) []
      simpa [trailerBytes, List.append_assoc, fieldAt_skip, fieldAt_skip_cons] using this
    rw [h, BitVec.toNat_ofNat]
    cases t.report <;> rfl

/-- A pixel's three samples. -/
theorem fieldAt_pixelBytes (p : Pixel) (rest : List Byte) :
    fieldAt (pixelBytes p ++ rest) 0 2 = p.c0.toNat ∧ fieldAt (pixelBytes p ++ rest) 2 2 = p.c1.toNat ∧
      fieldAt (pixelBytes p ++ rest) 4 2 = p.c2.toNat := by
  have hwide (c : BitVec 10) : (c.setWidth 16).toNat = c.toNat := by
    rw [BitVec.toNat_setWidth, Nat.mod_eq_of_lt (Nat.lt_trans c.isLt (by decide))]
  simp only [pixelBytes, List.append_assoc, fieldAt_half, hwide, true_and]
  constructor <;> simp [fieldAt_skip, fieldAt_half, hwide]

/-- R178: the rows of a frame sample by sample, then its trailer. -/
theorem showsFrame_bytes (f : OutputFrame) (width : Nat) (h : ∀ row ∈ f.rows, row.length = width) :
    ShowsFrame f.bytes width f := by
  have hlines : ∀ row ∈ f.rows, (lineBytes row).length = 6 * width := fun row hrow => by rw [lineBytes_length, h row hrow]
  refine ⟨?_, fun v row u p hv hu => ?_⟩
  · rw [OutputFrame.bytes, ← flatMap_length_of lineBytes (6 * width) f.rows hlines, List.drop_left]
    exact showsTrailer_trailerBytes _
  · obtain ⟨rest, hrest⟩ := flatMap_drop_of lineBytes (6 * width) f.rows hlines v row hv
    obtain ⟨pixels, hpixels⟩ := flatMap_drop_of pixelBytes 6 row (fun p _ => pixelBytes_length p) u p hu
    have hv' : v < f.rows.length := (List.getElem?_eq_some_iff.mp hv).1
    have hu' : u < row.length := (List.getElem?_eq_some_iff.mp hu).1
    have hdrop : ∃ tail, f.bytes.drop (6 * (v * width + u)) = pixelBytes p ++ tail := by
      have hsplit : 6 * (v * width + u) = 6 * width * v + 6 * u := by ring
      have hlen : 6 * width * v ≤ (f.rows.flatMap lineBytes).length := by
        rw [flatMap_length_of lineBytes (6 * width) f.rows hlines]
        exact Nat.mul_le_mul_left _ hv'.le
      have hrow : 6 * u ≤ (lineBytes row).length := by rw [lineBytes_length]; omega
      refine ⟨pixels ++ (rest ++ trailerBytes f.trailer), ?_⟩
      rw [hsplit, ← List.drop_drop, OutputFrame.bytes, List.drop_append_of_le_length hlen, hrest, List.append_assoc,
        List.drop_append_of_le_length hrow, lineBytes, hpixels, List.append_assoc]
    obtain ⟨tail, htail⟩ := hdrop
    obtain ⟨h0, h1, h2⟩ := fieldAt_pixelBytes p tail
    rw [← htail, fieldAt_drop] at h0 h1 h2
    exact ⟨h0, h1, h2⟩

/-! ## The completion (R159) -/

theorem StreamId.ne_partner (st : StreamId) : st ≠ st.partner := by cases st <;> decide

theorem State.setStream_setStream (s : State) (st : StreamId) (x y : Stream) :
    (s.setStream st x).setStream st y = s.setStream st y := by cases st <;> rfl

theorem State.setStream_stream_self (s : State) (st : StreamId) (x : Stream) : (s.setStream st x).stream st = x := by
  rw [State.setStream_stream, if_pos rfl]

theorem triggerStream_stream_ne {st other : StreamId} {s : State} (h : other ≠ st) :
    (triggerStream st s).state.stream other = s.stream other := by
  unfold triggerStream
  dsimp only
  split
  · rfl
  · split
    · exact startEmission_stream_ne h
    · split
      · exact raise_stream _ _ _
      · exact (State.setStream_stream _ _ _ _).trans (if_neg h)

theorem offerTrigger_stream_ne {cause : Cause} {st other : StreamId} {s : State} (h : other ≠ st) :
    (offerTrigger cause st s).state.stream other = s.stream other := by
  unfold offerTrigger
  split
  · exact triggerStream_stream_ne h
  · rfl

section
variable {st : StreamId} {s : State}

theorem continueStream_eq : continueStream st s =
    if (s.stream st).pendingTrigger then startEmission st (s.setStream st { s.stream st with pendingTrigger := false })
    else .nothing s := rfl

theorem afterCompletion_stopping (h : (s.stream st).state = .stopping) : afterCompletion st s = restStream st .stopped s := by
  simp only [afterCompletion, h]

theorem afterCompletion_continuous (h : (s.stream st).state = .running) (hc : (s.stream st).config.countMode = .continuous) :
    afterCompletion st s = continueStream st s := by
  simp only [afterCompletion, h, hc]

theorem afterCompletion_counted (h : (s.stream st).state = .running) (hc : (s.stream st).config.countMode = .counted) :
    afterCompletion st s =
      let u := s.setStream st { s.stream st with remaining := (s.stream st).remaining - 1 }
      if (s.stream st).remaining - 1 = 0 then finishStream st u else continueStream st u := by
  simp only [afterCompletion, h, hc]

/-- R159: the stream's emission has left and the partner has its trigger. -/
def afterPartner (st : StreamId) (e : Emission) (s : State) : Releasing :=
  offerTrigger .chain st.partner
    (s.setStream st { s.stream st with inFlight := none, sent := some (outputFrame s (s.stream st) e) })

theorem afterPartner_stream (e : Emission) : (afterPartner st e s).state.stream st =
    { s.stream st with inFlight := none, sent := some (outputFrame s (s.stream st) e) } :=
  (offerTrigger_stream_ne (StreamId.ne_partner st)).trans (State.setStream_stream_self _ _ _)

theorem completeEmission_reached {e : Emission} (h : (s.stream st).inFlight = some e) (hd : reached s.timebase e.deadline = true) :
    completeEmission st s = ((afterPartner st e s).andThen (afterCompletion st)).settle := by
  simp only [completeEmission, h, hd, if_true]
  rfl

theorem completeEmission_waiting (h : ∀ e, (s.stream st).inFlight = some e → reached s.timebase e.deadline = false) :
    completeEmission st s = s := by
  cases he : (s.stream st).inFlight with
  | none => simp only [completeEmission, he]
  | some e => simp only [completeEmission, he, h e he, Bool.false_eq_true, if_false]

end

theorem exec_emissionCompletion (st : StreamId) (s : State) :
    exec (.emissionCompletion st) s = .next (completeEmission st s) := rfl

/-- The end of an event whose last part begins an emission when a trigger pends. -/
theorem settle_continueStream (x : Releasing) (st : StreamId) (u : State) :
    removePins (x.names ++ (continueStream st u).names) (continueStream st u).state =
      if (u.stream st).pendingTrigger then
        removePins (x.names ++ (startEmission st (u.setStream st { u.stream st with pendingTrigger := false })).names)
          (startEmission st (u.setStream st { u.stream st with pendingTrigger := false })).state
      else removePins x.names u := by
  rw [continueStream_eq]
  split
  · rfl
  · rw [Releasing.nothing_names, Releasing.nothing_state, List.append_nil]

/-- Settles O60, by the state and the count mode of the stream. -/
theorem emissionCompletes : Obligations.EmissionCompletes := by
  unfold Obligations.EmissionCompletes
  refine ⟨showsFrame_bytes, fun st s => ⟨fun e x he hd hx => ?_, fun h => ?_, fun next => ?_⟩⟩
  · have hafter : x = afterPartner st e s := hx
    have hstream : x.state.stream st = _ := (congrArg (fun y => y.state.stream st) hafter).trans (afterPartner_stream e)
    have hexec : exec (.emissionCompletion st) s =
        .next (removePins (x.names ++ (afterCompletion st x.state).names) (afterCompletion st x.state).state) := by
      rw [exec_emissionCompletion, completeEmission_reached he hd, hafter, Releasing.settle_eq, Releasing.andThen_state,
        Releasing.andThen_names]
    clear hx hafter
    rw [hexec]
    have hstate : (x.state.stream st).state = (s.stream st).state := by rw [hstream]
    have hconfig : (x.state.stream st).config = (s.stream st).config := by rw [hstream]
    have hremaining : (x.state.stream st).remaining = (s.stream st).remaining := by rw [hstream]
    have hpending : (x.state.stream st).pendingTrigger = (s.stream st).pendingTrigger := by rw [hstream]
    refine ⟨fun hs => ?_, fun hs => ⟨fun hc hr => ?_, fun hc => ?_, fun hc hr => ?_⟩⟩
    · rw [afterCompletion_stopping (hstate.trans hs)]
    · rw [afterCompletion_counted (hstate.trans hs) ((congrArg _ hconfig).trans hc), hremaining, hr]
      cases st <;> rfl
    · rw [afterCompletion_continuous (hstate.trans hs) ((congrArg _ hconfig).trans hc), settle_continueStream, hpending]
    · have hmore : (s.stream st).remaining - 1 ≠ 0 := by omega
      rw [afterCompletion_counted (hstate.trans hs) ((congrArg _ hconfig).trans hc), hremaining]
      dsimp only
      rw [if_neg hmore, settle_continueStream, State.setStream_stream_self, State.setStream_setStream]
      dsimp only
      rw [hpending]
  · rw [exec_emissionCompletion, completeEmission_waiting h]
  · have hstream : (restStream st next s).state.stream st = (s.stream st).rest next := State.setStream_stream_self _ _ _
    intro v
    rw [show v.state.stream st = _ from hstream]
    exact ⟨rfl, rfl, rfl, rfl, rfl, rfl, rfl, rfl, fun _ => rfl⟩

end Sys2Proof.Machine
end

section
/-! What becomes of the buffers that one event frees, and the pins. -/

namespace Sys2Proof.Machine

open Sys2Proof

/-! ## Deliveries (R123) -/

/-- In `t` the buffers `l` of bank `k` have gone from FREE to source `h`, the head of the claim queue `h :: rest`. -/
structure GivenTo (h : Source) (rest : List Source) (l : List BufferId) (s t : State) : Prop where
  src : t.src h = { s.src h with chain := (s.src h).chain ++ l, claim := (s.src h).claim - l.length }
  others : ∀ j, j ≠ h → t.src j = s.src j
  queue : t.pool.claimQueue = if l = [] then s.pool.claimQueue else if (s.src h).claim ≤ l.length then rest else h :: rest
  buffer : ∀ b, t.buffer b = if b ∈ l then (s.buffer b).cleared .empty else s.buffer b
  bank : ∀ k, t.bank k = if ∃ b ∈ l, bankOf b = k then { s.bank k with dormancy := none } else s.bank k

theorem GivenTo.nil (h : Source) (rest : List Source) (s : State) : GivenTo h rest [] s s where
  src := by rw [List.append_nil, List.length_nil, Nat.sub_zero]
  others _ _ := rfl
  queue := by rw [if_pos rfl]
  buffer b := by rw [if_neg List.not_mem_nil]
  bank k := by rw [if_neg (by simp)]

theorem GivenTo.one {h : Source} {rest : List Source} {b : BufferId} {s : State} (hq : s.pool.claimQueue = h :: rest)
    (hk : (s.bank (bankOf b)).state = .awake) (hb : (s.buffer b).state = .free) : GivenTo h rest [b] s (deliver s b) := by
  rw [deliver_head hq hk hb]
  refine ⟨?_, fun j hj => ?_, ?_, fun c => ?_, fun k => ?_⟩
  · simp
  · simp [hj]
  · simp [State.setClaimQueue]
  · simp
  · by_cases hk : k = bankOf b
    · subst hk
      simp
    · simp [hk, Ne.symm hk]

/-- R123: while the head's claim lasts, FREE buffers of AWAKE banks go to it one by one. -/
theorem GivenTo.all {h : Source} {rest : List Source} : ∀ (l : List BufferId) {s : State}, l.Nodup →
    s.pool.claimQueue = h :: rest → l.length ≤ (s.src h).claim → (∀ b ∈ l, (s.bank (bankOf b)).state = .awake) →
    (∀ b ∈ l, (s.buffer b).state = .free) → GivenTo h rest l s (l.foldl deliver s)
  | [], s, _, _, _, _, _ => .nil h rest s
  | b :: l, s, hn, hq, hc, hk, hb => by
    obtain ⟨hbl, hn⟩ := List.nodup_cons.mp hn
    rw [List.length_cons] at hc
    have first := GivenTo.one hq (hk b List.mem_cons_self) (hb b List.mem_cons_self)
    rw [List.foldl_cons]
    have hclaim : ((deliver s b).src h).claim = (s.src h).claim - 1 := by rw [first.src]; rfl
    have hawake : ∀ c ∈ l, ((deliver s b).bank (bankOf c)).state = .awake := fun c hcl => by
      rw [first.bank]
      split <;> exact hk c (List.mem_cons_of_mem b hcl)
    have hfree : ∀ c ∈ l, ((deliver s b).buffer c).state = .free := fun c hcl => by
      have hne : c ≠ b := fun e => hbl (e ▸ hcl)
      rw [first.buffer, if_neg (by simpa using hne)]
      exact hb c (List.mem_cons_of_mem b hcl)
    cases l with
    | nil => exact first
    | cons c l =>
      rw [List.length_cons] at hc
      have hqueue : (deliver s b).pool.claimQueue = h :: rest := by
        rw [first.queue, if_neg (List.cons_ne_nil b []), List.length_singleton, if_neg (by omega)]
      have later := GivenTo.all (c :: l) hn hqueue (by rw [hclaim, List.length_cons]; omega) hawake hfree
      refine ⟨?_, fun j hj => (later.others j hj).trans (first.others j hj), ?_, fun x => ?_, fun k => ?_⟩
      · rw [later.src, first.src]
        simp only [List.length_cons, List.length_nil, List.append_assoc, List.singleton_append, Nat.sub_sub]
        congr 2
        omega
      · rw [later.queue, hclaim, if_neg (List.cons_ne_nil c l), if_neg (List.cons_ne_nil b _)]
        have : (s.src h).claim - 1 ≤ (c :: l).length ↔ (s.src h).claim ≤ (b :: c :: l).length := by
          rw [List.length_cons (a := b)]
          omega
        simp only [this]
      · rw [later.buffer, first.buffer]
        by_cases hx : x = b
        · subst hx
          simp [hbl]
        · simp [hx]
      · rw [later.bank, first.bank]
        by_cases hx : bankOf b = k <;> simp [hx]

theorem foldl_deliver_only (l : List BufferId) (s : State) : OnlyPool s (l.foldl deliver s) :=
  OnlyPool.loop deliver_only l s

/-- With no claim waiting nothing is delivered. -/
theorem foldl_deliver_unclaimed {s : State} (hq : s.pool.claimQueue = []) (l : List BufferId) : l.foldl deliver s = s := by
  induction l with
  | nil => rfl
  | cons b l ih => rw [List.foldl_cons, deliver_none (.inl hq), ih]

/-- A delivery leaves the other buffers. -/
theorem deliver_buffer_ne (s : State) {b c : BufferId} (h : c ≠ b) : (deliver s b).buffer c = s.buffer c := by
  by_cases hd : s.pool.claimQueue = [] ∨ (s.bank (bankOf b)).state ≠ .awake ∨ (s.buffer b).state ≠ .free
  · rw [deliver_none hd]
  · simp only [not_or, not_not] at hd
    obtain ⟨hq, hk, hb⟩ := hd
    obtain ⟨head, rest, hq⟩ := List.exists_cons_of_ne_nil hq
    rw [(GivenTo.one hq hk hb).buffer, if_neg (by simpa using h)]

theorem foldl_deliver_buffer (l : List BufferId) {c : BufferId} : ∀ s : State, c ∉ l → (l.foldl deliver s).buffer c = s.buffer c := by
  induction l with
  | nil => exact fun _ _ => rfl
  | cons b l ih =>
    intro s h
    rw [List.foldl_cons, ih _ (List.not_mem_of_not_mem_cons h), deliver_buffer_ne s (List.ne_of_not_mem_cons h)]

/-! ## Buffers freed together (R116, R119) -/

/-- What the consideration of the banks leaves. -/
theorem settleFreed_considered (freed : List BufferId) (s : State) :
    let u := (freedOrder freed).foldl deliver s
    (∀ j, (settleFreed freed s).src j = u.src j) ∧ (∀ b, (settleFreed freed s).buffer b = u.buffer b) ∧
      (settleFreed freed s).pool.claimQueue = u.pool.claimQueue := by
  intro u
  obtain ⟨h, -⟩ := settleFreed_eq freed s
  refine ⟨fun j => ?_, fun b => ?_, ?_⟩ <;> rw [h] <;> rfl

theorem settleFreed_buffer_of_not_mem {freed : List BufferId} {b : BufferId} (s : State) (h : b ∉ freed) :
    (settleFreed freed s).buffer b = s.buffer b := by
  obtain ⟨-, hb, -⟩ := settleFreed_considered freed s
  rw [hb, foldl_deliver_buffer _ _ (mt (mem_freedOrder freed b).mp h)]

theorem settleFreed_buffer_unclaimed {s : State} (hq : s.pool.claimQueue = []) (freed : List BufferId) (b : BufferId) :
    (settleFreed freed s).buffer b = s.buffer b := by
  obtain ⟨-, hb, -⟩ := settleFreed_considered freed s
  rw [hb, foldl_deliver_unclaimed hq]

/-! ## Holds removed together (R115, R116) -/

/-- The RETIRING buffers that lose their last pin. -/
def lastPinned (names : List BufferId) (s : State) : List BufferId :=
  allBuffers.filter fun b => decide (b ∈ names) &&
    decide (((s.mapBuffers fun b x => { x with pins := x.pins - names.count b }).buffer b).state = .retiring) &&
    decide (((s.mapBuffers fun b x => { x with pins := x.pins - names.count b }).buffer b).pins = 0)

/-- The counts lowered and the buffers freed, before these are delivered. -/
def unpinned (names : List BufferId) (s : State) : State :=
  (s.mapBuffers fun b x => { x with pins := x.pins - names.count b }).mapBuffers fun b x =>
    if b ∈ lastPinned names s then x.cleared .free else x

theorem removePins_eq (names : List BufferId) (s : State) :
    removePins names s = settleFreed (lastPinned names s) (unpinned names s) := rfl

theorem mem_lastPinned {names : List BufferId} {s : State} {b : BufferId} :
    b ∈ lastPinned names s ↔ b ∈ names ∧ (s.buffer b).state = .retiring ∧ (s.buffer b).pins ≤ names.count b := by
  simp [lastPinned, mem_allBuffers, and_assoc, Nat.sub_eq_zero_iff_le]

theorem unpinned_freed {names : List BufferId} {s : State} {b : BufferId} (h : b ∈ lastPinned names s) :
    (unpinned names s).buffer b = { state := .free, info := none, content := [], pins := 0 } := by
  have hp : (s.buffer b).pins - names.count b = 0 := Nat.sub_eq_zero_of_le (mem_lastPinned.mp h).2.2
  rw [unpinned, State.mapBuffers_buffer, if_pos h, State.mapBuffers_buffer, Buffer.cleared, hp]

theorem unpinned_kept {names : List BufferId} {s : State} {b : BufferId} (h : b ∉ lastPinned names s) :
    (unpinned names s).buffer b = { s.buffer b with pins := (s.buffer b).pins - names.count b } := by
  rw [unpinned, State.mapBuffers_buffer, if_neg h, State.mapBuffers_buffer]

/-- Two changes of buffers change nothing else. -/
theorem mapBuffers_mapBuffers_rest (s : State) (f g : BufferId → Buffer → Buffer) :
    { (s.mapBuffers f).mapBuffers g with
      pool := { ((s.mapBuffers f).mapBuffers g).pool with buffers := s.pool.buffers } } = s := by
  simp only [State.mapBuffers]

theorem unpinned_rest (names : List BufferId) (s : State) :
    { unpinned names s with pool := { (unpinned names s).pool with buffers := s.pool.buffers } } = s :=
  mapBuffers_mapBuffers_rest s _ _

section
variable (names : List BufferId) (s : State)

theorem unpinned_src (i : Source) : (unpinned names s).src i = s.src i := by
  rw [unpinned, State.mapBuffers_src, State.mapBuffers_src]

theorem unpinned_bank (k : Bank) : (unpinned names s).bank k = s.bank k := by
  rw [unpinned, State.mapBuffers_bank, State.mapBuffers_bank]

theorem unpinned_claimQueue : (unpinned names s).pool.claimQueue = s.pool.claimQueue := by
  rw [unpinned, State.mapBuffers_claimQueue, State.mapBuffers_claimQueue]

end

/-- Settles O55, by whether the buffer is one of those freed. -/
theorem holdsCountPins : Obligations.HoldsCountPins := by
  unfold Obligations.HoldsCountPins
  intro names s b
  refine ⟨addPins_buffer names s b, fun h => ?_, fun hs hb hp hq => ?_,
    ⟨lastPinned names s, unpinned names s, removePins_eq names s, fun _ => mem_lastPinned, unpinned_rest names s, fun c => ?_⟩, fun h rest hone hb hs hp hk hq => ?_, (Kept.closed s).addPins names (.refl s),
    (Kept.closed s).removePins names (.refl s)⟩
  · have hkept : b ∉ lastPinned names s := by
      rw [mem_lastPinned]
      rintro ⟨hb, hs, hp⟩
      rcases h with h | h | h
      · exact h hs
      · exact h hb
      · omega
    rw [removePins_eq, settleFreed_buffer_of_not_mem _ hkept, unpinned_kept hkept]
  · rw [removePins_eq, settleFreed_buffer_unclaimed ((unpinned_claimQueue names s).trans hq),
      unpinned_freed (mem_lastPinned.mpr ⟨hb, hs, hp⟩)]
  · split
    · next h => exact unpinned_freed h
    · next h => exact unpinned_kept h
  · have hmem : b ∈ lastPinned names s := mem_lastPinned.mpr ⟨hb, hs, hp⟩
    have horder : freedOrder (lastPinned names s) = [b] := by
      have hiff : ∀ c, c ∈ freedOrder (lastPinned names s) ↔ c ∈ [b] := fun c => by
        rw [mem_freedOrder, mem_lastPinned, List.mem_singleton]
        exact ⟨fun ⟨h1, h2, h3⟩ => hone c h1 h2 h3, fun e => e ▸ ⟨hb, hs, hp⟩⟩
      exact (freedOrder_sorted _).eq_of_mem_iff (List.pairwise_singleton _ b) fun {c} => hiff c
    have hfree := unpinned_freed hmem
    have given := GivenTo.one (s := unpinned names s) (b := b) ((unpinned_claimQueue names s).trans hq)
      (by rw [unpinned_bank, hk]) (by rw [hfree])
    obtain ⟨hsrc, hbuffer, hqueue⟩ := settleFreed_considered (lastPinned names s) (unpinned names s)
    rw [horder] at hsrc hbuffer hqueue
    have hgiven := given.src
    have hleft := given.queue
    rw [unpinned_src] at hgiven hleft
    rw [if_neg (List.cons_ne_nil b [])] at hleft
    rw [removePins_eq]
    refine ⟨?_, (hsrc h).trans hgiven, hqueue.trans hleft⟩
    rw [hbuffer b]
    refine (given.buffer b).trans ?_
    rw [if_pos (List.mem_singleton_self b), hfree]
    rfl

end Sys2Proof.Machine
end

section
/-! Banks that go DORMANT and wake. -/

namespace Sys2Proof.Machine

open Sys2Proof

theorem freedOrder_bank (k : Bank) : freedOrder k.buffers = k.buffers := by cases k <;> decide

theorem Bank.buffers_nodup (k : Bank) : k.buffers.Nodup := by cases k <;> decide

theorem Bank.buffers_ne_nil (k : Bank) : k.buffers ≠ [] := by cases k <;> decide

theorem Bank.buffers_length (k : Bank) : k.buffers.length = 3 := by cases k <;> rfl

/-! ## The release of a chain (R118) -/

/-- The buffers of the source's chain that a release frees. -/
def freedChain (i : Source) (s : State) : List BufferId := (s.src i).chain.filter fun b => !(s.buffer b).staysPinned

/-- R118: the chain released, before its buffers are delivered. -/
def unchained (i : Source) (s : State) : State :=
  (s.mapBuffers fun b x =>
    if b ∈ (s.src i).chain then (if x.staysPinned then { x with state := .retiring } else x.cleared .free) else x).setSrc i
    { s.src i with chain := [] }

section
variable {i : Source} {s : State} {b : BufferId}

theorem mem_freedChain : b ∈ freedChain i s ↔ b ∈ (s.src i).chain ∧ ¬((s.buffer b).state = .ready ∧ 0 < (s.buffer b).pins) := by
  simp only [freedChain, Buffer.staysPinned, List.mem_filter, Bool.not_eq_true', ← Bool.not_eq_true, Bool.and_eq_true,
    decide_eq_true_eq]

theorem unchained_rest : { unchained i s with pool := { (unchained i s).pool with buffers := s.pool.buffers } } =
    s.setSrc i { s.src i with chain := [] } := by
  simp only [unchained, State.mapBuffers, State.setSrc]

theorem unchained_buffer : (unchained i s).buffer b =
    if b ∈ freedChain i s then { s.buffer b with state := .free, info := none, content := [] }
    else if b ∈ (s.src i).chain then { s.buffer b with state := .retiring } else s.buffer b := by
  have hbuffer : (unchained i s).buffer b = if b ∈ (s.src i).chain then
      (if (s.buffer b).staysPinned then { s.buffer b with state := .retiring } else (s.buffer b).cleared .free)
      else s.buffer b := State.mapBuffers_buffer _ _ _
  have hmem : b ∈ freedChain i s ↔ b ∈ (s.src i).chain ∧ (s.buffer b).staysPinned ≠ true := by simp [freedChain]
  rw [hbuffer]
  by_cases hc : b ∈ (s.src i).chain
  · by_cases hp : (s.buffer b).staysPinned = true
    · rw [if_pos hc, if_pos hp, if_neg (fun h => (hmem.mp h).2 hp), if_pos hc]
    · rw [if_pos hc, if_neg hp, if_pos (hmem.mpr ⟨hc, hp⟩), Buffer.cleared]
  · rw [if_neg hc, if_neg (fun h => hc (hmem.mp h).1), if_neg hc]

end

/-! ## Dormancy and wakes (R119, R120) -/

section
variable {k : Bank} {s : State}

theorem exec_dormancyDeadlineExpiry (k : Bank) (s : State) : exec (.dormancyDeadlineExpiry k) s = .next (goDormant k s) := rfl

theorem exec_wakeCompletion (k : Bank) (s : State) : exec (.wakeCompletion k) s = .next (completeWake k s) := rfl

theorem goDormant_reached {d : Time} (h : (s.bank k).dormancy = some d) (hd : reached s.timebase d = true) :
    goDormant k s = s.setBank k { state := .dormant, dormancy := none, wake := none } := by
  rw [goDormant, h, expired_of_reached hd]

theorem goDormant_waiting (h : ∀ d, (s.bank k).dormancy = some d → reached s.timebase d = false) : goDormant k s = s := by
  rw [goDormant, expired_of_not_reached h]

/-- The bank AWAKE again, before its buffers are delivered. -/
def awoken (k : Bank) (s : State) : State := s.setBank k { state := .awake, dormancy := none, wake := none }

theorem completeWake_reached {d : Time} (h : (s.bank k).wake = some d) (hd : reached s.timebase d = true) :
    completeWake k s = settleFreed k.buffers (awoken k s) := by
  rw [completeWake, h, expired_of_reached hd]
  rfl

theorem completeWake_waiting (h : ∀ d, (s.bank k).wake = some d → reached s.timebase d = false) : completeWake k s = s := by
  rw [completeWake, expired_of_not_reached h]

theorem awoken_bank (j : Bank) :
    (awoken k s).bank j = if j = k then { state := .awake, dormancy := none, wake := none } else s.bank j := by
  rw [awoken, State.setBank_bank]

theorem awoken_src (i : Source) : (awoken k s).src i = s.src i := rfl

theorem awoken_buffer (b : BufferId) : (awoken k s).buffer b = s.buffer b := rfl

theorem awoken_awake {b : BufferId} (h : b ∈ k.buffers) : ((awoken k s).bank (bankOf b)).state = .awake := by
  rw [bankOf_of_mem h, awoken_bank, if_pos rfl]

/-- Only the bank of the buffers is considered, and with a buffer in use it stays as it is. -/
theorem settleFreed_bank_inUse {u : State} (hu : u = (freedOrder k.buffers).foldl deliver s) {b : BufferId}
    (hb : b ∈ k.buffers) (h : (u.buffer b).state ≠ .free) : (settleFreed k.buffers s).bank k = u.bank k := by
  obtain ⟨-, hbank⟩ := settleFreed_eq k.buffers s
  rw [hbank, ← hu]
  exact if_neg fun hall => h (hall.2.2.1 b hb)

theorem PerBank.eq_of_get {α : Type} {v w : PerBank α} (h : ∀ k, v.get k = w.get k) : v = w := by
  obtain ⟨a, b, c, d⟩ := v
  obtain ⟨a', b', c', d'⟩ := w
  exact congr (congr (congr (congrArg PerBank.mk (h .a)) (h .b)) (h .c)) (h .d)

/-- R119: with no claim waiting, the buffers of a woken bank stay FREE and its dormancy deadline starts. -/
theorem settleFreed_awoken_unclaimed (hq : s.pool.claimQueue = []) (hfree : ∀ b ∈ k.buffers, (s.buffer b).state = .free) :
    settleFreed k.buffers (awoken k s) = s.setBank k
      { state := .awake, wake := none
        dormancy := if s.params.dormancyDelay = 0 then none
          else some (s.timebase + BitVec.ofNat 32 (1000 * s.params.dormancyDelay)) } := by
  obtain ⟨honly, hbank⟩ := settleFreed_eq k.buffers (awoken k s)
  rw [foldl_deliver_unclaimed (s := awoken k s) hq] at honly hbank
  have hbanks : ∀ j, (settleFreed k.buffers (awoken k s)).bank j = (s.setBank k
      { state := .awake, wake := none
        dormancy := if s.params.dormancyDelay = 0 then none
          else some (s.timebase + BitVec.ofNat 32 (1000 * s.params.dormancyDelay)) }).bank j := by
    intro j
    rw [hbank j, awoken_bank, State.setBank_bank]
    by_cases hj : j = k
    · subst hj
      have hsome : ∃ b ∈ j.buffers, bankOf b = j := by cases j <;> decide
      by_cases hd : s.params.dormancyDelay = 0
      · rw [if_pos rfl, if_pos rfl, if_neg (fun h => h.2.2.2.2 hd), if_pos hd]
      · rw [if_pos rfl, if_pos rfl, if_pos ⟨hsome, rfl, hfree, rfl, hd⟩, if_neg hd]
        rfl
    · rw [if_neg hj, if_neg hj, if_neg fun ⟨⟨b, hb, hbj⟩, _⟩ => hj (hbj.symm.trans (bankOf_of_mem hb))]
  rw [honly, PerBank.eq_of_get hbanks]
  simp only [awoken, State.setBank]

/-- A bank of which `l` has been given away is as it was when it woke. -/
theorem GivenTo.awoken_bank {h : Source} {rest : List Source} {l : List BufferId} {u : State}
    (given : GivenTo h rest l (awoken k s) u) : u.bank k = { state := .awake, dormancy := none, wake := none } := by
  rw [given.bank, Machine.awoken_bank, if_pos rfl]
  split <;> rfl

/-- R120, R123: a head claim of three or more takes the bank. -/
theorem settleFreed_awoken_whole {h : Source} {rest : List Source} (hq : s.pool.claimQueue = h :: rest)
    (hc : 3 ≤ (s.src h).claim) (hfree : ∀ b ∈ k.buffers, (s.buffer b).state = .free) :
    GivenTo h rest k.buffers (awoken k s) (settleFreed k.buffers (awoken k s)) := by
  have given : GivenTo h rest k.buffers (awoken k s) ((freedOrder k.buffers).foldl deliver (awoken k s)) := by
    rw [freedOrder_bank]
    exact GivenTo.all k.buffers (Bank.buffers_nodup k) hq (by rw [Bank.buffers_length]; exact hc) (fun b => awoken_awake) hfree
  obtain ⟨hsrc, hbuffer, hqueue⟩ := settleFreed_considered k.buffers (awoken k s)
  obtain ⟨b, hb⟩ : ∃ b, b ∈ k.buffers := List.exists_mem_of_length_pos (by rw [Bank.buffers_length]; decide)
  have hused : (((freedOrder k.buffers).foldl deliver (awoken k s)).buffer b).state ≠ .free := by
    rw [given.buffer, if_pos hb]
    simp [Buffer.cleared]
  have hbank := settleFreed_bank_inUse rfl hb hused
  refine ⟨(hsrc h).trans given.src, fun j hj => (hsrc j).trans (given.others j hj), hqueue.trans given.queue,
    fun b => (hbuffer b).trans (given.buffer b), fun j => ?_⟩
  by_cases hj : j = k
  · rw [hj, hbank, given.bank]
  · obtain ⟨-, hconsidered⟩ := settleFreed_eq k.buffers (awoken k s)
    rw [hconsidered, if_neg fun ⟨⟨c, hcm, hcj⟩, _⟩ => hj (hcj.symm.trans (bankOf_of_mem hcm)), given.bank]

theorem length_take_claim {n : Nat} (hn : n ∈ [1, 2]) : (k.buffers.take n).length = n := by
  simp only [List.mem_cons, List.not_mem_nil, or_false] at hn
  rw [List.length_take, Bank.buffers_length]
  omega

theorem exists_mem_take_claim {n : Nat} (hn : n ∈ [1, 2]) : ∃ b, b ∈ k.buffers.take n := by
  have hlen := length_take_claim (k := k) hn
  simp only [List.mem_cons, List.not_mem_nil, or_false] at hn
  exact List.exists_mem_of_length_pos (by omega)

/-- R123: a head claim of 1 or 2 is completed by the bank's first buffers, `v`; the others go on. -/
theorem settleFreed_awoken_part {h : Source} {rest : List Source} (hq : s.pool.claimQueue = h :: rest)
    (hc : (s.src h).claim ∈ [1, 2]) (hfree : ∀ b ∈ k.buffers, (s.buffer b).state = .free) :
    ∃ v, GivenTo h rest (k.buffers.take (s.src h).claim) (awoken k s) v ∧ v.pool.claimQueue = rest ∧
      (∀ b ∈ k.buffers.drop (s.src h).claim, v.buffer b = s.buffer b) ∧
      (freedOrder k.buffers).foldl deliver (awoken k s) = (k.buffers.drop (s.src h).claim).foldl deliver v := by
  have hlen : (k.buffers.take (s.src h).claim).length = (s.src h).claim := length_take_claim hc
  have hne : k.buffers.take (s.src h).claim ≠ [] := List.ne_nil_of_mem (exists_mem_take_claim hc).choose_spec
  have hnodup := Bank.buffers_nodup k
  rw [← List.take_append_drop (s.src h).claim k.buffers] at hnodup
  obtain ⟨hfirst, -, hdisjoint⟩ := List.nodup_append.mp hnodup
  have given := GivenTo.all (s := awoken k s) (rest := rest) (k.buffers.take (s.src h).claim) hfirst hq hlen.le
    (fun b hb => awoken_awake (List.mem_of_mem_take hb)) fun b hb => hfree b (List.mem_of_mem_take hb)
  refine ⟨_, given, ?_, fun b hb => ?_, ?_⟩
  · rw [given.queue, if_neg hne, awoken_src, if_pos hlen.ge]
  · rw [given.buffer, if_neg fun hb' => hdisjoint b hb' b hb rfl]
    rfl
  · rw [freedOrder_bank, ← List.foldl_append, List.take_append_drop]

end

/-- Settles O54, by the deadline, and at a wake by the claims that wait. -/
theorem banksSleepAndWake : Obligations.BanksSleepAndWake := by
  unfold Obligations.BanksSleepAndWake
  refine ⟨fun s b => ⟨deliver_none, fun h rest => deliver_head⟩, fun freed s => ?_, fun i s => ?_, fun k s => ?_⟩
  · obtain ⟨honly, hbank⟩ := settleFreed_eq freed s
    have hpool := foldl_deliver_only (freedOrder freed) s
    refine ⟨freedOrder freed, freedOrder_sorted freed, mem_freedOrder freed, honly, fun k => ?_⟩
    have hparams : ((freedOrder freed).foldl deliver s).params = s.params := by rw [hpool]
    have htime : ((freedOrder freed).foldl deliver s).timebase = s.timebase := by rw [hpool]
    rw [hbank, hparams, htime]
    rfl
  · exact ⟨freedChain i s, unchained i s, releaseChain_eq i s, fun _ => mem_freedChain, unchained_rest, fun _ => unchained_buffer⟩
  · refine ⟨fun d h hd => ?_, fun h => ?_, fun h => ?_, fun d h hd => ?_, fun d h hd hfree =>
      ⟨fun hq => ?_, fun g rest hq hc => ?_, fun g hq hc => ?_, fun g g' rest hq hne hc hsum => ?_⟩⟩
    · rw [exec_dormancyDeadlineExpiry, goDormant_reached h hd]
    · rw [exec_dormancyDeadlineExpiry, goDormant_waiting h]
    · rw [exec_wakeCompletion, completeWake_waiting h]
    · rw [exec_wakeCompletion, completeWake_reached h hd]
      rfl
    all_goals rw [exec_wakeCompletion]
    · rw [completeWake_reached h hd, settleFreed_awoken_unclaimed hq hfree]
    · have given := settleFreed_awoken_whole hq hc hfree
      have kept := (Kept.closed s).completeWake k (.refl s)
      rw [completeWake_reached h hd] at kept ⊢
      refine ⟨_, rfl, ?_, ?_, ?_, given.awoken_bank, fun b hb => ?_, fun b hb => ?_, kept⟩
      · rw [given.src, awoken_src]
      · rw [given.src, awoken_src, Bank.buffers_length]
      · have hle : (s.src g).claim ≤ k.buffers.length ↔ (s.src g).claim = 3 := by rw [Bank.buffers_length]; omega
        rw [given.queue, if_neg (Bank.buffers_ne_nil k), awoken_src]
        simp only [hle]
      · rw [given.buffer, if_pos hb]
        rfl
      · rw [given.buffer, if_neg hb, awoken_buffer]
    · obtain ⟨v, given, hqueue, hleft, hfold⟩ := settleFreed_awoken_part hq hc hfree
      rw [foldl_deliver_unclaimed hqueue] at hfold
      obtain ⟨hsrc, hbuffer, hclaims⟩ := settleFreed_considered k.buffers (awoken k s)
      rw [hfold] at hsrc hbuffer hclaims
      have hgiven (b) (hb : b ∈ k.buffers.take (s.src g).claim) : (v.buffer b).state = .empty := by
        rw [given.buffer, if_pos hb]
        rfl
      rw [completeWake_reached h hd]
      refine ⟨_, rfl, ?_, ?_, hclaims.trans hqueue, fun b hb => ?_, fun b hb => ?_, ?_⟩
      · rw [hsrc, given.src, awoken_src]
      · rw [hsrc, given.src, awoken_src, length_take_claim hc, Nat.sub_self]
      · rw [hbuffer, hgiven b hb]
      · rw [hbuffer, hleft b hb]
      · obtain ⟨b, hb⟩ := exists_mem_take_claim (k := k) hc
        rw [settleFreed_bank_inUse hfold.symm (List.mem_of_mem_take hb) (by rw [hgiven b hb]; simp), given.awoken_bank]
    · obtain ⟨v, given, hqueue, hleft, hfold⟩ := settleFreed_awoken_part hq hc hfree
      have hgiven (b) (hb : b ∈ k.buffers.take (s.src g).claim) : (v.buffer b).state = .empty := by
        rw [given.buffer, if_pos hb]
        rfl
      have hnext : v.src g' = s.src g' := (given.others g' hne.symm).trans (awoken_src g')
      have hlen : (k.buffers.drop (s.src g).claim).length = 3 - (s.src g).claim := by
        rw [List.length_drop, Bank.buffers_length]
      have hpos : 0 < (k.buffers.drop (s.src g).claim).length := by
        rw [hlen]
        simp only [List.mem_cons, List.not_mem_nil, or_false] at hc
        omega
      have hdrop (b) (hb : b ∈ k.buffers.drop (s.src g).claim) : b ∈ k.buffers := List.mem_of_mem_drop hb
      have later := GivenTo.all (s := v) (k.buffers.drop (s.src g).claim)
        ((List.drop_sublist _ _).nodup (Bank.buffers_nodup k)) hqueue (by rw [hnext, hlen]; omega)
        (fun b hb => by rw [bankOf_of_mem (hdrop b hb), given.awoken_bank])
        (fun b hb => by rw [hleft b hb]; exact hfree b (hdrop b hb))
      rw [← hfold] at later
      obtain ⟨hsrc, hbuffer, hclaims⟩ := settleFreed_considered k.buffers (awoken k s)
      generalize hu : (freedOrder k.buffers).foldl deliver (awoken k s) = u at later hsrc hbuffer hclaims
      have hempty (b) (hb : b ∈ k.buffers) : (u.buffer b).state = .empty := by
        rw [later.buffer]
        split
        · rfl
        · next hn =>
          rw [← List.take_append_drop (s.src g).claim k.buffers, List.mem_append] at hb
          exact hgiven b (hb.resolve_right hn)
      rw [completeWake_reached h hd]
      refine ⟨_, rfl, ?_, ?_, ?_, ?_, ?_, fun b hb => ?_, ?_⟩
      · rw [hsrc, later.others g hne, given.src, awoken_src]
      · rw [hsrc, later.others g hne, given.src, awoken_src, length_take_claim hc, Nat.sub_self]
      · rw [hsrc, later.src, hnext]
      · rw [hsrc, later.src, hnext, hlen]
        dsimp only
        omega
      · have hle : (s.src g').claim ≤ 3 - (s.src g).claim ↔ (s.src g).claim + (s.src g').claim = 3 := by omega
        rw [hclaims, later.queue, if_neg (List.ne_nil_of_length_pos hpos), hnext, hlen]
        simp only [hle]
      · rw [hbuffer, hempty b hb]
      · obtain ⟨b, hb⟩ := exists_mem_take_claim (k := k) hc
        have hb := List.mem_of_mem_take hb
        rw [settleFreed_bank_inUse hu.symm hb (by rw [hempty b hb]; simp), later.bank, given.awoken_bank]
        split <;> rfl

end Sys2Proof.Machine
end

section
/-! What the controller's acts keep: which sources are LIVE, where deadlines run, and who is enrolled (O8). -/

namespace Sys2Proof.Machine

open Sys2Proof

/-! ## One source's record -/

/-- R9, R12, R14, R20: each deadline of a record runs only in the states whose rules name it. -/
def SourceRecord.Timed (r : SourceRecord) : Prop :=
  (r.warm ≠ none → r.state ∈ [.requested, .warming]) ∧ (r.linger ≠ none → r.state ∈ [.requested, .warming, .standby]) ∧
    (r.stop ≠ none → r.state = .stopping) ∧ (r.stall ≠ none → r.state.streaming = true)

theorem deadlinesOk_iff {s : State} : DeadlinesOk s ↔ ∀ i, (s.src i).Timed := Iff.rfl

/-- What a change of a record keeps: its deadlines stay those of its state, and outside ABSENT it was enrolled so before. -/
structure Keeps (r r' : SourceRecord) : Prop where
  timed : r.Timed → r'.Timed
  enrolled : r'.state ≠ .absent → r.state ≠ .absent ∧ r'.enrolment = r.enrolment

namespace Keeps

variable {r r' r'' : SourceRecord}

theorem refl (r : SourceRecord) : Keeps r r := ⟨id, fun h => ⟨h, rfl⟩⟩

theorem trans (h : Keeps r r') (h' : Keeps r' r'') : Keeps r r'' :=
  ⟨h'.timed ∘ h.timed, fun ha => ⟨(h.enrolled (h'.enrolled ha).1).1, (h'.enrolled ha).2.trans (h.enrolled (h'.enrolled ha).1).2⟩⟩

/-- The fields that the roles rest on stay. -/
theorem of_same (hs : r'.state = r.state) (he : r'.enrolment = r.enrolment) (hw : r'.warm = r.warm) (hl : r'.linger = r.linger)
    (hp : r'.stop = r.stop) (ht : r'.stall = r.stall) : Keeps r r' :=
  ⟨fun h => by rw [SourceRecord.Timed, hs, hw, hl, hp, ht]; exact h, fun h => ⟨hs ▸ h, he⟩⟩

theorem unlock (r : SourceRecord) : Keeps r r.unlock := of_same rfl rfl rfl rfl rfl rfl

theorem of_chain (h : SameButChain r r') : Keeps r r' := by
  rw [SameButChain] at h
  rw [h]
  exact of_same rfl rfl rfl rfl rfl rfl

/-- A source in STANDBY or LIVE changes between the two. -/
theorem role (h : r.state ∈ [.standby, .live]) (hs : r'.state ∈ [.standby, .live]) (hl : r'.state = .live → r'.linger = none)
    (he : r'.enrolment = r.enrolment) (hw : r'.warm = r.warm) (hp : r'.stop = r.stop) : Keeps r r' := by
  simp only [List.mem_cons, List.not_mem_nil, or_false] at h hs
  have hne : r.state ≠ .absent := by rcases h with h | h <;> simp [h]
  refine ⟨fun ⟨h1, _, h3, _⟩ => ⟨fun h' => ?_, fun h' => ?_, fun h' => ?_, fun _ => ?_⟩, fun _ => ⟨hne, he⟩⟩
  · have := h1 (hw ▸ h')
    rcases h with h | h <;> simp [h] at this
  · rcases hs with hs | hs
    · simp [hs]
    · exact absurd (hl hs) h'
  · have := h3 (hp ▸ h')
    rcases h with h | h <;> simp [h] at this
  · rcases hs with hs | hs <;> rw [hs] <;> rfl

end Keeps

/-- What the controller does to a record: a source in STANDBY or LIVE may have changed between the two, the chain and the claim
stay. -/
structure Roled (r r' : SourceRecord) : Prop where
  keeps : Keeps r r'
  chain : r'.chain = r.chain
  claim : r'.claim = r.claim
  place : r'.state = r.state ∨ r.state ∈ [.standby, .live] ∧ r'.state ∈ [.standby, .live]

namespace Roled

variable {r r' r'' : SourceRecord}

theorem refl (r : SourceRecord) : Roled r r := ⟨.refl r, rfl, rfl, .inl rfl⟩

theorem trans (h : Roled r r') (h' : Roled r' r'') : Roled r r'' := by
  refine ⟨h.keeps.trans h'.keeps, h'.chain.trans h.chain, h'.claim.trans h.claim, ?_⟩
  rcases h.place with e | ⟨e1, e2⟩
  · rw [← e]
    exact h'.place
  · rcases h'.place with e | ⟨-, e3⟩
    · rw [e]
      exact .inr ⟨e1, e2⟩
    · exact .inr ⟨e1, e3⟩

theorem unlock (r : SourceRecord) : Roled r r.unlock := ⟨.unlock r, rfl, rfl, .inl rfl⟩

theorem role (h : r.state ∈ [.standby, .live]) (hs : r'.state ∈ [.standby, .live]) (hl : r'.state = .live → r'.linger = none)
    (he : r'.enrolment = r.enrolment) (hw : r'.warm = r.warm) (hp : r'.stop = r.stop) (hc : r'.chain = r.chain)
    (hk : r'.claim = r.claim) : Roled r r' := ⟨.role h hs hl he hw hp, hc, hk, .inr ⟨h, hs⟩⟩

end Roled

/-! ## The controller's state -/

/-- What the rules of the controller rest on: who is LIVE, and where deadlines run. -/
def Controlled (s : State) : Prop := LiveOk s ∧ DeadlinesOk s

/-- What an event keeps of the roles, the enrolments, the hand-off record and the zooms. -/
structure Governs (s t : State) : Prop where
  params : t.params = s.params
  live : Controlled s → LiveOk t
  src : Controlled s → ∀ i, Keeps (s.src i) (t.src i)
  record : ParamsInRange s.params → RecordOk s → RecordOk t
  zoom : Controlled s → EnrolledOk s → ZoomOk s → ZoomOk t

namespace Governs

variable {s t u : State}

theorem controlled (h : Governs s t) (hc : Controlled s) : Controlled t :=
  ⟨h.live hc, fun i => (h.src hc i).timed (hc.2 i)⟩

theorem enrolled (h : Governs s t) (hc : Controlled s) (he : EnrolledOk s) : EnrolledOk t := fun i hi => by
  obtain ⟨ha, henr⟩ := (h.src hc i).enrolled hi
  rw [henr]
  exact he i ha

theorem bases (h : Governs s t) (hc : Controlled s) (hb : BasesOk s) : BasesOk t := fun i j hij hi hj => by
  obtain ⟨hi, hei⟩ := (h.src hc i).enrolled hi
  obtain ⟨hj, hej⟩ := (h.src hc j).enrolled hj
  rw [State.enr, State.enr, hei, hej]
  exact hb i j hij hi hj

theorem trans (h : Governs s t) (h' : Governs t u) : Governs s u where
  params := h'.params.trans h.params
  live hc := h'.live (h.controlled hc)
  src hc i := (h.src hc i).trans (h'.src (h.controlled hc) i)
  record hp hr := h'.record (h.params ▸ hp) (h.record hp hr)
  zoom hc he hz := h'.zoom (h.controlled hc) (h.enrolled hc he) (h.zoom hc he hz)

end Governs

/-- An event that leaves the controller and the planner: no source enters or leaves LIVE. -/
structure Steady (s t : State) : Prop where
  params : t.params = s.params
  primary : t.handoff.primary = s.handoff.primary
  record : t.handoff.record = s.handoff.record
  zoom : ZoomOk s → ZoomOk t
  live : ∀ i, (t.src i).state = .live ↔ (s.src i).state = .live
  src : ∀ i, Keeps (s.src i) (t.src i)

namespace Steady

variable {s t u : State}

theorem refl (s : State) : Steady s s := ⟨rfl, rfl, rfl, id, fun _ => Iff.rfl, fun _ => .refl _⟩

theorem trans (h : Steady s t) (h' : Steady t u) : Steady s u :=
  ⟨h'.params.trans h.params, h'.primary.trans h.primary, h'.record.trans h.record, h'.zoom ∘ h.zoom,
    fun i => (h'.live i).trans (h.live i), fun i => (h.src i).trans (h'.src i)⟩

/-- Nothing that the roles rest on changes. -/
theorem of_src (hp : t.params = s.params) (hh : t.handoff = s.handoff) (hz : t.planner = s.planner)
    (hs : ∀ i, SameButChain (s.src i) (t.src i)) : Steady s t :=
  ⟨hp, by rw [hh], by rw [hh], fun h => by rw [ZoomOk, hz]; exact h, fun i => by rw [hs i], fun i => .of_chain (hs i)⟩

theorem raise (k : Notice) (s : State) : Steady s (raise k s) := ⟨rfl, rfl, rfl, id, fun _ => Iff.rfl, fun _ => .refl _⟩

theorem of_settled (h : Settled s t) : Steady s t := of_src h.params h.handoff h.planner h.src

/-- One record changes, and not between LIVE and another state. -/
theorem setSrc {i : Source} {x : SourceRecord} (hl : x.state = .live ↔ (s.src i).state = .live) (hk : Keeps (s.src i) x) :
    Steady s (s.setSrc i x) := by
  have hsrc (j : Source) : ((s.setSrc i x).src j = s.src j) ∨ (j = i ∧ (s.setSrc i x).src j = x) := by
    by_cases hj : j = i
    · exact .inr ⟨hj, hj ▸ State.setSrc_src_self s j x⟩
    · exact .inl (State.setSrc_src_ne s x hj)
  refine ⟨rfl, rfl, rfl, id, fun j => ?_, fun j => ?_⟩ <;> rcases hsrc j with h | ⟨rfl, h⟩ <;> rw [h]
  · exact hl
  · exact .refl _
  · exact hk

theorem governs (h : Steady s t) : Governs s t where
  params := h.params
  live := fun ⟨⟨hl, hr⟩, _⟩ => by
    rw [LiveOk, h.primary, h.record]
    exact ⟨fun i => (h.live i).trans (hl i), hr⟩
  src _ := h.src
  record _ hr := by
    rw [RecordOk, h.record]
    exact hr
  zoom _ _ := h.zoom

end Steady

/-! ## Who is LIVE -/

section
variable {s t : State}

/-- R46: outside CROSSFADE the primary alone is LIVE. -/
theorem LiveOk.alone (h : LiveOk s) (hr : ∀ r, s.handoff.record = some r → r.phase ≠ .crossfade) (i : Source) :
    (s.src i).state = .live ↔ s.handoff.primary = some i := by
  rw [h.1]
  exact ⟨fun h => h.resolve_right fun ⟨r, he, hp, _⟩ => hr r he hp, .inl⟩

/-- R46: in CROSSFADE both members are. -/
theorem LiveOk.both {r : HandoffRecord} (h : LiveOk s) (hr : s.handoff.record = some r) (hph : r.phase = .crossfade)
    (i : Source) : (s.src i).state = .live ↔ i = r.src ∨ i = r.dst := by
  have hp := (h.2 r hr).2
  rw [h.1, hp, if_neg (by simp [hph]), Option.some.injEq]
  constructor
  · rintro (h | ⟨x, hx, -, h | h⟩)
    · exact .inl h.symm
    · rw [hr, Option.some.injEq] at hx
      exact .inl (hx ▸ h.symm)
    · rw [hr, Option.some.injEq] at hx
      exact .inr (hx ▸ h.symm)
  · rintro (h | h)
    · exact .inl h.symm
    · exact .inr ⟨r, hr, hph, .inr h.symm⟩

theorem LiveOk.of_alone (hl : ∀ i, (t.src i).state = .live ↔ t.handoff.primary = some i)
    (hr : ∀ r, t.handoff.record = some r →
      r.phase ≠ .crossfade ∧ r.src ≠ r.dst ∧ t.handoff.primary = some (if r.phase = .settle then r.dst else r.src)) :
    LiveOk t :=
  ⟨fun i => (hl i).trans ⟨.inl, fun h => h.resolve_right fun ⟨r, he, hp, _⟩ => (hr r he).1 hp⟩, fun r he => (hr r he).2⟩

theorem LiveOk.of_both {r : HandoffRecord} (hr : t.handoff.record = some r) (hph : r.phase = .crossfade)
    (hp : t.handoff.primary = some r.src) (hne : r.src ≠ r.dst)
    (hl : ∀ i, (t.src i).state = .live ↔ i = r.src ∨ i = r.dst) : LiveOk t := by
  refine ⟨fun i => ?_, fun x hx => ?_⟩
  · rw [hl, hp, hr]
    simp [hph, eq_comm]
  · rw [hr, Option.some.injEq] at hx
    subst hx
    rw [if_neg (by simp [hph])]
    exact ⟨hne, hp⟩

/-- With no primary there is no record. -/
theorem LiveOk.no_record (h : LiveOk s) (hp : s.handoff.primary = none) : s.handoff.record = none := by
  cases hr : s.handoff.record with
  | none => rfl
  | some r => exact absurd ((h.2 r hr).2.symm.trans hp) (Option.some_ne_none _)

end

/-! ## The controller's update at a view step -/

section
variable {s t : State}

theorem roled_moveToLive {i : Source} (h : (s.src i).state ∈ [.standby, .live]) (j : Source) :
    Roled (s.src j) ((moveToLive i s).src j) := by
  rw [moveToLive_src]
  split
  · next e =>
    subst e
    exact .role h (by simp) (fun _ => rfl) rfl rfl rfl rfl rfl
  · exact .refl _

theorem roled_moveToStandby {i : Source} (h : (s.src i).state ∈ [.standby, .live]) (j : Source) :
    Roled (s.src j) ((moveToStandby i s).src j) := by
  rw [moveToStandby_src]
  split
  · next e =>
    subst e
    exact .role h (by simp) nofun rfl rfl rfl rfl rfl
  · exact .refl _

theorem roled_changePrimary (new : Option Source) (s : State) (j : Source) : Roled (s.src j) ((changePrimary new s).src j) := by
  rw [changePrimary_src]
  exact .unlock _

theorem changePrimary_state (new : Option Source) (s : State) (j : Source) :
    ((changePrimary new s).src j).state = (s.src j).state := by
  rw [changePrimary_src]
  rfl

theorem roled_enterSettle {r : HandoffRecord} (h : (s.src r.src).state ∈ [.standby, .live]) (j : Source) :
    Roled (s.src j) ((enterSettle r s).src j) := by
  rw [enterSettle_src]
  exact (roled_changePrimary _ s j).trans (roled_moveToStandby (by rwa [changePrimary_state]) j)

/-- R57: after an entry to SETTLE to alone is LIVE, when both members were. -/
theorem enterSettle_live {r : HandoffRecord} (hne : r.src ≠ r.dst)
    (hl : ∀ i, (s.src i).state = .live ↔ i = r.src ∨ i = r.dst) : LiveOk (enterSettle r s) := by
  refine .of_alone (fun i => ?_) fun x hx => ?_
  · rw [enterSettle_handoff, enterSettle_src, moveToStandby_src, Option.some.injEq]
    by_cases hi : i = r.src
    · rw [if_pos hi, hi]
      simp [hne.symm]
    · rw [if_neg hi, changePrimary_state, hl]
      simp [hi, eq_comm]
  · rw [enterSettle_handoff] at hx ⊢
    dsimp only at hx
    split at hx
    · cases hx
    · cases hx
      exact ⟨by simp, hne, rfl⟩

theorem advanceFade_live {r : HandoffRecord} (hph : r.phase = .crossfade) (hp : s.handoff.primary = some r.src)
    (hne : r.src ≠ r.dst) (hl : ∀ i, (s.src i).state = .live ↔ i = r.src ∨ i = r.dst) : LiveOk (advanceFade r s) := by
  rw [advanceFade_eq]
  split
  · exact .of_both (r := { r with weight := r.weight + fadeInc s }) rfl hph hp hne hl
  · exact enterSettle_live hne hl

theorem roled_advanceFade {r : HandoffRecord} (h : (s.src r.src).state = .live) (j : Source) :
    Roled (s.src j) ((advanceFade r s).src j) := by
  rw [advanceFade_eq]
  split
  · exact .refl _
  · exact roled_enterSettle (by simp [h]) j

/-- R46: a record before its fade. -/
theorem LiveOk.before {r : HandoffRecord} (h : LiveOk s) (hr : s.handoff.record = some r) (hph : r.phase ∈ [.prepare, .align]) :
    s.handoff.primary = some r.src ∧ r.src ≠ r.dst ∧ ∀ i, (s.src i).state = .live ↔ i = r.src := by
  have hc : r.phase ≠ .crossfade ∧ r.phase ≠ .settle := by
    simp only [List.mem_cons, List.not_mem_nil, or_false] at hph
    rcases hph with h | h <;> simp [h]
  obtain ⟨hne, hp⟩ := h.2 r hr
  rw [if_neg hc.2] at hp
  refine ⟨hp, hne, fun i => ?_⟩
  rw [h.alone (fun x hx => by rw [hr, Option.some.injEq] at hx; exact hx ▸ hc.1), hp, Option.some.injEq, eq_comm]

/-- R53: both members are LIVE once to has moved. -/
theorem moveToLive_both {src dst : Source} (hl : ∀ i, (s.src i).state = .live ↔ i = src) (i : Source) :
    ((moveToLive dst s).src i).state = .live ↔ i = src ∨ i = dst := by
  rw [moveToLive_src]
  by_cases hi : i = dst
  · simp [hi]
  · rw [if_neg hi, hl]
    simp [hi]

/-- The controller's rule keeps LIVE to the primary and the record. -/
theorem Update.live (h : Update s t) (hl : LiveOk s) : LiveOk t := by
  cases h with
  | same => exact hl
  | candidate w hp _ => exact hl
  | first w hp hs =>
    refine .of_alone (fun i => ?_) fun r hr => ?_
    · rw [makeFirstPrimary_handoff, makeFirstPrimary_src, Option.some.injEq]
      have hone : ((moveToLive w (s.setHandoff { s.handoff with candidate := some w })).src i).state = .live ↔ i = w := by
        have hnone := hl.alone (fun r hr => absurd (hr.symm.trans (hl.no_record hp)) (Option.some_ne_none _)) i
        rw [hp] at hnone
        rw [moveToLive_src]
        split
        · next e => simp [e]
        · next e =>
          have : (s.src i).state ≠ .live := fun hi => by simpa using hnone.mp hi
          exact ⟨fun hi => absurd hi this, fun hi => absurd hi e⟩
      exact hone.trans eq_comm
    · have hnone := hl.no_record hp
      rw [makeFirstPrimary_handoff] at hr
      exact absurd (hr.symm.trans hnone) (Option.some_ne_none _)
  | start p w hp hr hne =>
    have hlive := hl.alone (fun r hr' => absurd (hr'.symm.trans hr) (Option.some_ne_none _))
    refine .of_alone hlive fun r hr' => ?_
    cases hr'
    exact ⟨by simp, hne.symm, hp⟩
  | before p r r' hp hr hph hph' hsrc hdst =>
    obtain ⟨hprimary, hne, hlive⟩ := hl.before hr hph
    have hc : r'.phase ≠ .crossfade ∧ r'.phase ≠ .settle := by
      simp only [List.mem_cons, List.not_mem_nil, or_false] at hph'
      rcases hph' with h | h <;> simp [h]
    have hpr : p = r.src := Option.some.inj (hp.symm.trans hprimary)
    refine .of_alone (fun i => (hlive i).trans ?_) fun x hx => ?_
    · show i = r.src ↔ s.handoff.primary = some i
      rw [hprimary, Option.some.injEq, eq_comm]
    · cases hx
      refine ⟨hc.1, ?_, ?_⟩
      · rw [hsrc]
        rcases hdst with h | h
        · exact h ▸ hne
        · exact hpr ▸ h.symm
      · rw [if_neg hc.2, hsrc]
        exact hprimary
  | cancel r hr hph =>
    obtain ⟨hprimary, -, hlive⟩ := hl.before hr hph
    refine .of_alone (fun i => (hlive i).trans ?_) nofun
    show i = r.src ↔ s.handoff.primary = some i
    rw [hprimary, Option.some.injEq, eq_comm]
  | cut r r' hr hph hsrc hdst hs =>
    obtain ⟨-, hne, hlive⟩ := hl.before hr (by simp [hph])
    refine .of_alone (fun i => ?_) fun x hx => ?_
    · rw [cutOver_handoff, cutOver_src, moveToStandby_src, Option.some.injEq, hsrc, hdst]
      by_cases hi : i = r.src
      · rw [if_pos hi, hi]
        simp [hne.symm]
      · rw [if_neg hi, changePrimary_state, moveToLive_both hlive]
        simp [hi, eq_comm]
    · rw [cutOver_handoff] at hx ⊢
      dsimp only at hx
      split at hx
      · cases hx
      · cases hx
        exact ⟨by simp, by rw [hsrc, hdst]; exact hne, rfl⟩
  | fade r r' hr hph hsrc hdst hs =>
    obtain ⟨hprimary, hne, hlive⟩ := hl.before hr (by simp [hph])
    have hboth : ∀ i, ((crossfading r' s).src i).state = .live ↔ i = r'.src ∨ i = r'.dst := fun i => by
      rw [crossfading_src, hsrc]
      exact moveToLive_both hlive i
    have hne' : r'.src ≠ r'.dst := by rw [hsrc, hdst]; exact hne
    rw [beginFade_eq]
    split
    · refine .of_both (r := { r' with phase := .crossfade, weight := fadeInc s, count := 0 }) rfl rfl ?_ hne' hboth
      rw [crossfading_handoff, hsrc]
      exact hprimary
    · exact enterSettle_live hne' hboth
  | advance r hr hph =>
    obtain ⟨hne, hp⟩ := hl.2 r hr
    rw [if_neg (by simp [hph])] at hp
    exact advanceFade_live hph hp hne (hl.both hr hph)
  | reverse r r' hr hph hr' =>
    subst hr'
    refine advanceFade_live hph rfl (hl.2 r hr).1.symm fun i => ?_
    rw [reverseHandoff_src]
    exact (hl.both hr hph i).trans or_comm
  | hold p r r' hp hr hph hr' =>
    obtain ⟨hne, hprimary⟩ := hl.2 r hr
    have hlive := hl.alone fun x hx => by rw [hr, Option.some.injEq] at hx; simp [← hx, hph]
    refine .of_alone hlive fun x hx => ?_
    cases hx
    subst hr'
    exact ⟨by simp [hph], hne, hprimary⟩
  | finish r hr hph =>
    have hlive := hl.alone fun x hx => by rw [hr, Option.some.injEq] at hx; simp [← hx, hph]
    exact .of_alone hlive nofun

theorem Update.roled (h : Update s t) (hl : LiveOk s) (j : Source) : Roled (s.src j) (t.src j) := by
  cases h with
  | same | candidate | start | before | cancel | hold | finish => exact .refl _
  | first w hp hs =>
    rw [makeFirstPrimary_src]
    exact (roled_moveToLive (s := s.setHandoff _) (by simp [hs]) j).trans (.unlock _)
  | cut r r' hr hph hsrc hdst hs =>
    obtain ⟨-, -, hlive⟩ := hl.before hr (by simp [hph])
    rw [cutOver_src]
    refine ((roled_moveToLive (by simp [hdst, hs]) j).trans (roled_changePrimary _ _ j)).trans (roled_moveToStandby ?_ j)
    rw [changePrimary_state, hsrc, (moveToLive_both hlive _).mpr (.inl rfl)]
    simp
  | fade r r' hr hph hsrc hdst hs =>
    obtain ⟨-, -, hlive⟩ := hl.before hr (by simp [hph])
    have hfirst : Roled (s.src j) ((crossfading r' s).src j) := by
      rw [crossfading_src]
      exact roled_moveToLive (by simp [hdst, hs]) j
    rw [beginFade_eq]
    split
    · exact hfirst
    · refine hfirst.trans (roled_enterSettle ?_ j)
      rw [crossfading_src, hsrc, (moveToLive_both hlive _).mpr (.inl rfl)]
      simp
  | advance r hr hph => exact roled_advanceFade (hl.member hr hph (.inl rfl)) j
  | reverse r r' hr hph hr' =>
    subst hr'
    have hfirst : Roled (s.src j) ((reverseHandoff r s).src j) := by
      rw [reverseHandoff_src]
      exact .unlock _
    refine hfirst.trans (roled_advanceFade ?_ j)
    rw [reverseHandoff_src]
    exact hl.member hr hph (.inr rfl)

end

end Sys2Proof.Machine
end

section
/-! The hand-off record through the controller's rules (Table 22). -/

namespace Sys2Proof.Machine

open Sys2Proof

/-- Table 22: the weight and the count of a record are those of its phase. -/
def HandoffRecord.Fits (r : HandoffRecord) : Prop :=
  r.count ≤ 8 ∧ (r.phase = .prepare → r.weight = 0 ∧ r.count = 0) ∧ (r.phase = .align → r.weight = 0) ∧
    (r.phase = .crossfade → 1 ≤ r.weight ∧ r.weight ≤ 255 ∧ r.count = 0) ∧ (r.phase = .settle → r.weight = 256)

theorem recordOk_iff {s : State} : RecordOk s ↔ ∀ r, s.handoff.record = some r → HandoffRecord.Fits r := by
  refine forall₂_congr fun r _ => ?_
  rw [HandoffRecord.Fits]
  cases r.phase <;> simp

section
variable {r : HandoffRecord} {s : State}

theorem HandoffRecord.Fits.prepare (hp : r.phase = .prepare) (hw : r.weight = 0) (hc : r.count = 0) : HandoffRecord.Fits r := by
  simp [HandoffRecord.Fits, hp, hw, hc]

theorem HandoffRecord.Fits.align (hp : r.phase = .align) (hw : r.weight = 0) (hc : r.count ≤ 8) : HandoffRecord.Fits r := by
  simp [HandoffRecord.Fits, hp, hw, hc]

theorem HandoffRecord.Fits.crossfade (hp : r.phase = .crossfade) (h1 : 1 ≤ r.weight) (h2 : r.weight ≤ 255) (hc : r.count = 0) :
    HandoffRecord.Fits r := by
  simp [HandoffRecord.Fits, hp, h1, h2, hc]

theorem HandoffRecord.Fits.settle (hp : r.phase = .settle) (hw : r.weight = 256) (hc : r.count ≤ 8) : HandoffRecord.Fits r := by
  simp [HandoffRecord.Fits, hp, hw, hc]

theorem recordOk_setRecord {o : Option HandoffRecord} (h : ∀ x, o = some x → HandoffRecord.Fits x) : RecordOk (setRecord o s) :=
  recordOk_iff.mpr h

theorem recordOk_of_some (h : s.handoff.record = some r) (hr : HandoffRecord.Fits r) : RecordOk s :=
  recordOk_iff.mpr fun x hx => by
    rw [h, Option.some.injEq] at hx
    exact hx ▸ hr

/-- R58: after an entry to SETTLE. -/
theorem recordOk_settled (hr : s.handoff.record =
    if s.params.settleSteps = 0 then none else some { r with phase := .settle, weight := 256, count := 0 }) : RecordOk s := by
  refine recordOk_iff.mpr fun x hx => ?_
  rw [hr] at hx
  split at hx
  · cases hx
  · cases hx
    exact .settle rfl rfl (Nat.zero_le 8)

/-! ## The rules -/

theorem fadeInc_pos (hp : ParamsInRange s.params) : 1 ≤ fadeInc s := by
  have h := within_iff.mp (hp .crossfadeSteps)
  have h1 : 1 ≤ s.params.crossfadeSteps := h.1
  unfold fadeInc ceilDiv
  rw [Nat.le_div_iff_mul_le h1]
  omega

theorem recordOk_enterSettle : RecordOk (enterSettle r s) := by
  have hp : (enterSettle r s).params = s.params := by rw [(Steered.enterSettle r s).only]
  refine recordOk_settled (r := r) ?_
  rw [enterSettle_handoff, hp]

theorem recordOk_advanceFade (hp : ParamsInRange s.params) (hph : r.phase = .crossfade) (hc : r.count = 0) :
    RecordOk (advanceFade r s) := by
  have := fadeInc_pos hp
  rw [advanceFade_eq]
  split
  · refine recordOk_setRecord fun x hx => ?_
    cases hx
    refine .crossfade hph ?_ ?_ hc
    · show 1 ≤ r.weight + fadeInc s
      omega
    · show r.weight + fadeInc s ≤ 255
      omega
  · exact recordOk_enterSettle

theorem recordOk_endAlign (hp : ParamsInRange s.params) : RecordOk (endAlign r s) := by
  have := fadeInc_pos hp
  rw [endAlign_eq]
  split
  · have hparams : (cutOver r s).params = s.params := by rw [(Steered.cutOver r s).only]
    refine recordOk_settled (r := { r with cut := true }) ?_
    rw [cutOver_handoff, hparams]
  · rw [beginFade_eq]
    split
    · refine recordOk_of_some (r := { r with phase := .crossfade, weight := fadeInc s, count := 0 }) rfl
        (.crossfade rfl this ?_ rfl)
      show fadeInc s ≤ 255
      omega
    · exact recordOk_enterSettle

theorem recordOk_prepareTest (hp : r.phase = .prepare) (hw : r.weight = 0) (hc : r.count = 0) :
    RecordOk (prepareTest r s) := by
  rw [prepareTest_eq]
  refine recordOk_setRecord fun x hx => ?_
  cases hx
  split
  · exact .align rfl hw (Nat.zero_le 8)
  · exact .prepare hp hw hc

theorem recordOk_alignStep (hp : ParamsInRange s.params) (hph : r.phase = .align) (hw : r.weight = 0) (b : Option BufferId) :
    RecordOk (alignStep r b s) := by
  have hsteps : s.params.alignSteps ≤ 8 := (within_iff.mp (hp .alignSteps)).2
  rw [alignStep_eq]
  split
  · refine recordOk_setRecord fun x hx => ?_
    cases hx
    exact .prepare rfl hw rfl
  · split
    · split
      · exact recordOk_endAlign hp
      · refine recordOk_setRecord fun x hx => ?_
        cases hx
        refine .align hph hw ?_
        show r.count + 1 ≤ 8
        omega
    · refine recordOk_setRecord fun x hx => ?_
      cases hx
      exact .align hph hw (Nat.zero_le 8)

theorem recordOk_beforeFade (hp : ParamsInRange s.params) (hph : r.phase ∈ [.prepare, .align]) (hr : HandoffRecord.Fits r)
    (p : Source) (w : Option Source) (b : Option BufferId) : RecordOk (beforeFade r p w b s) := by
  obtain ⟨-, hprepare, halign, -, -⟩ := hr
  by_cases hw : w = none ∨ w = some r.dst
  · rw [beforeFade_on hw]
    split
    · next h => exact recordOk_prepareTest h (hprepare h).1 (hprepare h).2
    · next h =>
      have h : r.phase = .align := by simpa [h] using hph
      exact recordOk_alignStep hp h (halign h) b
  · rw [not_or] at hw
    obtain ⟨q, rfl⟩ := Option.ne_none_iff_exists'.mp hw.1
    rw [beforeFade_other fun h => hw.2 (congrArg some h)]
    split
    · exact recordOk_setRecord nofun
    · exact recordOk_prepareTest rfl rfl rfl

theorem recordOk_fadeStep (hp : ParamsInRange s.params) (hph : r.phase = .crossfade) (hr : HandoffRecord.Fits r)
    (w : Option Source) : RecordOk (fadeStep r w s) := by
  obtain ⟨-, -, -, hfade, -⟩ := hr
  by_cases hw : w = some r.src
  · rw [hw, fadeStep_back]
    have hparams : (reverseHandoff r s).params = s.params := by rw [(Steered.reverseHandoff r s).only]
    exact recordOk_advanceFade (by rw [hparams]; exact hp) hph (hfade hph).2.2
  · rw [fadeStep_on hw]
    exact recordOk_advanceFade hp hph (hfade hph).2.2

/-- Table 22: the rule of a view step. -/
theorem recordOk_handoffStep (hp : ParamsInRange s.params) (hr : RecordOk s) (w : Option Source) (b : Option BufferId) :
    RecordOk (handoffStep w b s) := by
  cases hprimary : s.handoff.primary with
  | none =>
    rw [handoffStep_noPrimary hprimary]
    unfold noPrimaryStep
    dsimp only
    split
    · split
      · exact hr
      · exact hr
    · exact hr
  | some p =>
    have hsome : s.handoff.primary ≠ none := by rw [hprimary]; exact Option.some_ne_none p
    cases hrecord : s.handoff.record with
    | none =>
      cases w with
      | none =>
        rw [handoffStep_steady_none hprimary hrecord]
        exact hr
      | some w =>
        rw [handoffStep_steady hprimary hrecord]
        split
        · exact hr
        · exact recordOk_setRecord fun x hx => by
            cases hx
            exact .prepare rfl rfl rfl
    | some r =>
      have hfits := recordOk_iff.mp hr r hrecord
      cases hph : r.phase with
      | prepare =>
        rw [handoffStep_beforeFade hprimary hrecord (by simp [hph])]
        exact recordOk_beforeFade hp (by simp [hph]) hfits p w b
      | align =>
        rw [handoffStep_beforeFade hprimary hrecord (by simp [hph])]
        exact recordOk_beforeFade hp (by simp [hph]) hfits p w b
      | crossfade =>
        rw [handoffStep_crossfade hsome hrecord hph]
        exact recordOk_fadeStep hp hph hfits w
      | settle =>
        have hsteps : s.params.settleSteps ≤ 8 := (within_iff.mp (hp .settleSteps)).2
        obtain ⟨-, -, -, -, hweight⟩ := hfits
        rw [handoffStep_settle hsome hrecord hph]
        refine recordOk_setRecord fun x hx => ?_
        split at hx
        · cases hx
        · cases hx
          refine .settle hph (hweight hph) ?_
          show r.count + 1 ≤ 8
          omega

theorem recordOk_of_none (h : s.handoff.record = none) : RecordOk s :=
  recordOk_iff.mpr fun _ hx => absurd (hx.symm.trans h) (Option.some_ne_none _)

theorem emergencyCut_record (s : State) : (emergencyCut s).handoff.record = none := by
  cases hs : successor s with
  | none =>
    rw [emergencyCut_none hs]
    rfl
  | some j =>
    rw [emergencyCut_some hs]
    rfl

theorem recordOk_forceCompletion (r : HandoffRecord) : RecordOk (forceCompletion r s) := by
  have hparams : (forceCompletion r s).params = s.params := by rw [forceCompletion_only]
  refine recordOk_settled (r := { r with forced := true }) ?_
  rw [forceCompletion_handoff, hparams]

theorem abortHandoff_record (s : State) : (abortHandoff s).handoff.record = none := rfl

/-- Table 22: a departure. -/
theorem recordOk_departure (hr : RecordOk s) (i : Source) : RecordOk (departure i s) := by
  unfold departure
  have hcut : RecordOk (emergencyCut s) := recordOk_of_none (emergencyCut_record s)
  split
  · next r _ =>
    split
    · split
      · exact recordOk_forceCompletion r
      · split
        · exact recordOk_of_none (abortHandoff_record s)
        · exact hr
    · split
      · exact hcut
      · exact hr
  · split
    · exact hcut
    · exact hr

end

end Sys2Proof.Machine
end

section
/-! A view step and a departure: what they keep of the roles, the enrolments, the record and the zooms (O8). -/

namespace Sys2Proof.Machine

open Sys2Proof

/-! ## The ramp (R33 to R35) -/

/-- R34: between the origin and the target a ramp keeps to them. -/
theorem Ramp.zoomAt_within {r : Ramp} {k : Nat} (ho : within (64, 12800) r.origin = true)
    (ht : within (64, 12800) r.target = true) (hk : k ≤ r.steps) : within (64, 12800) (r.zoomAt k) = true := by
  unfold Ramp.zoomAt
  split
  · exact ht
  · next hs =>
    have hs : (0 : Int) < (r.steps : Int) := by omega
    rw [within_iff] at *
    dsimp only at *
    -- The part of a distance `d` that `k` of the steps cover.
    have part (d : Nat) : 0 ≤ (d : Int) * k / r.steps ∧ (d : Int) * k / r.steps ≤ d := by
      constructor
      · exact Int.ediv_nonneg (by positivity) hs.le
      · refine Int.ediv_le_of_le_mul hs ?_
        exact Int.mul_le_mul_of_nonneg_left (by exact_mod_cast hk) (Int.natCast_nonneg d)
    rcases Nat.le_total r.origin r.target with h | h
    · obtain ⟨d, hd⟩ := Nat.exists_eq_add_of_le h
      have hdiff : (r.target : Int) - r.origin = d := by omega
      rw [hdiff, Int.tdiv_eq_ediv_of_nonneg (by positivity)]
      have := part d
      omega
    · obtain ⟨d, hd⟩ := Nat.exists_eq_add_of_le h
      have hdiff : (r.target : Int) - r.origin = -d := by omega
      rw [hdiff, Int.neg_mul, Int.neg_tdiv, Int.tdiv_eq_ediv_of_nonneg (by positivity)]
      have := part d
      omega

/-- What a planner's zooms keep to once its ramp is chosen: a ramp that has no step to take reaches its target at once. -/
def Planner.Within (p : Planner) : Prop :=
  within (64, 12800) p.commanded = true ∧ (∀ z ∈ p.queue, within (64, 12800) z.target = true) ∧
    ∀ r, p.ramp = some r → within (64, 12800) r.origin = true ∧ within (64, 12800) r.target = true ∧
      (r.steps = 0 ∨ r.index < r.steps)

theorem Planner.Within.activate {p : Planner} (h : p.Within) : p.activate.Within := by
  obtain ⟨hc, hq, hr⟩ := h
  unfold Planner.activate
  split
  · exact ⟨hc, hq, hr⟩
  · exact ⟨hc, hq, hr⟩
  · next z rest _ hqueue =>
    refine ⟨hc, fun x hx => hq x (by rw [hqueue]; exact List.mem_cons_of_mem z hx), fun r h => ?_⟩
    cases h
    refine ⟨hc, hq z (by rw [hqueue]; exact List.mem_cons_self), ?_⟩
    exact Nat.eq_zero_or_pos z.steps

theorem Planner.Within.advance {p : Planner} (h : p.Within) : ∃ q, p.advance.1 = q ∧ within (64, 12800) q.commanded = true ∧
    (∀ z ∈ q.queue, within (64, 12800) z.target = true) ∧ ∀ r, q.ramp = some r →
      within (64, 12800) r.origin = true ∧ within (64, 12800) r.target = true ∧ r.index < r.steps := by
  obtain ⟨hc, hq, hr⟩ := h
  refine ⟨_, rfl, ?_⟩
  cases hramp : p.ramp with
  | none =>
    have he : p.advance = (p, false) := by simp only [Planner.advance, hramp]
    rw [he]
    exact ⟨hc, hq, fun r h => absurd (hramp.symm.trans h) (Option.some_ne_none r).symm⟩
  | some r =>
    obtain ⟨ho, ht, hsteps⟩ := hr r hramp
    obtain ⟨hon, hend⟩ := Planner.advance_ramp hramp
    by_cases hlast : r.steps = 0 ∨ r.index + 1 = r.steps
    · rw [hend hlast]
      exact ⟨ht, hq, nofun⟩
    · have hmore : r.index + 1 < r.steps := by omega
      rw [hon hmore]
      refine ⟨Ramp.zoomAt_within ho ht hmore.le, hq, fun x hx => ?_⟩
      cases hx
      exact ⟨ho, ht, hmore⟩

theorem advanceRamp_planner (s : State) : (advanceRamp s).planner = s.planner.activate.advance.1 := by
  unfold advanceRamp
  dsimp only
  split <;> rfl

theorem steady_advanceRamp (s : State) : Steady s (advanceRamp s) where
  params := by rw [advanceRamp_only]
  primary := by rw [advanceRamp_handoff]
  record := by rw [advanceRamp_handoff]
  zoom := fun ⟨hc, hq, hr⟩ => by
    have hw : s.planner.Within := ⟨hc, hq, fun r h => ⟨(hr r h).1, (hr r h).2.1, .inr (hr r h).2.2⟩⟩
    obtain ⟨q, he, hadvanced⟩ := hw.activate.advance
    rw [ZoomOk, advanceRamp_planner, he]
    exact hadvanced
  live i := by rw [advanceRamp_src]
  src i := by
    rw [advanceRamp_src]
    exact .refl _

/-! ## Want -/

section
variable {s : State}

/-- What remains when none of a record's deadlines runs. -/
def SourceRecord.Still (r : SourceRecord) : Prop := r.warm = none ∧ r.linger = none ∧ r.stop = none ∧ r.stall = none

theorem SourceRecord.Still.timed {r : SourceRecord} (h : r.Still) : r.Timed := by
  obtain ⟨hw, hl, hp, ht⟩ := h
  exact ⟨fun h => absurd hw h, fun h => absurd hl h, fun h => absurd hp h, fun h => absurd ht h⟩

theorem SourceRecord.Timed.still {r : SourceRecord} (h : r.Timed)
    (hs : r.state ∈ [.absent, .off, .held, .faulted] ∨ r.state = .stopping ∧ r.stop = none) : r.Still := by
  obtain ⟨h1, h2, h3, h4⟩ := h
  have hstate : r.state ∈ [.absent, .off, .held, .faulted, .stopping] := by
    rcases hs with hs | ⟨hs, -⟩
    · simp only [List.mem_cons, List.not_mem_nil, or_false] at hs ⊢
      tauto
    · simp [hs]
  refine ⟨by_contra fun h => ?_, by_contra fun h => ?_, by_contra fun h => ?_, by_contra fun h => ?_⟩
  · have := h1 h
    simp only [List.mem_cons, List.not_mem_nil, or_false] at this hstate
    rcases this with e | e <;> simp [e] at hstate
  · have := h2 h
    simp only [List.mem_cons, List.not_mem_nil, or_false] at this hstate
    rcases this with e | e | e <;> simp [e] at hstate
  · rcases hs with hs | ⟨-, hs⟩
    · simp [h3 h] at hs
    · exact h hs
  · have := h4 h
    cases e : r.state <;> simp [e, SourceState.streaming] at this hstate

/-- R6: an entry to REQUESTED from OFF. -/
theorem steady_enterRequested {i : Source} (h : (s.src i).state = .off) : Steady s (enterRequested i s) := by
  have honly := (Wanting.enterRequested h).only
  have hsrc (j : Source) := enterRequested_src i j s
  refine ⟨by rw [honly], by rw [honly], by rw [honly], fun hz => by rw [ZoomOk, honly]; exact hz, fun j => ?_, fun j => ?_⟩
  · rw [hsrc]
    split
    · next e => simp [e, h]
    · rfl
  · rw [hsrc]
    split
    · next e =>
      subst e
      refine ⟨fun ht => ?_, fun _ => ⟨by simp [h], rfl⟩⟩
      obtain ⟨-, hl, hp, hst⟩ := ht.still (.inl (by simp [h]))
      exact ⟨fun _ => by simp, fun h' => absurd hl h', fun h' => absurd hp h', fun h' => absurd hst h'⟩
    · exact .refl _

/-- A record with another want and linger, in a state where a linger may run. -/
theorem Keeps.wanted {r : SourceRecord} (h : r.state ∈ [.requested, .warming, .standby]) (v : Bool) (l : Option Time) :
    Keeps r { r with want := v, linger := l } :=
  ⟨fun ⟨h1, _, h3, h4⟩ => ⟨h1, fun _ => h, h3, h4⟩, fun ha => ⟨ha, rfl⟩⟩

theorem steady_writeWant (i : Source) (v : Bool) (s : State) : Steady s (writeWant i v s) := by
  have wants (v : Bool) : Steady s (s.setSrc i { s.src i with want := v }) :=
    .setSrc Iff.rfl (.of_same rfl rfl rfl rfl rfl rfl)
  rcases (s.src i).state.want_classes with hs | hs | hs | hs
  · rw [writeWant_absent hs]
    exact .refl s
  · rw [writeWant_off hs]
    split
    · have hoff : ((s.setSrc i { s.src i with want := true }).src i).state = .off := by
        rw [State.setSrc_src_self]
        exact hs
      exact (wants true).trans (steady_enterRequested hoff)
    · exact wants v
  · rw [writeWant_started hs]
    split
    · exact .setSrc Iff.rfl (.wanted hs true none)
    · split
      · rw [startLinger_eq, State.setSrc_setSrc, State.setSrc_src_self]
        exact .setSrc Iff.rfl (.wanted hs false _)
      · exact .refl s
  · rw [writeWant_plain hs]
    exact wants v

theorem steady_writeWants (m : SourceSet) (s : State) : Steady s (writeWants m s) := by
  unfold writeWants
  generalize Source.all = l
  induction l generalizing s with
  | nil => exact .refl s
  | cons i l ih => exact (steady_writeWant i _ s).trans (ih _)

/-! ## The view step (R43) -/

theorem Governs.of_steered {t : State} (h : Steered s t) (hl : LiveOk s → LiveOk t)
    (hk : LiveOk s → ∀ j, Roled (s.src j) (t.src j)) (hr : ParamsInRange s.params → RecordOk s → RecordOk t) : Governs s t where
  params := by rw [h.only]
  live hc := hl hc.1
  src hc j := (hk hc.1 j).keeps
  record := hr
  zoom _ _ hz := by
    rw [ZoomOk, h.only]
    exact hz

theorem governs_handoffStep (w : Option Source) (b : Option BufferId) (s : State) : Governs s (handoffStep w b s) :=
  .of_steered (.handoffStep w b s) (update_handoffStep w b s).live (update_handoffStep w b s).roled
    fun hp hr => recordOk_handoffStep hp hr w b

theorem governs_viewStep (step : StepFrame) (now : Time) (s : State) : Governs s (viewStep step now s) := by
  have hplanning : Steady (controlled step s) (planning step s) :=
    ⟨rfl, rfl, rfl, id, fun _ => Iff.rfl, fun _ => .refl _⟩
  have hmarks (u : State) : Steady u (clearMarks u) := ⟨rfl, rfl, rfl, id, fun _ => Iff.rfl, fun _ => .refl _⟩
  have hcontrolled : Governs s (controlled step s) := (steady_advanceRamp s).governs.trans (governs_handoffStep _ _ _)
  have hbefore : Steady (controlled step s) (beforeRecord step s) := by
    rw [beforeRecord_eq]
    exact hplanning.trans (steady_writeWants _ _)
  rw [viewStep_eq]
  exact hcontrolled.trans ((hbefore.trans (hmarks _)).trans (.of_settled (appendRecord_settled _ _))).governs

end

/-! ## Departures (R59 to R65) -/

section
variable {s u : State}

theorem roled_departure (i : Source) (s : State) (j : Source) : Roled (s.src j) ((departure i s).src j) := by
  have forced (r : HandoffRecord) : Roled (s.src j) ((forceCompletion r s).src j) := by
    have h : (forceCompletion r s).src j = (s.src j).unlock := forceCompletion_unlocked r s j
    exact h ▸ .unlock _
  have cut : Roled (s.src j) ((emergencyCut s).src j) := by
    cases hs : successor s with
    | none =>
      rw [emergencyCut_none hs]
      exact roled_changePrimary none (primaryLost s) j
    | some k =>
      rw [emergencyCut_some hs]
      exact (roled_moveToLive (s := primaryLost s) (List.mem_cons.mpr (.inl (successor_standby hs))) j).trans
        (roled_changePrimary (some k) _ j)
  unfold departure
  split
  · split
    · split
      · exact forced _
      · split <;> exact .refl _
    · split
      · exact cut
      · exact .refl _
  · split
    · exact cut
    · exact .refl _

/-- R61: to alone remains LIVE. -/
theorem live_forceCompletion {r : HandoffRecord} (hne : r.src ≠ r.dst) (hl : ∀ j, (u.src j).state = .live ↔ j = r.dst) :
    LiveOk (forceCompletion r u) := by
  refine .of_alone (fun j => ?_) fun x hx => ?_
  · have hunlocked : (forceCompletion r u).src j = (u.src j).unlock := forceCompletion_unlocked r u j
    rw [hunlocked, forceCompletion_handoff, Option.some.injEq]
    exact (hl j).trans eq_comm
  · rw [forceCompletion_handoff] at hx ⊢
    dsimp only at hx
    split at hx
    · cases hx
    · cases hx
      exact ⟨by simp, hne, rfl⟩

/-- R60: from alone remains LIVE. -/
theorem live_abortHandoff {p : Source} (hp : u.handoff.primary = some p) (hl : ∀ j, (u.src j).state = .live ↔ j = p) :
    LiveOk (abortHandoff u) := by
  refine .of_alone (fun j => (hl j).trans ?_) fun x hx => absurd (hx.symm.trans (abortHandoff_record u)) (Option.some_ne_none x)
  have hprimary : (abortHandoff u).handoff.primary = some p := hp
  rw [hprimary, Option.some.injEq, eq_comm]

/-- R62: the successor is LIVE alone, or nobody is. -/
theorem live_emergencyCut (hl : ∀ j, (u.src j).state ≠ .live) : LiveOk (emergencyCut u) := by
  refine .of_alone (fun j => ?_) fun x hx => absurd (hx.symm.trans (emergencyCut_record u)) (Option.some_ne_none x)
  cases hs : successor u with
  | none =>
    have hstate : ((emergencyCut u).src j).state = (u.src j).state := by
      rw [emergencyCut_none hs]
      exact changePrimary_state none (primaryLost u) j
    have hprimary : (emergencyCut u).handoff.primary = none := by
      rw [emergencyCut_none hs]
      rfl
    rw [hstate, hprimary]
    exact ⟨fun h => absurd h (hl j), nofun⟩
  | some k =>
    have hstate : ((emergencyCut u).src j).state = ((moveToLive k (primaryLost u)).src j).state := by
      rw [emergencyCut_some hs]
      exact changePrimary_state (some k) (moveToLive k (primaryLost u)) j
    have hprimary : (emergencyCut u).handoff.primary = some k := by
      rw [emergencyCut_some hs]
      rfl
    have hothers : ((primaryLost u).src j).state ≠ .live := hl j
    rw [hstate, hprimary, moveToLive_src, Option.some.injEq]
    split
    · next h => simp [h]
    · next h => exact ⟨fun h' => absurd h' hothers, fun h' => absurd h'.symm h⟩

/-- R59: once a source in STANDBY or LIVE has left, the controller's answer puts the roles right. -/
theorem live_informDeparture {i : Source} (hl : LiveOk s) (hu : SameForControl i s u) (hi : (u.src i).state ≠ .live) :
    LiveOk (informDeparture i (s.src i).state u) := by
  have hlive (j : Source) : (u.src j).state = .live ↔ j ≠ i ∧ (s.src j).state = .live := by
    by_cases hj : j = i
    · subst hj
      simp [hi]
    · rw [(hu.others j hj).1]
      simp [hj]
  have hplain (hn : (s.src i).state ≠ .live) : LiveOk u := by
    rw [LiveOk, hu.handoff]
    refine ⟨fun j => ?_, hl.2⟩
    rw [hlive, ← hl.1]
    exact ⟨fun h => h.2, fun h => ⟨fun e => hn (e ▸ h), h⟩⟩
  unfold informDeparture
  by_cases hs : (s.src i).state = .live
  · rw [if_pos (by rw [hs]; rfl)]
    cases hr : s.handoff.record with
    | none =>
      have hone := hl.alone (fun r h => absurd (h.symm.trans hr) (Option.some_ne_none r))
      have hp : u.handoff.primary = some i := by rw [hu.handoff]; exact (hone i).mp hs
      rw [departure_lost (by rw [hu.handoff, hr]; nofun) hp]
      refine live_emergencyCut fun j hj => ?_
      obtain ⟨hne, hj⟩ := (hlive j).mp hj
      rw [hu.handoff] at hp
      exact hne (Option.some.inj (((hone j).mp hj).symm.trans hp))
    | some r =>
      have hur : u.handoff.record = some r := by rw [hu.handoff, hr]
      obtain ⟨hne, hprimary⟩ := hl.2 r hr
      by_cases hph : r.phase = .crossfade
      · have hboth := hl.both hr hph
        rw [if_neg (by simp [hph])] at hprimary
        have hup : u.handoff.primary = some r.src := by rw [hu.handoff, hprimary]
        rcases (hboth i).mp hs with e | e
        · subst e
          rw [departure_primary hur hph hup]
          refine live_forceCompletion hne fun j => ?_
          rw [hlive, hboth]
          exact ⟨fun h => h.2.resolve_left h.1, fun h => ⟨fun e => hne (e.symm.trans h), .inr h⟩⟩
        · subst e
          rw [departure_secondary hur hph (by rw [hup, Ne, Option.some.injEq]; exact hne) rfl]
          refine live_abortHandoff hup fun j => ?_
          rw [hlive, hboth]
          exact ⟨fun h => h.2.resolve_right h.1, fun h => ⟨fun e => hne (h.symm.trans e), .inl h⟩⟩
      · have hone := hl.alone (fun x h => by rw [hr, Option.some.injEq] at h; exact h ▸ hph)
        have hp : u.handoff.primary = some i := by rw [hu.handoff]; exact (hone i).mp hs
        rw [departure_lost (fun x h => by rw [hur, Option.some.injEq] at h; exact h ▸ hph) hp]
        refine live_emergencyCut fun j hj => ?_
        obtain ⟨hne, hj⟩ := (hlive j).mp hj
        rw [hu.handoff] at hp
        exact hne (Option.some.inj (((hone j).mp hj).symm.trans hp))
  · split
    · have hshown := mt (hl.1 i).mpr hs
      rw [not_or] at hshown
      rw [departure_none (by rw [hu.handoff]; exact hshown.1)
        (fun r hr hph hd => hshown.2 ⟨r, by rw [← hu.handoff]; exact hr, hph, .inr hd⟩)]
      exact hplain hs
    · exact hplain hs

end

end Sys2Proof.Machine
end

section
/-! LIVE follows the controller through every step (O8). -/

namespace Sys2Proof.Machine

open Sys2Proof

section
variable {s u v : State} {i : Source}

/-! ## Leaving for STOPPING, HELD and FAULTED -/

/-- A shutdown leaves the other sources, but for the buffers that it frees. -/
theorem shutDown_src_ne (was : SourceState) (s : State) {j : Source} (hj : j ≠ i) :
    SameButChain (s.src j) ((shutDown i was s).src j) := by
  have hrelease (w : State) : SameButChain (w.src j) ((releaseChain i w).src j) := by
    have h := (settleFreed_delivered (freedChain i w) (unchained i w)).only j
    have hsrc : (unchained i w).src j = w.src j := State.setSrc_src_ne _ _ hj
    rwa [hsrc] at h
  have hends (w : State) : (stopPulsing i (if was.streaming then leaveStreaming i w else w)).src j = w.src j := by
    split
    · exact State.setSrc_src_ne _ _ hj
    · rfl
  have hbegins : (cancelClaim i (s.modSrc i fun r => { r with warm := none, linger := none })).src j = s.src j :=
    (State.setSrc_src_ne _ _ hj).trans (State.setSrc_src_ne _ _ hj)
  have h := hrelease (cancelClaim i (s.modSrc i fun r => { r with warm := none, linger := none }))
  rw [hbegins] at h
  rw [show (shutDown i was s).src j = _ from hends _]
  exact h

/-- The record of a source that shuts down, from the record `x` that the entry has written. -/
theorem Keeps.shut {r x : SourceRecord} (ha : r.state ≠ .absent) (he : x.enrolment = r.enrolment) (ht : x.stall = r.stall)
    (hp : x.stop ≠ none → x.state = .stopping) : Keeps r (x.shut r.state.streaming) := by
  have hstate : (x.shut r.state.streaming).state = x.state := by unfold SourceRecord.shut; split <;> rfl
  have hstop : (x.shut r.state.streaming).stop = x.stop := by unfold SourceRecord.shut; split <;> rfl
  have henr : (x.shut r.state.streaming).enrolment = x.enrolment := by unfold SourceRecord.shut; split <;> rfl
  obtain ⟨hw, hl, -, -, -⟩ := x.shut_cleared r.state.streaming
  refine ⟨fun h => ⟨fun h' => absurd hw h', fun h' => absurd hl h', fun h' => ?_, fun h' => ?_⟩, fun _ => ⟨ha, henr.trans he⟩⟩
  · rw [hstate]
    exact hp (hstop ▸ h')
  · exfalso
    unfold SourceRecord.shut at h'
    split at h'
    · exact h' rfl
    · next hs => exact hs (h.2.2.2 (ht ▸ h'))

/-- A record that goes on to ABSENT with no deadline running. -/
theorem Keeps.absented {r x : SourceRecord} (h : Keeps r x) (hx : x.Timed → x.Still) : Keeps r x.absented :=
  ⟨fun hr => SourceRecord.Still.timed (hx (h.timed hr)), fun ha => absurd rfl ha⟩

/-- A source shut down, before the controller is informed. -/
structure Left (i : Source) (s u : State) : Prop where
  control : SameForControl i s u
  left : (u.src i).state ∉ [.standby, .live]
  src : ∀ j, Keeps (s.src j) (u.src j)

theorem Left.governs (h : Left i s u) : Governs s (informDeparture i (s.src i).state u) := by
  have hlive : (u.src i).state ≠ .live := fun e => h.left (by simp [e])
  refine ⟨?_, fun hc => live_informDeparture hc.1 h.control hlive, fun _ j => ?_, fun hp hr => ?_, fun _ _ hz => ?_⟩
  · unfold informDeparture
    split
    · rw [departure_only]
      exact h.control.params
    · exact h.control.params
  · unfold informDeparture
    split
    · exact (h.src j).trans (roled_departure i u j).keeps
    · exact h.src j
  · have hu : RecordOk u := by
      rw [RecordOk, h.control.handoff]
      exact hr
    unfold informDeparture
    split
    · exact recordOk_departure hu i
    · exact hu
  · have hu : ZoomOk u := by
      rw [ZoomOk, h.control.planner]
      exact hz
    unfold informDeparture
    split
    · rw [ZoomOk, departure_only]
      exact hu
    · exact hu

/-- A withdrawal that waits ends in ABSENT. -/
theorem Left.absentIfPending (h : Left i s u) (hu : (u.src i).Timed → (u.src i).Still) : Left i s (absentIfPending i u) := by
  unfold Machine.absentIfPending
  split
  · refine ⟨h.control.trans (modSrc_sameForControl i _ u), ?_, fun j => ?_⟩
    · rw [enterAbsent_eq, State.setSrc_src_self]
      simp [SourceRecord.absented]
    · rw [enterAbsent_eq, State.setSrc_src]
      split
      · next e =>
        subst e
        exact (h.src j).absented hu
      · exact h.src j
  · exact h

theorem Left.raiseSrc (h : Left i s u) (j : Source) (k : SourceNotice) : Left i s (raiseSrc j k u) :=
  ⟨h.control.trans (raise_sameForControl i _ u), h.left, h.src⟩

/-- The shutdown itself, from the record that the entry has written. -/
theorem Left.shutDown (x : SourceRecord) (hv : SameForControl i s v) (hvs : ∀ j, v.src j = if j = i then x else s.src j)
    (hx : x.state ∉ [.standby, .live]) (ha : (s.src i).state ≠ .absent) (he : x.enrolment = (s.src i).enrolment)
    (ht : x.stall = (s.src i).stall) (hp : x.stop ≠ none → x.state = .stopping) :
    Left i s (shutDown i (s.src i).state v) := by
  have hrecord : (Machine.shutDown i (s.src i).state v).src i = x.shut (s.src i).state.streaming := by
    rw [(shutDown_src i _ v).1, hvs, if_pos rfl]
  refine ⟨hv.trans (shutDown_sameForControl i _ v), ?_, fun j => ?_⟩
  · rw [hrecord]
    unfold SourceRecord.shut
    split <;> exact hx
  · by_cases hj : j = i
    · subst hj
      rw [hrecord]
      exact .shut ha he ht hp
    · have h := shutDown_src_ne (s.src i).state v hj
      rw [hvs, if_neg hj] at h
      exact .of_chain h

theorem governs_enterStopping (ha : (s.src i).state ≠ .absent) : Governs s (enterStopping i s) := by
  rw [enterStopping_eq]
  refine Left.governs (Left.raiseSrc ?_ i .stopWanted)
  exact .shutDown { s.src i with state := .stopping, stop := some (timeAfter s.timebase (msToUs s.params.stopTimeout)) }
    (modSrc_sameForControl i _ s) (fun j => State.setSrc_src _ _ _ _) (by simp) ha rfl rfl fun _ => rfl

theorem heldShut_left (ha : (s.src i).state ≠ .absent) : Left i s (heldShut i s) :=
  .shutDown { s.src i with state := .held, stop := none, faultCause := none, refusalCode := none }
    (modSrc_sameForControl i _ s) (fun j => State.setSrc_src _ _ _ _) (by simp) ha rfl rfl nofun

theorem heldShut_state (i : Source) (s : State) : ((heldShut i s).src i).state = .held := by
  have h := shutDown_src i (s.src i).state (s.modSrc i fun r =>
    { r with state := .held, stop := none, faultCause := none, refusalCode := none })
  rw [heldShut, h.1, State.modSrc_eq, State.setSrc_src_self]
  unfold SourceRecord.shut
  split <;> rfl

theorem governs_enterHeld (ha : (s.src i).state ≠ .absent) : Governs s (enterHeld i s) := by
  rw [enterHeld_eq]
  exact ((heldShut_left ha).absentIfPending fun h => h.still (.inl (by simp [heldShut_state]))).governs

theorem faultedShut_left (cause : FaultCause) (ha : (s.src i).state ≠ .absent) : Left i s (faultedShut i cause s) := by
  have counted : SameForControl i s { s with free := s.free + 1 } :=
    ⟨rfl, rfl, rfl, rfl, rfl, fun _ _ => ⟨rfl, rfl, rfl⟩⟩
  have shut : Left i s (Machine.shutDown i (s.src i).state ({ s with free := s.free + 1 }.modSrc i fun r =>
      { r.unlock with state := .faulted, stop := none, faultCause := some cause })) :=
    .shutDown { (s.src i).unlock with state := .faulted, stop := none, faultCause := some cause }
      (counted.trans (modSrc_sameForControl i _ _)) (fun j => State.setSrc_src _ _ _ _) (by simp) ha rfl rfl nofun
  unfold faultedShut
  dsimp only
  split
  · exact (shut.raiseSrc i .faulted).raiseSrc i .stopWanted
  · exact shut.raiseSrc i .faulted

theorem faultedShut_state (i : Source) (cause : FaultCause) (s : State) : ((faultedShut i cause s).src i).state = .faulted := by
  have h := shutDown_src i (s.src i).state ({ s with free := s.free + 1 }.modSrc i fun r =>
    { r.unlock with state := .faulted, stop := none, faultCause := some cause })
  have hs : ((Machine.shutDown i (s.src i).state ({ s with free := s.free + 1 }.modSrc i fun r =>
      { r.unlock with state := .faulted, stop := none, faultCause := some cause })).src i).state = .faulted := by
    rw [h.1, State.modSrc_eq, State.setSrc_src_self]
    unfold SourceRecord.shut
    split <;> rfl
  unfold faultedShut
  dsimp only
  split
  · rw [raiseSrc_src, raiseSrc_src]
    exact hs
  · rw [raiseSrc_src]
    exact hs

theorem governs_enterFaulted (cause : FaultCause) (ha : (s.src i).state ≠ .absent) : Governs s (enterFaulted i cause s) := by
  rw [enterFaulted_eq]
  exact ((faultedShut_left cause ha).absentIfPending fun h => h.still (.inl (by simp [faultedShut_state]))).governs

/-! ## Entries to OFF and ABSENT (R15, R23) -/

theorem steady_enterAbsent (hs : (s.src i).state ∈ [.off, .faulted, .held]) : Steady s (enterAbsent i s) := by
  have hlive : (s.src i).state ≠ .live := fun e => by simp [e] at hs
  rw [enterAbsent_eq]
  refine .setSrc ⟨nofun, fun h => absurd h hlive⟩ ((Keeps.refl _).absented fun h => h.still (.inl ?_))
  simp only [List.mem_cons, List.not_mem_nil, or_false] at hs ⊢
  tauto

theorem steady_enterOff (hs : (s.src i).state ∈ [.off, .faulted, .held] ∨ (s.src i).state = .stopping ∧ (s.src i).stop = none) :
    Steady s (enterOff i s) := by
  have hstate : (s.src i).state ∈ [.off, .faulted, .held, .stopping] := by
    rcases hs with hs | ⟨hs, -⟩
    · simp only [List.mem_cons, List.not_mem_nil, or_false] at hs ⊢
      tauto
    · simp [hs]
  have hlive : (s.src i).state ≠ .live := fun e => by simp [e] at hstate
  have habsent : (s.src i).state ≠ .absent := fun e => by simp [e] at hstate
  have hstill (h : (s.src i).Timed) : (s.src i).Still := h.still (hs.imp_left fun hs => by
    simp only [List.mem_cons, List.not_mem_nil, or_false] at hs ⊢
    tauto)
  have off : Steady s (s.setSrc i { s.src i with state := .off }) :=
    .setSrc ⟨nofun, fun h => absurd h hlive⟩ ⟨fun h => SourceRecord.Still.timed (hstill h), fun _ => ⟨habsent, rfl⟩⟩
  rw [enterOff_eq]
  split
  · exact .setSrc ⟨nofun, fun h => absurd h hlive⟩ ((Keeps.refl _).absented hstill)
  · split
    · refine off.trans (steady_enterRequested ?_)
      rw [State.setSrc_src_self]
    · exact off

/-- R14: a stop ends, confirmed or not. -/
theorem steady_stopEnds (hs : (s.src i).state = .stopping) (b : Bool) (k : Notice) :
    Steady s (enterOff i (raise k (s.setSrc i { s.src i with stop := none, lastStopUnconfirmed := b }))) := by
  have hstop : Steady s (s.setSrc i { s.src i with stop := none, lastStopUnconfirmed := b }) :=
    .setSrc Iff.rfl ⟨fun ⟨h1, h2, _, h4⟩ => ⟨h1, h2, nofun, h4⟩, fun h => ⟨h, rfl⟩⟩
  refine (hstop.trans (.raise k _)).trans (steady_enterOff (.inr ?_))
  rw [raise_src, State.setSrc_src_self]
  exact ⟨hs, rfl⟩

/-! ## Camera packets (R104 to R111) -/

theorem steady_abandonFilling (i : Source) (s : State) : Steady s (abandonFilling i s) := by
  have honly := abandonFilling_only i s
  refine .of_src ?_ ?_ ?_ fun j => by rw [abandonFilling_src]; rfl
  all_goals rw [honly]

theorem streaming_ne_absent (hs : (s.src i).state.streaming = true) : (s.src i).state ≠ .absent := fun e => by
  rw [e] at hs
  cases hs

theorem governs_badFrame (hs : (s.src i).state.streaming = true) : Governs s (badFrame i s) := by
  have hcount : Steady (abandonFilling i s) ((abandonFilling i s).setSrc i (s.src i).badCounted) := by
    rw [← abandonFilling_src i i s]
    exact .setSrc Iff.rfl (.of_same rfl rfl rfl rfl rfl rfl)
  have hbad := ((steady_abandonFilling i s).trans hcount).governs
  rw [badFrame_eq]
  dsimp only
  split
  · refine hbad.trans (governs_enterFaulted _ ?_)
    rw [State.setSrc_src_self]
    exact streaming_ne_absent hs
  · exact hbad

theorem steady_stampStart (hs : (s.src i).state.streaming = true) : Steady s (stampStart i s) := by
  have honly := stampStart_only i s
  have hjudged (o : Option Bool) : Keeps (s.src i) ((startedRecord i s).judgedBy o) ∧
      ((startedRecord i s).judgedBy o).state = (s.src i).state := by
    have hfields : ∀ r : SourceRecord, (r.judgedBy o).state = r.state ∧ (r.judgedBy o).enrolment = r.enrolment ∧
        (r.judgedBy o).warm = r.warm ∧ (r.judgedBy o).linger = r.linger ∧ (r.judgedBy o).stop = r.stop ∧
        (r.judgedBy o).stall = r.stall := fun r => by rw [SourceRecord.judgedBy_eq]; exact ⟨rfl, rfl, rfl, rfl, rfl, rfl⟩
    obtain ⟨h1, h2, h3, h4, h5, h6⟩ := hfields (startedRecord i s)
    have hstarted : Keeps (s.src i) (startedRecord i s) :=
      ⟨fun ⟨h1, h2, h3, _⟩ => ⟨h1, h2, h3, fun _ => hs⟩, fun h => ⟨h, rfl⟩⟩
    exact ⟨hstarted.trans (.of_same h1 h2 h3 h4 h5 h6), h1⟩
  refine ⟨by rw [honly], by rw [honly], by rw [honly], fun hz => by rw [ZoomOk, honly]; exact hz, fun j => ?_, fun j => ?_⟩
  all_goals
    rw [stampStart_src]
    split
  · next e => rw [(hjudged _).2, e]
  · exact Iff.rfl
  · next e => exact e ▸ (hjudged _).1
  · exact .refl _

theorem steady_dropFrame (i : Source) (s : State) : Steady s (dropFrame i s) := by
  have hset : Steady s (s.setSrc i { s.src i with
      qualify := if (s.src i).state = .warming then 0 else (s.src i).qualify }) :=
    .setSrc Iff.rfl (.of_same rfl rfl rfl rfl rfl rfl)
  rw [dropFrame_eq]
  exact hset.trans (.raise (.source i .drop) _)

theorem governs_takeFrameStart (hs : (s.src i).state.streaming = true) (n w h : Half) : Governs s (takeFrameStart i n w h s) := by
  have hstamp := steady_stampStart hs
  by_cases hsize : w.toNat = (s.enr i).width ∧ h.toNat = (s.enr i).height
  · obtain ⟨hfill, hdrop⟩ := takeFrameStart_right (n := n) hsize.1 hsize.2
    cases hb : fillChoice s i with
    | some b =>
      rw [hfill b hb]
      have hfilling (w : State) : Steady w (beginFilling i b n w) := ⟨rfl, rfl, rfl, id, fun _ => Iff.rfl, fun _ => .refl _⟩
      exact (hstamp.trans (hfilling _)).governs
    | none =>
      rw [hdrop hb]
      exact (hstamp.trans (steady_dropFrame i _)).governs
  · rw [takeFrameStart_wrong (by tauto)]
    refine hstamp.governs.trans (governs_badFrame ?_)
    rw [(stampStart_qualify i s).2.1]
    exact hs

theorem governs_intakeFrameStart (i : Source) (n w h : Half) (s : State) : Governs s (intakeFrameStart i n w h s) := by
  by_cases hs : (s.src i).state.streaming = true
  · cases hp : s.port i with
    | idle =>
      rw [intakeFrameStart_idle hs hp]
      exact governs_takeFrameStart hs n w h
    | filling b f st k c =>
      have hbad := governs_badFrame hs
      rw [intakeFrameStart_filling hs hp]
      split
      · next hs' =>
        rw [intakeFrameStart_idle hs' (badFrame_port i s)]
        exact hbad.trans (governs_takeFrameStart hs' n w h)
      · exact hbad
  · rw [intakeFrameStart_discarded (eq_false_of_ne_true hs)]
    exact (Steady.refl s).governs

theorem governs_intakeLine (i : Source) (n : Half) (data : List Byte) (s : State) : Governs s (intakeLine i n data s) := by
  by_cases h : (s.src i).state.streaming = false ∨ s.port i = .idle
  · rw [intakeLine_stray h]
    exact (Steady.refl s).governs
  · rw [not_or, Bool.not_eq_false] at h
    obtain ⟨hs, hp⟩ := h
    cases hport : s.port i with
    | idle => exact absurd hport hp
    | filling b f st k c =>
      rw [intakeLine_filling hs hport]
      split
      · exact Steady.governs ⟨rfl, rfl, rfl, id, fun _ => Iff.rfl, fun _ => .refl _⟩
      · exact governs_badFrame hs

/-- R10: a source that qualifies enters STANDBY. -/
theorem steady_qualified (h : (s.src i).state = .warming) : Steady s (qualified i s) := by
  have honly := qualified_only i s
  refine ⟨by rw [honly], by rw [honly], by rw [honly], fun hz => by rw [ZoomOk, honly]; exact hz, fun j => ?_, fun j => ?_⟩
  all_goals
    rw [qualified_src]
    split
  · next e => simp [e, h]
  · exact Iff.rfl
  · next e =>
    subst e
    refine ⟨fun ⟨_, _, h3, _⟩ => ⟨nofun, fun _ => by simp, fun h' => ?_, fun _ => rfl⟩, fun _ => ⟨by simp [h], rfl⟩⟩
    rw [h] at h3
    cases h3 h'
  · exact .refl _

/-- R67: the controller's answer to a source in STANDBY. -/
theorem governs_informStandby (h : (s.src i).state = .standby) : Governs s (informStandby i s) := by
  by_cases hc : s.handoff.primary = none ∧ s.handoff.candidate = some i
  · have hset : s.setHandoff { s.handoff with candidate := some i } = s := by rw [← hc.2]; rfl
    have hupdate : Update s (makeFirstPrimary i s) := by
      have := Update.first i hc.1 h
      rwa [hset] at this
    rw [informStandby_candidate hc.1 hc.2]
    refine .of_steered (.makeFirstPrimary i s) hupdate.live hupdate.roled fun _ hr => ?_
    rw [RecordOk, makeFirstPrimary_handoff]
    exact hr
  · rw [informStandby_other hc]
    exact (Steady.refl s).governs

theorem governs_recordGoodFrame (i : Source) (f : FrameNo) (reported : Bool) (v : State) :
    Governs v (recordGoodFrame i f reported v) := by
  obtain ⟨hplain, hmissing, hnot, hqualifies⟩ := recordGoodFrame_cases i f reported v
  have hset (x : SourceRecord) (h : Keeps (v.src i) x) (hx : x.state = (v.src i).state) : Steady v (v.setSrc i x) :=
    .setSrc (by rw [hx]) h
  have hcounted := hset { (v.src i).goodCounted f with qualify := min 8 ((v.src i).qualify + 1) }
    (.of_same rfl rfl rfl rfl rfl rfl) rfl
  by_cases hw : (v.src i).state = .warming
  · cases hr : reported with
    | false =>
      rw [← hr, hmissing hw hr]
      have hzero := hset { (v.src i).goodCounted f with qualify := 0 } (.of_same rfl rfl rfl rfl rfl rfl) rfl
      exact (hzero.trans (.raise (.source i .reportMissing) _)).governs
    | true =>
      by_cases hq : v.params.qualifyFrames ≤ min 8 ((v.src i).qualify + 1) ∧ (v.src i).chain.length = 3 ∧ v.calTable i ≠ [] ∧
          ((v.enr i).syncMode = .follow → v.handoff.primary ≠ none → (v.src i).locked = true)
      · rw [← hr, hqualifies hw hr hq]
        have hwarming : ((v.setSrc i { (v.src i).goodCounted f with
            qualify := min 8 ((v.src i).qualify + 1) }).src i).state = .warming := by
          rw [State.setSrc_src_self]
          exact hw
        refine (hcounted.trans (steady_qualified hwarming)).governs.trans (governs_informStandby ?_)
        rw [qualified_src, if_pos rfl]
      · rw [← hr, hnot hw hr hq]
        exact hcounted.governs
  · rw [hplain hw]
    exact (hset ((v.src i).goodCounted f) (.of_same rfl rfl rfl rfl rfl rfl) rfl).governs

theorem governs_goodFrame (i : Source) (b : BufferId) (f : FrameNo) (st : Time) (s : State) : Governs s (goodFrame i b f st s) := by
  obtain ⟨hv, hm⟩ := matchReport_completed i b f st s
  have hcomplete : Steady s (matchReport i b f (completeBuffer i b f st s)).1 := by
    obtain ⟨hsrc, hparams, hhandoff, -⟩ := hv.fields
    exact .of_src hparams hhandoff (by rw [hv.only]) fun j => by rw [hsrc]; rfl
  have hrecord := hcomplete.governs.trans (governs_recordGoodFrame i f (matchReport i b f (completeBuffer i b f st s)).2 _)
  rw [goodFrame_eq]
  dsimp only
  split
  · exact hrecord.trans (governs_viewStep _ _ _)
  · exact hrecord

theorem governs_intakeFrameEnd (i : Source) (n k : Half) (s : State) : Governs s (intakeFrameEnd i n k s) := by
  by_cases h : (s.src i).state.streaming = false ∨ s.port i = .idle
  · rw [intakeFrameEnd_stray h]
    exact (Steady.refl s).governs
  · rw [not_or, Bool.not_eq_false] at h
    obtain ⟨hs, hp⟩ := h
    cases hport : s.port i with
    | idle => exact absurd hport hp
    | filling b f st k c =>
      rw [intakeFrameEnd_filling hs hport]
      split
      · exact governs_goodFrame i b f st s
      · exact governs_badFrame hs

/-! ## Every move -/

/-- O8: what a move keeps of the roles, of the enrolments with the zooms, and of the record. -/
def RolesKept (s t : State) : Prop :=
  Controlled s → BasesOk s →
    Controlled t ∧ BasesOk t ∧ (EnrolledOk s → EnrolledOk t ∧ (ZoomOk s → ZoomOk t)) ∧
      (ParamsInRange s.params → RecordOk s → RecordOk t)

theorem Governs.rolesKept {t : State} (h : Controlled s → Governs s t) : RolesKept s t := fun hc hb =>
  ⟨(h hc).controlled hc, (h hc).bases hc hb, fun he => ⟨(h hc).enrolled hc he, (h hc).zoom hc he⟩, (h hc).record⟩

theorem Steady.rolesKept {t : State} (h : Steady s t) : RolesKept s t := Governs.rolesKept fun _ => h.governs

/-- The state after a reset, which every property of the roles allows. -/
theorem rolesKept_reset {t : State} (hs : t.sources = State.reset.sources) (hh : t.handoff = State.reset.handoff)
    (hp : t.planner = State.reset.planner) : RolesKept s t := by
  obtain ⟨-, -, -, -, -, -, -, -, hbases, hdeadlines, hlive, -, -, -, -, henrolled, hzoom, hrecord⟩ := resetIsSafe
  have hsrc (j : Source) : t.src j = State.reset.src j := congrArg (PerSource.get · j) hs
  have henr (j : Source) : t.enr j = State.reset.enr j := by rw [State.enr, hsrc]; rfl
  refine fun _ _ => ⟨⟨?_, ?_⟩, ?_, fun _ => ⟨?_, fun _ => ?_⟩, fun _ _ => ?_⟩
  · simp only [LiveOk, hsrc, hh]
    exact hlive
  · simp only [DeadlinesOk, hsrc]
    exact hdeadlines
  · simp only [BasesOk, hsrc, henr]
    exact hbases
  · simp only [EnrolledOk, hsrc]
    exact henrolled
  · simp only [ZoomOk, hp]
    exact hzoom
  · simp only [RecordOk, hh]
    exact hrecord

theorem RolesKept.trans {t : State} (h : RolesKept s t) (h' : RolesKept t u) (hp : t.params = s.params) : RolesKept s u := by
  intro hc hb
  obtain ⟨hc', hb', he', hr'⟩ := h hc hb
  obtain ⟨hc'', hb'', he'', hr''⟩ := h' hc' hb'
  exact ⟨hc'', hb'', fun he => ⟨(he'' (he' he).1).1, fun hz => (he'' (he' he).1).2 ((he' he).2 hz)⟩,
    fun hq hr => hr'' (hp ▸ hq) (hr' hq hr)⟩

/-- R3: the record `y` of a source newly enrolled in OFF. -/
theorem rolesKept_setEnrolled {e : Enrolment} {y : SourceRecord} (hlive : (s.src i).state ≠ .live) (hoff : y.state = .off)
    (hy : y.enrolment = some e) (hstill : (s.src i).Timed → y.Still) (he : e.inRange = true)
    (hb : baseTaken i e.base s = false) : RolesKept s (s.setSrc i y) := by
  have hsrc (j : Source) : (s.setSrc i y).src j = if j = i then y else s.src j := State.setSrc_src s i y j
  have henr (j : Source) : (s.setSrc i y).enr j = if j = i then e else s.enr j := by
    rw [State.enr, hsrc]
    split
    · rw [hy]
      rfl
    · rfl
  have hfree (k : Source) (hk : k ≠ i) (hne : (s.src k).state ≠ .absent) : (s.enr k).base ≠ e.base := fun heq =>
    absurd (baseTaken_iff.mpr ⟨k, hk, hne, heq⟩) (by simp [hb])
  intro hc hbases
  refine ⟨⟨⟨fun j => ?_, hc.1.2⟩, fun j => ?_⟩, fun j k hjk hj hk => ?_, fun henrolled => ⟨fun j hj => ?_, id⟩, fun _ => id⟩
  · refine Iff.trans ?_ (hc.1.1 j)
    rw [hsrc]
    split
    · next e => simp [e, hlive, hoff]
    · rfl
  · show SourceRecord.Timed _
    rw [hsrc]
    split
    · exact (hstill (hc.2 i)).timed
    · exact hc.2 j
  · rw [hsrc] at hj hk
    rw [henr, henr]
    by_cases hji : j = i
    · have hki : k ≠ i := fun h => hjk (hji.trans h.symm)
      rw [if_neg hki] at hk
      rw [if_pos hji, if_neg hki]
      exact (hfree k hki hk).symm
    · rw [if_neg hji] at hj
      by_cases hki : k = i
      · rw [if_neg hji, if_pos hki]
        exact hfree j hji hj
      · rw [if_neg hki] at hk
        rw [if_neg hji, if_neg hki]
        exact hbases j k hjk hj hk
  · rw [hsrc] at hj ⊢
    split
    · exact ⟨e, hy, he⟩
    · next hji =>
      rw [if_neg hji] at hj
      exact henrolled j hj

theorem rolesKept_enroll {e : Enrolment} (h : (s.src i).state.enrollable = true) (he : e.inRange = true)
    (hb : baseTaken i e.base s = false) : RolesKept s (enrollSource i e s) := by
  have hstate := SourceState.enrollable_iff.mp h
  have hlive : (s.src i).state ≠ .live := fun e => by simp [e] at hstate
  have hx := SourceRecord.enroll_eq e (s.planner.keepWarm.get i) hstate
  have hset : enrollSource i e s = enterOff i (s.setSrc i ((s.src i).enroll e (s.planner.keepWarm.get i))) := rfl
  generalize (s.src i).enroll e (s.planner.keepWarm.get i) = x at hx hset
  have henroll : enrollSource i e s = enterOff i (s.setSrc i { x with state := .off }) := by
    rw [hset, enterOff_eq, enterOff_eq]
    simp only [State.setSrc_setSrc, State.setSrc_src_self]
    rfl
  have hstill (ht : (s.src i).Timed) : SourceRecord.Still { x with state := .off } := by
    have hs := ht.still (.inl (by
      simp only [List.mem_cons, List.not_mem_nil, or_false] at hstate ⊢
      tauto))
    rw [hx]
    exact hs
  rw [henroll]
  refine (rolesKept_setEnrolled (y := { x with state := .off }) hlive rfl (by rw [hx]) hstill he hb).trans
    (steady_enterOff (.inl ?_)).rolesKept rfl
  rw [State.setSrc_src_self]
  simp

theorem steady_of_pool {t : State} (honly : OnlyPool s t) (hs : ∀ j, SameButChain (s.src j) (t.src j)) : Steady s t :=
  .of_src honly.params honly.handoff honly.planner hs

theorem steady_goDormant (k : Bank) (s : State) : Steady s (goDormant k s) := by
  unfold goDormant
  split
  · exact .refl s
  · exact ⟨rfl, rfl, rfl, id, fun _ => Iff.rfl, fun _ => .refl _⟩

theorem steady_completeWake (k : Bank) (s : State) : Steady s (completeWake k s) := by
  refine steady_of_pool (completeWake_only k s) fun j => ?_
  unfold completeWake
  split
  · rfl
  · exact (settleFreed_delivered k.buffers (awoken k s)).only j

theorem steady_recordEdge (line : TriggerLine) (s : State) : Steady s (recordEdge line s) := by
  have hset : Steady s (s.setTrigger line { s.trigger line with lastEdge := some s.timebase }) :=
    ⟨rfl, rfl, rfl, id, fun _ => Iff.rfl, fun _ => .refl _⟩
  exact (hset.trans (.raise _ _)).trans (.of_settled (.settle (.offerBoth _ _)))

theorem steady_expireStreamTimer (st : StreamId) (s : State) : Steady s (expireStreamTimer st s) := by
  unfold expireStreamTimer
  split
  · exact .refl s
  · exact .of_settled (.settle ((OnlyStreams.setStream st _ s).trans (.triggerStream st _)))

theorem steady_completeEmission (st : StreamId) (s : State) : Steady s (completeEmission st s) := by
  unfold completeEmission
  dsimp only
  split
  · exact .refl s
  · split
    · exact .of_settled (.settle (((OnlyStreams.setStream st _ s).trans (.offerTrigger .chain _ _)).trans
        (.afterCompletion st _)))
    · exact .refl s

/-- A deadline that has expired was running. -/
theorem ne_none_of_expired {now : Time} {d : Option Time} {x : Time} (h : expired now d = some x) : d ≠ none := fun e => by
  rw [e] at h
  cases h

/-- The expiries of a source's deadlines, each in a state of its rules. -/
theorem governs_expireWarm (hc : Controlled s) : Governs s (expireWarm i s) := by
  unfold expireWarm
  split
  · exact (Steady.refl s).governs
  · next h =>
    refine governs_enterFaulted _ fun ha => ?_
    have := (hc.2 i).1 (ne_none_of_expired h)
    simp [ha] at this

theorem governs_expireLinger (hc : Controlled s) : Governs s (expireLinger i s) := by
  unfold expireLinger
  split
  · exact (Steady.refl s).governs
  · next h =>
    refine governs_enterStopping fun ha => ?_
    have := (hc.2 i).2.1 (ne_none_of_expired h)
    simp [ha] at this

theorem governs_expireStop (hc : Controlled s) : Governs s (expireStop i s) := by
  unfold expireStop
  split
  · exact (Steady.refl s).governs
  · next h => exact (steady_stopEnds ((hc.2 i).2.2.1 (ne_none_of_expired h)) true _).governs

theorem governs_expireStall (hc : Controlled s) : Governs s (expireStall i s) := by
  unfold expireStall
  split
  · exact (Steady.refl s).governs
  · next h => exact governs_enterFaulted _ (streaming_ne_absent ((hc.2 i).2.2.2 (ne_none_of_expired h)))

theorem governs_expireViewTimer (s : State) : Governs s (expireViewTimer s) := by
  unfold expireViewTimer
  split
  · exact (Steady.refl s).governs
  · next t _ =>
    have htimer : Steady s (s.setView { s.view with timer := some (timeAfter t s.params.viewTimerPeriod) }) :=
      ⟨rfl, rfl, rfl, id, fun _ => Iff.rfl, fun _ => .refl _⟩
    exact htimer.governs.trans (governs_viewStep _ _ _)

theorem steady_markWithdraw (i : Source) (s : State) : Steady s (markWithdraw i s) :=
  .setSrc Iff.rfl (.of_same rfl rfl rfl rfl rfl rfl)

/-- R7: REQUESTED to WARMING. -/
theorem steady_enterWarming (h : (s.src i).state = .requested) : Steady s (enterWarming i s) := by
  refine .setSrc ⟨nofun, fun e => by simp [h] at e⟩ ⟨fun ⟨_, _, h3, _⟩ => ?_, fun _ => ⟨by simp [h], rfl⟩⟩
  refine ⟨fun _ => by simp, fun _ => by simp, fun hp => ?_, fun _ => rfl⟩
  rw [h] at h3
  cases h3 hp

/-- O8: every move. -/
theorem Move.rolesKept {t : State} (h : Move s t) : RolesKept s t := by
  cases h with
  | same => exact (Steady.refl s).rolesKept
  | reset o => exact rolesKept_reset rfl rfl rfl
  | frameStart i n w h => exact Governs.rolesKept fun _ => governs_intakeFrameStart i n w h s
  | line i n data => exact Governs.rolesKept fun _ => governs_intakeLine i n data s
  | frameEnd i n k => exact Governs.rolesKept fun _ => governs_intakeFrameEnd i n k s
  | warm i => exact Governs.rolesKept governs_expireWarm
  | linger i => exact Governs.rolesKept governs_expireLinger
  | stop i => exact Governs.rolesKept governs_expireStop
  | stall i => exact Governs.rolesKept governs_expireStall
  | dormant k => exact (steady_goDormant k s).rolesKept
  | woken k => exact (steady_completeWake k s).rolesKept
  | view => exact Governs.rolesKept fun _ => governs_expireViewTimer s
  | timer st => exact (steady_expireStreamTimer st s).rolesKept
  | emitted st => exact (steady_completeEmission st s).rolesKept
  | edge line => exact (steady_recordEdge line s).rolesKept
  | clearFault i h =>
    have hset : Steady s (s.setSrc i { s.src i with faultCause := none, refusalCode := none }) :=
      .setSrc Iff.rfl (.of_same rfl rfl rfl rfl rfl rfl)
    rw [clearFault_eq]
    refine (hset.trans (steady_enterOff (.inl ?_))).rolesKept
    rw [State.setSrc_src_self, h]
    simp
  | enroll i e h he hb => exact rolesKept_enroll h he hb
  | withdraw i h => exact (steady_enterAbsent h).rolesKept
  | withdrawStarted i h =>
    refine Governs.rolesKept fun _ => (steady_markWithdraw i s).governs.trans (governs_enterStopping ?_)
    rw [markWithdraw_eq, State.setSrc_src_self]
    intro ha
    have ha : (s.src i).state = .absent := ha
    simp [ha] at h
  | withdrawStopping i h => exact (steady_markWithdraw i s).rolesKept
  | keepWarm m =>
    have hmask : Steady s (s.setPlanner { s.planner with keepWarm := m }) :=
      ⟨rfl, rfl, rfl, id, fun _ => Iff.rfl, fun _ => .refl _⟩
    exact (hmask.trans (steady_writeWants _ _)).rolesKept
  | zoom p h => exact fun hc hb => ⟨hc, hb, fun he => ⟨he, h he⟩, fun _ => id⟩
  | start st h => exact (Steady.of_settled (.of_streams (.setStream st _ s))).rolesKept
  | halt st => exact (Steady.of_settled (.settle (.stopStream st s))).rolesKept
  | trigger st => exact (Steady.of_settled (.settle (.triggerStream st s))).rolesKept
  | confirmStart i h => exact (steady_enterWarming h).rolesKept
  | refuseStart i code h =>
    have hcode : Steady s (s.setSrc i { s.src i with refusalCode := some code }) :=
      .setSrc Iff.rfl (.of_same rfl rfl rfl rfl rfl rfl)
    refine Governs.rolesKept fun _ => hcode.governs.trans (governs_enterFaulted .refused ?_)
    rw [State.setSrc_src_self, h]
    nofun
  | confirmStop i h =>
    rw [confirmStop_eq]
    exact (steady_stopEnds h (s.src i).lastStopUnconfirmed _).rolesKept
  | hold i h => exact Governs.rolesKept fun _ => governs_enterHeld h
  | release i h => exact (steady_enterOff (.inl (by simp [h]))).rolesKept
  | declareFault i h => exact Governs.rolesKept fun _ => governs_enterFaulted _ h

end

/-- What nobody sees changes none of the roles. -/
theorem Quiet.controlled {s t : State} (h : Quiet s t) (hc : Controlled s) : Controlled t := by
  have hsrc (j : Source) : t.src j = s.src j := h.src j
  exact ⟨by simpa only [LiveOk, hsrc, h.handoff] using hc.1, by simpa only [DeadlinesOk, hsrc] using hc.2⟩

theorem Quiet.rolesKept {s t u : State} (h : Quiet t u) (hr : RolesKept s t) : RolesKept s u := by
  have hsrc (j : Source) : u.src j = t.src j := h.src j
  have henr (j : Source) : u.enr j = t.enr j := by rw [State.enr, hsrc]; rfl
  intro hc hb
  obtain ⟨hc', hb', he', hr'⟩ := hr hc hb
  refine ⟨h.controlled hc', ?_, fun he => ⟨?_, fun hz => ?_⟩, fun hp hrec => ?_⟩
  · simpa only [BasesOk, hsrc, henr] using hb'
  · simpa only [EnrolledOk, hsrc] using (he' he).1
  · simpa only [ZoomOk, h.planner] using (he' he).2 hz
  · simpa only [RecordOk, h.handoff] using hr' hp hrec

/-- Settles O8: each step is a move and changes that nobody sees, or RESET_N going low. -/
theorem liveSourcesFollowTheController : Obligations.LiveSourcesFollowTheController := by
  unfold Obligations.LiveSourcesFollowTheController
  intro s t ⟨hl, hd, hb⟩ e
  obtain ⟨q, hact | ⟨o, -, rfl⟩⟩ := step_acts e
  · obtain ⟨u, hmove, hquiet⟩ := hact
    obtain ⟨⟨hl', hd'⟩, hb', he', hr'⟩ := hquiet.rolesKept hmove.rolesKept ⟨hl, hd⟩ hb
    exact ⟨hl', hd', hb', he', fun hp => hr' hp.1⟩
  · obtain ⟨⟨hl', hd'⟩, hb', he', hr'⟩ :=
      rolesKept_reset (s := s) (t := resetLow o { s with pending := q }) rfl rfl rfl ⟨hl, hd⟩ hb
    exact ⟨hl', hd', hb', he', fun hp => hr' hp.1⟩

end Sys2Proof.Machine
end

section
/-! What the pool keeps, and the frames in it: the relations that every event's part is measured by (O7, O9). -/

namespace Sys2Proof.Machine

open Sys2Proof

/-! ## The pool as a whole -/

/-- The states whose sources have a chain or an outstanding claim (R121). -/
def SourceState.pooled (x : SourceState) : Bool := decide (x = .requested) || x.streaming

theorem SourceState.pooled_iff {x : SourceState} : x.pooled = true ↔ x = .requested ∨ x.streaming = true := by
  simp [SourceState.pooled]

/-- R104, R121: what ChainsOk says of one source's chain, claim and port. -/
structure SharesAt (s : State) (i : Source) : Prop where
  share : (s.src i).chain.length + (s.src i).claim = if (s.src i).state.pooled then 3 else 0
  shown : (s.src i).state ∈ [.standby, .live] → (s.src i).claim = 0
  port : ∀ b f t k c, s.port i = .filling b f t k c →
    (s.src i).state.streaming = true ∧ b ∈ (s.src i).chain ∧ (s.buffer b).state = .filling

/-- R76, R104, R114: what FramesOk says of one source's chain. -/
structure FramesAt (s : State) (i : Source) : Prop where
  ready : (s.src i).state ∈ [.standby, .live] → ∃ b ∈ (s.src i).chain, (s.buffer b).state = .ready
  source : ∀ b ∈ (s.src i).chain, (s.buffer b).state = .ready → ∀ m, (s.buffer b).info = some m → m.source = i
  filling : ∀ b ∈ (s.src i).chain, (s.buffer b).state = .filling → ∃ f t k c, s.port i = .filling b f t k c

/-- R113, R115, R117, R121: what PoolStaysWhole says, with the pins as what the streams hold. -/
structure Whole (s : State) : Prop where
  owed : PinsOwed [] s
  shares : ∀ i, SharesAt s i

theorem PinsOwed.of_pins {s : State} (h : PoolSound s ∧ PinsOk s) : PinsOwed [] s := by
  obtain ⟨hsound, hcount, -, -, hrest⟩ := h
  exact ⟨hsound, fun b => by rw [hcount, List.count_append]; rfl, hrest⟩

theorem whole_iff {s : State} : Whole s ↔ ChainsOk s ∧ BanksOk s ∧ PinsOk s := by
  constructor
  · intro h
    have hsound := h.owed.sound
    refine ⟨⟨hsound.nodup, hsound.disjoint, hsound.placed, fun i => ?_, fun i => (h.shares i).shown, hsound.queueNodup,
      hsound.queue, fun i => (h.shares i).port⟩, hsound.banks, fun b => ?_, hsound.noPins, hsound.pinned, h.owed.rest⟩
    · rw [(h.shares i).share]
      simp only [SourceState.pooled_iff]
    · rw [h.owed.count, List.count_append]
      rfl
  · rintro ⟨hc, hb, hp⟩
    have howed := PinsOwed.of_ok hc hb hp
    obtain ⟨-, -, -, hshare, hshown, -, -, hports⟩ := hc
    refine ⟨howed, fun i => ⟨?_, hshown i, hports i⟩⟩
    rw [hshare i]
    simp only [SourceState.pooled_iff]

theorem framesOk_iff {s : State} : FramesOk s ↔
    (∀ b, (s.buffer b).state ∈ [.ready, .retiring] → (s.buffer b).info ≠ none) ∧ ∀ i, FramesAt s i :=
  ⟨fun ⟨hready, hinfo, hsource, hfilling⟩ => ⟨hinfo, fun i => ⟨hready i, hsource i, hfilling i⟩⟩,
    fun ⟨hinfo, h⟩ => ⟨fun i => (h i).ready, hinfo, fun i => (h i).source, fun i => (h i).filling⟩⟩

theorem Whole.chain_state {s : State} (h : Whole s) {i : Source} {b : BufferId} (hb : b ∈ (s.src i).chain) :
    (s.buffer b).state ∈ [.empty, .filling, .ready] := (h.owed.sound.placed b).mp ⟨i, hb⟩

/-- What an event's part keeps of the pool and of the frames in it. -/
def Holds (s t : State) : Prop := Whole s → Whole t ∧ (FramesOk s → FramesOk t)

theorem Holds.refl (s : State) : Holds s s := fun h => ⟨h, id⟩

theorem Holds.trans {s t u : State} (h : Holds s t) (h' : Holds t u) : Holds s u := fun hs =>
  ⟨(h' (h hs).1).1, fun hf => (h' (h hs).1).2 ((h hs).2 hf)⟩

/-! ## Buffers -/

/-- A buffer as an event leaves it that fills no buffer and completes none: it may be freed, or join a chain as EMPTY. -/
def SameStock (x y : Buffer) : Prop :=
  (y.state = x.state ∧ y.info = x.info) ∨ (x.state = .free ∧ y.state = .empty) ∨
    (x.state = .retiring ∧ y.state ∈ [.free, .empty])

theorem SameStock.refl (x : Buffer) : SameStock x x := .inl ⟨rfl, rfl⟩

theorem SameStock.trans {x y z : Buffer} (h : SameStock x y) (h' : SameStock y z) : SameStock x z := by
  rcases h with ⟨h1, h2⟩ | ⟨h1, h2⟩ | ⟨h1, h2⟩
  · rw [SameStock, h1, h2] at h'
    exact h'
  · rcases h' with ⟨h3, -⟩ | ⟨h3, -⟩ | ⟨h3, -⟩
    · exact .inr (.inl ⟨h1, h3.trans h2⟩)
    · simp [h2] at h3
    · simp [h2] at h3
  · simp only [List.mem_cons, List.not_mem_nil, or_false] at h2
    rcases h' with ⟨h3, -⟩ | ⟨-, h3⟩ | ⟨h3, -⟩
    · exact .inr (.inr ⟨h1, by rw [h3]; simpa using h2⟩)
    · exact .inr (.inr ⟨h1, by simp [h3]⟩)
    · rcases h2 with h2 | h2 <;> simp [h2] at h3

/-- A buffer of a chain stays as it is. -/
theorem SameStock.kept {x y : Buffer} (h : SameStock x y) (hx : x.state ∈ [.empty, .filling, .ready]) :
    y.state = x.state ∧ y.info = x.info := by
  refine h.resolve_right fun h => ?_
  rcases h with ⟨h, -⟩ | ⟨h, -⟩ <;> simp [h] at hx

/-- A buffer with content was so before. -/
theorem SameStock.known {x y : Buffer} (h : SameStock x y) (hy : y.state ∈ [.filling, .ready, .retiring]) :
    y.state = x.state ∧ y.info = x.info := by
  refine h.resolve_right fun h => ?_
  rcases h with ⟨-, h⟩ | ⟨-, h⟩
  · simp [h] at hy
  · simp only [List.mem_cons, List.not_mem_nil, or_false] at h
    rcases h with h | h <;> simp [h] at hy

theorem SameStock.of_pins {x y : Buffer} (h : y = { x with pins := y.pins }) : SameStock x y := by
  rw [h]
  exact .refl _

/-- Freed buffers stay as they are or join a chain. -/
theorem deliver_stock (s : State) (b c : BufferId) : SameStock (s.buffer c) ((deliver s b).buffer c) := by
  by_cases hc : c = b
  · subst hc
    by_cases hd : s.pool.claimQueue = [] ∨ (s.bank (bankOf c)).state ≠ .awake ∨ (s.buffer c).state ≠ .free
    · rw [deliver_none hd]
      exact .refl _
    · simp only [not_or, not_not] at hd
      obtain ⟨hq, hk, hb⟩ := hd
      obtain ⟨head, rest, hq⟩ := List.exists_cons_of_ne_nil hq
      rw [(GivenTo.one hq hk hb).buffer, if_pos (List.mem_singleton_self c)]
      exact .inr (.inl ⟨hb, rfl⟩)
  · rw [deliver_buffer_ne s hc]
    exact .refl _

theorem settleFreed_stock (freed : List BufferId) (s : State) (c : BufferId) :
    SameStock (s.buffer c) ((settleFreed freed s).buffer c) := by
  obtain ⟨-, hb, -⟩ := settleFreed_considered freed s
  rw [hb]
  generalize freedOrder freed = l
  clear hb
  induction l generalizing s with
  | nil => exact .refl _
  | cons b l ih => exact (deliver_stock s b c).trans (ih _)

/-! ## Events that leave a source in its place -/

/-- The chain grows from the claim, and the source neither enters nor leaves the pool or the view. -/
structure StockedAt (i : Source) (s t : State) : Prop where
  chain : (s.src i).chain <+: (t.src i).chain
  share : (t.src i).chain.length + (t.src i).claim = (s.src i).chain.length + (s.src i).claim
  place : (t.src i).state = (s.src i).state ∨ (s.src i).state ∈ [.standby, .live] ∧ (t.src i).state ∈ [.standby, .live]
  port : t.port i = s.port i

namespace StockedAt

variable {s t u : State} {i : Source}

theorem refl (i : Source) (s : State) : StockedAt i s s := ⟨List.prefix_refl _, rfl, .inl rfl, rfl⟩

theorem trans (h : StockedAt i s t) (h' : StockedAt i t u) : StockedAt i s u where
  chain := h.chain.trans h'.chain
  share := h'.share.trans h.share
  place := by
    rcases h.place with e | ⟨e1, e2⟩
    · rw [← e]
      exact h'.place
    · rcases h'.place with e | ⟨-, e3⟩
      · rw [e]
        exact .inr ⟨e1, e2⟩
      · exact .inr ⟨e1, e3⟩
  port := h'.port.trans h.port

theorem of_roled (hs : Roled (s.src i) (t.src i)) (hp : t.port i = s.port i) : StockedAt i s t :=
  ⟨by rw [hs.chain], by rw [hs.chain, hs.claim], hs.place, hp⟩

theorem of_src (hs : t.src i = s.src i) (hp : t.port i = s.port i) : StockedAt i s t := of_roled (hs ▸ .refl _) hp

theorem pooled (h : StockedAt i s t) : (t.src i).state.pooled = (s.src i).state.pooled := by
  rcases h.place with e | ⟨e1, e2⟩
  · rw [e]
  · simp only [List.mem_cons, List.not_mem_nil, or_false] at e1 e2
    rcases e1 with e1 | e1 <;> rcases e2 with e2 | e2 <;> rw [e1, e2] <;> rfl

theorem streaming (h : StockedAt i s t) : (t.src i).state.streaming = (s.src i).state.streaming := by
  rcases h.place with e | ⟨e1, e2⟩
  · rw [e]
  · simp only [List.mem_cons, List.not_mem_nil, or_false] at e1 e2
    rcases e1 with e1 | e1 <;> rcases e2 with e2 | e2 <;> rw [e1, e2] <;> rfl

theorem shown (h : StockedAt i s t) (hi : (t.src i).state ∈ [.standby, .live]) : (s.src i).state ∈ [.standby, .live] := by
  rcases h.place with e | ⟨e1, -⟩
  · exact e ▸ hi
  · exact e1

/-- What the chain's buffers keep is enough for the chain, the claim and the port. -/
theorem shares (h : StockedAt i s t) (hb : ∀ b ∈ (s.src i).chain, (t.buffer b).state = (s.buffer b).state)
    (hs : SharesAt s i) : SharesAt t i := by
  refine ⟨by rw [h.share, hs.share, h.pooled], fun hi => ?_, fun b f st k c hp => ?_⟩
  · have hclaim := hs.shown (h.shown hi)
    have hshare := h.share
    have hlen := h.chain.length_le
    omega
  · rw [h.port] at hp
    obtain ⟨h1, h2, h3⟩ := hs.port b f st k c hp
    exact ⟨by rw [h.streaming, h1], h.chain.subset h2, (hb b h2).trans h3⟩

/-- What the chain's buffers keep is enough for its frames, when what joins the chain has no frame. -/
theorem frames (h : StockedAt i s t)
    (hb : ∀ b ∈ (s.src i).chain, (t.buffer b).state = (s.buffer b).state ∧ (t.buffer b).info = (s.buffer b).info)
    (hn : ∀ b ∈ (t.src i).chain, (t.buffer b).state ∈ [.filling, .ready] → b ∈ (s.src i).chain)
    (hs : FramesAt s i) : FramesAt t i := by
  refine ⟨fun hi => ?_, fun b hbc hst m hm => ?_, fun b hbc hst => ?_⟩
  · obtain ⟨b, hbc, hst⟩ := hs.ready (h.shown hi)
    exact ⟨b, h.chain.subset hbc, (hb b hbc).1.trans hst⟩
  · have hold := hn b hbc (by simp [hst])
    exact hs.source b hold ((hb b hold).1.symm.trans hst) m ((hb b hold).2 ▸ hm)
  · have hold := hn b hbc (by simp [hst])
    rw [h.port]
    exact hs.filling b hold ((hb b hold).1.symm.trans hst)

end StockedAt

/-! ## Events at one source -/

/-- An event at one source: the others stay in their places, no other buffer is filled or completed, and a buffer that leaves
the source's chain has no frame in another. -/
structure Touched (i : Source) (s t : State) : Prop where
  others : ∀ j, j ≠ i → StockedAt j s t
  stock : ∀ b, b ∉ (s.src i).chain → SameStock (s.buffer b) (t.buffer b)
  own : ∀ b ∈ (s.src i).chain, b ∈ (t.src i).chain ∨ (t.buffer b).state ∈ [.free, .retiring, .empty]

/-- A frame in another chain was in that chain before. -/
theorem Touched.owner {i j : Source} {s t : State} (h : Touched i s t) (hs : PoolSound s) (ht : PoolSound t) (hj : j ≠ i)
    {b : BufferId} (hb : b ∈ (t.src j).chain) (hst : (t.buffer b).state ∈ [.filling, .ready]) : b ∈ (s.src j).chain := by
  have hni : b ∉ (s.src i).chain := fun hm => by
    rcases h.own b hm with hm | hm
    · exact hj (ht.disjoint j i b hb hm)
    · simp only [List.mem_cons, List.not_mem_nil, or_false] at hst hm
      rcases hst with e | e <;> simp [e] at hm
  have hcontent : (t.buffer b).state ∈ [.filling, .ready, .retiring] := by
    simp only [List.mem_cons, List.not_mem_nil, or_false] at hst ⊢
    tauto
  have hknown : (s.buffer b).state ∈ [.empty, .filling, .ready] := by
    rw [← ((h.stock b hni).known hcontent).1]
    exact List.mem_cons_of_mem _ hst
  obtain ⟨k, hk⟩ := (hs.placed b).mpr hknown
  have hki : k ≠ i := fun e => hni (e ▸ hk)
  exact ht.disjoint k j b ((h.others k hki).chain.subset hk) hb ▸ hk

/-- An event at one source keeps the pool and the frames when it does so at that source. -/
theorem Holds.of_touched {i : Source} {s t : State} (h : Touched i s t) (ho : Whole s → PinsOwed [] t)
    (hw : Whole s → SharesAt t i)
    (hf : Whole s → FramesOk s →
      FramesAt t i ∧ ∀ b ∈ (s.src i).chain, (t.buffer b).state ∈ [.ready, .retiring] → (t.buffer b).info ≠ none) :
    Holds s t := by
  intro hs
  have howed := ho hs
  have hkept (j : Source) (hj : j ≠ i) (b : BufferId) (hb : b ∈ (s.src j).chain) :
      (t.buffer b).state = (s.buffer b).state ∧ (t.buffer b).info = (s.buffer b).info :=
    (h.stock b fun hi => hj (hs.owed.sound.disjoint j i b hb hi)).kept (hs.chain_state hb)
  refine ⟨⟨howed, fun j => ?_⟩, fun hframes => framesOk_iff.mpr ⟨fun b hb => ?_, fun j => ?_⟩⟩
  · by_cases hj : j = i
    · exact hj ▸ hw hs
    · exact (h.others j hj).shares (fun b hb => (hkept j hj b hb).1) (hs.shares j)
  · obtain ⟨hinfo, -⟩ := framesOk_iff.mp hframes
    by_cases hbi : b ∈ (s.src i).chain
    · exact (hf hs hframes).2 b hbi hb
    · obtain ⟨hst, hi⟩ := (h.stock b hbi).known (List.mem_cons_of_mem _ hb)
      rw [hi]
      exact hinfo b (hst ▸ hb)
  · by_cases hj : j = i
    · exact hj ▸ (hf hs hframes).1
    · exact (h.others j hj).frames (hkept j hj) (fun b hb => h.owner hs.owed.sound howed.sound hj hb)
        ((framesOk_iff.mp hframes).2 j)

/-! ## Events that leave every source in its place -/

/-- Every source keeps its place, and no buffer is filled or completed. -/
structure Stocked (s t : State) : Prop where
  source : ∀ i, StockedAt i s t
  buffer : ∀ b, SameStock (s.buffer b) (t.buffer b)

namespace Stocked

variable {s t u : State}

theorem refl (s : State) : Stocked s s := ⟨fun i => .refl i s, fun _ => .refl _⟩

theorem trans (h : Stocked s t) (h' : Stocked t u) : Stocked s u :=
  ⟨fun i => (h.source i).trans (h'.source i), fun b => (h.buffer b).trans (h'.buffer b)⟩

/-- Nothing of the pool changes. -/
theorem of_roled (hs : ∀ i, Roled (s.src i) (t.src i)) (hp : t.ports = s.ports) (hb : t.pool.buffers = s.pool.buffers) :
    Stocked s t :=
  ⟨fun i => .of_roled (hs i) (congrArg (PerSource.get · i) hp), fun b => by
    have h : t.buffer b = s.buffer b := congrArg (fun v => v.get b) hb
    exact h ▸ .refl _⟩

/-- Such an event is one at any source. -/
theorem touched (h : Stocked s t) (i : Source) : Touched i s t :=
  ⟨fun j _ => h.source j, fun b _ => h.buffer b, fun _ hb => .inl ((h.source i).chain.subset hb)⟩

/-- In a chain an event finds the frames that were there. -/
theorem owner (h : Stocked s t) (hs : PoolSound s) (ht : PoolSound t) (i : Source) {b : BufferId} (hb : b ∈ (t.src i).chain)
    (hst : (t.buffer b).state ∈ [.filling, .ready]) : b ∈ (s.src i).chain := by
  obtain ⟨k, hk⟩ : ∃ k, k ≠ i := ⟨if i = .s0 then .s1 else .s0, by cases i <;> decide⟩
  exact (h.touched k).owner hs ht hk.symm hb hst

end Stocked

theorem Holds.of_stocked {s t : State} (h : Stocked s t) (ho : Whole s → PinsOwed [] t) : Holds s t := by
  have hkept (hw : Whole s) (b : BufferId) (hb : b ∈ (s.src .s0).chain) := (h.buffer b).kept (hw.chain_state hb)
  refine .of_touched (h.touched .s0) ho (fun hw => ?_) fun hw hf => ⟨?_, fun b hb hst => ?_⟩
  · exact (h.source .s0).shares (fun b hb => (hkept hw b hb).1) (hw.shares .s0)
  · exact (h.source .s0).frames (hkept hw) (fun b => h.owner hw.owed.sound (ho hw).sound .s0) ((framesOk_iff.mp hf).2 .s0)
  · obtain ⟨e, hi⟩ := hkept hw b hb
    rw [hi]
    exact (framesOk_iff.mp hf).1 b (e ▸ hst)

/-- The controller's acts. -/
theorem Holds.of_roled {s t : State} (hs : ∀ i, Roled (s.src i) (t.src i)) (hp : t.ports = s.ports) (hq : t.pool = s.pool)
    (hx : t.streams = s.streams) : Holds s t :=
  .of_stocked (.of_roled hs hp (by rw [hq])) fun h =>
    h.owed.congr (fun i => (hs i).chain) (fun i => (hs i).claim) hq fun st => congrArg (PerStream.get · st) hx

end Sys2Proof.Machine
end

section
/-! What the streams' part of an event keeps of the pool (O7, O9). -/

namespace Sys2Proof.Machine

open Sys2Proof

variable {s t : State}

/-! ## Holds removed (R116) -/

theorem Stocked.of_streams (h : OnlyStreams s t) : Stocked s t where
  source i := .of_src (h.src i) (by rw [h.only]; rfl)
  buffer b := .of_pins (h.buffer b)

theorem unpinned_sound {s : State} (h : PoolSound s) (names : List BufferId) : PoolSound (unpinned names s) := by
  have hsrc := unpinned_src names s
  have hpins (b : BufferId) : ((unpinned names s).buffer b).pins = (s.buffer b).pins - names.count b := by
    by_cases hb : b ∈ lastPinned names s
    · rw [unpinned_freed hb, Nat.sub_eq_zero_of_le (mem_lastPinned.mp hb).2.2]
    · rw [unpinned_kept hb]
  have hstate (b : BufferId) : ((unpinned names s).buffer b).state = (s.buffer b).state ∨
      b ∈ lastPinned names s ∧ ((unpinned names s).buffer b).state = .free := by
    by_cases hb : b ∈ lastPinned names s
    · exact .inr ⟨hb, by rw [unpinned_freed hb]⟩
    · exact .inl (by rw [unpinned_kept hb])
  refine ⟨fun i => hsrc i ▸ h.nodup i, fun i j b => ?_, fun b => ?_, ?_, fun i => ?_, fun k hk b hb => ?_, fun b hb => ?_,
    fun b hb => ?_⟩
  · rw [hsrc, hsrc]
    exact h.disjoint i j b
  · simp only [hsrc]
    rw [h.placed]
    rcases hstate b with e | ⟨hf, e⟩
    · rw [e]
    · simp [e, (mem_lastPinned.mp hf).2.1]
  · rw [unpinned_claimQueue]
    exact h.queueNodup
  · rw [unpinned_claimQueue, hsrc]
    exact h.queue i
  · rw [unpinned_bank] at hk
    exact (hstate b).elim (fun e => e.trans (h.banks k hk b hb)) fun e => e.2
  · rw [hpins]
    rcases hstate b with e | ⟨hf, -⟩
    · rw [h.noPins b (e ▸ hb), Nat.zero_sub]
    · exact Nat.sub_eq_zero_of_le (mem_lastPinned.mp hf).2.2
  · rcases hstate b with e | ⟨-, e⟩
    · have hr : (s.buffer b).state = .retiring := e ▸ hb
      rw [hpins]
      intro hz
      have hle : (s.buffer b).pins ≤ names.count b := Nat.le_of_sub_eq_zero hz
      by_cases hn : b ∈ names
      · rw [unpinned_freed (mem_lastPinned.mpr ⟨hn, hr, hle⟩)] at hb
        cases hb
      · rw [List.count_eq_zero_of_not_mem hn] at hle
        exact h.pinned b hr (Nat.le_zero.mp hle)
    · simp [e] at hb

/-- Buffers given to those who claim. -/
theorem Stocked.settleFreed (freed : List BufferId) {s : State} (h : PoolSound s) : Stocked s (settleFreed freed s) := by
  have hserved := (settleFreed_sound freed h).2
  have honly := settleFreed_only freed s
  refine ⟨fun i => ⟨hserved.chain i, hserved.share i, .inl ?_, ?_⟩, settleFreed_stock freed s⟩
  · rw [(settleFreed_delivered freed s).only i]
  · rw [honly]
    rfl

theorem Stocked.unpinned (names : List BufferId) (s : State) : Stocked s (unpinned names s) where
  source i := by
    have h := congrArg State.ports (unpinned_rest names s)
    exact .of_src (unpinned_src names s i) (congrArg (PerSource.get · i) h)
  buffer b := by
    by_cases hb : b ∈ lastPinned names s
    · rw [unpinned_freed hb]
      exact .inr (.inr ⟨(mem_lastPinned.mp hb).2.1, by simp⟩)
    · rw [unpinned_kept hb]
      exact .inl ⟨rfl, rfl⟩

theorem Stocked.removePins (names : List BufferId) {s : State} (h : PoolSound s) : Stocked s (removePins names s) := by
  rw [removePins_eq]
  exact (Stocked.unpinned names s).trans (.settleFreed _ (unpinned_sound h names))

/-- The end of an event whose holds to remove are those that are owed. -/
theorem Holds.settle {x : Releasing} (hs : PoolSound x.state → Stocked s x.state) (ho : Whole s → PinsOwed x.names x.state) :
    Holds s x.settle := by
  intro hw
  have howed := ho hw
  refine Holds.of_stocked ((hs howed.sound).trans ?_) (fun _ => .of_pins howed.settle) hw
  rw [Releasing.settle_eq]
  exact .removePins x.names howed.sound

/-- An event of the streams. -/
theorem Holds.of_streams {x : Releasing} (h : OnlyStreams s x.state) (ho : Whole s → PinsOwed x.names x.state) :
    Holds s x.settle := .settle (fun _ => .of_streams h) ho

/-! ## Starts, stops, triggers and completions (R148 to R159) -/

theorem holds_startStream {st : StreamId} (h : (s.stream st).state.busy = false) : Holds s (startStream st s) := by
  refine .of_stocked (.of_streams (.setStream st _ s)) fun hw => startStream_owed hw.owed st ?_
  cases hst : (s.stream st).state <;> simp_all [StreamState.busy]

theorem holds_stopStream (st : StreamId) (s : State) : Holds s (stopStream st s).settle :=
  .of_streams (.stopStream st s) fun hw => stopStream_owed hw.owed st

theorem holds_triggerStream (st : StreamId) (s : State) : Holds s (triggerStream st s).settle :=
  .of_streams (.triggerStream st s) fun hw => triggerStream_owed hw.owed st

/-- A stream's record that keeps what it holds. -/
theorem Holds.setStream {st : StreamId} {x : Stream} (hst : x.state = (s.stream st).state)
    (hp : x.pendingSet = (s.stream st).pendingSet) (hc : x.current = (s.stream st).current)
    (hh : x.holdRecord = (s.stream st).holdRecord) : Holds s (s.setStream st x) := by
  refine .of_stocked (.of_streams (.setStream st x s)) fun hw => hw.owed.setStream st x (fun b => ?_) fun hx => ?_
  · simp only [Stream.allNames, Stream.pendingNames, Stream.currentNames, Stream.ownHoldNames, hp, hc, hh]
  · rw [hp, hc, hh]
    exact hw.owed.rest st (hst ▸ hx)

theorem holds_expireStreamTimer (st : StreamId) (s : State) : Holds s (expireStreamTimer st s) := by
  unfold expireStreamTimer
  split
  · exact .refl s
  · next d _ =>
    have hset : Holds s (s.modStream st fun x => { x with timer := some (timeAfter d x.config.period) }) :=
      .setStream rfl rfl rfl rfl
    exact hset.trans (holds_triggerStream st _)

theorem holds_completeEmission (st : StreamId) (s : State) : Holds s (completeEmission st s) := by
  unfold completeEmission
  dsimp only
  split
  · exact .refl s
  · next e _ =>
    split
    · have hset : Holds s (s.setStream st
          { s.stream st with inFlight := none, sent := some (outputFrame s (s.stream st) e) }) := .setStream rfl rfl rfl rfl
      refine hset.trans ?_
      generalize s.setStream st _ = u
      exact .of_streams ((OnlyStreams.offerTrigger .chain st.partner u).trans (.afterCompletion st _)) fun hw =>
        andThen_owed (l := []) (fun _ _ h => afterCompletion_owed h st) (offerTrigger_owed hw.owed .chain st.partner)
    · exact .refl s

/-- What the pool and the frames do not read may change. -/
theorem Holds.of_same (hs : t.sources = s.sources) (hp : t.ports = s.ports) (hq : t.pool = s.pool) (hx : t.streams = s.streams) :
    Holds s t :=
  .of_roled (fun i => by rw [show t.src i = s.src i from congrArg (PerSource.get · i) hs]; exact .refl _) hp hq hx

theorem Holds.raise (k : Notice) (s : State) : Holds s (raise k s) := .of_same rfl rfl rfl rfl

theorem holds_offerBoth (cause : Cause) (s : State) : Holds s (offerBoth cause s).settle :=
  .of_streams (.offerBoth cause s) fun hw => offerBoth_owed hw.owed cause

theorem holds_recordEdge (line : TriggerLine) (s : State) : Holds s (recordEdge line s) := by
  have hset : Holds s (s.setTrigger line { s.trigger line with lastEdge := some s.timebase }) := .of_same rfl rfl rfl rfl
  exact (hset.trans (.raise _ _)).trans (holds_offerBoth _ _)

/-! ## The append (R82 to R84) -/

theorem Stocked.overwriteOldest (s : State) : Stocked s (overwriteOldest s).state := by
  cases hr : s.view.ring with
  | nil =>
    simp only [Machine.overwriteOldest, hr]
    exact .refl s
  | cons o rest =>
    simp only [Machine.overwriteOldest, hr]
    have hl := (overrunLinks o.seq ((s.modStream .p fun x => x.lose o.seq).modStream .r fun x => x.lose o.seq)).2
    generalize [Link.al, Link.ml].foldl (overrunLink o.seq) _ = v at hl ⊢
    have hv : v = { (s.modStream .p fun x => x.lose o.seq).modStream .r (fun x => x.lose o.seq) with
        notices := v.notices } := by rw [← hl]
    rw [hv]
    exact .of_roled (fun i => .refl _) rfl rfl

theorem Stocked.appended (r : ViewRecord) (s : State) :
    Stocked s ((roomInRing s).andThen fun s => offerBoth .view (placeRecord r s)).state := by
  have hroom : Stocked s (roomInRing s).state := by
    unfold roomInRing
    split
    · exact .overwriteOldest s
    · exact .refl s
  have hpush : Stocked (roomInRing s).state (pushRecord r (roomInRing s).state) := .of_roled (fun _ => .refl _) rfl rfl
  have hplace : OnlyStreams (pushRecord r (roomInRing s).state) (placeRecord r (roomInRing s).state) :=
    (placePending_only r _ .p).trans (placePending_only r _ .r)
  have hoffer := hplace.trans (.offerBoth .view (placeRecord r (roomInRing s).state))
  rw [Releasing.andThen_state]
  exact (hroom.trans hpush).trans (.of_streams hoffer)

theorem holds_appendRecord (r : ViewRecord) (s : State) : Holds s (appendRecord r s) := by
  unfold appendRecord
  exact .settle (fun _ => .appended r s) fun hw =>
    andThen_owed (l := []) (f := fun s => offerBoth .view (placeRecord r s))
      (fun _ _ h => offerBoth_owed (placeRecord_owed h r) .view) (roomInRing_owed hw.owed)

/-! ## Banks (R119) -/

/-- What a bank's state does to the pins. -/
theorem PinsOwed.of_sound {l : List BufferId} (h : PinsOwed l s) (hs : PoolSound t)
    (hb : ∀ b, (t.buffer b).pins = (s.buffer b).pins) (hx : ∀ st, t.stream st = s.stream st) : PinsOwed l t :=
  ⟨hs, fun b => by rw [hb, hx, hx, h.count], fun st => by rw [hx]; exact h.rest st⟩

theorem goDormant_only (k : Bank) (s : State) :
    goDormant k s = { s with pool := { s.pool with banks := (goDormant k s).pool.banks } } := by
  unfold goDormant
  split <;> rfl

theorem holds_goDormant (k : Bank) (s : State) : Holds s (goDormant k s) := by
  have honly := goDormant_only k s
  have hsound (hw : Whole s) := goDormant_sound hw.owed.sound k
  generalize goDormant k s = t at honly hsound
  refine .of_stocked ?_ fun hw => hw.owed.of_sound (hsound hw) (fun b => ?_) fun st => ?_
  · rw [honly]
    exact .of_roled (fun _ => .refl _) rfl rfl
  · rw [honly]
    rfl
  · rw [honly]
    rfl

theorem holds_settleFreed (freed : List BufferId) (s : State) : Holds s (settleFreed freed s) := fun hw =>
  Holds.of_stocked (.settleFreed freed hw.owed.sound)
    (fun _ => hw.owed.of_sound (settleFreed_sound freed hw.owed.sound).1 (settleFreed_sound freed hw.owed.sound).2.pins
      (settleFreed_only freed s).stream) hw

theorem holds_awoken (k : Bank) (s : State) : Holds s (awoken k s) :=
  .of_stocked (.of_roled (fun _ => .refl _) rfl rfl) fun hw =>
    hw.owed.of_sound (hw.owed.sound.setBank k _ fun hx => by simp at hx) (fun _ => rfl) fun _ => rfl

theorem holds_completeWake (k : Bank) (s : State) : Holds s (completeWake k s) := by
  unfold completeWake
  split
  · exact .refl s
  · exact (holds_awoken k s).trans (holds_settleFreed k.buffers _)

end Sys2Proof.Machine
end

section
/-! The pool and the frames when a source starts, stops or leaves the streaming states (O7, O9). -/

namespace Sys2Proof.Machine

open Sys2Proof

variable {s t u : State} {i : Source}

/-! ## A source's record rewritten -/

theorem setSrc_field {α : Type} (f : SourceRecord → α) {x : SourceRecord} (h : f x = f (s.src i)) (j : Source) :
    f ((s.setSrc i x).src j) = f (s.src j) := by
  rw [State.setSrc_src]
  split
  · next e => rw [h, e]
  · rfl

theorem PoolSound.setSrc {x : SourceRecord} (h : PoolSound s) (hc : x.chain = (s.src i).chain)
    (hk : x.claim = (s.src i).claim) : PoolSound (s.setSrc i x) :=
  h.congr (setSrc_field SourceRecord.chain hc) (setSrc_field SourceRecord.claim hk) rfl

/-- What a record in a new state has to have with the same chain. -/
theorem Holds.setSrc {x : SourceRecord} (hc : x.chain = (s.src i).chain) (hk : x.claim = (s.src i).claim)
    (hp : x.state.pooled = (s.src i).state.pooled)
    (hst : (s.src i).state.streaming = true → x.state.streaming = true)
    (hsh : x.state ∈ [.standby, .live] → Whole s → (s.src i).claim = 0 ∧
      (FramesOk s → ∃ b ∈ (s.src i).chain, (s.buffer b).state = .ready)) : Holds s (s.setSrc i x) := by
  have hself : (s.setSrc i x).src i = x := State.setSrc_src_self s i x
  have hother (j : Source) (hj : j ≠ i) : (s.setSrc i x).src j = s.src j := State.setSrc_src_ne s x hj
  have hchain := setSrc_field SourceRecord.chain hc
  have hclaim := setSrc_field SourceRecord.claim hk
  refine .of_touched ⟨fun j hj => .of_src (hother j hj) rfl, fun _ _ => .refl _, fun b hb => .inl (hchain i ▸ hb)⟩
    (fun hw => hw.owed.congr hchain hclaim rfl fun _ => rfl) (fun hw => ⟨?_, fun h => ?_, fun b f st k c hport => ?_⟩)
    fun hw hf => ⟨⟨fun h => ?_, fun b hb => ?_, fun b hb => ?_⟩, fun b _ => (framesOk_iff.mp hf).1 b⟩
  · rw [hself, hc, hk, hp]
    exact (hw.shares i).share
  · rw [hself] at h
    rw [hclaim]
    exact (hsh h hw).1
  · obtain ⟨h1, h2, h3⟩ := (hw.shares i).port b f st k c hport
    rw [hself, hc]
    exact ⟨hst h1, h2, h3⟩
  · rw [hself] at h
    rw [hchain]
    exact (hsh h hw).2 hf
  · rw [hchain] at hb
    exact ((framesOk_iff.mp hf).2 i).source b hb
  · rw [hchain] at hb
    exact ((framesOk_iff.mp hf).2 i).filling b hb

/-- A record of the same state. -/
theorem Holds.setSrc_same {x : SourceRecord} (hc : x.chain = (s.src i).chain) (hk : x.claim = (s.src i).claim)
    (hst : x.state = (s.src i).state) : Holds s (s.setSrc i x) :=
  .setSrc hc hk (by rw [hst]) (hst ▸ id) fun h hw => by
    rw [hst] at h
    exact ⟨(hw.shares i).shown h, fun hf => ((framesOk_iff.mp hf).2 i).ready h⟩

theorem SourceState.streaming_of_shown {x : SourceState} (h : x ∈ [.standby, .live]) : x.streaming = true := by
  revert h
  cases x <;> decide

theorem SourceState.rest_iff {x : SourceState} : x.pooled = false ↔ x ∈ [.absent, .off, .stopping, .held, .faulted] := by
  cases x <;> decide

theorem SourceState.streaming_of_rest {x : SourceState} (h : x.pooled = false) : x.streaming = false := by
  revert h
  cases x <;> decide

/-- A record that goes from one state without chain and claim to another. -/
theorem Holds.setSrc_rest {x : SourceRecord} (hs : (s.src i).state.pooled = false) (hx : x.state.pooled = false)
    (hc : x.chain = (s.src i).chain) (hk : x.claim = (s.src i).claim) : Holds s (s.setSrc i x) := by
  refine .setSrc hc hk (hx.trans hs.symm) (fun h => ?_) fun h => ?_
  · rw [SourceState.streaming_of_rest hs] at h
    cases h
  · have := SourceState.streaming_of_shown h
    rw [SourceState.streaming_of_rest hx] at this
    cases this

/-- A source without chain and claim. -/
theorem Whole.at_rest (h : Whole s) (hs : (s.src i).state.pooled = false) :
    (s.src i).chain = [] ∧ (s.src i).claim = 0 ∧ s.port i = .idle := by
  have hshare := (h.shares i).share
  rw [hs, if_neg (by simp)] at hshare
  have hlen : (s.src i).chain.length = 0 := by omega
  refine ⟨List.length_eq_zero_iff.mp hlen, by omega, ?_⟩
  cases hp : s.port i with
  | idle => rfl
  | filling b f st k c =>
    have := ((h.shares i).port b f st k c hp).1
    rw [SourceState.streaming_of_rest hs] at this
    cases this

/-! ## Entries to REQUESTED, ABSENT and OFF (R6, R15, R23) -/

/-- The pool after an entry to REQUESTED. -/
theorem enterRequested_sound (h : PoolSound s) (hc : (s.src i).claim = 0) : PoolSound (enterRequested i s) := by
  have hrequested : PoolSound (requestedState i s) := h.setSrc rfl rfl
  have hclaim : ((requestedState i s).src i).claim = 0 := by
    rw [requestedState, State.setSrc_src_self]
    exact hc
  rw [enterRequested_eq]
  refine (placeClaim_sound hrequested i hclaim).congr (fun j => ?_) (fun j => ?_) ?_
  · rw [beginPulsing_src, raiseSrc_src]
  · rw [beginPulsing_src, raiseSrc_src]
  · rw [beginPulsing_pool]
    rfl

theorem enterRequested_buffer (i : Source) (s : State) (b : BufferId) :
    (enterRequested i s).buffer b = if b ∈ claimed i (requestedState i s) then (s.buffer b).cleared .empty else s.buffer b := by
  have h := placeClaim_buffer i (requestedState i s) b
  rwa [enterRequested_eq, State.buffer, beginPulsing_pool]

theorem holds_enterRequested (h : (s.src i).state = .off) : Holds s (enterRequested i s) := by
  have hrest : (s.src i).state.pooled = false := by rw [h]; rfl
  have honly := (Wanting.enterRequested h).only
  have hbuffer := enterRequested_buffer i s
  have hsrc (j : Source) := enterRequested_src i j s
  have hstock (b : BufferId) : SameStock (s.buffer b) ((enterRequested i s).buffer b) := by
    rw [hbuffer]
    split
    · next hb =>
      have hfree : ((requestedState i s).buffer b).state = .free := claimed_free hb
      exact .inr (.inl ⟨hfree, rfl⟩)
    · exact .refl _
  have hsound (hw : Whole s) : PoolSound (enterRequested i s) := enterRequested_sound hw.owed.sound (hw.at_rest hrest).2.1
  have hpins (b : BufferId) : ((enterRequested i s).buffer b).pins = (s.buffer b).pins := by
    rw [hbuffer]
    split <;> rfl
  generalize enterRequested i s = t at *
  have hport (j : Source) : t.port j = s.port j := by rw [honly]; rfl
  have hstream (st : StreamId) : t.stream st = s.stream st := by rw [honly]; rfl
  have hself : t.src i = _ := (hsrc i).trans (if_pos rfl)
  have hempty (hw : Whole s) (b : BufferId) (hb : b ∈ (t.src i).chain) : (t.buffer b).state = .empty := by
    have hfree : (s.buffer b).state ∉ [.empty, .filling, .ready] := fun hm => by
      obtain ⟨j, hj⟩ := (hw.owed.sound.placed b).mpr hm
      by_cases hji : j = i
      · rw [hji, (hw.at_rest hrest).1] at hj
        simp at hj
      · have hjt : b ∈ (t.src j).chain := by rw [hsrc, if_neg hji]; exact hj
        exact hji ((hsound hw).disjoint j i b hjt hb)
    have hst := ((hsound hw).placed b).mp ⟨i, hb⟩
    rcases hstock b with ⟨e, -⟩ | ⟨-, e⟩ | ⟨-, e⟩
    · rw [e] at hst
      exact absurd hst hfree
    · exact e
    · simp only [List.mem_cons, List.not_mem_nil, or_false] at e hst
      rcases e with e | e
      · simp [e] at hst
      · exact e
  refine .of_touched (i := i) ⟨fun j hj => .of_src (by rw [hsrc, if_neg hj]) (hport j), fun b _ => hstock b, fun b hb => ?_⟩
    (fun hw => hw.owed.of_sound (hsound hw) hpins hstream) (fun hw => ⟨?_, fun hsh => ?_, fun b f st k c hp => ?_⟩)
    fun hw hf => ⟨⟨fun hsh => ?_, fun b hb hst => ?_, fun b hb hst => ?_⟩, fun b hb => ?_⟩
  · rw [hself]
    exact .inl (List.mem_append_left _ hb)
  · have hlen : (claimed i s).length ≤ 3 - (s.src i).chain.length := List.length_take_le _ _
    rw [hself]
    simp only [List.length_append, SourceState.pooled, decide_true, Bool.true_or, if_true]
    rw [(hw.at_rest hrest).1] at hlen ⊢
    simp only [List.length_nil] at hlen ⊢
    omega
  · rw [hself] at hsh
    simp at hsh
  · rw [hport, (hw.at_rest hrest).2.2] at hp
    cases hp
  · rw [hself] at hsh
    simp at hsh
  · rw [hempty hw b hb] at hst
    cases hst
  · rw [hempty hw b hb] at hst
    cases hst
  · rw [(hw.at_rest hrest).1] at hb
    simp at hb

theorem holds_enterAbsent (h : (s.src i).state.pooled = false) : Holds s (enterAbsent i s) := by
  rw [enterAbsent_eq]
  exact .setSrc_rest h rfl rfl rfl

theorem holds_enterOff (h : (s.src i).state.pooled = false) : Holds s (enterOff i s) := by
  have off : Holds s (s.setSrc i { s.src i with state := .off }) := .setSrc_rest h rfl rfl rfl
  rw [enterOff_eq]
  split
  · exact .setSrc_rest h rfl rfl rfl
  · split
    · exact off.trans (holds_enterRequested (by rw [State.setSrc_src_self]))
    · exact off

/-! ## Shutdown (R11, R24, R118) -/

theorem unchained_src (i j : Source) (s : State) :
    (unchained i s).src j = if j = i then { s.src i with chain := [] } else s.src j := by
  rw [unchained, State.setSrc_src]
  rfl

/-- A chain released, before what is freed is delivered. -/
theorem unchained_sound (h : PoolSound s) (i : Source) : PoolSound (unchained i s) := by
  have hsrc (j : Source) := unchained_src i j s
  have hbuffer (b : BufferId) : (unchained i s).buffer b = _ := unchained_buffer
  have hchain (j : Source) (b : BufferId) : b ∈ ((unchained i s).src j).chain ↔ j ≠ i ∧ b ∈ (s.src j).chain := by
    rw [hsrc]
    by_cases e : j = i <;> simp [e]
  have hkept (b : BufferId) (hb : b ∉ (s.src i).chain) : (unchained i s).buffer b = s.buffer b := by
    rw [hbuffer, if_neg fun hf => hb (mem_freedChain.mp hf).1, if_neg hb]
  have hfreed (b : BufferId) (hb : b ∈ freedChain i s) :
      (unchained i s).buffer b = { s.buffer b with state := .free, info := none, content := [] } := by
    rw [hbuffer, if_pos hb]
  have hretired (b : BufferId) (hb : b ∈ (s.src i).chain) (hf : b ∉ freedChain i s) :
      (unchained i s).buffer b = { s.buffer b with state := .retiring } := by
    rw [hbuffer, if_neg hf, if_pos hb]
  refine ⟨fun j => ?_, fun j k b hj hk => ?_, fun b => ?_, h.queueNodup, fun j => ?_, fun k hk b hb => ?_, fun b hb => ?_,
    fun b hb => ?_⟩
  · rw [hsrc]
    split
    · exact List.nodup_nil
    · exact h.nodup j
  · exact h.disjoint j k b ((hchain j b).mp hj).2 ((hchain k b).mp hk).2
  · by_cases hc : b ∈ (s.src i).chain
    · have hnone : ¬ ∃ j, b ∈ ((unchained i s).src j).chain := fun ⟨j, hj⟩ =>
        ((hchain j b).mp hj).1 (h.disjoint j i b ((hchain j b).mp hj).2 hc)
      refine iff_of_false hnone ?_
      by_cases hf : b ∈ freedChain i s
      · simp [hfreed b hf]
      · simp [hretired b hc hf]
    · rw [hkept b hc, ← h.placed b]
      refine exists_congr fun j => (hchain j b).trans ⟨fun hj => hj.2, fun hj => ⟨?_, hj⟩⟩
      rintro rfl
      exact hc hj
  · rw [hsrc]
    split
    · next e => exact e ▸ h.queue i
    · exact h.queue j
  · have hfree := h.banks k hk b hb
    rw [hkept b fun hc => ?_, hfree]
    have := (h.placed b).mp ⟨i, hc⟩
    simp [hfree] at this
  · by_cases hc : b ∈ (s.src i).chain
    · by_cases hf : b ∈ freedChain i s
      · rw [hfreed b hf]
        have hstate := (h.placed b).mp ⟨i, hc⟩
        obtain ⟨-, hp⟩ := mem_freedChain.mp hf
        by_cases hr : (s.buffer b).state = .ready
        · exact Nat.eq_zero_of_not_pos fun h0 => hp ⟨hr, h0⟩
        · refine h.noPins b ?_
          simp only [List.mem_cons, List.not_mem_nil, or_false] at hstate
          rcases hstate with e | e | e
          · simp [e]
          · simp [e]
          · exact absurd e hr
      · rw [hretired b hc hf] at hb
        simp at hb
    · rw [hkept b hc] at hb ⊢
      exact h.noPins b hb
  · by_cases hc : b ∈ (s.src i).chain
    · by_cases hf : b ∈ freedChain i s
      · rw [hfreed b hf] at hb
        simp at hb
      · rw [hretired b hc hf]
        have hp := not_not.mp fun hp => hf (mem_freedChain.mpr ⟨hc, hp⟩)
        exact Nat.pos_iff_ne_zero.mp hp.2
    · rw [hkept b hc] at hb ⊢
      exact h.pinned b hb

/-- A source that shuts down, without its deadlines and its claim. -/
def unclaimed (i : Source) (s : State) : State :=
  cancelClaim i (s.setSrc i { s.src i with warm := none, linger := none })

theorem unclaimed_src (i j : Source) (s : State) :
    (unclaimed i s).src j = if j = i then { s.src i with warm := none, linger := none, claim := 0 } else s.src j := by
  rw [unclaimed, cancelClaim, State.modSrc_eq, State.setSrc_src]
  have hqueue (v : State) (l : List Source) (k : Source) : (v.setClaimQueue l).src k = v.src k := rfl
  split
  · rw [hqueue, State.setSrc_src_self]
  · next h => rw [hqueue, State.setSrc_src_ne _ _ h]

theorem unclaimed_sound (h : PoolSound s) (i : Source) : PoolSound (unclaimed i s) := by
  have hset : PoolSound (s.setSrc i { s.src i with warm := none, linger := none }) := h.setSrc rfl rfl
  exact cancelClaim_sound hset i

/-- A source that shuts down, with its chain released. -/
def released (i : Source) (s : State) : State :=
  settleFreed (freedChain i (unclaimed i s)) (unchained i (unclaimed i s))

theorem shutDown_eq (i : Source) (was : SourceState) (s : State) :
    shutDown i was s = stopPulsing i (if was.streaming then leaveStreaming i (released i s) else released i s) := rfl

/-- What a shutdown does besides to the pool. -/
structure OnlyShut (i : Source) (s t : State) : Prop where
  pool : t.pool = s.pool
  streams : t.streams = s.streams
  other : ∀ j, j ≠ i → t.src j = s.src j ∧ t.port j = s.port j
  chain : (t.src i).chain = (s.src i).chain
  claim : (t.src i).claim = (s.src i).claim

theorem onlyShut_shutDown (i : Source) (was : SourceState) (s : State) : OnlyShut i (released i s) (shutDown i was s) := by
  rw [shutDown_eq]
  generalize released i s = v
  cases was.streaming with
  | false => exact ⟨rfl, rfl, fun _ _ => ⟨rfl, rfl⟩, rfl, rfl⟩
  | true =>
    have hself : (leaveStreaming i v).src i =
        { (v.src i).unlock with lastCompleted := none, lastStart := none, qualify := 0, bad := 0, stall := none } :=
      State.setSrc_src_self _ i _
    have hsrc (j : Source) (u : State) : (stopPulsing i u).src j = u.src j := rfl
    refine ⟨rfl, rfl, fun j hj => ⟨State.setSrc_src_ne _ _ hj, ?_⟩, ?_, ?_⟩
    · simp [stopPulsing, leaveStreaming, hj]
    · rw [if_pos rfl, hsrc, hself, SourceRecord.unlock]
    · rw [if_pos rfl, hsrc, hself, SourceRecord.unlock]

theorem SourceRecord.shut_state (r : SourceRecord) (streaming : Bool) : (r.shut streaming).state = r.state := by
  unfold SourceRecord.shut
  split <;> rfl

/-- The buffers of a released chain, and what they are given to. -/
theorem unclaimed_unchained_buffer {x : SourceRecord} (hc : x.chain = (s.src i).chain) (b : BufferId) :
    (unchained i (unclaimed i (s.setSrc i x))).buffer b =
      if b ∈ freedChain i s then { s.buffer b with state := .free, info := none, content := [] }
      else if b ∈ (s.src i).chain then { s.buffer b with state := .retiring } else s.buffer b := by
  have hbuffer (b : BufferId) : (unclaimed i (s.setSrc i x)).buffer b = s.buffer b := rfl
  have hchain : ((unclaimed i (s.setSrc i x)).src i).chain = (s.src i).chain := by
    rw [unclaimed_src, if_pos rfl, State.setSrc_src_self]
    exact hc
  have hfreed : freedChain i (unclaimed i (s.setSrc i x)) = freedChain i s := by
    simp only [freedChain, hchain, hbuffer]
  rw [unchained_buffer, hfreed, hchain, hbuffer]

/-- The chain of `i` is released in `z`, its buffers are delivered in `w`, and what else a shutdown does is done in `t`. -/
structure ShutAt (i : Source) (s z w t : State) : Prop where
  buffer : ∀ b, z.buffer b =
    if b ∈ freedChain i s then { s.buffer b with state := .free, info := none, content := [] }
    else if b ∈ (s.src i).chain then { s.buffer b with state := .retiring } else s.buffer b
  other : ∀ j, j ≠ i → z.src j = s.src j ∧ z.port j = s.port j
  streams : z.streams = s.streams
  delivered : Stocked z w ∧ PoolSound w ∧ (∀ b, (w.buffer b).pins = (z.buffer b).pins) ∧ w.streams = z.streams
  shut : OnlyShut i w t

namespace ShutAt

variable {z w : State} {b : BufferId}

theorem buffer_eq (h : ShutAt i s z w t) (b : BufferId) : t.buffer b = w.buffer b := by rw [State.buffer, h.shut.pool]; rfl

theorem released (h : ShutAt i s z w t) (hb : b ∈ (s.src i).chain) : (z.buffer b).state ∈ [.free, .retiring] := by
  rw [h.buffer]
  by_cases hf : b ∈ freedChain i s
  · simp [hf]
  · simp [hf, hb]

theorem touched (h : ShutAt i s z w t) : Touched i s t := by
  obtain ⟨hstocked, -⟩ := h.delivered
  refine ⟨fun j hj => ?_, fun b hb => ?_, fun b hb => .inr ?_⟩
  · obtain ⟨hz, hzp⟩ := h.other j hj
    obtain ⟨ht, htp⟩ := h.shut.other j hj
    exact ((StockedAt.of_src hz hzp).trans (hstocked.source j)).trans (.of_src ht htp)
  · have hz : z.buffer b = s.buffer b := by rw [h.buffer, if_neg fun hf => hb (mem_freedChain.mp hf).1, if_neg hb]
    rw [h.buffer_eq, ← hz]
    exact hstocked.buffer b
  · have hz := h.released hb
    rw [h.buffer_eq]
    rcases hstocked.buffer b with ⟨e, -⟩ | ⟨-, e⟩ | ⟨-, e⟩
    · rw [e]
      exact List.mem_append_left [.empty] hz
    · simp [e]
    · simp only [List.mem_cons, List.not_mem_nil, or_false] at e
      rcases e with e | e <;> simp [e]

theorem owed (h : ShutAt i s z w t) (hw : Whole s) : PinsOwed [] t := by
  obtain ⟨-, hsound, hpins, hstreams⟩ := h.delivered
  have hchain (j : Source) : (t.src j).chain = (w.src j).chain := by
    by_cases hj : j = i
    · exact hj ▸ h.shut.chain
    · rw [(h.shut.other j hj).1]
  have hclaim (j : Source) : (t.src j).claim = (w.src j).claim := by
    by_cases hj : j = i
    · exact hj ▸ h.shut.claim
    · rw [(h.shut.other j hj).1]
  refine hw.owed.of_sound (hsound.congr hchain hclaim h.shut.pool) (fun b => ?_) fun st => ?_
  · rw [h.buffer_eq, hpins, h.buffer]
    split
    · rfl
    · split <;> rfl
  · exact congrArg (PerStream.get · st) (h.shut.streams.trans (hstreams.trans h.streams))

/-- What retires keeps its metadata (R118). -/
theorem known (h : ShutAt i s z w t) (hf : FramesOk s) (hb : b ∈ (s.src i).chain)
    (hst : (t.buffer b).state ∈ [.ready, .retiring]) : (t.buffer b).info ≠ none := by
  obtain ⟨hstocked, -⟩ := h.delivered
  rw [h.buffer_eq] at hst ⊢
  obtain ⟨hstate, hinfo⟩ := (hstocked.buffer b).known (List.mem_cons_of_mem _ hst)
  rw [hinfo]
  rw [hstate, h.buffer] at hst
  rw [h.buffer]
  by_cases hfreed : b ∈ freedChain i s
  · rw [if_pos hfreed] at hst
    simp at hst
  · rw [if_neg hfreed, if_pos hb]
    have hready := (not_not.mp fun hp => hfreed (mem_freedChain.mpr ⟨hb, hp⟩)).1
    exact (framesOk_iff.mp hf).1 b (by simp [hready])

theorem holds (h : ShutAt i s z w t) (hc : (t.src i).chain = []) (hk : (t.src i).claim = 0)
    (hx : (t.src i).state.pooled = false) (hp : Whole s → t.port i = .idle) : Holds s t := by
  refine .of_touched h.touched h.owed (fun hw => ⟨?_, fun _ => hk, fun b f st k c e => ?_⟩) fun hw hf =>
    ⟨⟨fun hsh => ?_, fun b hb => ?_, fun b hb => ?_⟩, fun b hb hst => h.known hf hb hst⟩
  · rw [hc, hk, hx]
    simp
  · rw [hp hw] at e
    cases e
  · have := SourceState.streaming_of_shown hsh
    rw [SourceState.streaming_of_rest hx] at this
    cases this
  · simp [hc] at hb
  · simp [hc] at hb

end ShutAt

/-- A source that shuts down from the record `x`, without chain and claim. -/
theorem holds_shutDown {x : SourceRecord} (hc : x.chain = (s.src i).chain) (hk : x.claim = (s.src i).claim)
    (hx : x.state.pooled = false) : Holds s (shutDown i (s.src i).state (s.setSrc i x)) := fun hw => by
  have hsound : PoolSound (unchained i (unclaimed i (s.setSrc i x))) :=
    unchained_sound (unclaimed_sound (hw.owed.sound.setSrc hc hk) i) i
  obtain ⟨hdelivered, hserved⟩ := settleFreed_sound (freedChain i (unclaimed i (s.setSrc i x))) hsound
  have hrecord : (shutDown i (s.src i).state (s.setSrc i x)).src i = x.shut (s.src i).state.streaming := by
    rw [(shutDown_src i _ _).1, State.setSrc_src_self]
  obtain ⟨-, -, hchain, hclaim, -⟩ := x.shut_cleared (s.src i).state.streaming
  have hshut : ShutAt i s (unchained i (unclaimed i (s.setSrc i x))) (released i (s.setSrc i x))
      (shutDown i (s.src i).state (s.setSrc i x)) := by
    refine ⟨unclaimed_unchained_buffer hc, fun j hj => ⟨?_, rfl⟩, rfl,
      ⟨.settleFreed _ hsound, hdelivered, hserved.pins, ?_⟩, onlyShut_shutDown i _ _⟩
    · rw [unchained_src, if_neg hj, unclaimed_src, if_neg hj, State.setSrc_src_ne _ _ hj]
    · rw [released, settleFreed_only]
  refine hshut.holds (by rw [hrecord, hchain]) (by rw [hrecord, hclaim]) (by rw [hrecord, x.shut_state, hx]) (fun _ => ?_) hw
  rw [shutDown_port]
  split
  · rfl
  · next hn =>
    change s.port i = .idle
    cases hp : s.port i with
    | idle => rfl
    | filling b f st k c => exact absurd ⟨((hw.shares i).port b f st k c hp).1, rfl⟩ hn

/-! ## Leaving for STOPPING, HELD and FAULTED (R13, R16, R19) -/

theorem holds_informDeparture (i : Source) (was : SourceState) (s : State) : Holds s (informDeparture i was s) := by
  unfold informDeparture
  split
  · have honly := departure_only i s
    refine .of_roled (roled_departure i s) ?_ ?_ ?_ <;> rw [honly]
  · exact .refl s

theorem holds_enterStopping (i : Source) (s : State) : Holds s (enterStopping i s) := by
  have hshut : Holds s (shutDown i (s.src i).state (s.setSrc i
      { s.src i with state := .stopping, stop := some (timeAfter s.timebase (msToUs s.params.stopTimeout)) })) :=
    holds_shutDown rfl rfl rfl
  exact (hshut.trans (.raise _ _)).trans (holds_informDeparture i _ _)

theorem holds_absentIfPending (h : (s.src i).state.pooled = false) : Holds s (absentIfPending i s) := by
  unfold absentIfPending
  split
  · exact holds_enterAbsent h
  · exact .refl s

theorem holds_enterHeld (i : Source) (s : State) : Holds s (enterHeld i s) := by
  have hshut : Holds s (heldShut i s) := holds_shutDown
    (x := { s.src i with state := .held, stop := none, faultCause := none, refusalCode := none }) rfl rfl rfl
  rw [enterHeld_eq]
  refine (hshut.trans (holds_absentIfPending ?_)).trans (holds_informDeparture i _ _)
  rw [heldShut_state]
  rfl

theorem holds_faultedShut (i : Source) (cause : FaultCause) (s : State) : Holds s (faultedShut i cause s) := by
  have hcount : Holds s { s with free := s.free + 1 } := .of_same rfl rfl rfl rfl
  have hshut : Holds { s with free := s.free + 1 } (shutDown i (s.src i).state ({ s with free := s.free + 1 }.setSrc i
      { (s.src i).unlock with state := .faulted, stop := none, faultCause := some cause })) := holds_shutDown rfl rfl rfl
  have hfault := (hcount.trans hshut).trans (.raise (.source i .faulted) _)
  unfold faultedShut
  dsimp only
  split
  · exact hfault.trans (.raise _ _)
  · exact hfault

theorem holds_enterFaulted (i : Source) (cause : FaultCause) (s : State) : Holds s (enterFaulted i cause s) := by
  rw [enterFaulted_eq]
  refine ((holds_faultedShut i cause s).trans (holds_absentIfPending ?_)).trans (holds_informDeparture i _ _)
  rw [faultedShut_state]
  rfl

end Sys2Proof.Machine
end

section
/-! The pool and the frames in the controller's and the planner's acts, at deadlines and at requests (O7, O9). -/

namespace Sys2Proof.Machine

open Sys2Proof

variable {s t : State} {i : Source}

/-! ## The view step (R43) -/

/-- What the controller does in an update. -/
theorem Holds.of_update (h : Update s t) (hl : LiveOk s) : Holds s t := by
  have honly := (Steered.of_update h).only
  refine .of_roled (h.roled hl) ?_ ?_ ?_ <;> rw [honly]

theorem holds_advanceRamp (s : State) : Holds s (advanceRamp s) := by
  have honly := advanceRamp_only s
  refine .of_same ?_ ?_ ?_ ?_ <;> rw [honly]

theorem holds_writeWant (i : Source) (v : Bool) (s : State) : Holds s (writeWant i v s) := by
  have wants (v : Bool) : Holds s (s.setSrc i { s.src i with want := v }) := .setSrc_same rfl rfl rfl
  rcases (s.src i).state.want_classes with hs | hs | hs | hs
  · rw [writeWant_absent hs]
    exact .refl s
  · rw [writeWant_off hs]
    split
    · have hoff : ((s.setSrc i { s.src i with want := true }).src i).state = .off := by
        rw [State.setSrc_src_self]
        exact hs
      exact (wants true).trans (holds_enterRequested hoff)
    · exact wants v
  · rw [writeWant_started hs]
    split
    · exact .setSrc_same rfl rfl rfl
    · split
      · rw [startLinger_eq, State.setSrc_setSrc, State.setSrc_src_self]
        exact .setSrc_same rfl rfl rfl
      · exact .refl s
  · rw [writeWant_plain hs]
    exact wants v

theorem holds_writeWants (m : SourceSet) (s : State) : Holds s (writeWants m s) := by
  unfold writeWants
  generalize Source.all = l
  induction l generalizing s with
  | nil => exact .refl s
  | cons i l ih => exact (holds_writeWant i _ s).trans (ih _)

theorem holds_viewStep (step : StepFrame) (now : Time) (hl : LiveOk s) : Holds s (viewStep step now s) := by
  have hcontrolled : Holds (advanceRamp s) (controlled step s) := .of_update (controlled_update step s) hl.advanceRamp
  have hplanning : Holds (controlled step s) (planning step s) := .of_same rfl rfl rfl rfl
  have hbefore : Holds (planning step s) (beforeRecord step s) := by
    rw [beforeRecord_eq]
    exact holds_writeWants _ _
  have hmarks : Holds (beforeRecord step s) (clearMarks (beforeRecord step s)) := .of_same rfl rfl rfl rfl
  rw [viewStep_eq]
  exact ((((holds_advanceRamp s).trans hcontrolled).trans hplanning).trans hbefore).trans
    (hmarks.trans (holds_appendRecord _ _))

theorem holds_expireViewTimer (hl : LiveOk s) : Holds s (expireViewTimer s) := by
  unfold expireViewTimer
  split
  · exact .refl s
  · next d _ =>
    have htimer : Holds s (s.setView { s.view with timer := some (timeAfter d s.params.viewTimerPeriod) }) :=
      .of_same rfl rfl rfl rfl
    exact htimer.trans (holds_viewStep _ _ hl)

/-- R67: the controller's answer to a source in STANDBY. -/
theorem holds_informStandby (h : (s.src i).state = .standby) (hl : LiveOk s) : Holds s (informStandby i s) := by
  by_cases hc : s.handoff.primary = none ∧ s.handoff.candidate = some i
  · have hset : s.setHandoff { s.handoff with candidate := some i } = s := by rw [← hc.2]; rfl
    have hupdate : Update s (makeFirstPrimary i s) := by
      have := Update.first i hc.1 h
      rwa [hset] at this
    rw [informStandby_candidate hc.1 hc.2]
    exact .of_update hupdate hl
  · rw [informStandby_other hc]
    exact .refl s

/-! ## Deadlines of a source (R9, R12, R14, R20) -/

theorem holds_expireWarm (i : Source) (s : State) : Holds s (expireWarm i s) := by
  unfold expireWarm
  split
  · exact .refl s
  · exact holds_enterFaulted i _ s

theorem holds_expireLinger (i : Source) (s : State) : Holds s (expireLinger i s) := by
  unfold expireLinger
  split
  · exact .refl s
  · exact holds_enterStopping i s

theorem holds_expireStall (i : Source) (s : State) : Holds s (expireStall i s) := by
  unfold expireStall
  split
  · exact .refl s
  · exact holds_enterFaulted i _ s

/-- R14: a stop ends, confirmed or not. -/
theorem holds_stopEnds (h : (s.src i).state = .stopping) (b : Bool) (k : Notice) :
    Holds s (enterOff i (raise k (s.setSrc i { s.src i with stop := none, lastStopUnconfirmed := b }))) := by
  have hset : Holds s (s.setSrc i { s.src i with stop := none, lastStopUnconfirmed := b }) := .setSrc_same rfl rfl rfl
  refine (hset.trans (.raise k _)).trans (holds_enterOff ?_)
  rw [raise_src, State.setSrc_src_self]
  exact SourceState.rest_iff.mpr (by simp [h])

theorem holds_expireStop (hd : DeadlinesOk s) : Holds s (expireStop i s) := by
  unfold expireStop
  split
  · exact .refl s
  · next h => exact holds_stopEnds ((hd i).2.2.1 (ne_none_of_expired h)) true _

/-! ## Requests about a source (R3, R7, R8, R14, R18, R23) -/

theorem holds_markWithdraw (i : Source) (s : State) : Holds s (markWithdraw i s) := by
  rw [markWithdraw_eq]
  exact .setSrc_same rfl rfl rfl

theorem holds_clearFault (h : (s.src i).state = .faulted) : Holds s (clearFault i s) := by
  have hset : Holds s (s.setSrc i { s.src i with faultCause := none, refusalCode := none }) := .setSrc_same rfl rfl rfl
  rw [clearFault_eq]
  refine hset.trans (holds_enterOff ?_)
  rw [State.setSrc_src_self]
  exact SourceState.rest_iff.mpr (by simp [h])

theorem holds_confirmStop (h : (s.src i).state = .stopping) : Holds s (confirmStop i s) := by
  rw [confirmStop_eq]
  exact holds_stopEnds h (s.src i).lastStopUnconfirmed _

theorem holds_enrollSource {e : Enrolment} (h : (s.src i).state.enrollable = true) : Holds s (enrollSource i e s) := by
  have hstate := SourceState.enrollable_iff.mp h
  have hrest : (s.src i).state.pooled = false := SourceState.rest_iff.mpr (by
    simp only [List.mem_cons, List.not_mem_nil, or_false] at hstate ⊢
    tauto)
  have hx := SourceRecord.enroll_eq e (s.planner.keepWarm.get i) hstate
  have heq : enrollSource i e s = enterOff i (s.setSrc i ((s.src i).enroll e (s.planner.keepWarm.get i))) := rfl
  rw [heq]
  generalize (s.src i).enroll e (s.planner.keepWarm.get i) = x at hx
  have hset : Holds s (s.setSrc i x) := by
    rw [hx]
    exact .setSrc_same rfl rfl rfl
  refine hset.trans (holds_enterOff ?_)
  rw [State.setSrc_src_self, hx]
  exact hrest

/-- R7: REQUESTED to WARMING. -/
theorem holds_enterWarming (h : (s.src i).state = .requested) : Holds s (enterWarming i s) :=
  .setSrc rfl rfl (by rw [h]; rfl) (fun hs => by rw [h] at hs; cases hs) fun hs => by simp at hs

theorem holds_refuseStart (i : Source) (code : Byte) (s : State) : Holds s (refuseStart i code s) := by
  have hset : Holds s (s.setSrc i { s.src i with refusalCode := some code }) := .setSrc_same rfl rfl rfl
  exact hset.trans (holds_enterFaulted i .refused _)

theorem holds_setKeepWarm (m : SourceSet) (s : State) : Holds s (setKeepWarm m s) := by
  have hmask : Holds s (s.setPlanner { s.planner with keepWarm := m }) := .of_same rfl rfl rfl rfl
  exact hmask.trans (holds_writeWants _ _)

end Sys2Proof.Machine
end

section
/-! The pool and the frames as frames arrive (O7, O9). -/

namespace Sys2Proof.Machine

open Sys2Proof

variable {s t : State} {i : Source} {b : BufferId}

/-! ## One buffer of a chain and its port -/

/-- In `t` the buffer `b` that port `i` fills, or may fill, has another state or content, and the port with it. -/
structure Filled (i : Source) (b : BufferId) (s t : State) : Prop where
  only : t = { s with ports := t.ports, reports := t.reports, pool := { s.pool with buffers := t.pool.buffers } }
  other : ∀ j, j ≠ i → t.port j = s.port j
  buffers : ∀ c, c ≠ b → t.buffer c = s.buffer c
  pins : (t.buffer b).pins = (s.buffer b).pins
  state : (t.buffer b).state ∈ [.empty, .filling, .ready]
  before : ∀ c f st k x, s.port i = .filling c f st k x → c = b
  after : ∀ c f st k x, t.port i = .filling c f st k x → c = b ∧ (t.buffer b).state = .filling
  filling : (t.buffer b).state = .filling → ∃ f st k x, t.port i = .filling b f st k x
  ready : (t.buffer b).state = .ready → ∃ m, (t.buffer b).info = some m ∧ m.source = i

namespace Filled

theorem src (h : Filled i b s t) (j : Source) : t.src j = s.src j := by rw [h.only]; rfl

theorem sound (h : Filled i b s t) (hs : PoolSound s) (hin : b ∈ (s.src i).chain)
    (hp : (t.buffer b).state ∈ [.empty, .filling] → (s.buffer b).pins = 0) : PoolSound t := by
  have hbank (k : Bank) : t.bank k = s.bank k := by rw [h.only]; rfl
  have hqueue : t.pool.claimQueue = s.pool.claimQueue := by rw [h.only]
  have hold := (hs.placed b).mp ⟨i, hin⟩
  refine ⟨fun j => h.src j ▸ hs.nodup j, fun j k c => ?_, fun c => ?_, hqueue ▸ hs.queueNodup, fun j => ?_, fun k hk c hc => ?_,
    fun c hc => ?_, fun c hc => ?_⟩
  · rw [h.src, h.src]
    exact hs.disjoint j k c
  · simp only [h.src]
    rw [hs.placed]
    by_cases hcb : c = b
    · rw [hcb]
      exact iff_of_true hold h.state
    · rw [h.buffers c hcb]
  · rw [hqueue, h.src]
    exact hs.queue j
  · rw [hbank] at hk
    have hfree := hs.banks k hk c hc
    by_cases hcb : c = b
    · rw [← hcb, hfree] at hold
      simp at hold
    · rw [h.buffers c hcb, hfree]
  · by_cases hcb : c = b
    · subst hcb
      rw [h.pins]
      refine hp ?_
      have hst := h.state
      simp only [List.mem_cons, List.not_mem_nil, or_false] at hc hst ⊢
      rcases hc with e | e | e <;> simp_all
    · rw [h.buffers c hcb] at hc ⊢
      exact hs.noPins c hc
  · by_cases hcb : c = b
    · have hst := h.state
      rw [← hcb, hc] at hst
      simp at hst
    · rw [h.buffers c hcb] at hc ⊢
      exact hs.pinned c hc

theorem touched (h : Filled i b s t) (hin : b ∈ (s.src i).chain) : Touched i s t where
  others j hj := .of_src (h.src j) (h.other j hj)
  stock c hc := by
    rw [h.buffers c fun e => hc (e ▸ hin)]
    exact .refl _
  own c hc := .inl (by rwa [h.src])

/-- What was shown stays shown when no READY frame goes. -/
theorem shown (h : Filled i b s t) (hb : (s.buffer b).state ≠ .ready) (hf : FramesOk s)
    (hi : (s.src i).state ∈ [.standby, .live]) : ∃ c ∈ (s.src i).chain, (t.buffer c).state = .ready := by
  obtain ⟨c, hc, hst⟩ := ((framesOk_iff.mp hf).2 i).ready hi
  refine ⟨c, hc, ?_⟩
  rw [h.buffers c fun e => hb (e ▸ hst), hst]

theorem frames (h : Filled i b s t) (hf : FramesAt s i)
    (hsh : (s.src i).state ∈ [.standby, .live] → ∃ c ∈ (s.src i).chain, (t.buffer c).state = .ready) : FramesAt t i := by
  refine ⟨fun hi => ?_, fun c hc hst m hm => ?_, fun c hc hst => ?_⟩
  · rw [h.src] at hi ⊢
    exact hsh hi
  · rw [h.src] at hc
    by_cases hcb : c = b
    · subst hcb
      obtain ⟨m', hm', hs⟩ := h.ready hst
      rw [hm] at hm'
      cases hm'
      exact hs
    · rw [h.buffers c hcb] at hst hm
      exact hf.source c hc hst m hm
  · rw [h.src] at hc
    by_cases hcb : c = b
    · subst hcb
      exact h.filling hst
    · rw [h.buffers c hcb] at hst
      obtain ⟨f, st, k, x, hp⟩ := hf.filling c hc hst
      exact absurd (h.before c f st k x hp) hcb

end Filled

theorem Holds.of_filled (h : Filled i b s t) (hin : Whole s → (s.src i).state.streaming = true ∧ b ∈ (s.src i).chain)
    (hp : Whole s → (t.buffer b).state ∈ [.empty, .filling] → (s.buffer b).pins = 0)
    (hsh : Whole s → FramesOk s → (s.src i).state ∈ [.standby, .live] →
      ∃ c ∈ (s.src i).chain, (t.buffer c).state = .ready) : Holds s t := fun hw => by
  obtain ⟨hstream, hchain⟩ := hin hw
  have hpins (c : BufferId) : (t.buffer c).pins = (s.buffer c).pins := by
    by_cases hcb : c = b
    · rw [hcb, h.pins]
    · rw [h.buffers c hcb]
  refine Holds.of_touched (h.touched hchain)
    (fun hw => hw.owed.of_sound (h.sound hw.owed.sound hchain (hp hw)) hpins fun st => by rw [h.only]; rfl)
    (fun hw => ⟨by rw [h.src]; exact (hw.shares i).share, fun hi => ?_, fun c f st k x hport => ?_⟩)
    (fun hw hf => ⟨h.frames ((framesOk_iff.mp hf).2 i) (hsh hw hf), fun c hc hst => ?_⟩) hw
  · rw [h.src] at hi ⊢
    exact (hw.shares i).shown hi
  · obtain ⟨rfl, hst⟩ := h.after c f st k x hport
    rw [h.src]
    exact ⟨hstream, hchain, hst⟩
  · by_cases hcb : c = b
    · subst hcb
      have hstate := h.state
      simp only [List.mem_cons, List.not_mem_nil, or_false] at hst
      rcases hst with e | e
      · obtain ⟨m, hm, -⟩ := h.ready e
        simp [hm]
      · simp [e] at hstate
    · rw [h.buffers c hcb] at hst ⊢
      exact (framesOk_iff.mp hf).1 c hst

/-- A buffer and a port rewritten. -/
theorem Filled.of_modBuffer {g : Buffer → Buffer} {p : Port} (hpins : (g (s.buffer b)).pins = (s.buffer b).pins)
    (hbefore : ∀ c f st k x, s.port i = .filling c f st k x → c = b)
    (hport : p = .idle ∧ (g (s.buffer b)).state = .empty ∨
      (g (s.buffer b)).state = .filling ∧ ∃ f st k x, p = .filling b f st k x) :
    Filled i b s ((s.modBuffer b g).setPort i p) := by
  have hself : ((s.modBuffer b g).setPort i p).buffer b = g (s.buffer b) := by simp
  have hp : ((s.modBuffer b g).setPort i p).port i = p := by simp
  refine ⟨rfl, fun j hj => by simp [hj], fun c hc => by simp [hc], by rw [hself, hpins], ?_, hbefore, fun c f st k x h => ?_,
    fun h => ?_, fun h => ?_⟩
  · rw [hself]
    rcases hport with ⟨-, e⟩ | ⟨e, -⟩ <;> simp [e]
  · rw [hp] at h
    rw [hself]
    rcases hport with ⟨e, -⟩ | ⟨hst, f', st', k', x', e⟩
    · rw [e] at h
      cases h
    · rw [e] at h
      cases h
      exact ⟨rfl, hst⟩
  · rw [hself] at h
    rw [hp]
    rcases hport with ⟨-, e⟩ | ⟨-, e⟩
    · rw [e] at h
      cases h
    · exact e
  · rw [hself] at h
    rcases hport with ⟨-, e⟩ | ⟨e, -⟩ <;>
    · rw [e] at h
      cases h

theorem before_of_filling {f : FrameNo} {st : Time} {k : Nat} {c : Half} (hp : s.port i = .filling b f st k c) :
    ∀ c f st k x, s.port i = .filling c f st k x → c = b := fun c' f' st' k' x' h => by
  rw [hp] at h
  cases h
  rfl

/-- A port that assembles a frame fills a buffer of its chain. -/
theorem Whole.assembles {f : FrameNo} {st : Time} {k : Nat} {c : Half} (h : Whole s) (hp : s.port i = .filling b f st k c) :
    (s.src i).state.streaming = true ∧ b ∈ (s.src i).chain := by
  obtain ⟨hs, hb, -⟩ := (h.shares i).port b f st k c hp
  exact ⟨hs, hb⟩

theorem Whole.assembled {f : FrameNo} {st : Time} {k : Nat} {c : Half} (h : Whole s) (hp : s.port i = .filling b f st k c) :
    (s.buffer b).state = .filling ∧ (s.buffer b).pins = 0 := by
  obtain ⟨-, -, hst⟩ := (h.shares i).port b f st k c hp
  exact ⟨hst, h.owed.sound.noPins b (by simp [hst])⟩

/-- A change to the buffer that a port fills loses no READY frame. -/
theorem Holds.of_assembling {f : FrameNo} {st : Time} {k : Nat} {c : Half} (hp : s.port i = .filling b f st k c)
    (h : Whole s → Filled i b s t) : Holds s t := fun hw =>
  Holds.of_filled (h hw) (fun hw => hw.assembles hp) (fun hw _ => (hw.assembled hp).2)
    (fun hw hf hi => (h hw).shown (by rw [(hw.assembled hp).1]; nofun) hf hi) hw

/-! ## Bad frames (R110) -/

theorem holds_abandonFilling (i : Source) (s : State) : Holds s (abandonFilling i s) := by
  cases hp : s.port i with
  | idle =>
    rw [abandonFilling_idle hp]
    exact .refl s
  | filling b f st k c =>
    rw [abandonFilling_filling hp]
    exact .of_assembling hp fun _ => .of_modBuffer rfl (before_of_filling hp) (.inl ⟨rfl, rfl⟩)

theorem holds_badFrame (i : Source) (s : State) : Holds s (badFrame i s) := by
  have hself : (abandonFilling i s).src i = s.src i := abandonFilling_src i i s
  have hcount : Holds s ((abandonFilling i s).setSrc i (s.src i).badCounted) := by
    refine (holds_abandonFilling i s).trans (.setSrc_same ?_ ?_ ?_) <;> rw [hself] <;> rfl
  rw [badFrame_eq]
  dsimp only
  split
  · exact hcount.trans (holds_enterFaulted i _ _)
  · exact hcount

/-! ## Frame starts (R105 to R107) -/

/-- Records that keep their states, chains and claims. -/
theorem Holds.of_records (hsrc : ∀ j, (t.src j).chain = (s.src j).chain ∧ (t.src j).claim = (s.src j).claim ∧
    (t.src j).state = (s.src j).state) (hp : t.ports = s.ports) (hq : t.pool = s.pool) (hx : t.streams = s.streams) :
    Holds s t := by
  refine .of_stocked ⟨fun j => ?_, fun c => ?_⟩ fun hw =>
    hw.owed.congr (fun j => (hsrc j).1) (fun j => (hsrc j).2.1) hq fun st => congrArg (PerStream.get · st) hx
  · obtain ⟨hc, hk, hst⟩ := hsrc j
    exact ⟨by rw [hc], by rw [hc, hk], .inl hst, congrArg (PerSource.get · j) hp⟩
  · have hb : t.buffer c = s.buffer c := by rw [State.buffer, State.buffer, hq]
    exact hb ▸ .refl _

theorem holds_stampStart (i : Source) (s : State) : Holds s (stampStart i s) := by
  have hsrc (j : Source) := stampStart_src i s j
  have honly := stampStart_only i s
  generalize stampStart i s = t at hsrc honly
  refine .of_records (fun j => ?_) ?_ ?_ ?_
  · rw [hsrc]
    split
    · next e =>
      rw [startedRecord_judged, e]
      exact ⟨rfl, rfl, rfl⟩
    · exact ⟨rfl, rfl, rfl⟩
  all_goals rw [honly]

/-- R107: the chosen buffer is not the last READY frame of a chain that is shown. -/
theorem fillChoice_spares (hw : Whole s) (hf : FramesOk s) (hp : s.port i = .idle) (hb : fillChoice s i = some b)
    (hi : (s.src i).state ∈ [.standby, .live]) :
    ∃ c ∈ (s.src i).chain, c ≠ b ∧ (s.buffer c).state = .ready := by
  obtain ⟨hin, hempty | ⟨-, -, hfull⟩⟩ := fillChoice_mem hb
  · obtain ⟨c, hc, hst⟩ := ((framesOk_iff.mp hf).2 i).ready hi
    refine ⟨c, hc, fun e => ?_, hst⟩
    rw [e, hempty] at hst
    cases hst
  · have hlen : (s.src i).chain.length = 3 := by
      have hshare := (hw.shares i).share
      rw [(hw.shares i).shown hi, SourceState.pooled_iff.mpr (.inr (SourceState.streaming_of_shown hi)), if_pos rfl] at hshare
      exact hshare
    obtain ⟨c, hc, hne⟩ : ∃ c ∈ (s.src i).chain, c ≠ b := by
      by_contra hall
      have hrep : (s.src i).chain = List.replicate 3 b :=
        List.eq_replicate_iff.mpr ⟨hlen, fun c hc => by_contra fun hne => hall ⟨c, hc, hne⟩⟩
      have hnodup := hw.owed.sound.nodup i
      rw [hrep, List.nodup_replicate] at hnodup
      omega
    refine ⟨c, hc, hne, ?_⟩
    have hstate := hw.chain_state hc
    simp only [List.mem_cons, List.not_mem_nil, or_false] at hstate
    rcases hstate with e | e | e
    · exact absurd e (hfull c hc)
    · obtain ⟨f, st, k, x, h⟩ := ((framesOk_iff.mp hf).2 i).filling c hc e
      rw [hp] at h
      cases h
    · exact e

theorem holds_beginFilling {n : FrameNo} (hs : (s.src i).state.streaming = true) (hp : s.port i = .idle)
    (hb : fillChoice s i = some b) : Holds s (beginFilling i b n s) := by
  have hfilled : Filled i b s (beginFilling i b n s) := .of_modBuffer rfl (fun c f st k x h => by rw [hp] at h; cases h)
    (.inr ⟨rfl, n, s.timebase, 0, 0, rfl⟩)
  obtain ⟨hin, hstate⟩ := fillChoice_mem hb
  refine .of_filled hfilled (fun _ => ⟨hs, hin⟩) (fun hw _ => ?_) fun hw hf hi => ?_
  · rcases hstate with e | ⟨-, e, -⟩
    · exact hw.owed.sound.noPins b (by simp [e])
    · exact e
  · obtain ⟨c, hc, hne, hst⟩ := fillChoice_spares hw hf hp hb hi
    exact ⟨c, hc, by rw [hfilled.buffers c hne, hst]⟩

theorem holds_dropFrame (i : Source) (s : State) : Holds s (dropFrame i s) := by
  have hset : Holds s (s.setSrc i { s.src i with
      qualify := if (s.src i).state = .warming then 0 else (s.src i).qualify }) := .setSrc_same rfl rfl rfl
  rw [dropFrame_eq]
  exact hset.trans (.raise _ _)

theorem stampStart_port (i : Source) (s : State) (j : Source) : (stampStart i s).port j = s.port j := by
  rw [stampStart_only]
  rfl

theorem holds_takeFrameStart (hs : (s.src i).state.streaming = true) (hp : s.port i = .idle) (n w h : Half) :
    Holds s (takeFrameStart i n w h s) := by
  have hstamp := holds_stampStart i s
  obtain ⟨-, hstate, hchain⟩ := stampStart_qualify i s
  by_cases hsize : w.toNat = (s.enr i).width ∧ h.toNat = (s.enr i).height
  · obtain ⟨hfill, hdrop⟩ := takeFrameStart_right (n := n) hsize.1 hsize.2
    have hsame : fillChoice (stampStart i s) i = fillChoice s i :=
      fillChoice_congr hchain fun c => by rw [stampStart_only]; rfl
    cases hb : fillChoice s i with
    | some b =>
      rw [hfill b hb]
      exact hstamp.trans (holds_beginFilling (hstate ▸ hs) ((stampStart_port i s i).trans hp) (hsame.trans hb))
    | none =>
      rw [hdrop hb]
      exact hstamp.trans (holds_dropFrame i _)
  · rw [takeFrameStart_wrong (by tauto)]
    exact hstamp.trans (holds_badFrame i _)

theorem holds_intakeFrameStart (i : Source) (n w h : Half) (s : State) : Holds s (intakeFrameStart i n w h s) := by
  by_cases hs : (s.src i).state.streaming = true
  · cases hp : s.port i with
    | idle =>
      rw [intakeFrameStart_idle hs hp]
      exact holds_takeFrameStart hs hp n w h
    | filling b f st k c =>
      have hbad := holds_badFrame i s
      rw [intakeFrameStart_filling hs hp]
      split
      · next hs' =>
        rw [intakeFrameStart_idle hs' (badFrame_port i s)]
        exact hbad.trans (holds_takeFrameStart hs' (badFrame_port i s) n w h)
      · exact hbad
  · rw [intakeFrameStart_discarded (eq_false_of_ne_true hs)]
    exact .refl s

/-! ## Lines (R108) -/

theorem holds_intakeLine (i : Source) (n : Half) (data : List Byte) (s : State) : Holds s (intakeLine i n data s) := by
  by_cases h : (s.src i).state.streaming = false ∨ s.port i = .idle
  · rw [intakeLine_stray h]
    exact .refl s
  · rw [not_or, Bool.not_eq_false] at h
    obtain ⟨hs, hidle⟩ := h
    cases hp : s.port i with
    | idle => exact absurd hp hidle
    | filling b f st k c =>
      rw [intakeLine_filling hs hp]
      split
      · exact .of_assembling hp fun hw => .of_modBuffer rfl (before_of_filling hp)
          (.inr ⟨(hw.assembled hp).1, f, st, k + 1, c + rowSum (parsePixels data), rfl⟩)
      · exact holds_badFrame i s

/-! ## Frame ends (R109 to R111) -/

theorem Completed.filled {f n : FrameNo} {st st' : Time} {k : Nat} {c : Half} {v : State} (h : Completed i b f st s v)
    (hp : s.port i = .filling b n st' k c) : Filled i b s v := by
  refine ⟨h.only, fun j hj => (h.others j hj).2, h.buffers, by rw [h.buffer], by rw [h.buffer]; simp, before_of_filling hp,
    fun c f st k x e => ?_, fun e => ?_, fun _ => ⟨_, by rw [h.buffer], rfl⟩⟩
  · rw [h.port] at e
    cases e
  · rw [h.buffer] at e
    cases e

/-- R10: WARMING to STANDBY, with a READY frame in a whole chain. -/
theorem holds_qualified (h : (s.src i).state = .warming) (hlen : (s.src i).chain.length = 3) (hb : b ∈ (s.src i).chain)
    (hst : (s.buffer b).state = .ready) : Holds s (qualified i s) := by
  have hwarm : Holds s (s.setSrc i { s.src i with warm := none }) := .setSrc_same rfl rfl rfl
  have hmove : Holds s (s.setSrc i { s.src i with warm := none, state := .standby }) := by
    refine .setSrc rfl rfl (by rw [h]; rfl) (fun _ => rfl) fun _ hw => ⟨?_, fun _ => ⟨b, hb, hst⟩⟩
    have hshare := (hw.shares i).share
    rw [h, hlen, if_pos (by decide : SourceState.warming.pooled = true)] at hshare
    omega
  have hset : qualified i s = raiseSrc i .ready
      (if (s.src i).want = true then s.setSrc i { s.src i with warm := none, state := .standby }
        else startLinger i (s.setSrc i { s.src i with warm := none, state := .standby })) := by
    simp [qualified, moveToStandby, State.modSrc_eq]
  rw [hset]
  refine Holds.trans ?_ (.raise _ _)
  split
  · exact hmove
  · rw [startLinger_eq]
    exact hmove.trans (.setSrc_same rfl rfl rfl)

theorem holds_recordGoodFrame (f : FrameNo) (reported : Bool) (hb : b ∈ (s.src i).chain) (hst : (s.buffer b).state = .ready)
    (hc : Controlled s) : Holds s (recordGoodFrame i f reported s) := by
  obtain ⟨hplain, hmissing, hnot, hqualifies⟩ := recordGoodFrame_cases i f reported s
  have hcounted : Holds s (s.setSrc i { (s.src i).goodCounted f with qualify := min 8 ((s.src i).qualify + 1) }) :=
    .setSrc_same rfl rfl rfl
  by_cases hw : (s.src i).state = .warming
  · cases hr : reported with
    | false =>
      have hzero : Holds s (s.setSrc i { (s.src i).goodCounted f with qualify := 0 }) := .setSrc_same rfl rfl rfl
      rw [← hr, hmissing hw hr]
      exact hzero.trans (.raise _ _)
    | true =>
      by_cases hq : s.params.qualifyFrames ≤ min 8 ((s.src i).qualify + 1) ∧ (s.src i).chain.length = 3 ∧ s.calTable i ≠ [] ∧
          ((s.enr i).syncMode = .follow → s.handoff.primary ≠ none → (s.src i).locked = true)
      · rw [← hr, hqualifies hw hr hq]
        refine hcounted.trans ?_
        have hself := State.setSrc_src_self s i { (s.src i).goodCounted f with qualify := min 8 ((s.src i).qualify + 1) }
        have hsteady : Steady s (s.setSrc i { (s.src i).goodCounted f with qualify := min 8 ((s.src i).qualify + 1) }) :=
          .setSrc Iff.rfl (.of_same rfl rfl rfl rfl rfl rfl)
        have hbuffer : ((s.setSrc i { (s.src i).goodCounted f with qualify := min 8 ((s.src i).qualify + 1) }).buffer b).state
            = .ready := hst
        generalize s.setSrc i { (s.src i).goodCounted f with qualify := min 8 ((s.src i).qualify + 1) } = u at *
        have hwarming : (u.src i).state = .warming := by rw [hself]; exact hw
        refine (holds_qualified hwarming (by rw [hself]; exact hq.2.1) (by rw [hself]; exact hb) hbuffer).trans
          (holds_informStandby ?_ ((hsteady.trans (steady_qualified hwarming)).governs.live hc))
        rw [qualified_src, if_pos rfl]
      · rw [← hr, hnot hw hr hq]
        exact hcounted
  · rw [hplain hw]
    exact .setSrc_same rfl rfl rfl

theorem holds_goodFrame {f n : FrameNo} {st st' : Time} {k : Nat} {c : Half} (hp : s.port i = .filling b n st' k c)
    (hc : Controlled s) : Holds s (goodFrame i b f st s) := fun hw => by
  obtain ⟨hv, -⟩ := matchReport_completed i b f st s
  rw [goodFrame_eq]
  dsimp only
  generalize (matchReport i b f (completeBuffer i b f st s)).2 = reported
  generalize (matchReport i b f (completeBuffer i b f st s)).1 = v at hv
  obtain ⟨hsrc, hparams, hhandoff, -⟩ := hv.fields
  have hsteady : Steady s v := .of_src hparams hhandoff (by rw [hv.only]) fun j => by rw [hsrc]; rfl
  have hcv : Controlled v := hsteady.governs.controlled hc
  have hin : b ∈ (v.src i).chain := by
    rw [hsrc]
    exact (hw.assembles hp).2
  have hcomplete : Holds s v := .of_assembling hp fun _ => hv.filled hp
  have hrecord := hcomplete.trans (holds_recordGoodFrame f reported hin (by rw [hv.buffer]) hcv)
  split
  · exact hrecord.trans (holds_viewStep _ _ ((governs_recordGoodFrame i f reported v).live hcv)) hw
  · exact hrecord hw

theorem holds_intakeFrameEnd (i : Source) (n k : Half) (hc : Controlled s) : Holds s (intakeFrameEnd i n k s) := by
  by_cases h : (s.src i).state.streaming = false ∨ s.port i = .idle
  · rw [intakeFrameEnd_stray h]
    exact .refl s
  · rw [not_or, Bool.not_eq_false] at h
    obtain ⟨hs, hidle⟩ := h
    cases hp : s.port i with
    | idle => exact absurd hp hidle
    | filling b f st k c =>
      rw [intakeFrameEnd_filling hs hp]
      split
      · exact holds_goodFrame hp hc
      · exact holds_badFrame i s

end Sys2Proof.Machine
end

section
/-! The pool stays whole and its frames nameable through every step (O7, O9). -/

namespace Sys2Proof.Machine

open Sys2Proof

variable {s t : State}

/-! ## Resets and what nobody sees -/

theorem whole_reset : Whole State.reset :=
  whole_iff.mpr ⟨chainsOk_reset, fun _ _ b _ => by rw [reset_buffer]; rfl, pinsOk_reset⟩

/-- A reset finds the pool in any state. -/
theorem holds_reset (hs : t.sources = State.reset.sources) (hp : t.ports = State.reset.ports)
    (hq : t.pool = State.reset.pool) (hx : t.streams = State.reset.streams) : Holds s t := fun _ => by
  obtain ⟨hwhole, hframes⟩ := Holds.of_same hs hp hq hx whole_reset
  exact ⟨hwhole, fun _ => hframes framesOk_reset⟩

theorem Quiet.preserves (h : Quiet s t) : Holds s t := by
  have hsrc := h.src
  have hnames (st : StreamId) : (t.stream st).allNames = (s.stream st).allNames := by
    obtain ⟨-, hp, hc, hh⟩ := h.holds st
    simp only [Stream.allNames, Stream.pendingNames, Stream.currentNames, Stream.ownHoldNames, hp, hc, hh]
  refine .of_stocked (.of_roled (fun i => by rw [hsrc]; exact .refl _) h.ports (by rw [h.pool])) fun hw =>
    ⟨hw.owed.sound.congr (fun i => by rw [hsrc]) (fun i => by rw [hsrc]) h.pool, fun b => ?_, fun st hst => ?_⟩
  · rw [hnames, hnames, ← hw.owed.count, h.buffer]
  · obtain ⟨hs, hp, hc, hh⟩ := h.holds st
    rw [hp, hc, hh]
    exact hw.owed.rest st (hs ▸ hst)

/-! ## Every move -/

theorem Move.preserves (h : Move s t) (hc : Controlled s) : Holds s t := by
  cases h with
  | same => exact .refl s
  | reset o => exact holds_reset rfl rfl rfl rfl
  | frameStart i n w h => exact holds_intakeFrameStart i n w h s
  | line i n data => exact holds_intakeLine i n data s
  | frameEnd i n k => exact holds_intakeFrameEnd i n k hc
  | warm i => exact holds_expireWarm i s
  | linger i => exact holds_expireLinger i s
  | stop i => exact holds_expireStop hc.2
  | stall i => exact holds_expireStall i s
  | dormant k => exact holds_goDormant k s
  | woken k => exact holds_completeWake k s
  | view => exact holds_expireViewTimer hc.1
  | timer st => exact holds_expireStreamTimer st s
  | emitted st => exact holds_completeEmission st s
  | edge line => exact holds_recordEdge line s
  | clearFault i h => exact holds_clearFault h
  | enroll i e h he hb => exact holds_enrollSource h
  | withdraw i h =>
    refine holds_enterAbsent (SourceState.rest_iff.mpr ?_)
    simp only [List.mem_cons, List.not_mem_nil, or_false] at h ⊢
    tauto
  | withdrawStarted i h => exact (holds_markWithdraw i s).trans (holds_enterStopping i _)
  | withdrawStopping i h => exact holds_markWithdraw i s
  | keepWarm m => exact holds_setKeepWarm m s
  | zoom p h => exact .of_same rfl rfl rfl rfl
  | start st h => exact holds_startStream h
  | halt st => exact holds_stopStream st s
  | trigger st => exact holds_triggerStream st s
  | confirmStart i h => exact holds_enterWarming h
  | refuseStart i code h => exact holds_refuseStart i code s
  | confirmStop i h => exact holds_confirmStop h
  | hold i h => exact holds_enterHeld i s
  | release i h => exact holds_enterOff (SourceState.rest_iff.mpr (by simp [h]))
  | declareFault i h => exact holds_enterFaulted i .moduleFault s

/-- A step is a move and changes that nobody sees, or RESET_N going low. -/
theorem step_preserves (hl : LiveOk s) (hd : DeadlinesOk s) (e : step s = .next t) : Holds s t := by
  obtain ⟨q, hact | ⟨o, -, rfl⟩⟩ := step_acts e
  · obtain ⟨u, hmove, hquiet⟩ := hact
    have htaken : Holds s { s with pending := q } := .of_same rfl rfl rfl rfl
    exact htaken.trans ((hmove.preserves ⟨hl, hd⟩).trans hquiet.preserves)
  · exact holds_reset rfl rfl rfl rfl

/-- Settles O7: what the steps keep of the pool. -/
theorem poolStaysWhole : Obligations.PoolStaysWhole := by
  unfold Obligations.PoolStaysWhole
  intro s t ⟨hl, hd, hpool⟩ e
  exact whole_iff.mp (step_preserves hl hd e (whole_iff.mpr hpool)).1

/-- Settles O9: what the steps keep of the frames in the pool. -/
theorem framesStayNameable : Obligations.FramesStayNameable := by
  unfold Obligations.FramesStayNameable
  intro s t ⟨hl, hd, hc, hb, hp, hf⟩ e
  exact (step_preserves hl hd e (whole_iff.mpr ⟨hc, hb, hp⟩)).2 hf

end Sys2Proof.Machine
end
